-- ==== Sys2Proof/Word.lean ====
section
/-! DEFINITION. The word types of the KODA core codec block: bytes of the two buffers, 32-bit registers and
command words, and the 64-bit accumulator, window and code values (spec/00_scope.md R8, R11). -/

namespace Sys2Proof

/-- One byte of IBUF or OBUF (spec/20_memory.md R60). -/
abbrev Byte := BitVec 8

/-- A register, argument or command word: `WORD_BITS = 32` (spec/00_scope.md R8). -/
abbrev Word := BitVec 32

/-- The writer's accumulator, the reader's window and a Huffman code value: `ACC_BITS = WIN_BITS = 64` (R8, R40). -/
abbrev DWord := BitVec 64

end Sys2Proof
end

