-- ==== Sys2Proof/Syntax.lean ====
section
/-! DEFINITION. The syntax of KCB-CMD version 1: one constructor of `Instr` for each row of spec/opcode_table.json
(spec/30_encoding.md R83). Fields `n`, `t` and `b` are naturals, so that a term may hold a value its encoding field
cannot (`Instr.wellFormed` refuses those); `g` and `w` have exactly two values each. -/

namespace Sys2Proof

/-- Granularity `G` of a stream (spec/41_bitstream.md R102): byte mode (8 bits) or word mode (32 bits). -/
inductive Gran where
  | byte
  | word
deriving DecidableEq, Repr

/-- A KCB command with the fields its row uses (spec/30_encoding.md R82, R83). -/
inductive Instr where
  /-- `NOP` (R114). -/
  | nop
  /-- `BW_INIT g` (R115). -/
  | bwInit (g : Gran)
  /-- `BW_WRITE n` (R116). -/
  | bwWrite (n : Nat)
  /-- `BW_FINISH` (R117). -/
  | bwFinish
  /-- `BR_INIT g` (R118). -/
  | brInit (g : Gran)
  /-- `BR_READ n` (R119). -/
  | brRead (n : Nat)
  /-- `BR_REMAIN` (R120). -/
  | brRemain
  /-- `CB_QUERY t, b` (R150). -/
  | cbQuery (t b : Nat)
  /-- `RLE_ENCRUN t` (R151). -/
  | rleEncrun (t : Nat)
  /-- `RLE_DECRUN t` (R152). -/
  | rleDecrun (t : Nat)
  /-- `RLE_ENCPLANE t` (R153). -/
  | rleEncplane (t : Nat)
  /-- `RLE_DECPLANE` (R154). -/
  | rleDecplane
  /-- `RLE_BEST` (R155). -/
  | rleBest
  /-- `HUF_HIST w` (R191). -/
  | hufHist (w : Bool)
  /-- `HUF_HISTRD` (R192). -/
  | hufHistrd
  /-- `HUF_TREE` (R196). -/
  | hufTree
  /-- `HUF_CODES` (R201). -/
  | hufCodes
  /-- `HUF_CANON` (R203). -/
  | hufCanon
  /-- `HUF_TABRD` (R204). -/
  | hufTabrd
  /-- `HUF_ENC w` (R237). -/
  | hufEnc (w : Bool)
  /-- `HUF_DEC` (R238). -/
  | hufDec
deriving DecidableEq, Repr

end Sys2Proof
end

