-- ==== Sys2Proof/WellFormed.lean ====
section
/-! DEFINITION. When a term of `Instr` can be encoded: each field fits its bits of the command word
(spec/30_encoding.md R80, and R89: the assembler refuses 'a value the field cannot hold in its bits' and accepts values
the field holds but the command refuses at run time). -/

namespace Sys2Proof

/-- Every field of the command fits its bits: `N` in 6, `T` and `B` in 3 (spec/30_encoding.md R80, R89). -/
def Instr.wellFormed : Instr → Bool
  | .nop => true
  | .bwInit _ => true
  | .bwWrite n => decide (n < 64)
  | .bwFinish => true
  | .brInit _ => true
  | .brRead n => decide (n < 64)
  | .brRemain => true
  | .cbQuery t b => decide (t < 8) && decide (b < 8)
  | .rleEncrun t => decide (t < 8)
  | .rleDecrun t => decide (t < 8)
  | .rleEncplane t => decide (t < 8)
  | .rleDecplane => true
  | .rleBest => true
  | .hufHist _ => true
  | .hufHistrd => true
  | .hufTree => true
  | .hufCodes => true
  | .hufCanon => true
  | .hufTabrd => true
  | .hufEnc _ => true
  | .hufDec => true

end Sys2Proof
end

