-- ==== Sys2Proof/Decode.lean ====
section
/-! DEFINITION. The decoder of command words, total on all 2^32 words and rejecting by name
(spec/30_encoding.md R80 to R86), then the encoder (R89), the opcode table as data (R83, R84), and the assembler's
checks on a command line (R89). -/

namespace Sys2Proof

/-- Why a word is no command (spec/30_encoding.md R85); each of the three is ILLEGAL_COMMAND when executed. -/
inductive DecodeError where
  /-- No row of R83 has this `OP` byte. -/
  | reservedOpcode
  /-- A reserved bit 31:22 is set. -/
  | reservedBits
  /-- A field the command does not use is not 0. -/
  | unusedField
deriving DecidableEq, Repr

/-- `c[lo + width - 1 : lo]` as a natural (spec/30_encoding.md R81: fields are taken straight from their bits). -/
def field (c : Word) (lo width : Nat) : Nat := (c.extractLsb' lo width).toNat

/-- `G = (c[20] = 1 ? 32 : 8)` (spec/30_encoding.md R81). -/
def fieldG (c : Word) : Gran := if c.getLsbD 20 then .word else .byte

/-- `W = c[21]` (spec/30_encoding.md R81). -/
def fieldW (c : Word) : Bool := c.getLsbD 21

/-- Accept `i` when `c & mask = match` (spec/30_encoding.md R84), else say what is wrong (R85). -/
def matchRow (c mask mtch : Word) (i : Instr) : Except DecodeError Instr :=
  if c &&& mask = mtch then .ok i
  else if field c 22 10 ≠ 0 then .error .reservedBits
  else .error .unusedField

/-- The decoder (spec/30_encoding.md R83, R84): the `OP` byte picks the row, the row's mask and match decide. -/
def decode (c : Word) : Except DecodeError Instr :=
  match field c 0 8 with
  | 0x00 => matchRow c 0xFFFFFFFF 0x00 .nop
  | 0x01 => matchRow c 0xFFEFFFFF 0x01 (.bwInit (fieldG c))
  | 0x02 => matchRow c 0xFFFFC0FF 0x02 (.bwWrite (field c 8 6))
  | 0x03 => matchRow c 0xFFFFFFFF 0x03 .bwFinish
  | 0x04 => matchRow c 0xFFEFFFFF 0x04 (.brInit (fieldG c))
  | 0x05 => matchRow c 0xFFFFC0FF 0x05 (.brRead (field c 8 6))
  | 0x06 => matchRow c 0xFFFFFFFF 0x06 .brRemain
  | 0x10 => matchRow c 0xFFF03FFF 0x10 (.cbQuery (field c 14 3) (field c 17 3))
  | 0x11 => matchRow c 0xFFFE3FFF 0x11 (.rleEncrun (field c 14 3))
  | 0x12 => matchRow c 0xFFFE3FFF 0x12 (.rleDecrun (field c 14 3))
  | 0x13 => matchRow c 0xFFFE3FFF 0x13 (.rleEncplane (field c 14 3))
  | 0x14 => matchRow c 0xFFFFFFFF 0x14 .rleDecplane
  | 0x15 => matchRow c 0xFFFFFFFF 0x15 .rleBest
  | 0x20 => matchRow c 0xFFDFFFFF 0x20 (.hufHist (fieldW c))
  | 0x21 => matchRow c 0xFFFFFFFF 0x21 .hufHistrd
  | 0x22 => matchRow c 0xFFFFFFFF 0x22 .hufTree
  | 0x23 => matchRow c 0xFFFFFFFF 0x23 .hufCodes
  | 0x24 => matchRow c 0xFFFFFFFF 0x24 .hufCanon
  | 0x25 => matchRow c 0xFFFFFFFF 0x25 .hufTabrd
  | 0x26 => matchRow c 0xFFDFFFFF 0x26 (.hufEnc (fieldW c))
  | 0x27 => matchRow c 0xFFFFFFFF 0x27 .hufDec
  | _ => .error .reservedOpcode

/-- The instruction the decoder reads from a table row's bits `w`: one 32-bit word (spec/30_encoding.md R88), its bits
above `nbits` zero. -/
def decodeTableWord (nbits w : Nat) : Option Instr :=
  match decode (BitVec.ofNat 32 (w % 2 ^ nbits)) with
  | .ok i => some i
  | .error _ => none

/-- `OP | N<<8 | T<<14 | B<<17 | G<<20 | W<<21` (spec/30_encoding.md R89). -/
def assembleWord (op n t b g w : Nat) : Word :=
  BitVec.ofNat 32 op ||| BitVec.ofNat 32 n <<< 8 ||| BitVec.ofNat 32 t <<< 14 ||| BitVec.ofNat 32 b <<< 17
    ||| BitVec.ofNat 32 g <<< 20 ||| BitVec.ofNat 32 w <<< 21

/-- The `G` bit: 0 byte mode, 1 word mode (spec/30_encoding.md R80). -/
def granBit : Gran → Nat
  | .byte => 0
  | .word => 1

/-- The encoder: the command word of a well-formed command (spec/30_encoding.md R83, R89). -/
def encode : Instr → Word
  | .nop => assembleWord 0x00 0 0 0 0 0
  | .bwInit g => assembleWord 0x01 0 0 0 (granBit g) 0
  | .bwWrite n => assembleWord 0x02 n 0 0 0 0
  | .bwFinish => assembleWord 0x03 0 0 0 0 0
  | .brInit g => assembleWord 0x04 0 0 0 (granBit g) 0
  | .brRead n => assembleWord 0x05 n 0 0 0 0
  | .brRemain => assembleWord 0x06 0 0 0 0 0
  | .cbQuery t b => assembleWord 0x10 0 t b 0 0
  | .rleEncrun t => assembleWord 0x11 0 t 0 0 0
  | .rleDecrun t => assembleWord 0x12 0 t 0 0 0
  | .rleEncplane t => assembleWord 0x13 0 t 0 0 0
  | .rleDecplane => assembleWord 0x14 0 0 0 0 0
  | .rleBest => assembleWord 0x15 0 0 0 0 0
  | .hufHist w => assembleWord 0x20 0 0 0 0 w.toNat
  | .hufHistrd => assembleWord 0x21 0 0 0 0 0
  | .hufTree => assembleWord 0x22 0 0 0 0 0
  | .hufCodes => assembleWord 0x23 0 0 0 0 0
  | .hufCanon => assembleWord 0x24 0 0 0 0 0
  | .hufTabrd => assembleWord 0x25 0 0 0 0 0
  | .hufEnc w => assembleWord 0x26 0 0 0 0 w.toNat
  | .hufDec => assembleWord 0x27 0 0 0 0 0

/-- One row of the opcode map: mnemonic, opcode, and which of the fields `N T B G W` it uses
(spec/30_encoding.md R82, R83). -/
structure OpRow where
  mnemonic : String
  op : Nat
  usesN : Bool := false
  usesT : Bool := false
  usesB : Bool := false
  usesG : Bool := false
  usesW : Bool := false
deriving DecidableEq, Repr

/-- The opcode map (spec/30_encoding.md R82, R83). -/
def opTable : List OpRow := [
  { mnemonic := "NOP", op := 0x00 },
  { mnemonic := "BW_INIT", op := 0x01, usesG := true },
  { mnemonic := "BW_WRITE", op := 0x02, usesN := true },
  { mnemonic := "BW_FINISH", op := 0x03 },
  { mnemonic := "BR_INIT", op := 0x04, usesG := true },
  { mnemonic := "BR_READ", op := 0x05, usesN := true },
  { mnemonic := "BR_REMAIN", op := 0x06 },
  { mnemonic := "CB_QUERY", op := 0x10, usesT := true, usesB := true },
  { mnemonic := "RLE_ENCRUN", op := 0x11, usesT := true },
  { mnemonic := "RLE_DECRUN", op := 0x12, usesT := true },
  { mnemonic := "RLE_ENCPLANE", op := 0x13, usesT := true },
  { mnemonic := "RLE_DECPLANE", op := 0x14 },
  { mnemonic := "RLE_BEST", op := 0x15 },
  { mnemonic := "HUF_HIST", op := 0x20, usesW := true },
  { mnemonic := "HUF_HISTRD", op := 0x21 },
  { mnemonic := "HUF_TREE", op := 0x22 },
  { mnemonic := "HUF_CODES", op := 0x23 },
  { mnemonic := "HUF_CANON", op := 0x24 },
  { mnemonic := "HUF_TABRD", op := 0x25 },
  { mnemonic := "HUF_ENC", op := 0x26, usesW := true },
  { mnemonic := "HUF_DEC", op := 0x27 }]

/-- The mask of a row: all ones with the bits of the fields it uses cleared (spec/30_encoding.md R84). -/
def OpRow.mask (r : OpRow) : Word :=
  ~~~ (assembleWord 0 (if r.usesN then 63 else 0) (if r.usesT then 7 else 0) (if r.usesB then 7 else 0)
    (if r.usesG then 1 else 0) (if r.usesW then 1 else 0))

/-- One command of the assembler's syntax (spec/30_encoding.md R89): a mnemonic and the fields that are written. -/
structure AsmLine where
  mnemonic : String
  n : Option Nat := none
  t : Option Nat := none
  b : Option Nat := none
  g : Option Nat := none
  w : Option Nat := none
deriving DecidableEq, Repr

/-- A written field must be one the command uses and fit its bits; an omitted field is 0 (spec/30_encoding.md R89). -/
def asmField (uses : Bool) (bits : Nat) : Option Nat → Option Nat
  | none => some 0
  | some v => if uses ∧ v < 2 ^ bits then some v else none

/-- The assembler (spec/30_encoding.md R89): the command word of a line, or `none` where it refuses the line. -/
def assemble (l : AsmLine) : Option Word :=
  match opTable.find? (fun r => r.mnemonic == l.mnemonic) with
  | none => none
  | some r =>
    match asmField r.usesN 6 l.n, asmField r.usesT 3 l.t, asmField r.usesB 3 l.b, asmField r.usesG 1 l.g,
        asmField r.usesW 1 l.w with
    | some n, some t, some b, some g, some w => some (assembleWord r.op n t b g w)
    | _, _, _, _, _ => none

end Sys2Proof
end

