-- ==== Sys2Proof/Config.lean ====
section
/-! DEFINITION. What one KCB fixes: the open parameters of spec/00_scope.md R9 with the codebook ROM
(spec/10_state.md R42), the reference configuration R10, and the free values of the model (constants with no body,
which nothing can evaluate). -/

namespace Sys2Proof

/-- The open parameters (spec/00_scope.md R9): the buffer sizes and the codebook ROM, six types of seven buckets
(spec/42_rle.md R140). Which values are legal is R9 and R141 (`Machine.configLegal`). -/
structure Config where
  /-- `IBUF_BYTES`. -/
  ibufBytes : Nat
  /-- `OBUF_BYTES`. -/
  obufBytes : Nat
  /-- `CB_PREFIX_BITS[i]`. -/
  cbPrefixBits : Vector Nat 7
  /-- `CB_PREFIX_PAT[i]`. -/
  cbPrefixPat : Vector Nat 7
  /-- `CB_PAYLOAD[t][i]`. -/
  cbPayload : Vector (Vector Nat 7) 6
deriving DecidableEq, Repr

/-- The reference configuration `REFCFG` (spec/00_scope.md R10). DESIGN CHOICE of the spec for its test vectors, and
of this model for `State.reset` (notes/assumptions/1.md). -/
def Config.refcfg : Config where
  ibufBytes := 2 ^ 20
  obufBytes := 2 ^ 20
  cbPrefixBits := #v[1, 2, 3, 4, 5, 6, 6]
  cbPrefixPat := #v[0b0, 0b10, 0b110, 0b1110, 0b11110, 0b111110, 0b111111]
  cbPayload := #v[
    #v[1, 2, 3, 4, 5, 6, 25],
    #v[0, 1, 2, 3, 4, 8, 25],
    #v[0, 0, 1, 2, 4, 8, 25],
    #v[2, 3, 4, 5, 6, 8, 25],
    #v[3, 4, 5, 6, 7, 8, 25],
    #v[4, 6, 8, 10, 12, 14, 25]]

/-- FREE VALUE (spec/93_implementation_defined.md I4; notes/assumptions/8.md): how many host accesses fall between the
acceptance of a command and the sequencer's step, at the `k`-th draw. -/
opaque Config.completionDelay (k : Nat) : Nat

/-- FREE VALUE (spec/93_implementation_defined.md I3; notes/assumptions/4.md): what an IBUF byte that nothing has
written since power-on holds, by generation and address. -/
opaque Config.freeIbufByte (generation address : Nat) : Byte

/-- FREE VALUE (spec/93_implementation_defined.md I2, I3; notes/assumptions/4.md and 5.md): what an OBUF byte holds
that nothing has written since power-on, or that an aborted command would have written, by generation and address. -/
opaque Config.freeObufByte (generation address : Nat) : Byte

end Sys2Proof
end

