-- ==== Sys2Proof/Machine/Codebook.lean ====
section
/-! DEFINITION. The codebook ROM's derived ranges and the legality of a configuration (spec/42_rle.md R140 to R142,
spec/00_scope.md R9). -/

namespace Sys2Proof.Machine

/-- `CB_PREFIX_BITS[i]` (spec/42_rle.md R140); 0 where there is no bucket `i`. -/
def prefixBits (c : Config) (i : Nat) : Nat := c.cbPrefixBits[i]?.getD 0

/-- `CB_PREFIX_PAT[i]` (spec/42_rle.md R140); 0 where there is no bucket `i`. -/
def prefixPat (c : Config) (i : Nat) : Nat := c.cbPrefixPat[i]?.getD 0

/-- `CB_PAYLOAD[t][i]` (spec/42_rle.md R140); 0 where there is no type `t` or bucket `i`. -/
def payloadBits (c : Config) (t i : Nat) : Nat := (c.cbPayload[t]?.getD (Vector.replicate 7 0))[i]?.getD 0

/-- `max[t][i]` (spec/42_rle.md R142, with `max[t][-1] = 0`). -/
def maxRun (c : Config) (t : Nat) : Nat → Nat
  | 0 => 2 ^ payloadBits c t 0
  | i + 1 => maxRun c t i + 2 ^ payloadBits c t (i + 1)

/-- `min[t][i]` (spec/42_rle.md R142). -/
def minRun (c : Config) (t : Nat) : Nat → Nat
  | 0 => 1
  | i + 1 => maxRun c t i + 1

/-- `M_t = max[t][6]`, the type's largest run length (spec/42_rle.md R142). -/
def longestRun (c : Config) (t : Nat) : Nat := maxRun c t 6

/-- The bits of a bucket's codeword: prefix and payload (spec/42_rle.md R144). -/
def codewordBits (c : Config) (t i : Nat) : Nat := prefixBits c i + payloadBits c t i

/-- The bucket indices 0..6 (spec/00_scope.md R8, `N_BUCKETS`). -/
def buckets : List Nat := [0, 1, 2, 3, 4, 5, 6]

/-- The codebook types 0..5 (spec/00_scope.md R8, `N_TYPES`). -/
def types : List Nat := [0, 1, 2, 3, 4, 5]

/-- The largest `CB_PREFIX_BITS[i]` (spec/42_rle.md R145). -/
def longestPrefix (c : Config) : Nat := buckets.foldl (fun m i => max m (prefixBits c i)) 0

/-- `1 <= IBUF_BYTES, OBUF_BYTES <= 2^28` (spec/00_scope.md R9). -/
def buffersLegal (c : Config) : Bool :=
  decide (1 ≤ c.ibufBytes) && decide (c.ibufBytes ≤ 2 ^ 28) && decide (1 ≤ c.obufBytes) && decide (c.obufBytes ≤ 2 ^ 28)

/-- Condition 1 of spec/42_rle.md R141. -/
def prefixesLegal (c : Config) : Bool :=
  buckets.all fun i =>
    decide (1 ≤ prefixBits c i) && decide (prefixBits c i ≤ 32) && decide (prefixPat c i < 2 ^ prefixBits c i)

/-- Condition 2 of spec/42_rle.md R141, with the range 0..31 of `CB_PAYLOAD` (spec/00_scope.md R9). -/
def payloadsLegal (c : Config) : Bool :=
  types.all fun t => buckets.all fun i => decide (payloadBits c t i ≤ 31) && decide (codewordBits c t i ≤ 32)

/-- Condition 3 of spec/42_rle.md R141: no prefix begins with another. -/
def prefixFree (c : Config) : Bool :=
  buckets.all fun i => buckets.all fun j =>
    decide (i = j) || decide (prefixBits c i < prefixBits c j)
      || decide (prefixPat c i >>> (prefixBits c i - prefixBits c j) ≠ prefixPat c j)

/-- Condition 4 of spec/42_rle.md R141. -/
def runsLegal (c : Config) : Bool := types.all fun t => decide (longestRun c t ≤ 2 ^ 32 - 1)

/-- A legal configuration (spec/00_scope.md R9, spec/42_rle.md R141). -/
def configLegal (c : Config) : Bool :=
  buffersLegal c && prefixesLegal c && payloadsLegal c && prefixFree c && runsLegal c

end Sys2Proof.Machine
end

