-- ==== Sys2Proof/Machine/State.lean ====
section
/-! DEFINITION. The state of the KCB as plain data (spec/10_state.md R20 to R46), the reasons a step can stop, and the
machine right after reset. Registers that are views of other state (`WSTAT`, `WPTR`, `WBITS`, `RSTAT`, `RPOS`, `HSTAT`,
`HLEAVES`) and the `IRQ` level have no storage: Machine/Flags.lean computes them. -/

namespace Sys2Proof.Machine

/-- A buffer's contents: (address, byte) pairs, addresses strictly rising. An address that is not listed has no value
the model names: nothing has written it since power-on (spec/20_memory.md R75; notes/assumptions/3.md, 4.md). -/
abbrev Memory := List Host.Cell

/-- Error codes (spec/60_exceptions.md R275), in the order of their numbers 0 to 9; no other code is ever written
(spec/93_implementation_defined.md I12). -/
inductive ErrorCode where
  | noError
  | unexpectedEof
  | corruptStream
  | runTooLong
  | illegalCommand
  | illegalArgument
  | sequenceError
  | bufferBounds
  | bufferOverflow
  | codeTooLong
deriving DecidableEq, Repr

/-- Writer states `W_ST` (spec/10_state.md R29, R36); the number 3 never occurs (I13). -/
inductive WriterSt where
  | idle
  | active
  | finished
deriving DecidableEq, Repr

/-- Reader states `R_ST` (spec/10_state.md R32, R37); the numbers 2 and 3 never occur (I13). -/
inductive ReaderSt where
  | idle
  | active
deriving DecidableEq, Repr

/-- The stored part of the host-visible registers `CTRL`, `ARG0..2`, `RES0..3`, `ERRPOS`, `ERRCMD`
(spec/10_state.md R22, R25 to R28). -/
structure Regs where
  ie : Bool
  arg0 : Word
  arg1 : Word
  arg2 : Word
  res0 : Word
  res1 : Word
  res2 : Word
  res3 : Word
  errpos : Word
  errcmd : Word
deriving DecidableEq, Repr

/-- The fields of `STATUS` (spec/10_state.md R23); its reserved bits read 0 and have no storage (I6). -/
structure Status where
  busy : Bool
  done : Bool
  err : Bool
  rej : Bool
  lockv : Bool
  errcode : ErrorCode
deriving DecidableEq, Repr

/-- The command latch `CMDL`, `ARGL0..2` (spec/10_state.md R43). -/
structure Latch where
  cmd : Word
  arg0 : Word
  arg1 : Word
  arg2 : Word
deriving DecidableEq, Repr

/-- Writer state: `W_ST`, `W_G`, `W_BASE`, `W_ACC`, `W_CNT`, `W_OUT`, `W_BITS` (spec/10_state.md R36). -/
structure Writer where
  st : WriterSt
  gran : Gran
  base : Nat
  acc : DWord
  cnt : Nat
  out : Nat
  bits : Nat
deriving DecidableEq, Repr

/-- Reader state: `R_ST`, `R_G`, `R_BASE`, `R_LEN`, `R_FETCH`, `R_WIN`, `R_CNT`, `R_POS` (spec/10_state.md R37). -/
structure Reader where
  st : ReaderSt
  gran : Gran
  base : Nat
  len : Nat
  fetch : Nat
  win : DWord
  cnt : Nat
  pos : Nat
deriving DecidableEq, Repr

/-- The writer with the only buffer it writes (spec/20_memory.md R62). -/
structure OutPort where
  wr : Writer
  obuf : Memory
deriving DecidableEq, Repr

/-- The reader with the only buffer it reads (spec/20_memory.md R61). -/
structure InPort where
  rd : Reader
  ibuf : Memory
deriving DecidableEq, Repr

/-- A Huffman symbol (spec/00_scope.md R14): the sentinel `SENT` or an ordinary symbol 0..65535. -/
inductive Sym where
  | sent
  | ord (value : Nat)
deriving DecidableEq, Repr

/-- A Huffman tree (spec/10_state.md R39): `Leaf(weight, symbol)` and `Interior(weight, left, right)`. -/
inductive HuffTree where
  | leaf (weight : Nat) (sym : Sym)
  | interior (weight : Nat) (left right : HuffTree)
deriving DecidableEq, Repr

/-- One entry `(sym, len, code)` of `CTAB` (spec/10_state.md R40). -/
structure Entry where
  sym : Sym
  len : Nat
  code : DWord
deriving DecidableEq, Repr

/-- The Huffman unit (spec/10_state.md R38 to R41). `hist` lists the symbols with a nonzero count by rising symbol;
every other `HIST[s]` is 0. `tree` is `TREE`, `none` for NONE. -/
structure Huffman where
  hist : List (Nat × Nat)
  nsym : Nat
  tree : Option HuffTree
  ctab : List Entry
  histV : Bool
  treeV : Bool
  codesV : Bool
  canonV : Bool
  wide : Bool
  trailp : Bool
  trailb : Byte
  k : Nat
deriving DecidableEq, Repr

/-- Which of the two buffers a host access names (spec/20_memory.md R60). -/
inductive Buffer where
  | ibuf
  | obuf
deriving DecidableEq, Repr

/-- One access of the host agent (spec/00_scope.md R5, spec/30_encoding.md R90). -/
inductive HostAction where
  /-- A 32-bit register write at a byte offset (`SET`, `CMD`; R20). -/
  | regWrite (offset : BitVec 8) (value : Word)
  /-- A 32-bit register read at a byte offset (`GET`; R20). -/
  | regRead (offset : BitVec 8)
  /-- A one-byte buffer write (`PUTB`; R63). -/
  | bufWrite (buf : Buffer) (address : Nat) (value : Byte)
  /-- A one-byte buffer read (`GETB`; R63). -/
  | bufRead (buf : Buffer) (address : Nat)
  /-- `WAIT`: read `STATUS` until `BUSY = 0` (R90). -/
  | wait
  /-- Power-on reset (spec/70_reset_and_hazards.md R300). -/
  | powerOn
deriving DecidableEq, Repr

/-- What one host read returned (spec/30_encoding.md R90). -/
inductive HostReply where
  | word (value : Word)
  | byte (value : Byte)
deriving DecidableEq, Repr

/-- The MODEL's own fields (no register of the spec; notes/assumptions/7.md, 8.md, 18.md): the host's pending accesses
and the replies so far (oldest first), how many accesses still pass before the sequencer's step, the counter of draws
from the free values, and the generations of the unwritten bytes of the two buffers (each a draw already taken, so below
`draws`). -/
structure Env where
  pending : List HostAction
  replies : List HostReply
  delay : Nat
  draws : Nat
  ibufGen : Nat
  obufGen : Nat
deriving DecidableEq, Repr

/-- The whole machine. -/
structure State where
  /-- Parameters and codebook ROM (spec/00_scope.md R9, spec/10_state.md R42). -/
  cfg : Config
  regs : Regs
  status : Status
  latch : Latch
  out : OutPort
  inp : InPort
  huf : Huffman
  env : Env
deriving DecidableEq, Repr

/-- The one fault of the model. -/
inductive Fault where
  /-- A command read IBUF byte `address`, which nothing has written since power-on (spec/20_memory.md R75,
  spec/93_implementation_defined.md I3: 'a model treats it as a fault'). Raised by every command that reads IBUF
  (R64). Safe: the hardware goes on with an unspecified value, the model proves nothing past it. -/
  | unwrittenIbuf (address : Nat)
deriving DecidableEq, Repr

/-- Why the model gives a step no meaning. -/
inductive Refusal where
  /-- An instruction the model gives no meaning. Raised by refused arms of `exec` only (there is none). Safe. -/
  | notModelled (mnemonic : String)
  /-- The configuration breaks spec/00_scope.md R9 or spec/42_rle.md R141 ('a model refuses any other
  configuration'). Raised by `step`. Safe: no KCB has such a configuration. -/
  | illegalConfiguration
deriving DecidableEq, Repr

/-- Outcome of a step of this machine. -/
abbrev Result := Host.Outcome State Fault Refusal

/-- Writer after reset (spec/10_state.md R46). -/
def Writer.reset : Writer where
  st := .idle
  gran := .byte
  base := 0
  acc := 0
  cnt := 0
  out := 0
  bits := 0

/-- Reader after reset (spec/10_state.md R46). -/
def Reader.reset : Reader where
  st := .idle
  gran := .byte
  base := 0
  len := 0
  fetch := 0
  win := 0
  cnt := 0
  pos := 0

/-- Registers after reset (spec/10_state.md R46). -/
def Regs.reset : Regs where
  ie := false
  arg0 := 0
  arg1 := 0
  arg2 := 0
  res0 := 0
  res1 := 0
  res2 := 0
  res3 := 0
  errpos := 0
  errcmd := 0

/-- `STATUS` after reset (spec/10_state.md R46). -/
def Status.reset : Status where
  busy := false
  done := false
  err := false
  rej := false
  lockv := false
  errcode := .noError

/-- Command latch after reset (spec/10_state.md R46). -/
def Latch.reset : Latch where
  cmd := 0
  arg0 := 0
  arg1 := 0
  arg2 := 0

/-- Huffman unit after reset with given `HIST` and `H_NSYM` (spec/10_state.md R46: a soft reset keeps the two, a
power-on reset leaves them unspecified). -/
def Huffman.reset (hist : List (Nat × Nat)) (nsym : Nat) : Huffman where
  hist := hist
  nsym := nsym
  tree := none
  ctab := []
  histV := false
  treeV := false
  codesV := false
  canonV := false
  wide := false
  trailp := false
  trailb := 0
  k := 0

/-- The machine right after power-on reset (spec/10_state.md R46, spec/70_reset_and_hazards.md R300). DESIGN CHOICE:
the reference configuration (notes/assumptions/1.md), all-zero `HIST` and `H_NSYM` (6.md), the model's own fields
(18.md): the unwritten bytes have generation 0 (4.md), and the next draw is 1, so that no later reset or abort reuses
theirs. -/
def State.reset : State where
  cfg := Config.refcfg
  regs := Regs.reset
  status := Status.reset
  latch := Latch.reset
  out := { wr := Writer.reset, obuf := [] }
  inp := { rd := Reader.reset, ibuf := [] }
  huf := Huffman.reset [] 0
  env := { pending := [], replies := [], delay := 0, draws := 1, ibufGen := 0, obufGen := 0 }

end Sys2Proof.Machine
end

