-- ==== Sys2Proof/Machine/Ops.lean ====
section
/-! DEFINITION. The operations every command shares: buffer bytes, raising an error, the writer and reader primitives
(spec/41_bitstream.md R105 to R113), output bytes of the plane and Huffman decoders, completion with and without error
(spec/60_exceptions.md R272 to R280). A command body is an `EStateM` action: an error carries the state in which the
command stopped, because bytes already written stay written (R278). The writer's actions run over `OutPort` and the
reader's over `Reader`, so that neither can touch anything else. -/

namespace Sys2Proof.Machine

/-! ## Buffers -/

/-- Byte `a` of a buffer, `none` where nothing has written it (spec/20_memory.md R60, R75). -/
def Memory.read : Memory → Nat → Option Byte
  | [], _ => none
  | (k, v) :: m, a => if k = a then some v else Memory.read m a

/-- Write byte `a` of a buffer, keeping the addresses strictly rising. -/
def Memory.write : Memory → Nat → Byte → Memory
  | [], a, b => [(a, b)]
  | (k, v) :: m, a, b =>
    if a < k then (a, b) :: (k, v) :: m
    else if a = k then (k, b) :: m
    else (k, v) :: Memory.write m a b

/-- Write bytes at consecutive addresses from `a`. -/
def Memory.writeList (m : Memory) (a : Nat) : List Byte → Memory
  | [] => m
  | b :: bs => Memory.writeList (Memory.write m a b) (a + 1) bs

/-- The canonical form: addresses strictly rising (no entry equals what an unlisted address reads as, since that is no
value at all). -/
def Memory.wf : Memory → Bool
  | [] => true
  | [_] => true
  | (k, _) :: (k', v') :: m => decide (k < k') && Memory.wf ((k', v') :: m)

/-! ## Errors inside a command -/

/-- Why a command body stops early: an error of spec/60_exceptions.md R275 at a position, or the model's fault. -/
inductive Stop where
  | raised (e : ErrorCode) (pos : Nat)
  | stuck (f : Fault)
deriving DecidableEq, Repr

/-- An action over a part `σ` of the state. -/
abbrev Act (σ α : Type) := EStateM Stop σ α

/-- `raise E(pos)` (spec/00_scope.md R13): nothing after it runs. -/
def raiseError {σ α : Type} (e : ErrorCode) (pos : Nat) : Act σ α := throw (.raised e pos)

/-- `if not ok: raise E(pos)`. -/
def require {σ : Type} (ok : Prop) [Decidable ok] (e : ErrorCode) (pos : Nat) : Act σ Unit :=
  if ok then pure () else raiseError e pos

/-- `IBUF[a]` read by a command: a byte nothing has written is the model's fault (spec/20_memory.md R75, I3). -/
def ibufByte {σ : Type} (ibuf : Memory) (a : Nat) : Act σ Byte :=
  match ibuf.read a with
  | some b => pure b
  | none => throw (.stuck (.unwrittenIbuf a))

/-- `MemRead(IBUF, a, n)` (spec/00_scope.md R13), the lowest address first. -/
def ibufBytes {σ : Type} (ibuf : Memory) : Nat → Nat → Act σ (List Byte)
  | _, 0 => pure []
  | a, n + 1 => do
    let b ← ibufByte ibuf a
    let bs ← ibufBytes ibuf (a + 1) n
    return b :: bs

/-- Bytes as a little-endian natural (spec/20_memory.md R67: RLE words and header fields). -/
def littleEndian : List Byte → Nat
  | [] => 0
  | b :: bs => b.toNat + 256 * littleEndian bs

/-- The `n` bytes of a natural, little-endian (spec/20_memory.md R67). -/
def littleEndianBytes (v : Nat) : Nat → List Byte
  | 0 => []
  | n + 1 => BitVec.ofNat 8 v :: littleEndianBytes (v / 256) n

/-! ## The writer (spec/41_bitstream.md R105 to R109) -/

/-- `G` in bits (spec/41_bitstream.md R102). -/
def granBits : Gran → Nat
  | .byte => 8
  | .word => 32

/-- `mask(n)` on 64 bits (spec/00_scope.md R11). -/
def mask64 (n : Nat) : DWord := (1#64 <<< n) - 1#64

/-- `wr_init(base, G)` (R105): from any writer state, pending bits discarded. -/
def wrInit (base : Nat) (g : Gran) : Act OutPort Unit :=
  modify fun o => { o with wr :=
    { st := .active, gran := g, base := base, acc := 0, cnt := 0, out := 0, bits := 0 } }

/-- The bytes one unit `u` is stored as (R104, R107): one byte, or a word little-endian. -/
def unitBytes (g : Gran) (u : DWord) : List Byte := littleEndianBytes u.toNat (granBits g / 8)

/-- `emit(u)` (R107): a unit is written whole or not at all. -/
def emit (cap : Nat) (u : DWord) : Act OutPort Unit := do
  let o ← get
  let m := granBits o.wr.gran / 8
  let a := o.wr.base + o.wr.out
  require (a + m ≤ cap) .bufferOverflow a
  set ({ wr := { o.wr with out := o.wr.out + m }, obuf := o.obuf.writeList a (unitBytes o.wr.gran u) } : OutPort)

/-- `n` turns of the loop of `wr_bits` (R106): emit the oldest pending unit and drop it. -/
def emitUnits (cap : Nat) : Nat → Act OutPort Unit
  | 0 => pure ()
  | n + 1 => do
    let o ← get
    let g := granBits o.wr.gran
    emit cap ((o.wr.acc >>> (o.wr.cnt - g)) &&& mask64 g)
    modify fun o => { o with wr :=
      { o.wr with cnt := o.wr.cnt - g, acc := o.wr.acc &&& mask64 (o.wr.cnt - g) } }
    emitUnits cap n

/-- `wr_bits(v, n)` (R106). The loop 'while W_CNT >= W_G' takes `W_CNT / W_G` turns. -/
def wrBits (cap : Nat) (v : Word) (n : Nat) : Act OutPort Unit := do
  modify fun o => { o with wr :=
    { o.wr with
      acc := (o.wr.acc <<< n) ||| (v.setWidth 64 &&& mask64 n)
      cnt := o.wr.cnt + n
      bits := o.wr.bits + n } }
  let o ← get
  emitUnits cap (o.wr.cnt / granBits o.wr.gran)

/-- `wr_finish()` (R108): zero-pad the pending bits to a unit, emit it, end the stream; returns `W_OUT`. -/
def wrFinish (cap : Nat) : Act OutPort Nat := do
  let o ← get
  let g := granBits o.wr.gran
  if 0 < o.wr.cnt then
    emit cap ((o.wr.acc <<< (g - o.wr.cnt)) &&& mask64 g)
    modify fun o => { o with wr := { o.wr with cnt := 0, acc := 0 } }
  modify fun o => { o with wr := { o.wr with st := .finished } }
  let o ← get
  return o.wr.out

/-- `wr_long(v, n)` (R109): a code of up to 64 bits, as at most two `wr_bits`. -/
def wrLong (cap : Nat) (v : DWord) (n : Nat) : Act OutPort Unit :=
  if 32 < n then do
    wrBits cap (((v >>> 32) &&& mask64 (n - 32)).setWidth 32) (n - 32)
    wrBits cap (v.setWidth 32) 32
  else
    wrBits cap (v.setWidth 32) n

/-! ## The reader (spec/41_bitstream.md R110 to R113) -/

/-- `rd_init(base, len, G)` (R113). -/
def rdInit (base len : Nat) (g : Gran) : Act Reader Unit :=
  set ({ st := .active, gran := g, base := base, len := len, fetch := 0, win := 0, cnt := 0, pos := 0 } : Reader)

/-- `refill()` (R110) with at most `n` units to fetch. -/
def refillUnits (ibuf : Memory) : Nat → Act Reader Unit
  | 0 => pure ()
  | n + 1 => do
    let r ← get
    if r.cnt < 32 ∧ r.fetch < r.len then
      let g := granBits r.gran
      let bs ← ibufBytes ibuf (r.base + r.fetch) (g / 8)
      set { r with
        win := r.win ||| (BitVec.ofNat 64 (littleEndian bs) <<< (64 - r.cnt - g))
        cnt := r.cnt + g
        fetch := r.fetch + g / 8 }
      refillUnits ibuf n
    else
      pure ()

/-- `refill()` (R110): four bytes or one word lift `R_CNT` from 0 to 32, so four turns are the whole loop. -/
def refill (ibuf : Memory) : Act Reader Unit := refillUnits ibuf 4

/-- `R_WIN[63:64-n]`, the next `n` bits, 0 for `n = 0` (R111, R112). -/
def Reader.top (r : Reader) (n : Nat) : Nat := (r.win >>> (64 - n)).toNat

/-- The bit address `8*R_BASE + R_POS` of the next unconsumed bit (spec/60_exceptions.md R276). -/
def Reader.bitAddress (r : Reader) : Nat := 8 * r.base + r.pos

/-- `rd_avail()` (R113): the bits not yet consumed. -/
def Reader.avail (r : Reader) : Nat := r.cnt + 8 * (r.len - r.fetch)

/-- `rd_bits(n)` (R111): a failing read consumes nothing. -/
def rdBits (ibuf : Memory) (n : Nat) : Act Reader Nat := do
  refill ibuf
  let r ← get
  require (n ≤ r.cnt) .unexpectedEof r.bitAddress
  set { r with win := r.win <<< n, cnt := r.cnt - n, pos := r.pos + n }
  return r.top n

/-- `rd_peek(n)` (R112): bits past the end of the input read as 0. -/
def rdPeek (ibuf : Memory) (n : Nat) : Act Reader Nat := do
  refill ibuf
  let r ← get
  return r.top n

/-! ## Actions on the whole state -/

/-- Run a writer action on the state's output port. -/
def onOut {α : Type} (x : Act OutPort α) : Act State α := fun s =>
  match x s.out with
  | .ok a o => .ok a { s with out := o }
  | .error e o => .error e { s with out := o }

/-- Run a reader action on the state's reader, given IBUF. -/
def onReader {α : Type} (x : Memory → Act Reader α) : Act State α := fun s =>
  match x s.inp.ibuf s.inp.rd with
  | .ok a r => .ok a { s with inp := { s.inp with rd := r } }
  | .error e r => .error e { s with inp := { s.inp with rd := r } }

/-- Change the Huffman unit. -/
def onHuf (f : Huffman → Huffman) : Act State Unit := modify fun s => { s with huf := f s.huf }

/-- Write bytes to OBUF from address `a`, after the bound check of spec/20_memory.md R65: all of them or none
(`put` of spec/44_huffman_codec.md R236; one byte of spec/42_rle.md R154). -/
def putBytes (a : Nat) (bs : List Byte) : Act State Unit := do
  let s ← get
  require (a + bs.length ≤ s.cfg.obufBytes) .bufferOverflow a
  set { s with out := { s.out with obuf := s.out.obuf.writeList a bs } }

/-- Write OBUF bytes whose room the command has already checked (the RLE header, spec/42_rle.md R153). -/
def storeBytes (a : Nat) (bs : List Byte) : Act State Unit :=
  modify fun s => { s with out := { s.out with obuf := s.out.obuf.writeList a bs } }

/-- The bound check of an IBUF range (spec/20_memory.md R65). -/
def requireIbuf (a n : Nat) : Act State Unit := do
  let s ← get
  require (a + n ≤ s.cfg.ibufBytes) .bufferBounds 0

/-- The bound check of an OBUF base (spec/20_memory.md R65). -/
def requireObuf (a : Nat) : Act State Unit := do
  let s ← get
  require (a ≤ s.cfg.obufBytes) .bufferBounds 0

/-! ## Completion (spec/60_exceptions.md R274 to R280) -/

/-- `result(RES0 = .., ..)` (spec/00_scope.md R13): the result registers a command names. -/
structure Results where
  res0 : Option Nat := none
  res1 : Option Nat := none
  res2 : Option Nat := none
  res3 : Option Nat := none
deriving DecidableEq, Repr

/-- A result register's new value: a named one takes the 32-bit value, another keeps its own (spec/10_state.md R26). -/
def resultWord (old : Word) : Option Nat → Word
  | none => old
  | some v => BitVec.ofNat 32 v

/-- Write the named result registers. -/
def Results.store (r : Results) (g : Regs) : Regs :=
  { g with
    res0 := resultWord g.res0 r.res0
    res1 := resultWord g.res1 r.res1
    res2 := resultWord g.res2 r.res2
    res3 := resultWord g.res3 r.res3 }

/-- Completion without error (R274). -/
def completeOk (r : Results) (s : State) : State :=
  { s with regs := r.store s.regs, status := { s.status with busy := false, done := true } }

/-- Class X errors (R275): they may be found after the command has changed state. -/
def ErrorCode.classX : ErrorCode → Bool
  | .unexpectedEof => true
  | .corruptStream => true
  | .bufferOverflow => true
  | .codeTooLong => true
  | .noError => false
  | .runTooLong => false
  | .illegalCommand => false
  | .illegalArgument => false
  | .sequenceError => false
  | .bufferBounds => false

/-- What a class X error does to the units (R278): writer and reader IDLE, the Huffman state cleared, `HIST` and
`H_NSYM` left as they stand. -/
def abandonUnits (s : State) : State :=
  { s with
    out := { s.out with wr := { s.out.wr with st := .idle } }
    inp := { s.inp with rd := { s.inp.rd with st := .idle } }
    huf := Huffman.reset s.huf.hist s.huf.nsym }

/-- TAKING AN ERROR: completion with `raise E(pos)` (R274, R278, R279). `ERRCMD` is `CMDL`. -/
def takeError (e : ErrorCode) (pos : Nat) (s : State) : State :=
  let t := if e.classX then abandonUnits s else s
  { t with
    regs := { t.regs with errpos := BitVec.ofNat 32 pos, errcmd := t.latch.cmd }
    status := { t.status with busy := false, done := true, err := true, errcode := e } }

/-- RETURN FROM AN ERROR: the host's W1C of `STATUS.ERR` clears `ERR` and `ERRCODE` (R280, spec/10_state.md R23). -/
def clearError (s : State) : State :=
  { s with status := { s.status with err := false, errcode := .noError } }

/-- The sequencer step of a command whose rule is `body` (R274). -/
def complete (body : Act State Results) (s : State) : Result :=
  match body s with
  | .ok r t => .next (completeOk r t)
  | .error (.raised e pos) t => .next (takeError e pos t)
  | .error (.stuck f) _ => .fault f

end Sys2Proof.Machine
end

