-- ==== Sys2Proof/Machine/Operands.lean ====
section
/-! DEFINITION. The operand forms: argument registers as naturals (spec/30_encoding.md R81), the plane operands
(spec/42_rle.md R153), the Huffman symbols of an input (spec/43_huffman_build.md R190), field widths of a Huffman
stream (spec/44_huffman_codec.md R230), symbols as sort keys, register values and output bytes
(spec/00_scope.md R14). -/

namespace Sys2Proof.Machine

/-- `ARGL0` as an unsigned number (spec/30_encoding.md R81). -/
def State.argl0 (s : State) : Nat := s.latch.arg0.toNat

/-- `ARGL1` as an unsigned number. -/
def State.argl1 (s : State) : Nat := s.latch.arg1.toNat

/-- `ARGL2` as an unsigned number. -/
def State.argl2 (s : State) : Nat := s.latch.arg2.toNat

/-- `width = ARGL1[15:0]` (spec/42_rle.md R153). -/
def State.planeWidth (s : State) : Nat := (s.latch.arg1.extractLsb' 0 16).toNat

/-- `height = ARGL1[31:16]` (spec/42_rle.md R153). -/
def State.planeHeight (s : State) : Nat := (s.latch.arg1.extractLsb' 16 16).toNat

/-- A pixel: bit 0 of its byte (spec/42_rle.md R147). -/
def pixelOf (b : Byte) : Bool := b.getLsbD 0

/-- The byte of a decoded pixel: 0x00 or 0x01 (spec/42_rle.md R147). -/
def pixelByte (p : Bool) : Byte := if p then 1 else 0

/-- Wide symbols of a byte sequence, first byte high; an odd last byte is no symbol
(spec/43_huffman_build.md R190). -/
def wideSymbols : List Byte → List Nat
  | a :: b :: bs => (a.toNat * 256 + b.toNat) :: wideSymbols bs
  | _ => []

/-- The symbols of an input, normal or wide (spec/43_huffman_build.md R190). -/
def inputSymbols (wide : Bool) (bs : List Byte) : List Nat :=
  if wide then wideSymbols bs else bs.map BitVec.toNat

/-- Whether an input has a trailing byte (spec/43_huffman_build.md R190). -/
def hasTrailing (wide : Bool) (bs : List Byte) : Bool := wide && decide (bs.length % 2 = 1)

/-- `H_TRAILB`: the last byte when it is a trailing byte, else 0 (spec/43_huffman_build.md R191). -/
def trailingByte (wide : Bool) (bs : List Byte) : Byte :=
  if hasTrailing wide bs then bs.getLastD 0 else 0

/-- The sort key of a symbol: its value, and -1 for `SENT` (spec/00_scope.md R14). -/
def Sym.key : Sym → Int
  | .sent => -1
  | .ord v => v

/-- A symbol in a result register: `SENT` is 0xFFFFFFFF (spec/00_scope.md R14). -/
def Sym.report : Sym → Nat
  | .sent => 0xFFFFFFFF
  | .ord v => v

/-- The value field of a symbol in a Huffman stream (spec/44_huffman_codec.md R231; `SENT` has no entry there). -/
def Sym.value : Sym → Nat
  | .sent => 0
  | .ord v => v

/-- The output bytes of a decoded symbol, high byte first in wide mode (spec/44_huffman_codec.md R236). -/
def symbolBytes (wide : Bool) (v : Nat) : List Byte :=
  if wide then [BitVec.ofNat 8 (v / 256), BitVec.ofNat 8 v] else [BitVec.ofNat 8 v]

/-- `SW`, `LW`, `CW` of spec/44_huffman_codec.md R230: 16 when the flag is set, else 8. -/
def fieldWidth (flag : Bool) : Nat := if flag then 16 else 8

end Sys2Proof.Machine
end

