-- ==== Sys2Proof/Machine/BitStream.lean ====
section
/-! DEFINITION. The bit-stream unit's seven commands (spec/41_bitstream.md R114 to R120). The checks stand in the
order of each rule, which is the order of spec/60_exceptions.md R277. -/

namespace Sys2Proof.Machine

/-- The largest `n` of a bit write or read (spec/41_bitstream.md R116, R119; spec/30_encoding.md R80). -/
def maxBitCount : Nat := 32

/-- `if W_ST != ACTIVE: raise SEQUENCE_ERROR(0)`. -/
def requireWriter : Act State Unit := do
  let s ← get
  require (s.out.wr.st = .active) .sequenceError 0

/-- `if R_ST != ACTIVE: raise SEQUENCE_ERROR(0)`. -/
def requireReader : Act State Unit := do
  let s ← get
  require (s.inp.rd.st = .active) .sequenceError 0

/-- `NOP` (R114). -/
def execNop (s : State) : Result :=
  complete (pure {}) s

/-- `BW_INIT` (R115). -/
def execBwInit (g : Gran) (s : State) : Result :=
  complete (do
    requireObuf s.argl0
    onOut (wrInit s.argl0 g)
    return {}) s

/-- `BW_WRITE` (R116). -/
def execBwWrite (n : Nat) (s : State) : Result :=
  complete (do
    requireWriter
    require (n ≤ maxBitCount) .illegalArgument 0
    onOut (wrBits s.cfg.obufBytes s.latch.arg0 n)
    return {}) s

/-- `BW_FINISH` (R117). -/
def execBwFinish (s : State) : Result :=
  complete (do
    requireWriter
    let len ← onOut (wrFinish s.cfg.obufBytes)
    let t ← get
    return { res0 := some len, res1 := some t.out.wr.bits }) s

/-- `BR_INIT` (R118). -/
def execBrInit (g : Gran) (s : State) : Result :=
  complete (do
    require (g = .word → s.argl1 % 4 = 0) .illegalArgument 0
    requireIbuf s.argl0 s.argl1
    onReader (fun _ => rdInit s.argl0 s.argl1 g)
    return {}) s

/-- `BR_READ` (R119). -/
def execBrRead (n : Nat) (s : State) : Result :=
  complete (do
    requireReader
    require (n ≤ maxBitCount) .illegalArgument 0
    let v ← onReader (fun ibuf => rdBits ibuf n)
    return { res0 := some v }) s

/-- `BR_REMAIN` (R120). -/
def execBrRemain (s : State) : Result :=
  complete (do
    requireReader
    return { res0 := some s.inp.rd.len, res1 := some s.inp.rd.avail }) s

end Sys2Proof.Machine
end

