-- ==== Sys2Proof/Machine/HufBuild.lean ====
section
/-! DEFINITION. The Huffman table builder: histogram, tree, codes, canonical form, and its six commands
(spec/43_huffman_build.md R190 to R205). -/

namespace Sys2Proof.Machine

/-- `MAX_CODE_LEN` (spec/00_scope.md R9). -/
def maxCodeLen : Nat := 64

/-! ## Histogram -/

/-- `HIST[s]` (spec/10_state.md R38): 0 where the symbol is not listed. -/
def histCount : List (Nat × Nat) → Nat → Nat
  | [], _ => 0
  | (k, n) :: h, s => if k = s then n else histCount h s

/-- `HIST[x] <- HIST[x] + 1` (R191), keeping the symbols strictly rising. -/
def histBump : List (Nat × Nat) → Nat → List (Nat × Nat)
  | [], x => [(x, 1)]
  | (k, n) :: h, x =>
    if x < k then (x, 1) :: (k, n) :: h
    else if x = k then (k, n + 1) :: h
    else (k, n) :: histBump h x

/-- The histogram of a symbol sequence, from all zero (R191). -/
def histogram (xs : List Nat) : List (Nat × Nat) := xs.foldl histBump []

/-- `D`: how many symbols have a nonzero count (R191). -/
def distinctSymbols (h : List (Nat × Nat)) : Nat := (h.filter fun p => decide (0 < p.2)).length

/-- The histogram's canonical form: symbols strictly rising, no zero count listed. -/
def histWf : List (Nat × Nat) → Bool
  | [] => true
  | [(_, n)] => decide (0 < n)
  | (k, n) :: (k', n') :: h => decide (0 < n) && decide (k < k') && histWf ((k', n') :: h)

/-- The Huffman unit after `HUF_HIST` over the bytes `bs` (R191). -/
def histHuffman (wide : Bool) (bs : List Byte) : Huffman :=
  let xs := inputSymbols wide bs
  { Huffman.reset (histogram xs) xs.length with
    histV := true
    wide := wide
    trailp := hasTrailing wide bs
    trailb := trailingByte wide bs }

/-- The body of `HUF_HIST` (R191) over `n` bytes at `src`, whose bounds are checked. -/
def histBody (wide : Bool) (src n : Nat) : Act State Results := do
  let s ← get
  let bs ← ibufBytes s.inp.ibuf src n
  onHuf (fun _ => histHuffman wide bs)
  let t ← get
  return { res0 := some t.huf.nsym, res1 := some (distinctSymbols t.huf.hist) }

/-! ## Tree -/

/-- A node's weight (spec/10_state.md R39). -/
def HuffTree.weight : HuffTree → Nat
  | .leaf w _ => w
  | .interior w _ _ => w

/-- Insert a node after every node of weight at least its own (R194). -/
def insertNode (l : List HuffTree) (z : HuffTree) : List HuffTree :=
  l.insertIdx (l.filter fun n => decide (z.weight ≤ n.weight)).length z

/-- The leaves before sorting: the sentinel, then the observed symbols ascending (R193). -/
def leaves (h : List (Nat × Nat)) : List HuffTree :=
  .leaf 0 .sent :: (h.filter fun p => decide (0 < p.2)).map fun p => .leaf p.2 (.ord p.1)

/-- The initial node list: the leaves stably sorted by weight, largest first (R193). -/
def initialNodes (h : List (Nat × Nat)) : List HuffTree := (leaves h).foldl insertNode []

/-- One merge step (R194): the last node becomes the left child, the one before it the right child. A list of fewer
than two nodes is left as it is. -/
def mergeStep (l : List HuffTree) : List HuffTree :=
  match l.reverse with
  | x :: y :: rest => insertNode rest.reverse (.interior (x.weight + y.weight) x y)
  | _ => l

/-- `n` merge steps. -/
def mergeSteps : Nat → List HuffTree → List HuffTree
  | 0, l => l
  | n + 1, l => mergeSteps n (mergeStep l)

/-- The tree of a histogram: each merge step removes one node, so as many steps as nodes leave one (R194, R195). -/
def buildTree (h : List (Nat × Nat)) : Option HuffTree :=
  (mergeSteps (initialNodes h).length (initialNodes h)).head?

/-- `if HIST_V = 0: raise SEQUENCE_ERROR(0)` (R192, R196). -/
def requireHist : Act State Unit := do
  let s ← get
  require (s.huf.histV = true) .sequenceError 0

/-- The Huffman unit after `HUF_TREE` (R196). -/
def treeHuffman (h : Huffman) : Huffman :=
  { h with
    tree := buildTree h.hist
    treeV := true
    k := (leaves h.hist).length
    codesV := false
    canonV := false
    ctab := [] }

/-- The body of `HUF_TREE` (R196). -/
def treeBody : Act State Results := do
  requireHist
  onHuf treeHuffman
  let t ← get
  return { res0 := some t.huf.k, res1 := t.huf.tree.map HuffTree.weight }

/-! ## Codes -/

/-- The depth-first, left-first walk (R200): each leaf with its depth and path. -/
def treeCodes : HuffTree → (path depth : Nat) → List Entry
  | .leaf _ s, path, depth => [{ sym := s, len := depth, code := BitVec.ofNat 64 path }]
  | .interior _ l r, path, depth => treeCodes l (2 * path) (depth + 1) ++ treeCodes r (2 * path + 1) (depth + 1)

/-- The largest `len` of a table (R201). -/
def longestCode (es : List Entry) : Nat := es.foldl (fun m e => max m e.len) 0

/-- The Huffman unit after `HUF_CODES` with the table `tb` (R201). -/
def codesHuffman (tb : List Entry) (h : Huffman) : Huffman :=
  { h with ctab := tb, codesV := true, canonV := false, k := tb.length }

/-- The body of `HUF_CODES` (R201). `TREE = NONE` is no tree, whatever `TREE_V` says. -/
def codesBody : Act State Results := do
  let s ← get
  require (s.huf.treeV = true) .sequenceError 0
  match s.huf.tree with
  | none => raiseError .sequenceError 0
  | some tree =>
    let tb := treeCodes tree 0 0
    require (longestCode tb ≤ maxCodeLen) .codeTooLong 0
    onHuf (codesHuffman tb)
    return { res0 := some tb.length, res1 := some (longestCode tb) }

/-! ## Canonical form -/

/-- The order `(len ascending, key ascending)` (R202). -/
def entryLe (a b : Entry) : Bool :=
  decide (a.len < b.len) || (decide (a.len = b.len) && decide (a.sym.key ≤ b.sym.key))

/-- Insert an entry into a sorted table (R202). -/
def insertEntry (e : Entry) : List Entry → List Entry
  | [] => [e]
  | f :: fs => if entryLe e f then e :: f :: fs else f :: insertEntry e fs

/-- `sort CTAB by (len, key)` (R202). -/
def sortEntries (es : List Entry) : List Entry := es.foldr insertEntry []

/-- The code assignment of R202 from the running code and the previous length. -/
def assignFrom (prev code : Nat) : List Entry → List Entry
  | [] => []
  | e :: es =>
    { e with code := BitVec.ofNat 64 (code <<< (e.len - prev)) }
      :: assignFrom e.len ((code <<< (e.len - prev)) + 1) es

/-- The code assignment of R202 over a table in its order: from code 0 and the first entry's length. -/
def assignCodes (es : List Entry) : List Entry := assignFrom ((es.head?.map Entry.len).getD 0) 0 es

/-- The canonical form of a table (R202). -/
def canonicalise (es : List Entry) : List Entry := assignCodes (sortEntries es)

/-- The index of `SENT` in a table (R203). -/
def sentIndex (es : List Entry) : Nat := es.findIdx fun e => decide (e.sym = .sent)

/-- `if CODES_V = 0: raise SEQUENCE_ERROR(0)` (R203, R204). -/
def requireCodes : Act State Unit := do
  let s ← get
  require (s.huf.codesV = true) .sequenceError 0

/-- The Huffman unit after `HUF_CANON` (R203). -/
def canonHuffman (h : Huffman) : Huffman := { h with ctab := canonicalise h.ctab, canonV := true }

/-- The body of `HUF_CANON` (R203). -/
def canonBody : Act State Results := do
  requireCodes
  onHuf canonHuffman
  let t ← get
  return { res0 := some (sentIndex t.huf.ctab), res1 := some (longestCode t.huf.ctab) }

/-! ## Commands -/

/-- `HUF_HIST` (R191). -/
def execHufHist (w : Bool) (s : State) : Result :=
  complete (do
    requireIbuf s.argl0 s.argl1
    histBody w s.argl0 s.argl1) s

/-- `HUF_HISTRD` (R192). -/
def execHufHistrd (s : State) : Result :=
  complete (do
    requireHist
    require (s.argl0 ≤ 65535) .illegalArgument 0
    return { res0 := some (histCount s.huf.hist s.argl0), res1 := some s.huf.nsym }) s

/-- `HUF_TREE` (R196). -/
def execHufTree (s : State) : Result :=
  complete treeBody s

/-- `HUF_CODES` (R201). -/
def execHufCodes (s : State) : Result :=
  complete codesBody s

/-- `HUF_CANON` (R203). -/
def execHufCanon (s : State) : Result :=
  complete canonBody s

/-- `HUF_TABRD` (R204). An index below `H_K` names an entry in every state a run reaches; where there is no entry it is
an illegal index like one at `H_K` or above. -/
def execHufTabrd (s : State) : Result :=
  complete (do
    requireCodes
    require (s.argl0 < s.huf.k) .illegalArgument 0
    match s.huf.ctab[s.argl0]? with
    | none => raiseError .illegalArgument 0
    | some e =>
      return {
        res0 := some e.sym.report
        res1 := some e.len
        res2 := some (e.code.setWidth 32).toNat
        res3 := some (e.code >>> 32).toNat }) s

end Sys2Proof.Machine
end

