-- ==== Sys2Proof/Machine/HufCodec.lean ====
section
/-! DEFINITION. The Huffman stream encoder and decoder (spec/44_huffman_codec.md R230 to R238). -/

namespace Sys2Proof.Machine

/-! ## Encoder -/

/-- The encoder's flags (R232): bits 0 to 3. -/
structure StreamFlags where
  /-- Bit 0: length fields are 16-bit. -/
  longLen : Bool
  /-- Bit 1: the count field is 16-bit. -/
  longCount : Bool
  /-- Bit 2: a trailing byte follows. -/
  trailing : Bool
  /-- Bit 3: wide alphabet. -/
  wide : Bool
deriving DecidableEq, Repr

/-- The flags byte (R231). -/
def StreamFlags.value (f : StreamFlags) : Nat :=
  f.longLen.toNat + 2 * f.longCount.toNat + 4 * f.trailing.toNat + 8 * f.wide.toNat

/-- The flags of a byte's low four bits (R231). -/
def StreamFlags.ofNat (v : Nat) : StreamFlags where
  longLen := v.testBit 0
  longCount := v.testBit 1
  trailing := v.testBit 2
  wide := v.testBit 3

/-- The flags an encoder sets (R232) for a table and an input. -/
def encoderFlags (h : Huffman) (w : Bool) : StreamFlags where
  longLen := decide (255 < longestCode h.ctab)
  longCount := decide (0 < h.k - 1) && decide (255 < h.k - 1 - 1)
  trailing := h.trailp
  wide := w

/-- The table entry of a symbol. -/
def entryOf (es : List Entry) (x : Sym) : Option Entry := es.find? fun e => decide (e.sym = x)

/-- `wr_long` of a symbol's code (R233). A symbol with no entry writes nothing; the encoder's table has every symbol
of its input. -/
def wrSymbol (cap : Nat) (es : List Entry) (x : Sym) : Act OutPort Unit :=
  match entryOf es x with
  | none => pure ()
  | some e => wrLong cap e.code e.len

/-- The codes of a symbol sequence (R233). -/
def wrSymbols (cap : Nat) (es : List Entry) : List Nat → Act OutPort Unit
  | [] => pure ()
  | x :: xs => do
    wrSymbol cap es (.ord x)
    wrSymbols cap es xs

/-- The `cnt` entries of the header: symbol and length of each ordinary symbol in table order (R231). -/
def wrEntries (cap sw lw : Nat) : List Entry → Act OutPort Unit
  | [] => pure ()
  | e :: es => do
    if e.sym ≠ .sent then
      wrBits cap (BitVec.ofNat 32 e.sym.value) sw
      wrBits cap (BitVec.ofNat 32 e.len) lw
    wrEntries cap sw lw es

/-- The stream of a canonical table and an input's symbols (R231, R233, R237), from `wr_init` to `wr_finish`. -/
def wrStream (cap dst : Nat) (h : Huffman) (w : Bool) (xs : List Nat) : Act OutPort Nat := do
  let f := encoderFlags h w
  let si := sentIndex h.ctab
  let sl := ((entryOf h.ctab .sent).map Entry.len).getD 0
  wrInit dst .byte
  wrBits cap (BitVec.ofNat 32 f.value) 8
  if h.trailp then
    wrBits cap (h.trailb.setWidth 32) 8
  if 0 < h.k - 1 then
    wrBits cap (BitVec.ofNat 32 (h.k - 1 - 1)) (fieldWidth f.longCount)
  wrBits cap (BitVec.ofNat 32 si) 32
  wrBits cap (BitVec.ofNat 32 sl) (fieldWidth f.longLen)
  wrEntries cap (fieldWidth w) (fieldWidth f.longLen) h.ctab
  wrSymbols cap h.ctab xs
  wrSymbol cap h.ctab .sent
  wrFinish cap

/-- `HUF_ENC` (R237). -/
def execHufEnc (w : Bool) (s : State) : Result :=
  complete (do
    requireIbuf s.argl0 s.argl1
    requireObuf s.argl2
    let _ ← histBody w s.argl0 s.argl1
    let _ ← treeBody
    let _ ← codesBody
    let _ ← canonBody
    let t ← get
    let bs ← ibufBytes s.inp.ibuf s.argl0 s.argl1
    let total ← onOut (wrStream s.cfg.obufBytes s.argl2 t.huf w (inputSymbols w bs))
    return {
      res0 := some total
      res1 := some t.huf.nsym
      res2 := some t.huf.k
      res3 := some (longestCode t.huf.ctab) }) s

/-! ## Decoder -/

/-- The `cnt` entries of a header: symbol and length, in stored order (R234). -/
def rdEntries (ibuf : Memory) (sw lw : Nat) : Nat → Act Reader (List Entry)
  | 0 => pure []
  | n + 1 => do
    let sy ← rdBits ibuf sw
    let l ← rdBits ibuf lw
    let es ← rdEntries ibuf sw lw n
    return { sym := .ord sy, len := l, code := 0 } :: es

/-- The table checks of R234 from the running code and the previous length, for a table of `k` entries: no length
above `MAX_CODE_LEN`, none below the one before, none 0 when `k > 1`, every code below `2^len`. -/
def tableOkFrom (k prev code : Nat) : List Entry → Bool
  | [] => true
  | e :: es =>
    decide (e.len ≤ maxCodeLen) && decide (prev ≤ e.len) && !(decide (1 < k) && decide (e.len = 0))
      && decide (code <<< (e.len - prev) < 2 ^ e.len)
      && tableOkFrom k e.len ((code <<< (e.len - prev)) + 1) es

/-- The table checks of R234. -/
def tableOk (es : List Entry) : Bool := tableOkFrom es.length ((es.head?.map Entry.len).getD 0) 0 es

/-- A parsed header (R234): the flags byte's value, the trailing byte if present, the table with its codes. -/
structure Header where
  flags : Nat
  trailing : Option Byte
  table : List Entry
deriving DecidableEq, Repr

/-- The trailing byte of a header, where the flags announce one (R234). -/
def rdTrailing (ibuf : Memory) (f : StreamFlags) : Act Reader (Option Byte) :=
  if f.trailing then do
    let b ← rdBits ibuf 8
    return some (BitVec.ofNat 8 b)
  else return none

/-- The number of ordinary entries (R234): 0 where only the sentinel's index and length are left, else the field
plus 1. -/
def rdCount (ibuf : Memory) (f : StreamFlags) : Act Reader Nat := do
  let r ← get
  if r.avail = 32 + fieldWidth f.longLen then return 0
  else
    let c ← rdBits ibuf (fieldWidth f.longCount)
    return c + 1

/-- `hdr(src)` (R234). -/
def rdHeader (src : Nat) (ibuf : Memory) : Act Reader Header := do
  let v ← rdBits ibuf 8
  let f := StreamFlags.ofNat v
  require (v < 16 ∧ (f.trailing = true → f.wide = true)) .corruptStream (8 * src)
  let trailing ← rdTrailing ibuf f
  let cnt ← rdCount ibuf f
  let r ← get
  let si ← rdBits ibuf 32
  let sl ← rdBits ibuf (fieldWidth f.longLen)
  require (si ≤ cnt) .corruptStream r.bitAddress
  let es ← rdEntries ibuf (fieldWidth f.wide) (fieldWidth f.longLen) cnt
  let table := es.insertIdx si { sym := .sent, len := sl, code := 0 }
  let r ← get
  require (tableOk table = true) .corruptStream r.bitAddress
  return { flags := v, trailing := trailing, table := assignCodes table }

/-- The decoding trie (R235): a place no code reaches is `missing`. -/
inductive Trie where
  | missing
  | leaf (sym : Sym)
  | node (left right : Trie)
deriving DecidableEq, Repr

/-- The bits of a code, most significant first (R235). -/
def codeBits (len : Nat) (code : DWord) : List Bool :=
  (List.range len).map fun i => code.getLsbD (len - 1 - i)

/-- Put a leaf at the end of a path (R235). The codes of a checked table are prefix-free, so a path never meets a leaf
before its end; such a path is dropped. -/
def Trie.insert (s : Sym) : List Bool → Trie → Trie
  | [], _ => .leaf s
  | _ :: _, .leaf x => .leaf x
  | false :: bs, .node l r => .node (Trie.insert s bs l) r
  | true :: bs, .node l r => .node l (Trie.insert s bs r)
  | false :: bs, .missing => .node (Trie.insert s bs .missing) .missing
  | true :: bs, .missing => .node .missing (Trie.insert s bs .missing)

/-- The trie of a table (R235). -/
def trieOf (es : List Entry) : Trie :=
  es.foldl (fun t e => Trie.insert e.sym (codeBits e.len e.code) t) .missing

/-- The inner loop of `walk` (R236): follow the input bits to a leaf. `p` is the position of the bit that led to this
place; a missing child is a dead end at that bit. -/
def descend (ibuf : Memory) : Trie → (p : Nat) → Act Reader Sym
  | .missing, p => raiseError .corruptStream p
  | .leaf s, _ => pure s
  | .node l r, _ => do
    let rd ← get
    require (0 < rd.avail) .corruptStream rd.bitAddress
    let b ← rdBits ibuf 1
    if b = 0 then descend ibuf l rd.bitAddress else descend ibuf r rd.bitAddress

/-- The outer loop of `walk` (R236) with at most `fuel` symbols: write each symbol at `o` until the sentinel; returns
the address after the last byte. -/
def walkSymbols (trie : Trie) (wide : Bool) : (fuel o : Nat) → Act State Nat
  | 0, o => pure o
  | fuel + 1, o => do
    let s ← get
    let x ← onReader (fun ibuf => descend ibuf trie s.inp.rd.bitAddress)
    match x with
    | .sent => pure o
    | .ord v => do
      putBytes o (symbolBytes wide v)
      walkSymbols trie wide fuel (o + (symbolBytes wide v).length)

/-- `walk` (R236): every symbol before the sentinel takes at least one bit, so one symbol more than the bits left
suffices; then the trailing byte. Returns the bytes written. -/
def walk (dst : Nat) (trie : Trie) (wide : Bool) (trailing : Option Byte) : Act State Nat := do
  let s ← get
  let o ← walkSymbols trie wide (s.inp.rd.avail + 1) dst
  match trailing with
  | none => return o - dst
  | some b => do
    putBytes o [b]
    return o + 1 - dst

/-- The Huffman unit after `HUF_DEC` (R238): the parsed table is kept, histogram and tree are not valid. -/
def decodedHuffman (hd : Header) (h : Huffman) : Huffman :=
  { h with
    ctab := hd.table
    k := hd.table.length
    codesV := true
    canonV := true
    histV := false
    treeV := false
    tree := none
    wide := (StreamFlags.ofNat hd.flags).wide
    trailp := hd.trailing.isSome
    trailb := hd.trailing.getD 0 }

/-- `HUF_DEC` (R238). -/
def execHufDec (s : State) : Result :=
  complete (do
    requireIbuf s.argl0 s.argl1
    requireObuf s.argl2
    onReader (fun _ => rdInit s.argl0 s.argl1 .byte)
    let hd ← onReader (rdHeader s.argl0)
    let m ← walk s.argl2 (trieOf hd.table) (StreamFlags.ofNat hd.flags).wide hd.trailing
    onHuf (decodedHuffman hd)
    let t ← get
    return {
      res0 := some m
      res1 := some t.inp.rd.pos
      res2 := some hd.table.length
      res3 := some hd.flags }) s

end Sys2Proof.Machine
end

