-- ==== Sys2Proof/Machine/Rle.lean ====
section
/-! DEFINITION. The RLE unit: codewords, runs, planes and the six RLE commands (spec/42_rle.md R143 to R155). -/

namespace Sys2Proof.Machine

/-! ## Codewords -/

/-- The bucket of a run length: the least `i` with `L <= max[t][i]` (R144). -/
def bucketOf (c : Config) (t len : Nat) : Option Nat := buckets.find? fun i => decide (len ≤ maxRun c t i)

/-- `enc_cw(t, L)` (R144) for `1 <= L <= M_t`; returns the bucket. A length above `M_t` has no bucket and no caller. -/
def encCw (c : Config) (t len : Nat) : Act OutPort Nat :=
  match bucketOf c t len with
  | none => raiseError .runTooLong 0
  | some i => do
    wrBits c.obufBytes (BitVec.ofNat 32 (prefixPat c i)) (prefixBits c i)
    wrBits c.obufBytes (BitVec.ofNat 32 (len - minRun c t i)) (payloadBits c t i)
    return i

/-- The bucket scan of `dec_cw` (R145), over the buckets still to test: a prefix is compared only against buffered
input bits. -/
def scanBuckets (c : Config) (ibuf : Memory) : List Nat → Act Reader (Option Nat)
  | [] => pure none
  | i :: is => do
    let r ← get
    if prefixBits c i ≤ r.cnt then
      let v ← rdPeek ibuf (prefixBits c i)
      if v = prefixPat c i then return some i else scanBuckets c ibuf is
    else scanBuckets c ibuf is

/-- `dec_cw(t)` (R145): the value and the bucket of the next codeword. -/
def decCw (c : Config) (t : Nat) (ibuf : Memory) : Act Reader (Nat × Nat) := do
  refill ibuf
  let found ← scanBuckets c ibuf buckets
  let r ← get
  match found with
  | some i =>
    require (codewordBits c t i ≤ r.cnt) .unexpectedEof r.bitAddress
    let _ ← rdBits ibuf (prefixBits c i)
    let p ← rdBits ibuf (payloadBits c t i)
    return (minRun c t i + p, i)
  | none =>
    require (longestPrefix c ≤ r.cnt) .unexpectedEof r.bitAddress
    raiseError .corruptStream r.bitAddress

/-! ## Runs -/

/-- The codeword values of a run of `len`, with at most `fuel` of them: continuation codewords of `M_t`, each standing
for `M_t - 1` symbols, until the rest is below `M_t` (R143, R146). -/
def runCodewords (c : Config) (t : Nat) : (fuel len : Nat) → List Nat
  | 0, _ => []
  | fuel + 1, len =>
    if longestRun c t ≤ len then longestRun c t :: runCodewords c t fuel (len - (longestRun c t - 1))
    else [len]

/-- Write codewords in order. -/
def encCws (c : Config) (t : Nat) : List Nat → Act OutPort Unit
  | [] => pure ()
  | v :: vs => do
    let _ ← encCw c t v
    encCws c t vs

/-- `emit_run(t, L)` (R146) for `L >= 1`: each turn lowers `L` by at least 6, so `L` turns suffice. -/
def emitRun (c : Config) (t len : Nat) : Act OutPort Unit := encCws c t (runCodewords c t len len)

/-- The bits of the codewords `emit_run(t, L)` writes (R155). -/
def runBits (c : Config) (t len : Nat) : Nat :=
  ((runCodewords c t len len).map fun v => codewordBits c t ((bucketOf c t v).getD 0)).sum

/-- The runs of a plane from the current symbol and its run so far (R148). -/
def runsFrom (cur : Bool) (run : Nat) : List Bool → List Nat
  | [] => if 0 < run then [run] else []
  | p :: ps => if p = cur then runsFrom cur (run + 1) ps else run :: runsFrom p 1 ps

/-- The first symbol of a plane: its first pixel, 0 for an empty plane (R148). -/
def firstSymbol (ps : List Bool) : Bool := ps.headD false

/-- The runs of a plane (R148). -/
def planeRuns (ps : List Bool) : List Nat := runsFrom (firstSymbol ps) 0 ps

/-! ## Planes -/

/-- The pixel scan of `RLE_ENCPLANE` (R148, R153): `n` pixels from IBUF address `a`, each run encoded as it ends. -/
def encScan (c : Config) (t : Nat) (ibuf : Memory) : (n a : Nat) → (cur : Bool) → (run : Nat) → Act OutPort Unit
  | 0, _, _, run => if 0 < run then emitRun c t run else pure ()
  | n + 1, a, cur, run => do
    let b ← ibufByte ibuf a
    if pixelOf b = cur then encScan c t ibuf n (a + 1) cur (run + 1)
    else do
      emitRun c t run
      encScan c t ibuf n (a + 1) (pixelOf b) 1

/-- The first six bytes of the RLE header (R149): `first_symbol`, `width`, `height`, `codebook_type`. -/
def planeHeader (first : Bool) (width height t : Nat) : List Byte :=
  pixelByte first :: littleEndianBytes width 2 ++ littleEndianBytes height 2 ++ [BitVec.ofNat 8 t]

/-- `RLE_HDR_BYTES` (spec/00_scope.md R8). -/
def rleHeaderBytes : Nat := 10

/-- The body of `RLE_ENCPLANE` after its argument check (R153), for type `t` and the operands in `ARGL0..2`. -/
def encPlane (t : Nat) : Act State Results := do
  let s ← get
  let n := s.planeWidth * s.planeHeight
  requireIbuf s.argl0 n
  requireObuf s.argl2
  require (s.argl2 + rleHeaderBytes ≤ s.cfg.obufBytes) .bufferOverflow s.argl2
  let first ← if 0 < n then ibufByte s.inp.ibuf s.argl0 else pure 0
  storeBytes s.argl2 (planeHeader (pixelOf first) s.planeWidth s.planeHeight t)
  onOut (wrInit (s.argl2 + rleHeaderBytes) .word)
  onOut (encScan s.cfg t s.inp.ibuf n s.argl0 (pixelOf first) 0)
  let len ← onOut (wrFinish s.cfg.obufBytes)
  storeBytes (s.argl2 + 6) (littleEndianBytes (len / 4) 4)
  return { res0 := some (rleHeaderBytes + len), res1 := some (len / 4), res2 := some t }

/-- Write `n` pixels of one symbol from OBUF address `a`, one byte at a time (R154). -/
def putPixels (p : Bool) : (n a : Nat) → Act State Unit
  | 0, _ => pure ()
  | n + 1, a => do
    putBytes a [pixelByte p]
    putPixels p n (a + 1)

/-- The codeword loop of `RLE_DECPLANE` (R154) with at most `fuel` codewords: `out` of `n` pixels are written. -/
def decRuns (t n dst : Nat) : (fuel out : Nat) → (cur : Bool) → Act State Unit
  | 0, _, _ => pure ()
  | fuel + 1, out, cur =>
    if out < n then do
      let s ← get
      let p := s.inp.rd.bitAddress
      let (v, _) ← onReader (decCw s.cfg t)
      let long := v = longestRun s.cfg t
      let count := if long then longestRun s.cfg t - 1 else v
      require (out + count ≤ n) .corruptStream p
      putPixels cur count (dst + out)
      decRuns t n dst fuel (out + count) (if long then cur else !cur)
    else pure ()

/-! ## Commands -/

/-- `CB_QUERY` (R150). -/
def execCbQuery (t b : Nat) (s : State) : Result :=
  complete (do
    require (t ≤ 5 ∧ b ≤ 6) .illegalArgument 0
    return {
      res0 := some (minRun s.cfg t b)
      res1 := some (maxRun s.cfg t b)
      res2 := some (prefixBits s.cfg b + payloadBits s.cfg t b * 256)
      res3 := some (prefixPat s.cfg b) }) s

/-- `RLE_ENCRUN` (R151). -/
def execRleEncrun (t : Nat) (s : State) : Result :=
  complete (do
    requireWriter
    require (t ≤ 5 ∧ s.argl0 ≠ 0) .illegalArgument 0
    require (s.argl0 ≤ longestRun s.cfg t) .runTooLong 0
    let i ← onOut (encCw s.cfg t s.argl0)
    return { res0 := some i, res1 := some (codewordBits s.cfg t i) }) s

/-- `RLE_DECRUN` (R152). -/
def execRleDecrun (t : Nat) (s : State) : Result :=
  complete (do
    requireReader
    require (t ≤ 5) .illegalArgument 0
    let (v, i) ← onReader (decCw s.cfg t)
    return {
      res0 := some v
      res1 := some i
      res2 := some (if v = longestRun s.cfg t then 1 else 0) }) s

/-- `RLE_ENCPLANE` (R153). -/
def execRleEncplane (t : Nat) (s : State) : Result :=
  complete (do
    require (t ≤ 5) .illegalArgument 0
    encPlane t) s

/-- `RLE_DECPLANE` (R154). Every codeword stands for at least one pixel, so `N` codewords suffice. -/
def execRleDecplane (s : State) : Result :=
  complete (do
    let src := s.argl0
    let ln := s.argl1
    requireIbuf src ln
    requireObuf s.argl2
    require (rleHeaderBytes ≤ ln) .unexpectedEof (8 * (src + ln))
    let first ← ibufByte s.inp.ibuf src
    let width ← ibufBytes s.inp.ibuf (src + 1) 2
    let height ← ibufBytes s.inp.ibuf (src + 3) 2
    let t ← ibufByte s.inp.ibuf (src + 5)
    let wc ← ibufBytes s.inp.ibuf (src + 6) 4
    require (first.toNat ≤ 1) .corruptStream (8 * src)
    require (t.toNat ≤ 5) .corruptStream (8 * (src + 5))
    require (rleHeaderBytes + 4 * littleEndian wc ≤ ln) .unexpectedEof (8 * (src + ln))
    onReader (fun _ => rdInit (src + rleHeaderBytes) (4 * littleEndian wc) .word)
    let n := littleEndian width * littleEndian height
    decRuns t.toNat n s.argl2 n 0 (pixelOf first)
    let u ← get
    return { res0 := some n, res1 := some u.inp.rd.pos, res2 := some t.toNat }) s

/-- `wc[t]` of R155: the words the plane's codewords take under type `t`. -/
def planeWords (c : Config) (ps : List Bool) (t : Nat) : Nat :=
  (((planeRuns ps).map (runBits c t)).sum + 31) / 32

/-- `t*` of R155: the least type whose `wc` is least. -/
def bestType (c : Config) (ps : List Bool) : Nat :=
  types.foldl (fun best t => if planeWords c ps t < planeWords c ps best then t else best) 0

/-- `RLE_BEST` (R155): the six trials read the pixels and write nothing, then the body of `RLE_ENCPLANE` runs. -/
def execRleBest (s : State) : Result :=
  complete (do
    requireIbuf s.argl0 (s.planeWidth * s.planeHeight)
    requireObuf s.argl2
    let bs ← ibufBytes s.inp.ibuf s.argl0 (s.planeWidth * s.planeHeight)
    encPlane (bestType s.cfg (bs.map pixelOf))) s

end Sys2Proof.Machine
end

