-- ==== Sys2Proof/Machine/Dispatch.lean ====
section
/-! DEFINITION. One arm per command of spec/opcode_table.json: the sequencer step of an accepted command
(spec/60_exceptions.md R274) is its meaning. -/

namespace Sys2Proof.Machine

-- The sequencer step of the command in CMDL, decoded as i: results and status written, BUSY cleared.
def exec (i : Instr) (s : State) : Host.Outcome State Fault Refusal :=
  match i with
  | .nop => Sys2Proof.Machine.execNop s
  | .bwInit g => Sys2Proof.Machine.execBwInit g s
  | .bwWrite n => Sys2Proof.Machine.execBwWrite n s
  | .bwFinish => Sys2Proof.Machine.execBwFinish s
  | .brInit g => Sys2Proof.Machine.execBrInit g s
  | .brRead n => Sys2Proof.Machine.execBrRead n s
  | .brRemain => Sys2Proof.Machine.execBrRemain s
  | .cbQuery t b => Sys2Proof.Machine.execCbQuery t b s
  | .rleEncrun t => Sys2Proof.Machine.execRleEncrun t s
  | .rleDecrun t => Sys2Proof.Machine.execRleDecrun t s
  | .rleEncplane t => Sys2Proof.Machine.execRleEncplane t s
  | .rleDecplane => Sys2Proof.Machine.execRleDecplane s
  | .rleBest => Sys2Proof.Machine.execRleBest s
  | .hufHist w => Sys2Proof.Machine.execHufHist w s
  | .hufHistrd => Sys2Proof.Machine.execHufHistrd s
  | .hufTree => Sys2Proof.Machine.execHufTree s
  | .hufCodes => Sys2Proof.Machine.execHufCodes s
  | .hufCanon => Sys2Proof.Machine.execHufCanon s
  | .hufTabrd => Sys2Proof.Machine.execHufTabrd s
  | .hufEnc w => Sys2Proof.Machine.execHufEnc w s
  | .hufDec => Sys2Proof.Machine.execHufDec s

end Sys2Proof.Machine
end

