-- ==== Sys2Proof/Machine/Flags.lean ====
section
/-! DEFINITION. Every flag and status computation: the words of `STATUS`, `CTRL`, `WSTAT`, `RSTAT`, `HSTAT`
(spec/10_state.md R22, R23, R29, R32, R34), the W1C write of `STATUS`, and the `IRQ` level
(spec/60_exceptions.md R282). Reserved bits read 0 (spec/93_implementation_defined.md I6). -/

namespace Sys2Proof.Machine

/-- A flag at bit `i` of a register. -/
def bitAt (b : Bool) (i : Nat) : Word := BitVec.ofNat 32 b.toNat <<< i

/-- The numbers of the error codes (spec/60_exceptions.md R275). -/
def ErrorCode.number : ErrorCode → Nat
  | .noError => 0
  | .unexpectedEof => 1
  | .corruptStream => 2
  | .runTooLong => 3
  | .illegalCommand => 4
  | .illegalArgument => 5
  | .sequenceError => 6
  | .bufferBounds => 7
  | .bufferOverflow => 8
  | .codeTooLong => 9

/-- `STATUS` as read (spec/10_state.md R23). -/
def Status.word (s : Status) : Word :=
  bitAt s.busy 0 ||| bitAt s.done 1 ||| bitAt s.err 2 ||| bitAt s.rej 3 ||| bitAt s.lockv 4
    ||| (BitVec.ofNat 32 s.errcode.number <<< 8)

/-- `CTRL` as read: `SRST` reads 0 (spec/10_state.md R22). -/
def ctrlWord (ie : Bool) : Word := bitAt ie 1

/-- The number of a writer state (spec/10_state.md R29). -/
def WriterSt.number : WriterSt → Nat
  | .idle => 0
  | .active => 1
  | .finished => 2

/-- The number of a reader state (spec/10_state.md R32). -/
def ReaderSt.number : ReaderSt → Nat
  | .idle => 0
  | .active => 1

/-- The granularity bit of `WSTAT` and `RSTAT`: 1 in word mode (spec/10_state.md R29, R32). -/
def Gran.flag : Gran → Bool
  | .byte => false
  | .word => true

/-- `WSTAT` (spec/10_state.md R29): `W_CNT` in bits 13:8. -/
def Writer.statWord (w : Writer) : Word :=
  BitVec.ofNat 32 w.st.number ||| bitAt (Gran.flag w.gran) 2 ||| ((BitVec.ofNat 6 w.cnt).setWidth 32 <<< 8)

/-- `RSTAT` (spec/10_state.md R32): `R_CNT` in bits 14:8. -/
def Reader.statWord (r : Reader) : Word :=
  BitVec.ofNat 32 r.st.number ||| bitAt (Gran.flag r.gran) 2 ||| ((BitVec.ofNat 7 r.cnt).setWidth 32 <<< 8)

/-- `HSTAT` (spec/10_state.md R34). -/
def Huffman.statWord (h : Huffman) : Word :=
  bitAt h.histV 0 ||| bitAt h.treeV 1 ||| bitAt h.codesV 2 ||| bitAt h.canonV 3 ||| bitAt h.wide 4
    ||| bitAt h.trailp 5 ||| (h.trailb.setWidth 32 <<< 8)

/-- A host write of `v` to `STATUS` (spec/10_state.md R23): each W1C field is cleared where its bit of `v` is 1;
clearing `ERR` is the return from an error. -/
def writeStatus (v : Word) (s : State) : State :=
  let t := if v.getLsbD 2 then clearError s else s
  { t with status := { t.status with
      done := t.status.done && !v.getLsbD 1
      rej := t.status.rej && !v.getLsbD 3
      lockv := t.status.lockv && !v.getLsbD 4 } }

/-- The interrupt output `IRQ = IE & (DONE | ERR | REJ)`, a level (spec/60_exceptions.md R282). -/
def State.irq (s : State) : Bool := s.regs.ie && (s.status.done || s.status.err || s.status.rej)

end Sys2Proof.Machine
end

