-- ==== Sys2Proof/Machine/HostPort.lean ====
section
/-! DEFINITION. The host interface: the register map, command acceptance and refusal, soft and power-on reset, buffer
accesses with the lock, one host access as a whole, and the sequencer's step (spec/10_state.md R20 to R28,
spec/20_memory.md R63, R66, spec/60_exceptions.md R272 to R274, spec/70_reset_and_hazards.md R300, R301). -/

namespace Sys2Proof.Machine

/-! ## The register map -/

/-- `ID_VALUE` (spec/00_scope.md R2, R9). -/
def idValue : Word := 0x4B434231

/-- The registers (spec/10_state.md R20). -/
inductive Reg where
  | id
  | ctrl
  | status
  | cmd
  | arg0
  | arg1
  | arg2
  | res0
  | res1
  | res2
  | res3
  | errpos
  | errcmd
  | wstat
  | wptr
  | wbits
  | rstat
  | rpos
  | hstat
  | hleaves
deriving DecidableEq, Repr

/-- The register at an offset (spec/10_state.md R20); `none` where there is none, a misaligned offset included
(notes/assumptions/12.md). -/
def regAt (offset : BitVec 8) : Option Reg :=
  match offset.toNat with
  | 0x00 => some .id
  | 0x04 => some .ctrl
  | 0x08 => some .status
  | 0x0C => some .cmd
  | 0x10 => some .arg0
  | 0x14 => some .arg1
  | 0x18 => some .arg2
  | 0x20 => some .res0
  | 0x24 => some .res1
  | 0x28 => some .res2
  | 0x2C => some .res3
  | 0x30 => some .errpos
  | 0x34 => some .errcmd
  | 0x38 => some .wstat
  | 0x3C => some .wptr
  | 0x40 => some .wbits
  | 0x44 => some .rstat
  | 0x48 => some .rpos
  | 0x4C => some .hstat
  | 0x50 => some .hleaves
  | _ => none

/-- What a register reads (spec/10_state.md R21 to R35). -/
def Reg.value (s : State) : Reg → Word
  | .id => idValue
  | .ctrl => ctrlWord s.regs.ie
  | .status => s.status.word
  | .cmd => 0
  | .arg0 => s.regs.arg0
  | .arg1 => s.regs.arg1
  | .arg2 => s.regs.arg2
  | .res0 => s.regs.res0
  | .res1 => s.regs.res1
  | .res2 => s.regs.res2
  | .res3 => s.regs.res3
  | .errpos => s.regs.errpos
  | .errcmd => s.regs.errcmd
  | .wstat => s.out.wr.statWord
  | .wptr => BitVec.ofNat 32 s.out.wr.out
  | .wbits => BitVec.ofNat 32 s.out.wr.bits
  | .rstat => s.inp.rd.statWord
  | .rpos => BitVec.ofNat 32 s.inp.rd.pos
  | .hstat => s.huf.statWord
  | .hleaves => BitVec.ofNat 32 s.huf.k

/-- A register read (spec/10_state.md R20): 0 where there is no register. No read has a side effect
(spec/20_memory.md R69). -/
def readReg (offset : BitVec 8) (s : State) : Word :=
  match regAt offset with
  | some r => r.value s
  | none => 0

/-! ## Commands -/

/-- Acceptance (spec/60_exceptions.md R272): latch the word and the arguments, set `BUSY`. The delay to completion is
drawn from the free value of I4. -/
def acceptCmd (c : Word) (s : State) : State :=
  { s with
    latch := { cmd := c, arg0 := s.regs.arg0, arg1 := s.regs.arg1, arg2 := s.regs.arg2 }
    status := { s.status with busy := true }
    env := { s.env with delay := Config.completionDelay s.env.draws, draws := s.env.draws + 1 } }

/-- Refusal (spec/60_exceptions.md R273). -/
def refuseCmd (s : State) : State := { s with status := { s.status with rej := true } }

/-- A write of `c` to `CMD` (spec/10_state.md R24, spec/60_exceptions.md R272, R273). -/
def writeCmd (c : Word) (s : State) : State :=
  if s.status.busy || s.status.err then refuseCmd s else acceptCmd c s

/-- The sequencer step of the accepted command in `CMDL` (spec/60_exceptions.md R274): decode, then run the command's
rule; a word that decodes to no command is ILLEGAL_COMMAND at position 0 (spec/30_encoding.md R85). -/
def runCommand (s : State) : Result :=
  match decode s.latch.cmd with
  | .ok i => exec i s
  | .error _ => complete (raiseError .illegalCommand 0) s

/-! ## Reset -/

/-- The bytes `[a, a+n)` as the buffer holds them, a byte nothing has written holding its free value (spec/20_memory.md
R75: it 'holds an unspecified value'; notes/assumptions/4.md). -/
def Memory.heldFrom (m : Memory) (free : Nat → Byte) : (n a : Nat) → Memory
  | 0, _ => []
  | n + 1, a => (a, (m.read a).getD (free a)) :: Memory.heldFrom m free n (a + 1)

/-- IBUF with every byte at the value it holds. -/
def State.heldIbuf (s : State) : Memory :=
  s.inp.ibuf.heldFrom (Config.freeIbufByte s.env.ibufGen) s.cfg.ibufBytes 0

/-- The accepted command over IBUF as it is held and an empty OBUF, which no command reads (spec/20_memory.md R62): what
its rule leaves in OBUF is exactly what it writes there. -/
def State.rehearsal (s : State) : State :=
  { s with out := { s.out with obuf := [] }, inp := { s.inp with ibuf := s.heldIbuf } }

/-- The OBUF addresses the accepted command's rule would write (spec/93_implementation_defined.md I2;
notes/assumptions/5.md). A rule that reads outside IBUF, which only a reader no command leaves could make `BR_READ` or
`RLE_DECRUN` do, writes none. -/
def wouldWrite (s : State) : List Nat :=
  match runCommand s.rehearsal with
  | .next t => t.out.obuf.map Prod.fst
  | .fault _ => []
  | .refused _ => []

/-- Give the listed OBUF bytes unspecified values (spec/93_implementation_defined.md I2). -/
def spoilBytes (generation : Nat) (as : List Nat) (m : Memory) : Memory :=
  as.foldl (fun m a => m.write a (Config.freeObufByte generation a)) m

/-- What aborting the command in flight does to OBUF (spec/70_reset_and_hazards.md R301): the bytes its rule would have
written hold unspecified values, a new draw of free values, and every other byte is unchanged (I2). DEDUCED: which bytes
these are where the rule reads an IBUF byte nothing has written (notes/assumptions/5.md). -/
def abortCommand (s : State) : State :=
  if s.status.busy then
    { s with
      out := { s.out with obuf := spoilBytes s.env.draws (wouldWrite s) s.out.obuf }
      env := { s.env with draws := s.env.draws + 1 } }
  else s

/-- Every register and unit at its reset value; `HIST`, `H_NSYM` and the buffers kept (spec/10_state.md R46). -/
def resetUnits (s : State) : State :=
  { s with
    regs := Regs.reset
    status := Status.reset
    latch := Latch.reset
    out := { s.out with wr := Writer.reset }
    inp := { s.inp with rd := Reader.reset }
    huf := Huffman.reset s.huf.hist s.huf.nsym
    env := { s.env with delay := 0 } }

/-- Soft reset (spec/70_reset_and_hazards.md R301). -/
def softReset (s : State) : State := resetUnits (abortCommand s)

/-- Power-on reset (spec/70_reset_and_hazards.md R300): as a soft reset, and IBUF, OBUF, `HIST` and `H_NSYM`
unspecified. DESIGN CHOICE: no buffer byte is listed, and the unwritten bytes of both buffers take a generation of free
values that no reset and no abort has used before, since `draws` is above every generation in use
(notes/assumptions/4.md, 18.md); `HIST` and `H_NSYM` are as `State.reset` has them (notes/assumptions/6.md). -/
def powerOnReset (s : State) : State :=
  let t := resetUnits s
  { t with
    out := { t.out with obuf := [] }
    inp := { t.inp with ibuf := [] }
    huf := Huffman.reset [] 0
    env := { t.env with ibufGen := s.env.draws, obufGen := s.env.draws, draws := s.env.draws + 1 } }

/-- A write to `CTRL` (spec/10_state.md R22): it writes `IE`; with `SRST` the soft reset then sets `IE` to 0, so that
write shows nowhere. -/
def writeCtrl (v : Word) (s : State) : State :=
  if v.getLsbD 0 then softReset s else { s with regs := { s.regs with ie := v.getLsbD 1 } }

/-- A register write (spec/10_state.md R20): no effect on a read-only register or where there is none. -/
def writeReg (offset : BitVec 8) (v : Word) (s : State) : State :=
  match regAt offset with
  | some .ctrl => writeCtrl v s
  | some .status => writeStatus v s
  | some .cmd => writeCmd v s
  | some .arg0 => { s with regs := { s.regs with arg0 := v } }
  | some .arg1 => { s with regs := { s.regs with arg1 := v } }
  | some .arg2 => { s with regs := { s.regs with arg2 := v } }
  | _ => s

/-! ## Buffer accesses -/

/-- A host access to a buffer while `BUSY = 1` (spec/20_memory.md R66). -/
def lockViolation (s : State) : State := { s with status := { s.status with lockv := true } }

/-- The capacity of a buffer (spec/20_memory.md R60). -/
def Buffer.capacity (s : State) : Buffer → Nat
  | .ibuf => s.cfg.ibufBytes
  | .obuf => s.cfg.obufBytes

/-- The byte at an address of a buffer: one nothing has written holds a free value
(spec/93_implementation_defined.md I3). -/
def Buffer.byteAt (s : State) (a : Nat) : Buffer → Byte
  | .ibuf => (s.inp.ibuf.read a).getD (Config.freeIbufByte s.env.ibufGen a)
  | .obuf => (s.out.obuf.read a).getD (Config.freeObufByte s.env.obufGen a)

/-- Store a byte in a buffer. -/
def Buffer.store (s : State) (a : Nat) (v : Byte) : Buffer → State
  | .ibuf => { s with inp := { s.inp with ibuf := s.inp.ibuf.write a v } }
  | .obuf => { s with out := { s.out with obuf := s.out.obuf.write a v } }

/-- A host write of a buffer byte (spec/20_memory.md R61 to R63, R66). -/
def writeBuffer (b : Buffer) (a : Nat) (v : Byte) (s : State) : State :=
  if s.status.busy then lockViolation s
  else if a < b.capacity s then b.store s a v
  else s

/-- A host read of a buffer byte (spec/20_memory.md R63, R66): 0 while locked and outside the buffer. -/
def readBuffer (b : Buffer) (a : Nat) (s : State) : Byte :=
  if s.status.busy then 0
  else if a < b.capacity s then b.byteAt s a
  else 0

/-! ## One host access -/

/-- Record what a host read returned (spec/30_encoding.md R90). -/
def reply (r : HostReply) (s : State) : State := { s with env := { s.env with replies := s.env.replies ++ [r] } }

/-- One host access takes effect (spec/20_memory.md R69, R71). `WAIT` has none: it only polls (R90). -/
def hostAccess (a : HostAction) (s : State) : State :=
  match a with
  | .regWrite o v => writeReg o v s
  | .regRead o => reply (.word (readReg o s)) s
  | .bufWrite b x v => writeBuffer b x v s
  | .bufRead b x => reply (.byte (readBuffer b x s)) (if s.status.busy then lockViolation s else s)
  | .wait => s
  | .powerOn => powerOnReset s

/-- Whether the sequencer moves next: a command is accepted, and the delay has passed, or the host has nothing left to
do before completion, or it waits for it (spec/00_scope.md R6; notes/assumptions/8.md, 9.md). -/
def sequencerTurn (s : State) : Bool :=
  s.status.busy && (match s.env.pending with
    | [] => true
    | .wait :: _ => true
    | _ :: _ => decide (s.env.delay = 0))

/-- The host's next access takes effect; with none pending the block rests (spec/60_exceptions.md R289). -/
def hostTurn (s : State) : State :=
  match s.env.pending with
  | [] => s
  | a :: rest => hostAccess a { s with env := { s.env with pending := rest, delay := s.env.delay - 1 } }

end Sys2Proof.Machine
end

