-- ==== Sys2Proof/Machine/Step.lean ====
section
/-! DEFINITION. One step of the KCB with its host (spec/00_scope.md R5, R6): either the sequencer runs the accepted
command, or the host's next access takes effect. -/

namespace Sys2Proof.Machine

/-- One step. A configuration that breaks spec/00_scope.md R9 or spec/42_rle.md R141 is refused. -/
def step (s : State) : Host.Outcome State Fault Refusal :=
  if configLegal s.cfg then
    if sequencerTurn s then runCommand s else .next (hostTurn s)
  else .refused .illegalConfiguration

/-- `s` with the command word `w` accepted, as a host write of `w` to `CMD` would leave it (spec/60_exceptions.md R272),
and the sequencer to move next. -/
def State.withFetchWord (s : State) (nbits w : Nat) : State :=
  { s with
    latch := { cmd := BitVec.ofNat 32 (w % 2 ^ nbits), arg0 := s.regs.arg0, arg1 := s.regs.arg1, arg2 := s.regs.arg2 }
    status := { s.status with busy := true }
    env := { s.env with delay := 0 } }

end Sys2Proof.Machine
end

