-- ==== Sys2Proof/Machine/Script.lean ====
section
/-! DEFINITION. The host script of spec/30_encoding.md R90 and R91: statements and pseudo-instructions as lists of host
accesses. -/

namespace Sys2Proof.Machine

/-- The offset of a register (spec/10_state.md R20). -/
def Reg.offset : Reg → BitVec 8
  | .id => 0x00
  | .ctrl => 0x04
  | .status => 0x08
  | .cmd => 0x0C
  | .arg0 => 0x10
  | .arg1 => 0x14
  | .arg2 => 0x18
  | .res0 => 0x20
  | .res1 => 0x24
  | .res2 => 0x28
  | .res3 => 0x2C
  | .errpos => 0x30
  | .errcmd => 0x34
  | .wstat => 0x38
  | .wptr => 0x3C
  | .wbits => 0x40
  | .rstat => 0x44
  | .rpos => 0x48
  | .hstat => 0x4C
  | .hleaves => 0x50

/-- A statement of the host script (spec/30_encoding.md R90). -/
inductive Stmt where
  /-- `SET <reg>, <imm32>`. -/
  | set (r : Reg) (v : Word)
  /-- `GET <reg>`. -/
  | get (r : Reg)
  /-- `PUTB <buffer>, <addr>, <byte>, ...`. -/
  | putb (b : Buffer) (a : Nat) (bytes : List Byte)
  /-- `GETB <buffer>, <addr>, <count>`. -/
  | getb (b : Buffer) (a count : Nat)
  /-- `CMD <command>`. -/
  | cmd (i : Instr)
  /-- `WAIT`. -/
  | wait
deriving DecidableEq, Repr

/-- Writes at consecutive addresses (spec/30_encoding.md R90). -/
def putAccesses (b : Buffer) : Nat → List Byte → List HostAction
  | _, [] => []
  | a, v :: vs => .bufWrite b a v :: putAccesses b (a + 1) vs

/-- Reads at consecutive addresses (spec/30_encoding.md R90). -/
def getAccesses (b : Buffer) : Nat → Nat → List HostAction
  | _, 0 => []
  | a, n + 1 => .bufRead b a :: getAccesses b (a + 1) n

/-- The host accesses of a statement (spec/30_encoding.md R90). -/
def Stmt.accesses : Stmt → List HostAction
  | .set r v => [.regWrite r.offset v]
  | .get r => [.regRead r.offset]
  | .putb b a bytes => putAccesses b a bytes
  | .getb b a n => getAccesses b a n
  | .cmd i => [.regWrite Reg.cmd.offset (encode i)]
  | .wait => [.wait]

/-- `RUN <command>` (spec/30_encoding.md R91). -/
def runStmts (i : Instr) : List Stmt := [.cmd i, .wait]

/-- `CLEAR` (spec/30_encoding.md R91). -/
def clearStmt : Stmt := .set .status 0x1E

/-- `SRESET` (spec/30_encoding.md R91). -/
def sresetStmt : Stmt := .set .ctrl 0x1

/-- `READ_BIT` (spec/30_encoding.md R91). -/
def readBit : Instr := .brRead 1

/-- `WRITE_BIT` (spec/30_encoding.md R91). -/
def writeBit : Instr := .bwWrite 1

/-- A script as the host's pending accesses, from state `s`. -/
def State.withScript (s : State) (script : List Stmt) : State :=
  { s with env := { s.env with pending := s.env.pending ++ (script.map Stmt.accesses).flatten } }

end Sys2Proof.Machine
end

