-- ==== Sys2Proof/Safety.lean ====
section
/-! DEFINITION. The terms in which statements speak of the machine: the invariants of spec/10_state.md R36, R37, R41,
bit-string views of the writer, the reader and buffer ranges (spec/00_scope.md R12, spec/41_bitstream.md R104), what a
completion leaves, the checks of a command, the codewords of a plane, trees and codes, the bits of a Huffman stream. -/

namespace Sys2Proof.Machine

/-! ## Bit strings (spec/00_scope.md R12) -/

/-- The `n`-bit binary form of `v`, most significant bit first. -/
def natBits (n v : Nat) : List Bool := (List.range n).map fun i => v.testBit (n - 1 - i)

/-- The number a bit string spells, most significant bit first. -/
def bitsNat (bs : List Bool) : Nat := bs.foldl (fun v b => 2 * v + b.toNat) 0

/-- The stream order of stored bytes (spec/41_bitstream.md R104): bytes in order, or little-endian words in order. -/
def storedBits : Gran → List Byte → List Bool
  | .byte, [] => []
  | .byte, b :: bs => natBits 8 b.toNat ++ storedBits .byte bs
  | .word, a :: b :: c :: d :: bs => natBits 32 (littleEndian [a, b, c, d]) ++ storedBits .word bs
  | .word, _ => []

/-- The `n` bytes of a buffer from address `a`, 0 standing for a byte nothing has written. -/
def bytesAt (m : Memory) (a n : Nat) : List Byte := (List.range n).map fun i => (m.read (a + i)).getD 0

/-- Every byte of `[a, a+n)` has been written. -/
abbrev Written (m : Memory) (a n : Nat) : Prop := ∀ i < n, (m.read (a + i)).isSome = true

/-- A buffer reads the same outside `[a, a+n)`. -/
def SameOutside (m m' : Memory) (a n : Nat) : Prop := ∀ x, (x < a ∨ a + n ≤ x) → m'.read x = m.read x

/-- The bit string written into the writer since its initialisation: what is stored, then what is pending. -/
def OutPort.stream (o : OutPort) : List Bool :=
  storedBits o.wr.gran (bytesAt o.obuf o.wr.base o.wr.out) ++ natBits o.wr.cnt o.wr.acc.toNat

/-- The bit string the reader has not yet consumed: what is buffered, then what is not yet fetched. -/
def Reader.ahead (r : Reader) (ibuf : Memory) : List Bool :=
  (natBits 64 r.win.toNat).take r.cnt ++ storedBits r.gran (bytesAt ibuf (r.base + r.fetch) (r.len - r.fetch))

/-! ## Invariants -/

/-- Writer state (spec/10_state.md R36): at most 63 pending bits and no accumulator bit above them, the emitted bytes
inside OBUF and whole units, the bit count covered by them; less than a unit pending unless IDLE. -/
abbrev Writer.wf (cap : Nat) (w : Writer) : Prop :=
  w.cnt ≤ 63 ∧ w.acc.toNat < 2 ^ w.cnt ∧ w.base + w.out ≤ cap ∧ w.out % (granBits w.gran / 8) = 0
    ∧ w.bits ≤ 8 * w.out + w.cnt ∧ (w.st ≠ .idle → w.cnt < granBits w.gran)

/-- Reader state (spec/10_state.md R37): at most 64 bits buffered and no window bit below them, as many bits fetched as
consumed and buffered, whole units fetched from a range inside IBUF. -/
abbrev Reader.wf (cap : Nat) (r : Reader) : Prop :=
  r.cnt ≤ 64 ∧ r.win.toNat % 2 ^ (64 - r.cnt) = 0 ∧ r.pos + r.cnt = 8 * r.fetch ∧ r.fetch ≤ r.len
    ∧ r.base + r.len ≤ cap ∧ r.len % (granBits r.gran / 8) = 0 ∧ r.fetch % (granBits r.gran / 8) = 0

/-- Huffman state (spec/10_state.md R35, R38, R40, R41): the validity implications, `H_TRAILB` 0 without a trailing
byte, `H_K` the entry count of a valid table and 0 without a tree and a table, no length above `MAX_CODE_LEN` in a valid
table, counts in canonical form under symbols below 65536, and a valid histogram's counts adding up to `H_NSYM`. -/
abbrev Huffman.wf (h : Huffman) : Prop :=
  (h.treeV = true → h.histV = true) ∧ (h.canonV = true → h.codesV = true) ∧ (h.trailp = true → h.wide = true)
    ∧ (h.trailp = false → h.trailb = 0) ∧ (h.treeV = true → h.tree.isSome = true)
    ∧ (h.codesV = true → h.ctab.length = h.k) ∧ (h.treeV = false → h.codesV = false → h.k = 0)
    ∧ (h.codesV = true → ∀ e ∈ h.ctab, e.len ≤ maxCodeLen)
    ∧ histWf h.hist = true ∧ (∀ p ∈ h.hist, p.1 < 65536) ∧ (h.histV = true → (h.hist.map Prod.snd).sum = h.nsym)

/-- `STATUS` (spec/10_state.md R23, spec/60_exceptions.md R271, R272): `ERRCODE` is 0 exactly when `ERR` is, and no
command is in flight while an error stands. -/
abbrev Status.wf (s : Status) : Prop :=
  (s.errcode = .noError ↔ s.err = false) ∧ (s.busy = true → s.err = false)

/-- Both buffers are in canonical form, with no byte at an address outside them (spec/20_memory.md R60). -/
abbrev State.buffersWf (s : State) : Prop :=
  s.inp.ibuf.wf = true ∧ s.out.obuf.wf = true
    ∧ (∀ p ∈ s.inp.ibuf, p.1 < s.cfg.ibufBytes) ∧ (∀ p ∈ s.out.obuf, p.1 < s.cfg.obufBytes)

/-- The model's own fields (notes/assumptions/18.md): the generation of either buffer's unwritten bytes is a draw already
taken, so the next draw is a new one. -/
abbrev Env.wf (e : Env) : Prop := e.ibufGen < e.draws ∧ e.obufGen < e.draws

/-- The invariant of the machine. -/
abbrev State.wf (s : State) : Prop :=
  s.buffersWf ∧ s.out.wr.wf s.cfg.obufBytes ∧ s.inp.rd.wf s.cfg.ibufBytes ∧ s.huf.wf ∧ s.status.wf ∧ s.env.wf

/-! ## Parts of the state a command leaves alone -/

/-- What no command changes: parameters, `ARGn`, `IE`, the latch, IBUF, the status bits `REJ` and `LOCKV`, the model's
own fields (spec/10_state.md R25, R42, spec/20_memory.md R61, spec/60_exceptions.md R274). -/
def Untouched (s t : State) : Prop :=
  t.cfg = s.cfg ∧ t.regs.ie = s.regs.ie ∧ t.regs.arg0 = s.regs.arg0 ∧ t.regs.arg1 = s.regs.arg1
    ∧ t.regs.arg2 = s.regs.arg2 ∧ t.latch = s.latch ∧ t.inp.ibuf = s.inp.ibuf ∧ t.status.rej = s.status.rej
    ∧ t.status.lockv = s.status.lockv ∧ t.env = s.env

/-- `STATUS` after a completion without error (spec/60_exceptions.md R274). -/
def Status.completed (st : Status) : Status := { st with busy := false, done := true }

/-- `STATUS` after a completion with error `e` (spec/60_exceptions.md R274). -/
def Status.failed (st : Status) (e : ErrorCode) : Status :=
  { st with busy := false, done := true, err := true, errcode := e }

/-- The state after a class C error (spec/60_exceptions.md R274, R278): `STATUS`, `ERRPOS` (0) and `ERRCMD` only. -/
def failedCheck (e : ErrorCode) (s : State) : State :=
  { s with regs := { s.regs with errpos := 0, errcmd := s.latch.cmd }, status := s.status.failed e }

/-- The state after a class X error at `pos` (spec/60_exceptions.md R274, R278), from the state where it arose: writer
and reader IDLE, Huffman state cleared but for `HIST` and `H_NSYM`. -/
def failedExecution (e : ErrorCode) (pos : Nat) (s : State) : State :=
  { s with
    regs := { s.regs with errpos := BitVec.ofNat 32 pos, errcmd := s.latch.cmd }
    status := s.status.failed e
    out := { s.out with wr := { s.out.wr with st := .idle } }
    inp := { s.inp with rd := { s.inp.rd with st := .idle } }
    huf := { hist := s.huf.hist, nsym := s.huf.nsym, tree := none, ctab := [], histV := false, treeV := false,
             codesV := false, canonV := false, wide := false, trailp := false, trailb := 0, k := 0 } }

/-! ## The checks of a command (spec/60_exceptions.md R275, R277) -/

/-- The state the command needs is absent: `SEQUENCE_ERROR` (R275). -/
def lacksState (s : State) : Instr → Bool
  | .bwWrite _ => decide (s.out.wr.st ≠ .active)
  | .bwFinish => decide (s.out.wr.st ≠ .active)
  | .rleEncrun _ => decide (s.out.wr.st ≠ .active)
  | .brRead _ => decide (s.inp.rd.st ≠ .active)
  | .brRemain => decide (s.inp.rd.st ≠ .active)
  | .rleDecrun _ => decide (s.inp.rd.st ≠ .active)
  | .hufHistrd => !s.huf.histV
  | .hufTree => !s.huf.histV
  | .hufCodes => !s.huf.treeV
  | .hufCanon => !s.huf.codesV
  | .hufTabrd => !s.huf.codesV
  | _ => false

/-- A field or argument outside its legal range: `ILLEGAL_ARGUMENT` (R275). -/
def badArgument (s : State) : Instr → Bool
  | .bwWrite n => decide (32 < n)
  | .brRead n => decide (32 < n)
  | .brInit g => decide (g = .word) && decide (s.argl1 % 4 ≠ 0)
  | .cbQuery t b => decide (5 < t) || decide (6 < b)
  | .rleEncrun t => decide (5 < t) || decide (s.argl0 = 0)
  | .rleDecrun t => decide (5 < t)
  | .rleEncplane t => decide (5 < t)
  | .hufHistrd => decide (65535 < s.argl0)
  | .hufTabrd => decide (s.huf.k ≤ s.argl0)
  | _ => false

/-- A named IBUF range leaves IBUF, or an OBUF base is above `OBUF_BYTES`: `BUFFER_BOUNDS` (R275). -/
def outOfBounds (s : State) : Instr → Bool
  | .bwInit _ => decide (s.cfg.obufBytes < s.argl0)
  | .brInit _ => decide (s.cfg.ibufBytes < s.argl0 + s.argl1)
  | .rleEncplane _ =>
    decide (s.cfg.ibufBytes < s.argl0 + s.planeWidth * s.planeHeight) || decide (s.cfg.obufBytes < s.argl2)
  | .rleBest =>
    decide (s.cfg.ibufBytes < s.argl0 + s.planeWidth * s.planeHeight) || decide (s.cfg.obufBytes < s.argl2)
  | .rleDecplane => decide (s.cfg.ibufBytes < s.argl0 + s.argl1) || decide (s.cfg.obufBytes < s.argl2)
  | .hufHist _ => decide (s.cfg.ibufBytes < s.argl0 + s.argl1)
  | .hufEnc _ => decide (s.cfg.ibufBytes < s.argl0 + s.argl1) || decide (s.cfg.obufBytes < s.argl2)
  | .hufDec => decide (s.cfg.ibufBytes < s.argl0 + s.argl1) || decide (s.cfg.obufBytes < s.argl2)
  | _ => false

/-- `RLE_ENCRUN` with a length above `M_t`: `RUN_TOO_LONG` (R275). -/
def runTooLong (s : State) : Instr → Bool
  | .rleEncrun t => decide (longestRun s.cfg t < s.argl0)
  | _ => false

/-- The class C errors (R275). -/
def ErrorCode.classC (e : ErrorCode) : Prop :=
  e = .runTooLong ∨ e = .illegalCommand ∨ e = .illegalArgument ∨ e = .sequenceError ∨ e = .bufferBounds

/-! ## The reader -/

/-- How many units `refill()` fetches (spec/41_bitstream.md R110): until 32 bits are buffered or the input ends. -/
def Reader.unitsToFetch (r : Reader) : Nat :=
  min ((32 - r.cnt + granBits r.gran - 1) / granBits r.gran) ((r.len - r.fetch) / (granBits r.gran / 8))

/-- The outcome of a command that fetches its input from `base` upwards, where `a` is the lowest address not written: it
stops at no other byte, and where it does not stop it has fetched only bytes below `a`. -/
def FetchesOnlyBelow (base a : Nat) (o : Result) : Prop :=
  (∀ f, o = .fault f → f = .unwrittenIbuf a) ∧ ∀ t, o = .next t → base + t.inp.rd.fetch ≤ a

/-! ## Runs of steps -/

/-- `n` steps, one after another while they answer a next state. -/
def stepMany : Nat → State → Result
  | 0, s => .next s
  | n + 1, s =>
    match step s with
    | .next t => stepMany n t
    | .fault f => .fault f
    | .refused r => .refused r

/-! ## The opcode table -/

/-- The line that spells a command (spec/30_encoding.md R89): its mnemonic and the fields it uses. -/
def asmLine : Instr → AsmLine
  | .nop => { mnemonic := "NOP" }
  | .bwInit g => { mnemonic := "BW_INIT", g := some (match g with | .byte => 0 | .word => 1) }
  | .bwWrite n => { mnemonic := "BW_WRITE", n := some n }
  | .bwFinish => { mnemonic := "BW_FINISH" }
  | .brInit g => { mnemonic := "BR_INIT", g := some (match g with | .byte => 0 | .word => 1) }
  | .brRead n => { mnemonic := "BR_READ", n := some n }
  | .brRemain => { mnemonic := "BR_REMAIN" }
  | .cbQuery t b => { mnemonic := "CB_QUERY", t := some t, b := some b }
  | .rleEncrun t => { mnemonic := "RLE_ENCRUN", t := some t }
  | .rleDecrun t => { mnemonic := "RLE_DECRUN", t := some t }
  | .rleEncplane t => { mnemonic := "RLE_ENCPLANE", t := some t }
  | .rleDecplane => { mnemonic := "RLE_DECPLANE" }
  | .rleBest => { mnemonic := "RLE_BEST" }
  | .hufHist w => { mnemonic := "HUF_HIST", w := some w.toNat }
  | .hufHistrd => { mnemonic := "HUF_HISTRD" }
  | .hufTree => { mnemonic := "HUF_TREE" }
  | .hufCodes => { mnemonic := "HUF_CODES" }
  | .hufCanon => { mnemonic := "HUF_CANON" }
  | .hufTabrd => { mnemonic := "HUF_TABRD" }
  | .hufEnc w => { mnemonic := "HUF_ENC", w := some w.toNat }
  | .hufDec => { mnemonic := "HUF_DEC" }

/-- The mnemonic of a command (spec/30_encoding.md R83). -/
def instrMnemonic : Instr → String
  | .nop => "NOP"
  | .bwInit _ => "BW_INIT"
  | .bwWrite _ => "BW_WRITE"
  | .bwFinish => "BW_FINISH"
  | .brInit _ => "BR_INIT"
  | .brRead _ => "BR_READ"
  | .brRemain => "BR_REMAIN"
  | .cbQuery _ _ => "CB_QUERY"
  | .rleEncrun _ => "RLE_ENCRUN"
  | .rleDecrun _ => "RLE_DECRUN"
  | .rleEncplane _ => "RLE_ENCPLANE"
  | .rleDecplane => "RLE_DECPLANE"
  | .rleBest => "RLE_BEST"
  | .hufHist _ => "HUF_HIST"
  | .hufHistrd => "HUF_HISTRD"
  | .hufTree => "HUF_TREE"
  | .hufCodes => "HUF_CODES"
  | .hufCanon => "HUF_CANON"
  | .hufTabrd => "HUF_TABRD"
  | .hufEnc _ => "HUF_ENC"
  | .hufDec => "HUF_DEC"

/-! ## RLE -/

/-- The codeword of a run length in its bucket (spec/42_rle.md R144). -/
def codeword (c : Config) (t len : Nat) : List Bool :=
  match bucketOf c t len with
  | none => []
  | some i => natBits (prefixBits c i) (prefixPat c i) ++ natBits (payloadBits c t i) (len - minRun c t i)

/-- The codewords of one run (spec/42_rle.md R146). -/
def runString (c : Config) (t len : Nat) : List Bool := ((runCodewords c t len len).map (codeword c t)).flatten

/-- The codeword stream of a plane (spec/42_rle.md R148, R153). -/
def planeString (c : Config) (t : Nat) (ps : List Bool) : List Bool := ((planeRuns ps).map (runString c t)).flatten

/-- The pixels codeword values stand for, from the current symbol (spec/42_rle.md R143): a continuation codeword is
`M_t - 1` pixels with no change of symbol, any other value `v` is `v` pixels and a change. -/
def expandCodewords (c : Config) (t : Nat) : (cur : Bool) → List Nat → List Bool
  | _, [] => []
  | cur, v :: vs =>
    if v = longestRun c t then List.replicate (longestRun c t - 1) cur ++ expandCodewords c t cur vs
    else List.replicate v cur ++ expandCodewords c t (!cur) vs

/-- The codewords of the values, one after another (spec/42_rle.md R144). -/
def codewordString (c : Config) (t : Nat) (vs : List Nat) : List Bool := (vs.map (codeword c t)).flatten

/-- The ten bytes of an RLE header (spec/42_rle.md R149). -/
def headerBytes (first width height t words : Nat) : List Byte :=
  [BitVec.ofNat 8 first] ++ littleEndianBytes width 2 ++ littleEndianBytes height 2 ++ [BitVec.ofNat 8 t]
    ++ littleEndianBytes words 4

/-- The pixels of a plane of `n` bytes at `a` (spec/42_rle.md R147). -/
def pixelsAt (m : Memory) (a n : Nat) : List Bool := (bytesAt m a n).map pixelOf

/-- What the encoding of a plane under type `t` leaves where it does not fit OBUF (spec/20_memory.md R65, spec/42_rle.md
R153, spec/60_exceptions.md R278): nothing where the header does not fit; otherwise the first six header bytes and the
whole words that fit, the word count unwritten, the error at the first word that does not fit. -/
def PlaneOverflows (t : Nat) (s : State) (o : Result) : Prop :=
  let ps := pixelsAt s.inp.ibuf s.argl0 (s.planeWidth * s.planeHeight)
  let bits := planeString s.cfg t ps
  let base := s.argl2 + 10
  let words := (s.cfg.obufBytes - base) / 4
  (s.cfg.obufBytes < base → o = .next (failedExecution .bufferOverflow s.argl2 s))
  ∧ (base ≤ s.cfg.obufBytes → s.cfg.obufBytes < base + 4 * ((bits.length + 31) / 32) →
      ∃ p : OutPort,
        o = .next (failedExecution .bufferOverflow (base + 4 * words) { s with out := p })
        ∧ p.wr.gran = .word ∧ p.wr.base = base ∧ p.wr.out = 4 * words ∧ p.wr.cnt ≤ 63
        ∧ p.wr.bits ≤ bits.length ∧ p.stream = bits.take p.wr.bits
        ∧ bytesAt p.obuf s.argl2 6 = (headerBytes (ps.headD false).toNat s.planeWidth s.planeHeight t 0).take 6
        ∧ Written p.obuf s.argl2 6
        ∧ storedBits .word (bytesAt p.obuf base (4 * words)) = bits.take (32 * words)
        ∧ Written p.obuf base (4 * words)
        ∧ ∀ x, (x < s.argl2 ∨ (s.argl2 + 6 ≤ x ∧ x < base) ∨ base + 4 * words ≤ x) →
            p.obuf.read x = s.out.obuf.read x)

/-! ## Huffman -/

/-- The symbols of a tree's leaves, left to right. -/
def HuffTree.symbols : HuffTree → List Sym
  | .leaf _ s => [s]
  | .interior _ l r => l.symbols ++ r.symbols

/-- The number of a tree's interior nodes. -/
def HuffTree.interiors : HuffTree → Nat
  | .leaf _ _ => 0
  | .interior _ l r => l.interiors + r.interiors + 1

/-- Every interior node's weight is the sum of its children's (spec/10_state.md R39). -/
def HuffTree.weighted : HuffTree → Prop
  | .leaf _ _ => True
  | .interior w l r => w = l.weight + r.weight ∧ l.weighted ∧ r.weighted

/-- The leaves of a tree, left to right, each with its path: false to the left, true to the right
(spec/43_huffman_build.md R200). -/
def HuffTree.paths : HuffTree → List (Sym × List Bool)
  | .leaf _ s => [(s, [])]
  | .interior _ l r =>
    (l.paths.map fun p => (p.1, false :: p.2)) ++ (r.paths.map fun p => (p.1, true :: p.2))

/-- The merge rule of spec/43_huffman_build.md R194, from a list of nodes to the root: the last node `x` becomes the
left child, the one before it `y` the right child, and the merged node goes after every node of at least its weight. -/
inductive Merges : List HuffTree → HuffTree → Prop
  | root (n : HuffTree) : Merges [n] n
  | step (hi lo : List HuffTree) (x y root : HuffTree)
      (above : ∀ n ∈ hi, x.weight + y.weight ≤ n.weight) (below : ∀ n ∈ lo, n.weight < x.weight + y.weight)
      (rest : Merges (hi ++ .interior (x.weight + y.weight) x y :: lo) root) :
      Merges (hi ++ lo ++ [y, x]) root

/-- The list is sorted as spec/43_huffman_build.md R193 asks: weight descending, then key ascending. -/
def LeavesSorted (l : List (Nat × Sym)) : Prop :=
  l.Pairwise fun a b => b.1 < a.1 ∨ (a.1 = b.1 ∧ a.2.key < b.2.key)

/-- The code of an entry as a bit string. -/
def Entry.bits (e : Entry) : List Bool := codeBits e.len e.code

/-- No code of a table is a prefix of a later or earlier one (spec/43_huffman_build.md R202). -/
def PrefixFree (es : List Entry) : Prop := es.Pairwise fun a b => ¬ a.bits <+: b.bits ∧ ¬ b.bits <+: a.bits

/-- `sum 2^-len`, scaled by `2^MAX_CODE_LEN` (spec/43_huffman_build.md R202). -/
def kraftSum (es : List Entry) : Nat := (es.map fun e => 2 ^ (maxCodeLen - e.len)).sum

/-- The Huffman unit as the four steps of the table builder leave it over an input (spec/44_huffman_codec.md R237):
histogram, tree, codes, canonical form. -/
def builtHuffman (w : Bool) (bs : List Byte) : Huffman :=
  let h := treeHuffman (histHuffman w bs)
  let tb := (h.tree.map fun t => treeCodes t 0 0).getD []
  canonHuffman (codesHuffman tb h)

/-- The code of a symbol in a table, as a bit string. -/
def symbolString (es : List Entry) (x : Sym) : List Bool := ((entryOf es x).map Entry.bits).getD []

/-- The header of a Huffman stream (spec/44_huffman_codec.md R231) for given flags, trailing byte, table. -/
def headerString (f : StreamFlags) (trail : Byte) (es : List Entry) : List Bool :=
  natBits 8 f.value
    ++ (if f.trailing then natBits 8 trail.toNat else [])
    ++ (if 1 < es.length then natBits (fieldWidth f.longCount) (es.length - 2) else [])
    ++ natBits 32 (sentIndex es)
    ++ natBits (fieldWidth f.longLen) (((entryOf es .sent).map Entry.len).getD 0)
    ++ ((es.filter fun e => decide (e.sym ≠ .sent)).map fun e =>
        natBits (fieldWidth f.wide) e.sym.value ++ natBits (fieldWidth f.longLen) e.len).flatten

/-- The payload and terminator of a Huffman stream (spec/44_huffman_codec.md R233). -/
def payloadString (es : List Entry) (xs : List Nat) : List Bool :=
  (xs.map fun x => symbolString es (.ord x)).flatten ++ symbolString es .sent

/-- The codes of entries, one after another (spec/44_huffman_codec.md R233). -/
def codeString (es : List Entry) : List Bool := (es.map Entry.bits).flatten

/-- The bytes of the entries' symbols (spec/44_huffman_codec.md R236). -/
def entryBytes (wide : Bool) (es : List Entry) : List Byte := (es.map fun e => symbolBytes wide e.sym.value).flatten

/-- How many bytes a symbol takes in the output (spec/44_huffman_codec.md R236). -/
def symbolWidth (wide : Bool) : Nat := if wide then 2 else 1

/-- The fields of a header before the count (spec/44_huffman_codec.md R231): flags, and the trailing byte where the flags
announce one. -/
def flagBits (f : StreamFlags) (trail : Byte) : List Bool :=
  natBits 8 f.value ++ (if f.trailing then natBits 8 trail.toNat else [])

/-- The count field (spec/44_huffman_codec.md R231): absent for 0 ordinary symbols. -/
def countBits (f : StreamFlags) (cnt : Nat) : List Bool :=
  if cnt = 0 then [] else natBits (fieldWidth f.longCount) (cnt - 1)

/-- The entry fields (spec/44_huffman_codec.md R231): symbol and length of each. -/
def entryBits (f : StreamFlags) (es : List (Nat × Nat)) : List Bool :=
  (es.map fun e => natBits (fieldWidth f.wide) e.1 ++ natBits (fieldWidth f.longLen) e.2).flatten

/-- The lengths a decoder accepts (spec/44_huffman_codec.md R234): at most 64, never decreasing, none 0 in a table of
more than one entry, and every running code below `2^len`, which is to say that `sum 2^-len` is at most 1. -/
def LengthsAccepted (lens : List Nat) : Prop :=
  (∀ l ∈ lens, l ≤ 64) ∧ lens.Pairwise (· ≤ ·) ∧ (1 < lens.length → ∀ l ∈ lens, l ≠ 0)
    ∧ (lens.map fun l => 2 ^ (64 - l)).sum ≤ 2 ^ 64

/-- The bits `HUF_ENC` writes for an input, padding excluded (spec/44_huffman_codec.md R231, R237). -/
def encodedString (w : Bool) (bs : List Byte) : List Bool :=
  let h := builtHuffman w bs
  headerString (encoderFlags h w) h.trailb h.ctab ++ payloadString h.ctab (inputSymbols w bs)

end Sys2Proof.Machine
end

