-- ==== Sys2Proof/Certificates/Slice0/Obligations.lean ====
section
/-! DEFINITION. The statements of this row, one `def Obligations.<Name> : Prop` each, listed in OBLIGATIONS.json. They
come from the numbered rules of spec/; a clause that rests on a choice of the model says so and names its log entry. -/

open Sys2Proof Sys2Proof.Machine

/-! ## Encoding (spec/30_encoding.md) -/

/-- R83, R84, R89: the decoder reads every well-formed command back from its word. -/
def Obligations.DecodeReadsBackEveryEncodedCommand : Prop :=
  ∀ i : Instr, i.wellFormed = true → decode (encode i) = .ok i

/-- R82, R84, R85: a word that decodes is the encoding of the command it decodes to, so each command has one word. -/
def Obligations.DecodedWordIsTheEncodingOfItsCommand : Prop :=
  ∀ (c : Word) (i : Instr), decode c = .ok i → i.wellFormed = true ∧ encode i = c

/-- R83, R84: the rows of the table with their masks; a word decodes to a command exactly when it matches that command's
row; and at most one row matches any word. -/
def Obligations.WordSpellsTheCommandWhoseRowItMatches : Prop :=
  (opTable.map fun r => (r.mnemonic, r.op, r.mask)) = [
      ("NOP", 0x00, 0xFFFFFFFF), ("BW_INIT", 0x01, 0xFFEFFFFF), ("BW_WRITE", 0x02, 0xFFFFC0FF),
      ("BW_FINISH", 0x03, 0xFFFFFFFF), ("BR_INIT", 0x04, 0xFFEFFFFF), ("BR_READ", 0x05, 0xFFFFC0FF),
      ("BR_REMAIN", 0x06, 0xFFFFFFFF), ("CB_QUERY", 0x10, 0xFFF03FFF), ("RLE_ENCRUN", 0x11, 0xFFFE3FFF),
      ("RLE_DECRUN", 0x12, 0xFFFE3FFF), ("RLE_ENCPLANE", 0x13, 0xFFFE3FFF), ("RLE_DECPLANE", 0x14, 0xFFFFFFFF),
      ("RLE_BEST", 0x15, 0xFFFFFFFF), ("HUF_HIST", 0x20, 0xFFDFFFFF), ("HUF_HISTRD", 0x21, 0xFFFFFFFF),
      ("HUF_TREE", 0x22, 0xFFFFFFFF), ("HUF_CODES", 0x23, 0xFFFFFFFF), ("HUF_CANON", 0x24, 0xFFFFFFFF),
      ("HUF_TABRD", 0x25, 0xFFFFFFFF), ("HUF_ENC", 0x26, 0xFFDFFFFF), ("HUF_DEC", 0x27, 0xFFFFFFFF)]
  ∧ (∀ (c : Word) (m : String),
      (∃ i, decode c = .ok i ∧ instrMnemonic i = m)
        ↔ ∃ r ∈ opTable, r.mnemonic = m ∧ c &&& r.mask = BitVec.ofNat 32 r.op)
  ∧ ∀ (c : Word), ∀ r ∈ opTable, ∀ r' ∈ opTable,
      c &&& r.mask = BitVec.ofNat 32 r.op → c &&& r'.mask = BitVec.ofNat 32 r'.op → r = r'

/-- R80, R81, R83: words written out from the encoding, with at least one of every family, and three illegal words. -/
def Obligations.SampleWordsDecodeAsTheEncodingSays : Prop :=
  decode 0x00100001 = .ok (.bwInit .word) ∧ decode 0x00000502 = .ok (.bwWrite 5)
    ∧ decode 0x00000004 = .ok (.brInit .byte) ∧ decode 0x00003F05 = .ok (.brRead 63)
    ∧ decode 0x000C8010 = .ok (.cbQuery 2 6) ∧ decode 0x00014011 = .ok (.rleEncrun 5)
    ∧ decode 0x0001C013 = .ok (.rleEncplane 7) ∧ decode 0x00000015 = .ok .rleBest
    ∧ decode 0x00200020 = .ok (.hufHist true) ∧ decode 0x00000022 = .ok .hufTree
    ∧ decode 0x00200026 = .ok (.hufEnc true) ∧ decode 0x00000027 = .ok .hufDec
    ∧ decode 0x00000007 = .error .reservedOpcode ∧ decode 0x00400000 = .error .reservedBits
    ∧ decode 0x00000100 = .error .unusedField

/-- R89: the line of every well-formed command assembles to its word; a line whose written fields are all used and fit
assembles to `OP | N<<8 | T<<14 | B<<17 | G<<20 | W<<21` with 0 for each omitted field, which decodes to a command of the
line's mnemonic; the assembler refuses a mnemonic that is none, a value a field cannot hold in its bits, and a field the
command does not use. -/
def Obligations.AssembledLineDecodesToItsCommand : Prop :=
  (∀ i : Instr, i.wellFormed = true → assemble (asmLine i) = some (encode i))
  ∧ (∀ (l : AsmLine), ∀ r ∈ opTable, r.mnemonic = l.mnemonic →
      (∀ v, l.n = some v → r.usesN = true ∧ v < 64) → (∀ v, l.t = some v → r.usesT = true ∧ v < 8) →
      (∀ v, l.b = some v → r.usesB = true ∧ v < 8) → (∀ v, l.g = some v → r.usesG = true ∧ v < 2) →
      (∀ v, l.w = some v → r.usesW = true ∧ v < 2) →
      let c : Word := BitVec.ofNat 32 (r.op ||| l.n.getD 0 <<< 8 ||| l.t.getD 0 <<< 14 ||| l.b.getD 0 <<< 17
        ||| l.g.getD 0 <<< 20 ||| l.w.getD 0 <<< 21)
      assemble l = some c ∧ ∃ i, decode c = .ok i ∧ instrMnemonic i = l.mnemonic)
  ∧ (∀ l : AsmLine, (∀ r ∈ opTable, r.mnemonic ≠ l.mnemonic) → assemble l = none)
  ∧ (∀ (l : AsmLine) (v : Nat), l.n = some v → 64 ≤ v → assemble l = none)
  ∧ (∀ (l : AsmLine) (v : Nat), l.t = some v → 8 ≤ v → assemble l = none)
  ∧ (∀ (l : AsmLine) (v : Nat), l.b = some v → 8 ≤ v → assemble l = none)
  ∧ (∀ (l : AsmLine) (v : Nat), l.g = some v → 2 ≤ v → assemble l = none)
  ∧ (∀ (l : AsmLine) (v : Nat), l.w = some v → 2 ≤ v → assemble l = none)
  ∧ ∀ l : AsmLine, (∀ r ∈ opTable, r.mnemonic = l.mnemonic →
      (l.n ≠ none ∧ r.usesN = false) ∨ (l.t ≠ none ∧ r.usesT = false) ∨ (l.b ≠ none ∧ r.usesB = false)
        ∨ (l.g ≠ none ∧ r.usesG = false) ∨ (l.w ≠ none ∧ r.usesW = false)) → assemble l = none

/-! ## A step (spec/00_scope.md R5, R6; spec/60_exceptions.md R271 to R274) -/

/-- R274: the sequencer's step of an accepted command decodes `CMDL` and runs that command's rule, and nothing else.
When the sequencer moves is the model's (notes/assumptions/8.md, 9.md). -/
def Obligations.StepRunsTheDecodedCommand : Prop :=
  ∀ (s : State) (i : Instr), configLegal s.cfg = true → s.status.busy = true →
    (s.env.pending = [] ∨ (∃ rest, s.env.pending = .wait :: rest) ∨ s.env.delay = 0) →
    decode s.latch.cmd = .ok i → step s = exec i s

/-- R85: an illegal word raises `ILLEGAL_COMMAND` with position 0 and changes no other state. -/
def Obligations.IllegalWordRaisesIllegalCommand : Prop :=
  ∀ s : State, configLegal s.cfg = true → s.status.busy = true →
    (s.env.pending = [] ∨ (∃ rest, s.env.pending = .wait :: rest) ∨ s.env.delay = 0) →
    (∀ r ∈ opTable, s.latch.cmd &&& r.mask ≠ BitVec.ofNat 32 r.op) →
    step s = .next (failedCheck .illegalCommand s)

/-- The model's choice (notes/assumptions/7.md to 10.md): otherwise the host's next access takes effect, and with none
pending an idle machine rests. -/
def Obligations.StepTakesTheNextHostAccess : Prop :=
  ∀ s : State, configLegal s.cfg = true →
    (∀ a rest, s.env.pending = a :: rest → (s.status.busy = false ∨ (a ≠ .wait ∧ s.env.delay ≠ 0)) →
      step s = .next (hostAccess a { s with env := { s.env with pending := rest, delay := s.env.delay - 1 } }))
    ∧ (s.env.pending = [] → s.status.busy = false → step s = .next s)

/-- How a command comes to run first (notes/assumptions/11.md): from `withFetchWord` of its word the next step is that
command's meaning, whatever the host has pending. -/
def Obligations.FetchedWordRunsItsCommand : Prop :=
  ∀ (s : State) (i : Instr), configLegal s.cfg = true → i.wellFormed = true →
    step (s.withFetchWord 32 (encode i).toNat) = exec i (s.withFetchWord 32 (encode i).toNat)

/-- A step stops only where the log says (notes/assumptions/2.md, 3.md): a refusal only of an illegal configuration, a
fault only at an unwritten IBUF byte, inside IBUF (R61, R65), while a command runs. -/
def Obligations.StepStopsOnlyOnAnUnwrittenByteOrAnIllegalConfiguration : Prop :=
  ∀ s : State,
    (∀ r, step s = .refused r ↔ r = .illegalConfiguration ∧ configLegal s.cfg = false)
    ∧ (∀ f, s.inp.rd.wf s.cfg.ibufBytes → step s = .fault f →
        s.status.busy = true ∧ ∃ a, f = .unwrittenIbuf a ∧ a < s.cfg.ibufBytes ∧ s.inp.ibuf.read a = none)

/-- R75 as the model reads it (notes/assumptions/3.md): a command that reads an IBUF byte nothing has written stops with
the fault that names that byte, the lowest one of those it reads: of the whole range (`HUF_HIST`, `HUF_ENC`, `RLE_BEST`),
of the header (`RLE_DECPLANE`), of the pixels where the runs before it fit OBUF (`RLE_ENCPLANE`), of the bytes a refill
fetches (`BR_READ`, and `RLE_DECRUN` before the prefix and again before the payload). A decoder reads on only as far as its
input asks: it stops at no other byte, and a run that does not stop has fetched only bytes below that one. -/
def Obligations.UnwrittenInputByteStopsTheCommand : Prop :=
  ∀ (s : State) (a : Nat), configLegal s.cfg = true → s.inp.ibuf.read a = none →
    (s.argl0 ≤ a → Written s.inp.ibuf s.argl0 (a - s.argl0) →
      (a < s.argl0 + s.argl1 → s.argl0 + s.argl1 ≤ s.cfg.ibufBytes →
        (∀ w, exec (.hufHist w) s = .fault (.unwrittenIbuf a))
        ∧ (s.argl2 ≤ s.cfg.obufBytes →
          (∀ w, exec (.hufEnc w) s = .fault (.unwrittenIbuf a))
          ∧ (a < s.argl0 + 4 → exec .hufDec s = .fault (.unwrittenIbuf a))
          ∧ FetchesOnlyBelow s.argl0 a (exec .hufDec s)
          ∧ (10 ≤ s.argl1 → a < s.argl0 + 10 → exec .rleDecplane s = .fault (.unwrittenIbuf a))
          ∧ (let byte := fun i => ((s.inp.ibuf.read (s.argl0 + i)).getD 0).toNat
             s.argl0 + 10 ≤ a → byte 0 ≤ 1 → byte 5 ≤ 5 →
             10 + 4 * littleEndian (bytesAt s.inp.ibuf (s.argl0 + 6) 4) ≤ s.argl1 →
             FetchesOnlyBelow (s.argl0 + 10) a (exec .rleDecplane s))))
      ∧ (a < s.argl0 + s.planeWidth * s.planeHeight → s.argl0 + s.planeWidth * s.planeHeight ≤ s.cfg.ibufBytes →
        (s.argl2 ≤ s.cfg.obufBytes → exec .rleBest s = .fault (.unwrittenIbuf a))
        ∧ ∀ t ≤ 5,
          let before := (planeRuns (pixelsAt s.inp.ibuf s.argl0 (a - s.argl0))).dropLast
          (∀ f, exec (.rleEncplane t) s = .fault f → f = .unwrittenIbuf a)
          ∧ (s.argl2 + 10 + 4 * ((before.map (runString s.cfg t)).flatten.length / 32) ≤ s.cfg.obufBytes →
              exec (.rleEncplane t) s = .fault (.unwrittenIbuf a))))
    ∧ (s.inp.rd.st = .active → s.inp.rd.wf s.cfg.ibufBytes → s.inp.rd.base + s.inp.rd.fetch ≤ a →
        Written s.inp.ibuf (s.inp.rd.base + s.inp.rd.fetch) (a - (s.inp.rd.base + s.inp.rd.fetch)) →
        let g := granBits s.inp.rd.gran
        let units := s.inp.rd.unitsToFetch
        let next := s.inp.rd.base + s.inp.rd.fetch + g / 8 * units
        (∀ n ≤ 32, FetchesOnlyBelow s.inp.rd.base a (exec (.brRead n) s)
          ∧ (a < next → exec (.brRead n) s = .fault (.unwrittenIbuf a)))
        ∧ ∀ t ≤ 5, FetchesOnlyBelow s.inp.rd.base a (exec (.rleDecrun t) s)
          ∧ (a < next → exec (.rleDecrun t) s = .fault (.unwrittenIbuf a))
          ∧ ∀ i ≤ 6, next ≤ a → natBits (prefixBits s.cfg i) (prefixPat s.cfg i) <+: s.inp.rd.ahead s.inp.ibuf →
              codewordBits s.cfg t i ≤ s.inp.rd.cnt + g * units →
              let r : Reader := { s.inp.rd with
                cnt := s.inp.rd.cnt + g * units - prefixBits s.cfg i, fetch := s.inp.rd.fetch + g / 8 * units }
              a < next + g / 8 * r.unitsToFetch → exec (.rleDecrun t) s = .fault (.unwrittenIbuf a))

/-- R274: an accepted command always comes to its end. From a busy state, within as many steps as the host has accesses
pending and one more, the sequencer is idle, or the command has stopped at an unwritten byte (notes/assumptions/3.md).
That the wait is counted in host accesses is the model's (notes/assumptions/8.md). -/
def Obligations.AcceptedCommandComesToAnEnd : Prop :=
  ∀ s : State, configLegal s.cfg = true → s.status.busy = true →
    ∃ n ≤ s.env.pending.length + 1,
      (∃ t, stepMany n s = .next t ∧ t.status.busy = false) ∨ ∃ a, stepMany n s = .fault (.unwrittenIbuf a)

/-! ## The host's registers and buffers (spec/10_state.md, spec/20_memory.md, spec/60_exceptions.md) -/

/-- R272, R273: a `CMD` write while `BUSY` and `ERR` are clear is accepted: it latches the word and the arguments, sets
`BUSY` and changes nothing else of the block (the model's own fields: a delay is drawn, notes/assumptions/8.md). While
`BUSY` or `ERR` it is refused: `REJ` is set and nothing else changes. -/
def Obligations.CommandWriteIsLatchedOrRefused : Prop :=
  ∀ (s : State) (c : Word),
    (s.status.busy = false → s.status.err = false →
      hostAccess (.regWrite 0x0C c) s = { s with
        latch := { cmd := c, arg0 := s.regs.arg0, arg1 := s.regs.arg1, arg2 := s.regs.arg2 }
        status := { s.status with busy := true }
        env := { s.env with delay := Config.completionDelay s.env.draws, draws := s.env.draws + 1 } })
    ∧ (s.status.busy = true ∨ s.status.err = true →
      hostAccess (.regWrite 0x0C c) s = { s with status := { s.status with rej := true } })

/-- R23, R280: a `STATUS` write clears each of `DONE`, `ERR`, `REJ`, `LOCKV` whose bit is written 1, clears `ERRCODE`
with `ERR`, and changes nothing else (`ERRPOS` and `ERRCMD` keep their values). -/
def Obligations.StatusWriteClearsTheBitsWrittenOne : Prop :=
  ∀ (s : State) (v : Word),
    hostAccess (.regWrite 0x08 v) s = { s with
      status := {
        busy := s.status.busy
        done := s.status.done && !v.getLsbD 1
        err := s.status.err && !v.getLsbD 2
        rej := s.status.rej && !v.getLsbD 3
        lockv := s.status.lockv && !v.getLsbD 4
        errcode := if v.getLsbD 2 then .noError else s.status.errcode } }

/-- R20, R22, R25: what the other register writes do: `CTRL` without `SRST` writes `IE`, `ARGn` are written whole, and a
write to a read-only register or where there is none has no effect, whatever `BUSY` is. That a misaligned offset, at which
R68 says that no access exists, is one where there is no register is the model's choice (notes/assumptions/12.md). -/
def Obligations.RegisterWritesReachOnlyTheirRegister : Prop :=
  ∀ (s : State) (v : Word),
    (v.getLsbD 0 = false →
      hostAccess (.regWrite 0x04 v) s = { s with regs := { s.regs with ie := v.getLsbD 1 } })
    ∧ hostAccess (.regWrite 0x10 v) s = { s with regs := { s.regs with arg0 := v } }
    ∧ hostAccess (.regWrite 0x14 v) s = { s with regs := { s.regs with arg1 := v } }
    ∧ hostAccess (.regWrite 0x18 v) s = { s with regs := { s.regs with arg2 := v } }
    ∧ ∀ o : BitVec 8, o ≠ 0x04 → o ≠ 0x08 → o ≠ 0x0C → o ≠ 0x10 → o ≠ 0x14 → o ≠ 0x18 →
        hostAccess (.regWrite o v) s = s

/-- R20 to R35, R69: what each register reads, 0 where there is none (a misaligned offset is none,
notes/assumptions/12.md), and a read changes nothing (its value joins the replies, notes/assumptions/7.md). -/
def Obligations.RegisterReadsReturnTheirState : Prop :=
  ∀ s : State,
    readReg 0x00 s = 0x4B434231 ∧ readReg 0x0C s = 0
    ∧ readReg 0x10 s = s.regs.arg0 ∧ readReg 0x14 s = s.regs.arg1 ∧ readReg 0x18 s = s.regs.arg2
    ∧ readReg 0x20 s = s.regs.res0 ∧ readReg 0x24 s = s.regs.res1 ∧ readReg 0x28 s = s.regs.res2
    ∧ readReg 0x2C s = s.regs.res3 ∧ readReg 0x30 s = s.regs.errpos ∧ readReg 0x34 s = s.regs.errcmd
    ∧ readReg 0x3C s = BitVec.ofNat 32 s.out.wr.out ∧ readReg 0x40 s = BitVec.ofNat 32 s.out.wr.bits
    ∧ readReg 0x48 s = BitVec.ofNat 32 s.inp.rd.pos ∧ readReg 0x50 s = BitVec.ofNat 32 s.huf.k
    ∧ (∀ o : BitVec 8, (o.toNat % 4 ≠ 0 ∨ o = 0x1C ∨ 0x54 ≤ o.toNat) → readReg o s = 0)
    ∧ ∀ o : BitVec 8, hostAccess (.regRead o) s =
        { s with env := { s.env with replies := s.env.replies ++ [.word (readReg o s)] } }

/-- R22, R23, R29, R32, R34: the bits of `CTRL`, `STATUS`, `WSTAT`, `RSTAT` and `HSTAT`, reserved ones reading 0, in
every state that meets the invariants of R36 and R37; `ERRCODE` shows the numbers of R275. -/
def Obligations.StatusRegistersShowTheirFields : Prop :=
  ∀ s : State, s.out.wr.cnt ≤ 63 → s.inp.rd.cnt ≤ 64 →
    (∀ i < 32, (readReg 0x04 s).getLsbD i = (decide (i = 1) && s.regs.ie))
    ∧ (∀ i < 8, (readReg 0x08 s).getLsbD i = ((decide (i = 0) && s.status.busy) || (decide (i = 1) && s.status.done)
        || (decide (i = 2) && s.status.err) || (decide (i = 3) && s.status.rej) || (decide (i = 4) && s.status.lockv)))
    ∧ (readReg 0x08 s).toNat / 2 ^ 8 =
        (match s.status.errcode with
          | .noError => 0 | .unexpectedEof => 1 | .corruptStream => 2 | .runTooLong => 3 | .illegalCommand => 4
          | .illegalArgument => 5 | .sequenceError => 6 | .bufferBounds => 7 | .bufferOverflow => 8 | .codeTooLong => 9)
    ∧ (readReg 0x38 s).toNat % 2 ^ 8 =
        (match s.out.wr.st with | .idle => 0 | .active => 1 | .finished => 2)
          + (if s.out.wr.gran = .word then 4 else 0)
    ∧ (readReg 0x38 s).toNat / 2 ^ 8 = s.out.wr.cnt
    ∧ (readReg 0x44 s).toNat % 2 ^ 8 =
        (match s.inp.rd.st with | .idle => 0 | .active => 1) + (if s.inp.rd.gran = .word then 4 else 0)
    ∧ (readReg 0x44 s).toNat / 2 ^ 8 = s.inp.rd.cnt
    ∧ (∀ i < 8, (readReg 0x4C s).getLsbD i = ((decide (i = 0) && s.huf.histV) || (decide (i = 1) && s.huf.treeV)
        || (decide (i = 2) && s.huf.codesV) || (decide (i = 3) && s.huf.canonV) || (decide (i = 4) && s.huf.wide)
        || (decide (i = 5) && s.huf.trailp)))
    ∧ (readReg 0x4C s).toNat / 2 ^ 8 = s.huf.trailb.toNat

/-- R66: while `BUSY`, a host access to either buffer has no effect but `LOCKV`, and a read returns 0. -/
def Obligations.BusyLocksBothBuffers : Prop :=
  ∀ (s : State) (b : Buffer) (a : Nat) (v : Byte), s.status.busy = true →
    hostAccess (.bufWrite b a v) s = { s with status := { s.status with lockv := true } }
    ∧ hostAccess (.bufRead b a) s = { s with
        status := { s.status with lockv := true }
        env := { s.env with replies := s.env.replies ++ [.byte 0] } }

/-- R60 to R63, R69: with `BUSY` clear, a write inside a buffer sets that byte, which then reads as written, and changes
no other byte of either buffer and no register; outside it has no effect, and a read there returns 0; a read has no
effect (its value joins the replies, notes/assumptions/7.md). -/
def Obligations.IdleBufferAccessReachesOneByte : Prop :=
  ∀ (s : State) (b : Buffer) (a : Nat) (v : Byte), s.status.busy = false →
    (a < b.capacity s → ∃ t, hostAccess (.bufWrite b a v) s = t ∧ readBuffer b a t = v
      ∧ (∀ b' x, (b' ≠ b ∨ x ≠ a) → readBuffer b' x t = readBuffer b' x s)
      ∧ t = { s with out := { s.out with obuf := t.out.obuf }, inp := { s.inp with ibuf := t.inp.ibuf } })
    ∧ (b.capacity s ≤ a → hostAccess (.bufWrite b a v) s = s ∧ readBuffer b a s = 0)
    ∧ hostAccess (.bufRead b a) s =
        { s with env := { s.env with replies := s.env.replies ++ [.byte (readBuffer b a s)] } }

/-- R282: `IRQ = CTRL.IE & (STATUS.DONE | STATUS.ERR | STATUS.REJ)`, in the bits the host reads. -/
def Obligations.InterruptIsALevelOfEnabledStatus : Prop :=
  ∀ s : State, s.irq = true ↔ (readReg 0x04 s).getLsbD 1 = true
    ∧ ((readReg 0x08 s).getLsbD 1 = true ∨ (readReg 0x08 s).getLsbD 2 = true ∨ (readReg 0x08 s).getLsbD 3 = true)

/-- R46, R301: a soft reset puts every piece of state at its reset value but `HIST`, `H_NSYM`, IBUF and OBUF; OBUF keeps
every byte when idle, and every byte the aborted command would not have written when busy: all of OBUF for a command with
no output, and in any case every byte below the command's output address. A byte it would have written holds a free value.
Which bytes those are where the command reads an IBUF byte nothing has written is the model's reading of R301
(notes/assumptions/5.md): what the rule writes with that byte at the value it holds. -/
def Obligations.SoftResetPutsStateAtItsResetValues : Prop :=
  ∀ (s : State) (v : Word), v.getLsbD 0 = true →
    ∃ obuf draws, hostAccess (.regWrite 0x04 v) s = { s with
        regs := { ie := false, arg0 := 0, arg1 := 0, arg2 := 0, res0 := 0, res1 := 0, res2 := 0, res3 := 0,
                  errpos := 0, errcmd := 0 }
        status := { busy := false, done := false, err := false, rej := false, lockv := false, errcode := .noError }
        latch := { cmd := 0, arg0 := 0, arg1 := 0, arg2 := 0 }
        out := {
          wr := { st := .idle, gran := .byte, base := 0, acc := 0, cnt := 0, out := 0, bits := 0 }
          obuf := obuf }
        inp := { s.inp with
          rd := { st := .idle, gran := .byte, base := 0, len := 0, fetch := 0, win := 0, cnt := 0, pos := 0 } }
        huf := { hist := s.huf.hist, nsym := s.huf.nsym, tree := none, ctab := [], histV := false, treeV := false,
                 codesV := false, canonV := false, wide := false, trailp := false, trailb := 0, k := 0 }
        env := { s.env with delay := 0, draws := draws } }
      ∧ (s.status.busy = false → obuf = s.out.obuf ∧ draws = s.env.draws)
      ∧ (s.status.busy = true → draws = s.env.draws + 1
        ∧ (s.inp.rd.wf s.cfg.ibufBytes → ∃ t, runCommand s.rehearsal = .next t)
        ∧ (∀ t, runCommand s.rehearsal = .next t →
          ∀ a, (t.out.obuf.read a = none → obuf.read a = s.out.obuf.read a)
            ∧ ((t.out.obuf.read a).isSome = true → obuf.read a = some (Config.freeObufByte s.env.draws a)))
        ∧ (∀ a < s.cfg.ibufBytes, s.rehearsal.inp.ibuf.read a = some (Buffer.ibuf.byteAt s a))
        ∧ (∀ i, decode s.latch.cmd = .ok i →
          ((∀ n t, i ≠ .bwWrite n ∧ i ≠ .rleEncrun t ∧ i ≠ .rleEncplane t) → i ≠ .bwFinish → i ≠ .rleDecplane →
            i ≠ .rleBest → (∀ w, i ≠ .hufEnc w) → i ≠ .hufDec → obuf = s.out.obuf)
          ∧ ((∃ t, i = .rleEncplane t) ∨ i = .rleDecplane ∨ i = .rleBest ∨ (∃ w, i = .hufEnc w) ∨ i = .hufDec →
            ∀ a < s.argl2, obuf.read a = s.out.obuf.read a)
          ∧ ((∃ n, i = .bwWrite n) ∨ i = .bwFinish ∨ (∃ t, i = .rleEncrun t) →
            ∀ a < s.out.wr.base + s.out.wr.out, obuf.read a = s.out.obuf.read a)))

/-- R46, R300: a power-on reset aborts any command and puts every piece of state at its reset value; the parameters and
the ROM stay. That no buffer byte is listed and the unwritten bytes take a generation not in use before, and that `HIST`
and `H_NSYM` are 0, is the model's choice (notes/assumptions/3.md, 4.md, 6.md, 18.md). -/
def Obligations.PowerOnResetPutsStateAtItsResetValues : Prop :=
  ∀ s : State, hostAccess .powerOn s = { State.reset with
      cfg := s.cfg
      env := { s.env with delay := 0, ibufGen := s.env.draws, obufGen := s.env.draws, draws := s.env.draws + 1 } }
    ∧ (s.env.wf → s.env.draws ≠ s.env.ibufGen ∧ s.env.draws ≠ s.env.obufGen)

/-- R46: after reset `ID` reads its constant, every other register reads 0, and `IRQ` is 0. That every offset where R20
has no register, a misaligned one included, reads 0 as well is the model's choice for the misaligned ones
(notes/assumptions/12.md). -/
def Obligations.ResetRegistersReadTheirResetValues : Prop :=
  readReg 0x00 State.reset = 0x4B434231
    ∧ (∀ o : BitVec 8, o ≠ 0 → readReg o State.reset = 0)
    ∧ State.reset.irq = false ∧ State.reset.huf.tree = none ∧ State.reset.huf.ctab = []

/-! ## The bit-stream unit (spec/41_bitstream.md R114 to R120) -/

/-- R114: `NOP` only completes. -/
def Obligations.NopOnlyCompletes : Prop :=
  ∀ s : State, exec .nop s = .next { s with status := s.status.completed }

/-- R115: `BW_INIT` initialises the writer from any state, or raises `BUFFER_BOUNDS`. -/
def Obligations.BwInitInitialisesTheWriter : Prop :=
  ∀ (g : Gran) (s : State),
    (s.argl0 ≤ s.cfg.obufBytes →
      exec (.bwInit g) s = .next { s with
        status := s.status.completed
        out := { s.out with wr := { st := .active, gran := g, base := s.argl0, acc := 0, cnt := 0, out := 0, bits := 0 } } })
    ∧ (s.cfg.obufBytes < s.argl0 → exec (.bwInit g) s = .next (failedCheck .bufferBounds s))

/-- R106, R107, R116: `BW_WRITE n` appends the low `n` bits of `ARGL0` to the stream, most significant first, and emits
every completed unit that fits OBUF; if one does not fit it raises `BUFFER_OVERFLOW` at that unit's address. The checks
come first. -/
def Obligations.BwWriteAppendsBitsToTheStream : Prop :=
  ∀ (n : Nat) (s : State),
    (s.out.wr.st ≠ .active → exec (.bwWrite n) s = .next (failedCheck .sequenceError s))
    ∧ (s.out.wr.st = .active → 32 < n → exec (.bwWrite n) s = .next (failedCheck .illegalArgument s))
    ∧ (s.out.wr.st = .active → n ≤ 32 → s.out.wr.wf s.cfg.obufBytes →
        let g := granBits s.out.wr.gran
        let units := (s.out.wr.cnt + n) / g
        let emitted := min units ((s.cfg.obufBytes - (s.out.wr.base + s.out.wr.out)) / (g / 8))
        ∃ acc obuf, let o : OutPort := {
            wr := { s.out.wr with
              acc := acc
              cnt := s.out.wr.cnt + n - g * emitted
              out := s.out.wr.out + g / 8 * emitted
              bits := s.out.wr.bits + n }
            obuf := obuf }
          o.stream = s.out.stream ++ natBits n s.argl0
          ∧ acc.toNat < 2 ^ (s.out.wr.cnt + n - g * emitted)
          ∧ SameOutside s.out.obuf obuf (s.out.wr.base + s.out.wr.out) (g / 8 * emitted)
          ∧ (emitted = units → exec (.bwWrite n) s = .next { s with status := s.status.completed, out := o })
          ∧ (emitted < units → exec (.bwWrite n) s =
              .next (failedExecution .bufferOverflow (s.out.wr.base + s.out.wr.out + g / 8 * emitted) { s with out := o })))

/-- R108, R117: `BW_FINISH` zero-pads the pending bits to a unit, emits it and ends the stream; `RES0` is the length in
bytes and `RES1` the data bits. A unit that does not fit is `BUFFER_OVERFLOW` and is not written. -/
def Obligations.BwFinishPadsAndEndsTheStream : Prop :=
  ∀ s : State,
    (s.out.wr.st ≠ .active → exec .bwFinish s = .next (failedCheck .sequenceError s))
    ∧ (s.out.wr.st = .active → s.out.wr.wf s.cfg.obufBytes →
        let m := granBits s.out.wr.gran / 8
        let pad := if s.out.wr.cnt = 0 then 0 else m
        (s.out.wr.base + s.out.wr.out + pad ≤ s.cfg.obufBytes →
          ∃ obuf, exec .bwFinish s = .next { s with
              status := s.status.completed
              regs := { s.regs with
                res0 := BitVec.ofNat 32 (s.out.wr.out + pad), res1 := BitVec.ofNat 32 s.out.wr.bits }
              out := {
                wr := { s.out.wr with st := .finished, acc := 0, cnt := 0, out := s.out.wr.out + pad }
                obuf := obuf } }
            ∧ storedBits s.out.wr.gran (bytesAt obuf s.out.wr.base (s.out.wr.out + pad))
                = s.out.stream ++ List.replicate (8 * pad - s.out.wr.cnt) false
            ∧ SameOutside s.out.obuf obuf (s.out.wr.base + s.out.wr.out) pad)
        ∧ (s.cfg.obufBytes < s.out.wr.base + s.out.wr.out + pad →
          exec .bwFinish s = .next (failedExecution .bufferOverflow (s.out.wr.base + s.out.wr.out) s)))

/-- R118: `BR_INIT` initialises the reader over an IBUF range, or raises the first error of its two checks. -/
def Obligations.BrInitInitialisesTheReader : Prop :=
  ∀ (g : Gran) (s : State),
    ((g = .word → s.argl1 % 4 = 0) → s.argl0 + s.argl1 ≤ s.cfg.ibufBytes →
      exec (.brInit g) s = .next { s with
        status := s.status.completed
        inp := { s.inp with rd :=
          { st := .active, gran := g, base := s.argl0, len := s.argl1, fetch := 0, win := 0, cnt := 0, pos := 0 } } })
    ∧ (g = .word → s.argl1 % 4 ≠ 0 → exec (.brInit g) s = .next (failedCheck .illegalArgument s))
    ∧ ((g = .word → s.argl1 % 4 = 0) → s.cfg.ibufBytes < s.argl0 + s.argl1 →
      exec (.brInit g) s = .next (failedCheck .bufferBounds s))

/-- R110, R111, R119: `BR_READ n` refills the window and returns the next `n` bits of the input as a number, most
significant first, consuming them; with fewer than `n` bits left it raises `UNEXPECTED_EOF` at the next bit's address,
consuming none. The checks come first. (An unwritten byte among those the refill fetches: notes/assumptions/3.md.) -/
def Obligations.BrReadConsumesTheNextBits : Prop :=
  ∀ (n : Nat) (s : State),
    (s.inp.rd.st ≠ .active → exec (.brRead n) s = .next (failedCheck .sequenceError s))
    ∧ (s.inp.rd.st = .active → 32 < n → exec (.brRead n) s = .next (failedCheck .illegalArgument s))
    ∧ (s.inp.rd.st = .active → n ≤ 32 → s.inp.rd.wf s.cfg.ibufBytes →
        let m := granBits s.inp.rd.gran / 8 * s.inp.rd.unitsToFetch
        let ahead := s.inp.rd.ahead s.inp.ibuf
        Written s.inp.ibuf (s.inp.rd.base + s.inp.rd.fetch) m →
        (n ≤ ahead.length → ∃ win, let r : Reader := { s.inp.rd with
              win := win, cnt := s.inp.rd.cnt + 8 * m - n, fetch := s.inp.rd.fetch + m, pos := s.inp.rd.pos + n }
            exec (.brRead n) s = .next { s with
              status := s.status.completed
              regs := { s.regs with res0 := BitVec.ofNat 32 (bitsNat (ahead.take n)) }
              inp := { s.inp with rd := r } }
            ∧ r.ahead s.inp.ibuf = ahead.drop n ∧ r.wf s.cfg.ibufBytes)
        ∧ (ahead.length < n → ∃ win, let r : Reader := { s.inp.rd with
              win := win, cnt := s.inp.rd.cnt + 8 * m, fetch := s.inp.rd.fetch + m }
            exec (.brRead n) s = .next
              (failedExecution .unexpectedEof (8 * s.inp.rd.base + s.inp.rd.pos) { s with inp := { s.inp with rd := r } })
            ∧ r.ahead s.inp.ibuf = ahead ∧ r.wf s.cfg.ibufBytes))

/-- R113, R120: `BR_REMAIN` reports the input's length and the bits not yet consumed, and reads nothing. -/
def Obligations.BrRemainReportsWhatIsLeft : Prop :=
  ∀ s : State,
    (s.inp.rd.st ≠ .active → exec .brRemain s = .next (failedCheck .sequenceError s))
    ∧ (s.inp.rd.st = .active → exec .brRemain s = .next { s with
        status := s.status.completed
        regs := { s.regs with
          res0 := BitVec.ofNat 32 s.inp.rd.len
          res1 := BitVec.ofNat 32 (s.inp.rd.cnt + 8 * (s.inp.rd.len - s.inp.rd.fetch)) } })

/-! ## The RLE unit (spec/42_rle.md) -/

/-- R142, R156: the bucket ranges of a type begin at 1, follow one another without gap, hold `2^CB_PAYLOAD` lengths
each, and partition `[1, M_t]`; `M_t >= 7`; the bucket of a length is the one whose range holds it. -/
def Obligations.BucketsPartitionTheRunLengths : Prop :=
  ∀ (c : Config) (t : Nat),
    minRun c t 0 = 1 ∧ (∀ i, minRun c t (i + 1) = maxRun c t i + 1)
    ∧ (∀ i, maxRun c t i + 1 = minRun c t i + 2 ^ payloadBits c t i)
    ∧ 7 ≤ longestRun c t
    ∧ (∀ len, 1 ≤ len → len ≤ longestRun c t →
        ∃ i ≤ 6, bucketOf c t len = some i ∧ minRun c t i ≤ len ∧ len ≤ maxRun c t i
          ∧ ∀ j ≤ 6, minRun c t j ≤ len → len ≤ maxRun c t j → j = i)
    ∧ (∀ i ≤ 5, bucketOf c t (maxRun c t i) = some i ∧ bucketOf c t (maxRun c t i + 1) = some (i + 1))

/-- R141, R144: in a legal configuration the codewords of a type are prefix-free, at most 32 bits each, and tell their
run lengths apart. -/
def Obligations.CodewordsOfATypeArePrefixFree : Prop :=
  ∀ (c : Config) (t a b : Nat), configLegal c = true → t ≤ 5 → 1 ≤ a → a ≤ longestRun c t → 1 ≤ b →
    b ≤ longestRun c t → codeword c t a <+: codeword c t b → a = b ∧ (codeword c t a).length ≤ 32

/-- R143, R146: a run of `L` is continuation codewords and one last codeword below `M_t`; they stand for `L` pixels of
one symbol and one change; their number is R146's. -/
def Obligations.RunIsContinuationCodewordsAndARemainder : Prop :=
  ∀ (c : Config) (t len : Nat) (cur : Bool), 1 ≤ len →
    ∃ q r, runCodewords c t len len = List.replicate q (longestRun c t) ++ [r]
      ∧ 1 ≤ r ∧ r < longestRun c t ∧ len = q * (longestRun c t - 1) + r
      ∧ q = (if len < longestRun c t then 0 else (len - 1) / (longestRun c t - 1))
      ∧ expandCodewords c t cur (runCodewords c t len len) = List.replicate len cur
      ∧ ∀ vs, expandCodewords c t cur (runCodewords c t len len ++ vs)
          = List.replicate len cur ++ expandCodewords c t (!cur) vs

/-- R143, R148: the runs of a plane are all at least 1, and their codewords stand for exactly its pixels. -/
def Obligations.PlaneCodewordsStandForItsPixels : Prop :=
  ∀ (c : Config) (t : Nat) (ps : List Bool),
    (∀ r ∈ planeRuns ps, 1 ≤ r) ∧ (planeRuns ps).sum = ps.length
    ∧ expandCodewords c t (firstSymbol ps) ((planeRuns ps).map fun r => runCodewords c t r r).flatten = ps

/-- R150: `CB_QUERY` reports a bucket of the ROM; a type above 5 or a bucket above 6 is `ILLEGAL_ARGUMENT`. -/
def Obligations.CbQueryReportsABucket : Prop :=
  ∀ (t b : Nat) (s : State),
    (t ≤ 5 → b ≤ 6 → configLegal s.cfg = true → exec (.cbQuery t b) s = .next { s with
      status := s.status.completed
      regs := { s.regs with
        res0 := BitVec.ofNat 32 (minRun s.cfg t b)
        res1 := BitVec.ofNat 32 (maxRun s.cfg t b)
        res2 := BitVec.ofNat 32 (prefixBits s.cfg b) ||| BitVec.ofNat 32 (payloadBits s.cfg t b) <<< 8
        res3 := BitVec.ofNat 32 (prefixPat s.cfg b) } })
    ∧ (5 < t ∨ 6 < b → exec (.cbQuery t b) s = .next (failedCheck .illegalArgument s))

/-- R144, R151: `RLE_ENCRUN` appends the codeword of `ARGL0` to the writer's stream and reports its bucket and size;
the checks come first, in R277's order. Where a unit does not fit OBUF it raises `BUFFER_OVERFLOW` at that unit's address:
the units before it stay written, and the writer has taken the prefix, or the prefix and the payload where the payload
completes that unit. -/
def Obligations.RleEncrunAppendsOneCodeword : Prop :=
  ∀ (t : Nat) (s : State), configLegal s.cfg = true →
    (s.out.wr.st ≠ .active → exec (.rleEncrun t) s = .next (failedCheck .sequenceError s))
    ∧ (s.out.wr.st = .active → (5 < t ∨ s.argl0 = 0) →
        exec (.rleEncrun t) s = .next (failedCheck .illegalArgument s))
    ∧ (s.out.wr.st = .active → t ≤ 5 → longestRun s.cfg t < s.argl0 →
        exec (.rleEncrun t) s = .next (failedCheck .runTooLong s))
    ∧ (s.out.wr.st = .active → t ≤ 5 → s.argl0 ≠ 0 → s.argl0 ≤ longestRun s.cfg t → s.out.wr.wf s.cfg.obufBytes →
        let g := granBits s.out.wr.gran
        let n := (codeword s.cfg t s.argl0).length
        let units := (s.out.wr.cnt + n) / g
        let emitted := min units ((s.cfg.obufBytes - (s.out.wr.base + s.out.wr.out)) / (g / 8))
        ∃ i acc obuf, i ≤ 6 ∧ minRun s.cfg t i ≤ s.argl0 ∧ s.argl0 ≤ maxRun s.cfg t i ∧
          let taken := if emitted < (s.out.wr.cnt + prefixBits s.cfg i) / g then prefixBits s.cfg i else n
          let o : OutPort := {
            wr := { s.out.wr with
              acc := acc
              cnt := s.out.wr.cnt + taken - g * emitted
              out := s.out.wr.out + g / 8 * emitted
              bits := s.out.wr.bits + taken }
            obuf := obuf }
          o.stream = s.out.stream ++ (codeword s.cfg t s.argl0).take taken
          ∧ acc.toNat < 2 ^ (s.out.wr.cnt + taken - g * emitted)
          ∧ SameOutside s.out.obuf obuf (s.out.wr.base + s.out.wr.out) (g / 8 * emitted)
          ∧ (emitted = units → taken = n ∧ exec (.rleEncrun t) s = .next { s with
              status := s.status.completed
              regs := { s.regs with res0 := BitVec.ofNat 32 i, res1 := BitVec.ofNat 32 n }
              out := o })
          ∧ (emitted < units → exec (.rleEncrun t) s =
              .next (failedExecution .bufferOverflow (s.out.wr.base + s.out.wr.out + g / 8 * emitted) { s with out := o })))

/-- R145, R152: `RLE_DECRUN` consumes the codeword the input begins with and reports its value, its bucket and whether it
is a continuation; with no whole codeword it raises `UNEXPECTED_EOF` or `CORRUPT_STREAM` at the next bit's address. The
checks come first. (Unwritten input bytes: notes/assumptions/3.md.) -/
def Obligations.RleDecrunConsumesOneCodeword : Prop :=
  ∀ (t : Nat) (s : State), configLegal s.cfg = true →
    (s.inp.rd.st ≠ .active → exec (.rleDecrun t) s = .next (failedCheck .sequenceError s))
    ∧ (s.inp.rd.st = .active → 5 < t → exec (.rleDecrun t) s = .next (failedCheck .illegalArgument s))
    ∧ (s.inp.rd.st = .active → t ≤ 5 → s.inp.rd.wf s.cfg.ibufBytes →
        Written s.inp.ibuf (s.inp.rd.base + s.inp.rd.fetch) (s.inp.rd.len - s.inp.rd.fetch) →
        let ahead := s.inp.rd.ahead s.inp.ibuf
        (∀ len, 1 ≤ len → len ≤ longestRun s.cfg t → codeword s.cfg t len <+: ahead →
          ∃ i r, bucketOf s.cfg t len = some i
            ∧ exec (.rleDecrun t) s = .next { s with
                status := s.status.completed
                regs := { s.regs with
                  res0 := BitVec.ofNat 32 len
                  res1 := BitVec.ofNat 32 i
                  res2 := if len = longestRun s.cfg t then 1 else 0 }
                inp := { s.inp with rd := r } }
            ∧ r.ahead s.inp.ibuf = ahead.drop (codeword s.cfg t len).length
            ∧ r.pos = s.inp.rd.pos + (codeword s.cfg t len).length
            ∧ r.st = .active ∧ r.gran = s.inp.rd.gran ∧ r.base = s.inp.rd.base ∧ r.len = s.inp.rd.len
            ∧ r.wf s.cfg.ibufBytes)
        ∧ ((∀ len, 1 ≤ len → len ≤ longestRun s.cfg t → ¬ codeword s.cfg t len <+: ahead) →
          ∃ e r, exec (.rleDecrun t) s = .next
                (failedExecution e (8 * s.inp.rd.base + s.inp.rd.pos) { s with inp := { s.inp with rd := r } })
            ∧ (((∃ i ≤ 6, natBits (prefixBits s.cfg i) (prefixPat s.cfg i) <+: ahead)
                ∨ ∃ i ≤ 6, ahead.length < prefixBits s.cfg i) → e = .unexpectedEof)
            ∧ ((∀ i ≤ 6, ¬ natBits (prefixBits s.cfg i) (prefixPat s.cfg i) <+: ahead
                ∧ prefixBits s.cfg i ≤ ahead.length) → e = .corruptStream)
            ∧ r.ahead s.inp.ibuf = ahead ∧ r.pos = s.inp.rd.pos ∧ r.gran = s.inp.rd.gran ∧ r.base = s.inp.rd.base
            ∧ r.len = s.inp.rd.len ∧ r.wf s.cfg.ibufBytes))

/-- R147 to R149, R153: `RLE_ENCPLANE` writes the header and the plane's codewords, zero-padded to a word, and ends the
stream; nothing else of OBUF changes. A header that does not fit is `BUFFER_OVERFLOW` at `dst`, whatever IBUF holds, and a
word that does not fit is `BUFFER_OVERFLOW` at that word, the six header bytes and the words before it staying written
(R65, R107, R278). -/
def Obligations.RleEncplaneWritesThePlane : Prop :=
  ∀ (t : Nat) (s : State), configLegal s.cfg = true → t ≤ 5 →
    s.argl0 + s.planeWidth * s.planeHeight ≤ s.cfg.ibufBytes →
    (s.argl2 ≤ s.cfg.obufBytes → s.cfg.obufBytes < s.argl2 + 10 →
      exec (.rleEncplane t) s = .next (failedExecution .bufferOverflow s.argl2 s))
    ∧ (Written s.inp.ibuf s.argl0 (s.planeWidth * s.planeHeight) →
      let ps := pixelsAt s.inp.ibuf s.argl0 (s.planeWidth * s.planeHeight)
      let bits := planeString s.cfg t ps
      let wc := (bits.length + 31) / 32
      (s.argl2 ≤ s.cfg.obufBytes → PlaneOverflows t s (exec (.rleEncplane t) s))
      ∧ (s.argl2 + 10 + 4 * wc ≤ s.cfg.obufBytes →
        ∃ obuf, exec (.rleEncplane t) s = .next { s with
            status := s.status.completed
            regs := { s.regs with
              res0 := BitVec.ofNat 32 (10 + 4 * wc), res1 := BitVec.ofNat 32 wc, res2 := BitVec.ofNat 32 t }
            out := {
              wr := { st := .finished, gran := .word, base := s.argl2 + 10, acc := 0, cnt := 0, out := 4 * wc,
                      bits := bits.length }
              obuf := obuf } }
          ∧ bytesAt obuf s.argl2 10 = headerBytes (ps.headD false).toNat s.planeWidth s.planeHeight t wc
          ∧ storedBits .word (bytesAt obuf (s.argl2 + 10) (4 * wc))
              = bits ++ List.replicate (32 * wc - bits.length) false
          ∧ Written obuf s.argl2 (10 + 4 * wc)
          ∧ SameOutside s.out.obuf obuf s.argl2 (10 + 4 * wc)))

/-- R143, R145, R154: `RLE_DECPLANE` over a header and a word-mode stream that begins with codewords standing for
`width * height` pixels writes those pixels; whatever follows the codewords is ignored. Where the pixels of the stream's
first codewords pass the end of OBUF it raises `BUFFER_OVERFLOW` there, and the pixels before it stay written. -/
def Obligations.RleDecplaneWritesThePixels : Prop :=
  ∀ (s : State) (first : Bool) (width height t wc : Nat) (vs : List Nat), configLegal s.cfg = true →
    width < 2 ^ 16 → height < 2 ^ 16 → t ≤ 5 → wc < 2 ^ 32 → 10 + 4 * wc ≤ s.argl1 →
    s.argl0 + s.argl1 ≤ s.cfg.ibufBytes → Written s.inp.ibuf s.argl0 (10 + 4 * wc) →
    bytesAt s.inp.ibuf s.argl0 10 = headerBytes first.toNat width height t wc →
    (∀ v ∈ vs, 1 ≤ v ∧ v ≤ longestRun s.cfg t) →
    codewordString s.cfg t vs <+: storedBits .word (bytesAt s.inp.ibuf (s.argl0 + 10) (4 * wc)) →
    let pixels := (expandCodewords s.cfg t first vs).map (fun p => if p = true then (1 : Byte) else 0)
    (pixels.length = width * height → s.argl2 + width * height ≤ s.cfg.obufBytes →
      ∃ obuf r, exec .rleDecplane s = .next { s with
          status := s.status.completed
          regs := { s.regs with
            res0 := BitVec.ofNat 32 (width * height)
            res1 := BitVec.ofNat 32 (codewordString s.cfg t vs).length
            res2 := BitVec.ofNat 32 t }
          out := { s.out with obuf := obuf }
          inp := { s.inp with rd := r } }
        ∧ Written obuf s.argl2 (width * height)
        ∧ bytesAt obuf s.argl2 (width * height) = pixels
        ∧ SameOutside s.out.obuf obuf s.argl2 (width * height)
        ∧ r.st = .active ∧ r.gran = .word ∧ r.base = s.argl0 + 10 ∧ r.len = 4 * wc
        ∧ r.pos = (codewordString s.cfg t vs).length ∧ r.wf s.cfg.ibufBytes)
    ∧ (pixels.length ≤ width * height → s.argl2 ≤ s.cfg.obufBytes → s.cfg.obufBytes < s.argl2 + pixels.length →
      let room := s.cfg.obufBytes - s.argl2
      ∃ obuf r j, exec .rleDecplane s = .next (failedExecution .bufferOverflow s.cfg.obufBytes { s with
          out := { s.out with obuf := obuf }
          inp := { s.inp with rd := r } })
        ∧ Written obuf s.argl2 room
        ∧ bytesAt obuf s.argl2 room = pixels.take room
        ∧ SameOutside s.out.obuf obuf s.argl2 room
        ∧ (expandCodewords s.cfg t first (vs.take j)).length ≤ room
        ∧ room < (expandCodewords s.cfg t first (vs.take (j + 1))).length
        ∧ r.gran = .word ∧ r.base = s.argl0 + 10 ∧ r.len = 4 * wc
        ∧ r.pos = (codewordString s.cfg t (vs.take (j + 1))).length ∧ r.wf s.cfg.ibufBytes)

/-- R145, R154: the errors `RLE_DECPLANE` finds in its input. In the header, in the order the rule checks them, each
leaving the reader's fields and OBUF as they were. After it, at the codeword that follows codewords `vs` with pixels still
to come: a run past the plane is `CORRUPT_STREAM`, and where no whole codeword is ahead it is `UNEXPECTED_EOF` (cut by the
end of the words) or `CORRUPT_STREAM` (an unused prefix), each at that codeword's first bit; the pixels of `vs` stay
written. -/
def Obligations.RleDecplaneRejectsABadStream : Prop :=
  (∀ s : State, s.argl0 + s.argl1 ≤ s.cfg.ibufBytes → s.argl2 ≤ s.cfg.obufBytes →
    let byte := fun i => ((s.inp.ibuf.read (s.argl0 + i)).getD 0).toNat
    let wc := littleEndian (bytesAt s.inp.ibuf (s.argl0 + 6) 4)
    (s.argl1 < 10 →
      exec .rleDecplane s = .next (failedExecution .unexpectedEof (8 * (s.argl0 + s.argl1)) s))
    ∧ (10 ≤ s.argl1 → Written s.inp.ibuf s.argl0 10 →
        (1 < byte 0 → exec .rleDecplane s = .next (failedExecution .corruptStream (8 * s.argl0) s))
        ∧ (byte 0 ≤ 1 → 5 < byte 5 →
            exec .rleDecplane s = .next (failedExecution .corruptStream (8 * (s.argl0 + 5)) s))
        ∧ (byte 0 ≤ 1 → byte 5 ≤ 5 → s.argl1 < 10 + 4 * wc →
            exec .rleDecplane s = .next (failedExecution .unexpectedEof (8 * (s.argl0 + s.argl1)) s))))
  ∧ ∀ (s : State) (first : Bool) (width height t wc : Nat) (vs : List Nat) (tail : List Bool),
    configLegal s.cfg = true → width < 2 ^ 16 → height < 2 ^ 16 → t ≤ 5 → wc < 2 ^ 32 → 10 + 4 * wc ≤ s.argl1 →
    s.argl0 + s.argl1 ≤ s.cfg.ibufBytes → Written s.inp.ibuf s.argl0 (10 + 4 * wc) →
    bytesAt s.inp.ibuf s.argl0 10 = headerBytes first.toNat width height t wc →
    (∀ v ∈ vs, 1 ≤ v ∧ v ≤ longestRun s.cfg t) →
    storedBits .word (bytesAt s.inp.ibuf (s.argl0 + 10) (4 * wc)) = codewordString s.cfg t vs ++ tail →
    let pixels := (expandCodewords s.cfg t first vs).map (fun p => if p = true then (1 : Byte) else 0)
    pixels.length < width * height → s.argl2 + pixels.length ≤ s.cfg.obufBytes →
    let used := (codewordString s.cfg t vs).length
    let fails := fun (e : ErrorCode) (pos : Nat) => ∃ obuf r,
      exec .rleDecplane s = .next (failedExecution e (8 * (s.argl0 + 10) + used) { s with
          out := { s.out with obuf := obuf }
          inp := { s.inp with rd := r } })
        ∧ Written obuf s.argl2 pixels.length ∧ bytesAt obuf s.argl2 pixels.length = pixels
        ∧ SameOutside s.out.obuf obuf s.argl2 pixels.length
        ∧ r.gran = .word ∧ r.base = s.argl0 + 10 ∧ r.len = 4 * wc ∧ r.pos = pos ∧ r.wf s.cfg.ibufBytes
    (∀ v, 1 ≤ v → v ≤ longestRun s.cfg t → codeword s.cfg t v <+: tail →
      width * height < (expandCodewords s.cfg t first (vs ++ [v])).length →
      fails .corruptStream (used + (codeword s.cfg t v).length))
    ∧ ((∀ v, 1 ≤ v → v ≤ longestRun s.cfg t → ¬ codeword s.cfg t v <+: tail) →
      (((∃ i ≤ 6, natBits (prefixBits s.cfg i) (prefixPat s.cfg i) <+: tail)
          ∨ ∃ i ≤ 6, tail.length < prefixBits s.cfg i) → fails .unexpectedEof used)
      ∧ ((∀ i ≤ 6, ¬ natBits (prefixBits s.cfg i) (prefixPat s.cfg i) <+: tail
          ∧ prefixBits s.cfg i ≤ tail.length) → fails .corruptStream used))

/-- R155, R156: `RLE_BEST` completes as `RLE_ENCPLANE` of the least type whose size is least, so no type is smaller; where
that encoding does not fit OBUF, `BUFFER_OVERFLOW` with what that encoding leaves written. -/
def Obligations.RleBestIsTheSmallestEncoding : Prop :=
  ∀ s : State, configLegal s.cfg = true →
    s.argl0 + s.planeWidth * s.planeHeight ≤ s.cfg.ibufBytes →
    Written s.inp.ibuf s.argl0 (s.planeWidth * s.planeHeight) →
    let ps := pixelsAt s.inp.ibuf s.argl0 (s.planeWidth * s.planeHeight)
    let words := fun t => ((planeString s.cfg t ps).length + 31) / 32
    ∃ best ≤ 5, (∀ t ≤ 5, words best ≤ words t) ∧ (∀ t < best, words best < words t)
      ∧ (s.argl2 + 10 + 4 * words best ≤ s.cfg.obufBytes →
          ∃ u, exec .rleBest s = .next u ∧ exec (.rleEncplane best) s = .next u
            ∧ u.status = s.status.completed
            ∧ u.regs = { s.regs with
                res0 := BitVec.ofNat 32 (10 + 4 * words best)
                res1 := BitVec.ofNat 32 (words best)
                res2 := BitVec.ofNat 32 best }
            ∧ u = { s with status := u.status, regs := u.regs, out := u.out })
      ∧ (s.argl2 ≤ s.cfg.obufBytes → PlaneOverflows best s (exec .rleBest s))
      ∧ (s.argl2 ≤ s.cfg.obufBytes → exec .rleBest s = exec (.rleEncplane best) s)

/-- R156.2: `RLE_DECPLANE` over the bytes `RLE_ENCPLANE` wrote, copied to IBUF at any address, writes back every pixel
byte of a plane of bytes 0 and 1. -/
def Obligations.PlaneRoundTrip : Prop :=
  ∀ (t : Nat) (s u v : State), configLegal s.cfg = true → s.status.err = false →
    let n := s.planeWidth * s.planeHeight
    (∀ k < n, s.inp.ibuf.read (s.argl0 + k) = some 0 ∨ s.inp.ibuf.read (s.argl0 + k) = some 1) →
    exec (.rleEncplane t) s = .next u → u.status.err = false →
    v.cfg = s.cfg → v.argl1 = u.regs.res0.toNat → v.argl0 + v.argl1 ≤ v.cfg.ibufBytes →
    (∀ k < v.argl1, v.inp.ibuf.read (v.argl0 + k) = u.out.obuf.read (s.argl2 + k)) →
    v.argl2 + n ≤ v.cfg.obufBytes →
    ∃ w, exec .rleDecplane v = .next w ∧ w.status = v.status.completed ∧ w.regs.res0 = BitVec.ofNat 32 n
      ∧ (∀ k < n, w.out.obuf.read (v.argl2 + k) = s.inp.ibuf.read (s.argl0 + k))
      ∧ SameOutside v.out.obuf w.out.obuf v.argl2 n

/-! ## The Huffman table builder (spec/43_huffman_build.md) -/

/-- R190, R191: `HUF_HIST` counts the symbols of the input and discards tree and table; wide symbols have the first byte
of a pair high, and an odd last byte is recorded apart. (Unwritten input bytes: notes/assumptions/3.md.) -/
def Obligations.HufHistCountsTheSymbols : Prop :=
  ∀ (w : Bool) (s : State),
    (s.argl0 + s.argl1 ≤ s.cfg.ibufBytes → Written s.inp.ibuf s.argl0 s.argl1 →
      let byte := fun i => ((s.inp.ibuf.read (s.argl0 + i)).getD 0).toNat
      let xs := if w then (List.range (s.argl1 / 2)).map fun k => byte (2 * k) * 256 + byte (2 * k + 1)
        else (List.range s.argl1).map byte
      let trailing := w && decide (s.argl1 % 2 = 1)
      ∃ hist, (∀ x, histCount hist x = xs.count x) ∧ histWf hist = true
        ∧ exec (.hufHist w) s = .next { s with
            status := s.status.completed
            regs := { s.regs with
              res0 := BitVec.ofNat 32 xs.length, res1 := BitVec.ofNat 32 xs.dedup.length }
            huf := { hist := hist, nsym := xs.length, tree := none, ctab := [], histV := true, treeV := false,
                     codesV := false, canonV := false, wide := w, trailp := trailing,
                     trailb := if trailing then BitVec.ofNat 8 (byte (s.argl1 - 1)) else 0, k := 0 } })
    ∧ (s.cfg.ibufBytes < s.argl0 + s.argl1 → exec (.hufHist w) s = .next (failedCheck .bufferBounds s))

/-- R192: `HUF_HISTRD` reports one count and the number of symbols. -/
def Obligations.HufHistrdReportsACount : Prop :=
  ∀ s : State,
    (s.huf.histV = false → exec .hufHistrd s = .next (failedCheck .sequenceError s))
    ∧ (s.huf.histV = true → 65535 < s.argl0 → exec .hufHistrd s = .next (failedCheck .illegalArgument s))
    ∧ (s.huf.histV = true → s.argl0 ≤ 65535 → exec .hufHistrd s = .next { s with
        status := s.status.completed
        regs := { s.regs with
          res0 := BitVec.ofNat 32 (histCount s.huf.hist s.argl0), res1 := BitVec.ofNat 32 s.huf.nsym } })

/-- R193 to R196: `HUF_TREE` builds the tree that the merge rule gives from the sorted leaves, one leaf per counted
symbol and one of weight 0 for the sentinel; it discards the table and keeps the histogram. -/
def Obligations.HufTreeMergesTheSortedLeaves : Prop :=
  ∀ s : State,
    (s.huf.histV = false → exec .hufTree s = .next (failedCheck .sequenceError s))
    ∧ (s.huf.histV = true → s.huf.wf →
        ∃ (leaves : List (Nat × Sym)) (root : HuffTree),
          leaves.Perm ((0, .sent) :: s.huf.hist.map fun p => (p.2, .ord p.1)) ∧ LeavesSorted leaves
          ∧ Merges (leaves.map fun p => .leaf p.1 p.2) root
          ∧ root.symbols.Perm (leaves.map Prod.snd) ∧ root.weighted ∧ root.weight = s.huf.nsym
          ∧ root.interiors + 1 = leaves.length ∧ root.symbols.length = leaves.length
          ∧ exec .hufTree s = .next { s with
              status := s.status.completed
              regs := { s.regs with
                res0 := BitVec.ofNat 32 (s.huf.hist.length + 1), res1 := BitVec.ofNat 32 s.huf.nsym }
              huf := { s.huf with
                tree := some root, treeV := true, codesV := false, canonV := false, ctab := []
                k := s.huf.hist.length + 1 } })

/-- R200, R201: `HUF_CODES` tabulates the paths of the tree's leaves, left to right; a leaf deeper than 64 raises
`CODE_TOO_LONG`. -/
def Obligations.HufCodesTabulatesTheTreePaths : Prop :=
  ∀ s : State,
    (s.huf.treeV = false → exec .hufCodes s = .next (failedCheck .sequenceError s))
    ∧ ∀ root, s.huf.treeV = true → s.huf.tree = some root →
        let longest := (root.paths.map fun p => p.2.length).foldl max 0
        (longest ≤ 64 → ∃ tb : List Entry,
          (tb.map fun e => (e.sym, e.bits)) = root.paths ∧ (∀ e ∈ tb, e.code.toNat < 2 ^ e.len)
          ∧ exec .hufCodes s = .next { s with
              status := s.status.completed
              regs := { s.regs with
                res0 := BitVec.ofNat 32 root.symbols.length, res1 := BitVec.ofNat 32 longest }
              huf := { s.huf with ctab := tb, codesV := true, canonV := false, k := root.symbols.length } })
        ∧ (64 < longest → exec .hufCodes s = .next (failedExecution .codeTooLong 0 s))

/-- R202, R203: `HUF_CANON` sorts the table by length, then key, keeps the lengths, and assigns the running codes;
`RES0` is the sentinel's index and `RES1` the largest length. (The running code as a natural: notes/assumptions/14.md.) -/
def Obligations.HufCanonSortsAndAssignsCodes : Prop :=
  ∀ s : State,
    (s.huf.codesV = false → exec .hufCanon s = .next (failedCheck .sequenceError s))
    ∧ (s.huf.codesV = true → ∃ (tb : List Entry) (codes : List Nat),
        (tb.map fun e => (e.sym, e.len)).Perm (s.huf.ctab.map fun e => (e.sym, e.len))
        ∧ tb.Pairwise (fun a b => a.len < b.len ∨ (a.len = b.len ∧ a.sym.key ≤ b.sym.key))
        ∧ (tb.map Entry.code) = codes.map (BitVec.ofNat 64)
        ∧ (∀ c ∈ codes.head?, c = 0)
        ∧ (∀ j, j + 1 < tb.length → ∀ a b x y, tb[j]? = some a → tb[j + 1]? = some b → codes[j]? = some x →
            codes[j + 1]? = some y → y = (x + 1) * 2 ^ (b.len - a.len))
        ∧ exec .hufCanon s = .next { s with
            status := s.status.completed
            regs := { s.regs with
              res0 := BitVec.ofNat 32 (tb.findIdx fun e => decide (e.sym = .sent))
              res1 := BitVec.ofNat 32 ((tb.map Entry.len).foldl max 0) }
            huf := { s.huf with ctab := tb, canonV := true } })

/-- R204: `HUF_TABRD` reports one entry of the code table. -/
def Obligations.HufTabrdReportsAnEntry : Prop :=
  ∀ s : State,
    (s.huf.codesV = false → exec .hufTabrd s = .next (failedCheck .sequenceError s))
    ∧ (s.huf.codesV = true → s.huf.k ≤ s.argl0 → exec .hufTabrd s = .next (failedCheck .illegalArgument s))
    ∧ ∀ e, s.huf.codesV = true → s.argl0 < s.huf.k → s.huf.ctab[s.argl0]? = some e →
        exec .hufTabrd s = .next { s with
          status := s.status.completed
          regs := { s.regs with
            res0 := (match e.sym with | .sent => 0xFFFFFFFF | .ord v => BitVec.ofNat 32 v)
            res1 := BitVec.ofNat 32 e.len
            res2 := e.code.extractLsb' 0 32
            res3 := e.code.extractLsb' 32 32 } }

/-- R202: the canonical codes of any full binary tree no deeper than 64 have Kraft sum 1, are below `2^len`, and are
prefix-free. -/
def Obligations.CanonicalCodesArePrefixFree : Prop :=
  ∀ root : HuffTree, (∀ p ∈ root.paths, p.2.length ≤ maxCodeLen) →
    let es := canonicalise (treeCodes root 0 0)
    kraftSum es = 2 ^ maxCodeLen ∧ (∀ e ∈ es, e.code.toNat < 2 ^ e.len) ∧ PrefixFree es
      ∧ (es.map Entry.sym).Perm root.symbols

/-- R234: the decoder's checks make the codes it assigns prefix-free and below `2^len`. -/
def Obligations.CheckedTableIsPrefixFree : Prop :=
  ∀ es : List Entry, tableOk es = true →
    PrefixFree (assignCodes es) ∧ (∀ e ∈ assignCodes es, e.code.toNat < 2 ^ e.len ∧ e.len ≤ 64)
      ∧ (assignCodes es).map (fun e => (e.sym, e.len)) = es.map fun e => (e.sym, e.len)

/-! ## The Huffman codec (spec/44_huffman_codec.md) -/

/-- R231 to R233, R237: `HUF_ENC` leaves the Huffman unit as the four builder steps do and writes the stream of header,
codes and terminator, zero-padded to a byte; nothing else of OBUF changes. Where the stream passes the end of OBUF it
raises `BUFFER_OVERFLOW` there, the bytes before it stay written, and `HIST` and `H_NSYM` are the new input's (R278). -/
def Obligations.HufEncWritesTheStream : Prop :=
  ∀ (w : Bool) (s : State), s.argl0 + s.argl1 ≤ s.cfg.ibufBytes → Written s.inp.ibuf s.argl0 s.argl1 →
    let bs := bytesAt s.inp.ibuf s.argl0 s.argl1
    let h := builtHuffman w bs
    let bits := encodedString w bs
    let total := (bits.length + 7) / 8
    longestCode h.ctab ≤ maxCodeLen →
    (s.argl2 + total ≤ s.cfg.obufBytes →
      ∃ obuf, exec (.hufEnc w) s = .next { s with
          status := s.status.completed
          regs := { s.regs with
            res0 := BitVec.ofNat 32 total
            res1 := BitVec.ofNat 32 (if w then s.argl1 / 2 else s.argl1)
            res2 := BitVec.ofNat 32 h.ctab.length
            res3 := BitVec.ofNat 32 (longestCode h.ctab) }
          out := {
            wr := { st := .finished, gran := .byte, base := s.argl2, acc := 0, cnt := 0, out := total
                    bits := bits.length }
            obuf := obuf }
          huf := h }
        ∧ storedBits .byte (bytesAt obuf s.argl2 total) = bits ++ List.replicate (8 * total - bits.length) false
        ∧ Written obuf s.argl2 total
        ∧ SameOutside s.out.obuf obuf s.argl2 total)
    ∧ (s.argl2 ≤ s.cfg.obufBytes → s.cfg.obufBytes < s.argl2 + total →
      let room := s.cfg.obufBytes - s.argl2
      ∃ p : OutPort, exec (.hufEnc w) s =
          .next (failedExecution .bufferOverflow s.cfg.obufBytes { s with out := p, huf := h })
        ∧ p.wr.gran = .byte ∧ p.wr.base = s.argl2 ∧ p.wr.out = room ∧ p.wr.cnt ≤ 63
        ∧ p.wr.bits ≤ bits.length ∧ p.stream = bits.take p.wr.bits
        ∧ storedBits .byte (bytesAt p.obuf s.argl2 room) = bits.take (8 * room)
        ∧ Written p.obuf s.argl2 room
        ∧ SameOutside s.out.obuf p.obuf s.argl2 room)

/-- R234 to R236, R238: `HUF_DEC` over a valid stream (flags, trailing byte, a table that passes the checks with one
sentinel, the codes `ys` of ordinary entries of the table, the sentinel's code) writes their symbols and the trailing byte,
keeps the parsed table, and reads no bit after the terminator. An empty table is recognised only at its exact length
(R319). Output that passes the end of OBUF is `BUFFER_OVERFLOW` at the symbol, or trailing byte, that does not fit, the
symbols before it staying written; whatever follows that symbol's code is not read. -/
def Obligations.HufDecDecodesAValidStream : Prop :=
  ∀ (s : State) (f : StreamFlags) (trail : Byte) (before after : List Entry) (sent : Entry) (ys : List Entry)
    (tail : List Bool), s.argl0 + s.argl1 ≤ s.cfg.ibufBytes → Written s.inp.ibuf s.argl0 s.argl1 →
    (f.trailing = true → f.wide = true) → sent.sym = .sent →
    (∀ e ∈ before ++ after, ∃ x, e.sym = .ord x ∧ x < 2 ^ fieldWidth f.wide) →
    (∀ e ∈ before ++ sent :: after, e.len < 2 ^ fieldWidth f.longLen) →
    (before ++ after).length ≤ 2 ^ fieldWidth f.longCount → tableOk (before ++ sent :: after) = true →
    let tb := assignCodes (before ++ sent :: after)
    let bits := headerString f trail tb ++ codeString ys
    let stop := symbolString tb .sent
    let out := entryBytes f.wide ys ++ (if f.trailing then [trail] else [])
    let m := symbolWidth f.wide
    (∀ e ∈ ys, e ∈ tb ∧ e.sym ≠ .sent) →
    storedBits .byte (bytesAt s.inp.ibuf s.argl0 s.argl1) = bits ++ tail →
    (before ++ after = [] → codeString ys ++ tail = []) →
    (∀ rest, tail = stop ++ rest → s.argl2 + out.length ≤ s.cfg.obufBytes →
      ∃ obuf r, exec .hufDec s = .next { s with
          status := s.status.completed
          regs := { s.regs with
            res0 := BitVec.ofNat 32 out.length
            res1 := BitVec.ofNat 32 (bits ++ stop).length
            res2 := BitVec.ofNat 32 tb.length
            res3 := BitVec.ofNat 32
              (f.longLen.toNat + 2 * f.longCount.toNat + 4 * f.trailing.toNat + 8 * f.wide.toNat) }
          out := { s.out with obuf := obuf }
          inp := { s.inp with rd := r }
          huf := { s.huf with
            tree := none, ctab := tb, histV := false, treeV := false, codesV := true, canonV := true, wide := f.wide
            trailp := f.trailing, trailb := if f.trailing then trail else 0, k := tb.length } }
        ∧ bytesAt obuf s.argl2 out.length = out ∧ Written obuf s.argl2 out.length
        ∧ SameOutside s.out.obuf obuf s.argl2 out.length
        ∧ r.st = .active ∧ r.gran = .byte ∧ r.base = s.argl0 ∧ r.len = s.argl1 ∧ r.pos = (bits ++ stop).length
        ∧ r.ahead s.inp.ibuf = rest ∧ r.wf s.cfg.ibufBytes)
    ∧ (s.argl2 ≤ s.cfg.obufBytes →
      let fit := (s.cfg.obufBytes - s.argl2) / m
      let overflows := fun (k pos : Nat) => ∃ obuf r,
        exec .hufDec s = .next (failedExecution .bufferOverflow (s.argl2 + m * k) { s with
            out := { s.out with obuf := obuf }
            inp := { s.inp with rd := r } })
          ∧ bytesAt obuf s.argl2 (m * k) = (entryBytes f.wide ys).take (m * k) ∧ Written obuf s.argl2 (m * k)
          ∧ SameOutside s.out.obuf obuf s.argl2 (m * k)
          ∧ r.gran = .byte ∧ r.base = s.argl0 ∧ r.len = s.argl1 ∧ r.pos = pos ∧ r.wf s.cfg.ibufBytes
      (fit < ys.length →
        overflows fit ((headerString f trail tb).length + (codeString (ys.take (fit + 1))).length))
      ∧ (stop <+: tail → f.trailing = true → s.cfg.obufBytes = s.argl2 + m * ys.length →
        overflows ys.length (bits ++ stop).length))

/-- R234, R236, R238: the errors `HUF_DEC` finds in its input. In the header: a field cut by the end of the input is
`UNEXPECTED_EOF` at its first bit; reserved flag bits, or a trailing byte without the wide flag, are `CORRUPT_STREAM` at
the stream's first bit, a sentinel index above the count at that field, and a table that fails the length checks at the
first bit after it. After a valid header and the codes `ys`: a bit with no child, or the end of the input, before the next
leaf is `CORRUPT_STREAM` at that bit, the symbols of `ys` staying written. The first `k` bits of what is ahead then lead to
a place inside the tree, and one bit more leads nowhere. -/
def Obligations.HufDecRejectsABadStream : Prop :=
  ∀ s : State, s.argl0 + s.argl1 ≤ s.cfg.ibufBytes → s.argl2 ≤ s.cfg.obufBytes →
    Written s.inp.ibuf s.argl0 s.argl1 →
    let input := storedBits .byte (bytesAt s.inp.ibuf s.argl0 s.argl1)
    let fails := fun (e : ErrorCode) (k pos : Nat) (out : List Byte) => ∃ obuf r,
      exec .hufDec s = .next (failedExecution e (8 * s.argl0 + k) { s with
          out := { s.out with obuf := obuf }
          inp := { s.inp with rd := r } })
        ∧ bytesAt obuf s.argl2 out.length = out ∧ Written obuf s.argl2 out.length
        ∧ SameOutside s.out.obuf obuf s.argl2 out.length
        ∧ r.gran = .byte ∧ r.base = s.argl0 ∧ r.len = s.argl1 ∧ r.pos = pos ∧ r.wf s.cfg.ibufBytes
    (s.argl1 = 0 → fails .unexpectedEof 0 0 [])
    ∧ (∀ v < 256, natBits 8 v <+: input → (16 ≤ v ∨ (v.testBit 2 = true ∧ v.testBit 3 = false)) →
        fails .corruptStream 0 8 [])
    ∧ (∀ f : StreamFlags, f.trailing = true → f.wide = true → input = natBits 8 f.value → fails .unexpectedEof 8 8 [])
    ∧ (∀ (f : StreamFlags) (trail : Byte), (f.trailing = true → f.wide = true) →
      let sw := fieldWidth f.wide
      let lw := fieldWidth f.longLen
      let cw := fieldWidth f.longCount
      let flags := flagBits f trail
      (∀ tail, input = flags ++ tail → tail.length < cw → fails .unexpectedEof flags.length flags.length [])
      ∧ ∀ cnt ≤ 2 ^ cw,
        let front := flags ++ countBits f cnt
        (∀ tail, 0 < cnt → input = front ++ tail → tail.length < 32 → cw + tail.length ≠ 32 + lw →
          fails .unexpectedEof front.length front.length [])
        ∧ ∀ si < 2 ^ 32,
          (∀ tail, 0 < cnt → input = front ++ natBits 32 si ++ tail → tail.length < lw → cw + tail.length ≠ lw →
            fails .unexpectedEof (front.length + 32) (front.length + 32) [])
          ∧ ∀ sl < 2 ^ lw,
            let sentinel := front ++ natBits 32 si ++ natBits lw sl
            (∀ tail, input = sentinel ++ tail → (cnt = 0 → tail = []) → cnt < si →
              fails .corruptStream front.length sentinel.length [])
            ∧ ∀ es : List (Nat × Nat), (∀ p ∈ es, p.1 < 2 ^ sw ∧ p.2 < 2 ^ lw) → si ≤ cnt →
              let used := (sentinel ++ entryBits f es).length
              (∀ tail, es.length < cnt → input = sentinel ++ entryBits f es ++ tail → tail.length < sw →
                fails .unexpectedEof used used [])
              ∧ (∀ tail, es.length < cnt → input = sentinel ++ entryBits f es ++ tail → sw ≤ tail.length →
                tail.length < sw + lw → fails .unexpectedEof (used + sw) (used + sw) [])
              ∧ (∀ tail, es.length = cnt → input = sentinel ++ entryBits f es ++ tail → (cnt = 0 → tail = []) →
                ¬ LengthsAccepted ((es.map Prod.snd).insertIdx si sl) → fails .corruptStream used used []))
    ∧ ∀ (f : StreamFlags) (trail : Byte) (before after : List Entry) (sent : Entry) (ys : List Entry)
        (tail : List Bool) (k : Nat), (f.trailing = true → f.wide = true) → sent.sym = .sent →
      (∀ e ∈ before ++ after, ∃ x, e.sym = .ord x ∧ x < 2 ^ fieldWidth f.wide) →
      (∀ e ∈ before ++ sent :: after, e.len < 2 ^ fieldWidth f.longLen) →
      (before ++ after).length ≤ 2 ^ fieldWidth f.longCount → tableOk (before ++ sent :: after) = true →
      let tb := assignCodes (before ++ sent :: after)
      let bits := headerString f trail tb ++ codeString ys
      let out := entryBytes f.wide ys
      (∀ e ∈ ys, e ∈ tb ∧ e.sym ≠ .sent) → input = bits ++ tail →
      (before ++ after = [] → codeString ys ++ tail = []) → s.argl2 + out.length ≤ s.cfg.obufBytes →
      (∀ e ∈ tb, ¬ e.bits <+: tail) → k ≤ tail.length → (∃ e ∈ tb, tail.take k <+: e.bits) →
      (k < tail.length → ∀ e ∈ tb, ¬ tail.take (k + 1) <+: e.bits) →
      fails .corruptStream (bits.length + k) (bits.length + min (k + 1) tail.length) out

/-- R239: `HUF_DEC` over the bytes `HUF_ENC` wrote, copied to IBUF at any address with their exact length, writes the
encoder's input back, for both widths and every input. -/
def Obligations.HuffmanRoundTrip : Prop :=
  ∀ (w : Bool) (s u v : State), s.status.err = false → exec (.hufEnc w) s = .next u → u.status.err = false →
    s.cfg.ibufBytes ≤ 2 ^ 28 → s.cfg.obufBytes ≤ 2 ^ 28 → v.cfg = s.cfg → v.argl1 = u.regs.res0.toNat →
    v.argl0 + v.argl1 ≤ v.cfg.ibufBytes →
    (∀ k < v.argl1, v.inp.ibuf.read (v.argl0 + k) = u.out.obuf.read (s.argl2 + k)) →
    v.argl2 + s.argl1 ≤ v.cfg.obufBytes →
    ∃ t, exec .hufDec v = .next t ∧ t.status = v.status.completed ∧ t.regs.res0 = s.latch.arg1
      ∧ (∀ k < s.argl1, t.out.obuf.read (v.argl2 + k) = s.inp.ibuf.read (s.argl0 + k))
      ∧ SameOutside v.out.obuf t.out.obuf v.argl2 s.argl1

/-! ## All commands (spec/60_exceptions.md R274 to R279, spec/20_memory.md R61, R62) -/

/-- R275, R277: a command whose class C checks fail reports the first in the order `SEQUENCE_ERROR`,
`ILLEGAL_ARGUMENT`, `BUFFER_BOUNDS`, `RUN_TOO_LONG`, and changes only `STATUS`, `ERRPOS` and `ERRCMD`; a command whose
checks all pass ends with no class C error. -/
def Obligations.ChecksAreReportedInOrder : Prop :=
  ∀ (i : Instr) (s : State),
    (lacksState s i = true → exec i s = .next (failedCheck .sequenceError s))
    ∧ (lacksState s i = false → badArgument s i = true → exec i s = .next (failedCheck .illegalArgument s))
    ∧ (lacksState s i = false → badArgument s i = false → outOfBounds s i = true →
        exec i s = .next (failedCheck .bufferBounds s))
    ∧ (lacksState s i = false → badArgument s i = false → outOfBounds s i = false → runTooLong s i = true →
        exec i s = .next (failedCheck .runTooLong s))
    ∧ (lacksState s i = false → badArgument s i = false → outOfBounds s i = false → runTooLong s i = false →
        s.huf.wf → s.status.errcode = .noError → ∀ t, exec i s = .next t → ¬ t.status.errcode.classC)

/-- R25, R26, R61, R274, R278, R279: a completion clears `BUSY` and sets `DONE`; without error `ERR`, `ERRCODE`,
`ERRPOS` and `ERRCMD` stay; with an error they are written and no result register is; a class C error changes nothing
else, and a class X error idles writer and reader and clears the Huffman state but `HIST` and `H_NSYM`. No command
changes `ARGn`, `IE`, the latch, IBUF, `REJ`, `LOCKV` or the parameters. -/
def Obligations.CompletionLeavesWhatTheRulesSay : Prop :=
  ∀ (i : Instr) (s t : State), exec i s = .next t →
    Untouched s t
    ∧ ((t.status = s.status.completed ∧ t.regs.errpos = s.regs.errpos ∧ t.regs.errcmd = s.regs.errcmd)
      ∨ ∃ e pos, e ≠ .noError ∧ t.status = s.status.failed e
          ∧ t.regs = { s.regs with errpos := BitVec.ofNat 32 pos, errcmd := s.latch.cmd }
          ∧ (e.classC → t = failedCheck e s)
          ∧ (¬ e.classC → t.out.wr.st = .idle ∧ t.inp.rd.st = .idle ∧ t.huf = { t.huf with
              tree := none, ctab := [], histV := false, treeV := false, codesV := false, canonV := false
              wide := false, trailp := false, trailb := 0, k := 0 }))

/-- R61, R62, R64: a command that has no output leaves OBUF alone, and no command writes OBUF outside its
`OBUF_BYTES`. -/
def Obligations.OutputStaysInsideObuf : Prop :=
  ∀ (i : Instr) (s t : State), exec i s = .next t →
    (∀ a, s.cfg.obufBytes ≤ a → t.out.obuf.read a = s.out.obuf.read a)
    ∧ (i ∈ ([.nop, .bwInit .byte, .bwInit .word, .brInit .byte, .brInit .word, .brRemain, .hufHist false,
          .hufHist true, .hufHistrd, .hufTree, .hufCodes, .hufCanon, .hufTabrd] : List Instr) → t.out.obuf = s.out.obuf)
    ∧ (∀ n, i = .brRead n → t.out.obuf = s.out.obuf)
    ∧ (∀ a b, i = .cbQuery a b ∨ i = .rleDecrun a → t.out.obuf = s.out.obuf)

/-- R62: no command's outcome depends on OBUF's prior contents. From two states that differ only there, a command ends
alike, and each OBUF byte either keeps its own value in both or takes the same value in both. -/
def Obligations.OutcomeIsIndependentOfObuf : Prop :=
  ∀ (i : Instr) (s : State) (m : Memory),
    match exec i s, exec i { s with out := { s.out with obuf := m } } with
    | .next t, .next u =>
        u = { t with out := { t.out with obuf := u.out.obuf } }
          ∧ ∀ a, (t.out.obuf.read a = s.out.obuf.read a ∧ u.out.obuf.read a = m.read a)
              ∨ u.out.obuf.read a = t.out.obuf.read a
    | .fault f, .fault g => f = g
    | _, _ => False

/-- R9, R23, R35 to R38, R40 to R42, R60: every step keeps the invariants of the buffers, the writer, the reader, the
Huffman unit and `STATUS`, and never changes the parameters. (That every draw of free values is a new one is an invariant
of the model's own fields, notes/assumptions/18.md.) -/
def Obligations.EveryStepKeepsTheInvariant : Prop :=
  ∀ s t : State, s.wf → step s = .next t → t.wf ∧ t.cfg = s.cfg

/-- R46, R10: the state after reset meets the invariant, in a legal configuration. The state is `State.reset`, whose
parameters (REFCFG, notes/assumptions/1.md), `HIST` and `H_NSYM` (notes/assumptions/6.md) and own fields
(notes/assumptions/18.md) are the model's choice. -/
def Obligations.ResetStateMeetsTheInvariant : Prop :=
  State.reset.wf ∧ configLegal State.reset.cfg = true
end

