-- ==== Sys2Proof/Laws/State.lean ====
section
/-! SUPPORT. One lemma per field per named update of the state, so that no proof unfolds a record update. -/

namespace Sys2Proof.Machine


/-! ## Results.store -/

@[simp] theorem Results.store_ie (r : Results) (g : Regs) :
    (r.store g).ie = g.ie := rfl
@[simp] theorem Results.store_arg0 (r : Results) (g : Regs) :
    (r.store g).arg0 = g.arg0 := rfl
@[simp] theorem Results.store_arg1 (r : Results) (g : Regs) :
    (r.store g).arg1 = g.arg1 := rfl
@[simp] theorem Results.store_arg2 (r : Results) (g : Regs) :
    (r.store g).arg2 = g.arg2 := rfl
@[simp] theorem Results.store_errpos (r : Results) (g : Regs) :
    (r.store g).errpos = g.errpos := rfl
@[simp] theorem Results.store_errcmd (r : Results) (g : Regs) :
    (r.store g).errcmd = g.errcmd := rfl
@[simp] theorem Results.store_res0 (r : Results) (g : Regs) :
    (r.store g).res0 = resultWord g.res0 r.res0 := rfl
@[simp] theorem Results.store_res1 (r : Results) (g : Regs) :
    (r.store g).res1 = resultWord g.res1 r.res1 := rfl
@[simp] theorem Results.store_res2 (r : Results) (g : Regs) :
    (r.store g).res2 = resultWord g.res2 r.res2 := rfl
@[simp] theorem Results.store_res3 (r : Results) (g : Regs) :
    (r.store g).res3 = resultWord g.res3 r.res3 := rfl
@[simp] theorem resultWord_none (w : Word) : resultWord w none = w := rfl
@[simp] theorem resultWord_some (w : Word) (v : Nat) : resultWord w (some v) = BitVec.ofNat 32 v := rfl

/-! ## completeOk -/

@[simp] theorem completeOk_cfg (r : Results) (s : State) :
    (completeOk r s).cfg = s.cfg := rfl
@[simp] theorem completeOk_regs (r : Results) (s : State) :
    (completeOk r s).regs = r.store s.regs := rfl
@[simp] theorem completeOk_status (r : Results) (s : State) :
    (completeOk r s).status = { s.status with busy := false, done := true } := rfl
@[simp] theorem completeOk_latch (r : Results) (s : State) :
    (completeOk r s).latch = s.latch := rfl
@[simp] theorem completeOk_out (r : Results) (s : State) :
    (completeOk r s).out = s.out := rfl
@[simp] theorem completeOk_inp (r : Results) (s : State) :
    (completeOk r s).inp = s.inp := rfl
@[simp] theorem completeOk_huf (r : Results) (s : State) :
    (completeOk r s).huf = s.huf := rfl
@[simp] theorem completeOk_env (r : Results) (s : State) :
    (completeOk r s).env = s.env := rfl

/-! ## abandonUnits -/

@[simp] theorem abandonUnits_cfg (s : State) :
    (abandonUnits s).cfg = s.cfg := rfl
@[simp] theorem abandonUnits_regs (s : State) :
    (abandonUnits s).regs = s.regs := rfl
@[simp] theorem abandonUnits_status (s : State) :
    (abandonUnits s).status = s.status := rfl
@[simp] theorem abandonUnits_latch (s : State) :
    (abandonUnits s).latch = s.latch := rfl
@[simp] theorem abandonUnits_out (s : State) :
    (abandonUnits s).out = { s.out with wr := { s.out.wr with st := .idle } } := rfl
@[simp] theorem abandonUnits_inp (s : State) :
    (abandonUnits s).inp = { s.inp with rd := { s.inp.rd with st := .idle } } := rfl
@[simp] theorem abandonUnits_huf (s : State) :
    (abandonUnits s).huf = Huffman.reset s.huf.hist s.huf.nsym := rfl
@[simp] theorem abandonUnits_env (s : State) :
    (abandonUnits s).env = s.env := rfl

/-! ## takeError -/

@[simp] theorem takeError_cfg (e : ErrorCode) (pos : Nat) (s : State) :
    (takeError e pos s).cfg = s.cfg := by
  unfold takeError; split <;> rfl
@[simp] theorem takeError_latch (e : ErrorCode) (pos : Nat) (s : State) :
    (takeError e pos s).latch = s.latch := by
  unfold takeError; split <;> rfl
@[simp] theorem takeError_env (e : ErrorCode) (pos : Nat) (s : State) :
    (takeError e pos s).env = s.env := by
  unfold takeError; split <;> rfl
@[simp] theorem takeError_regs (e : ErrorCode) (pos : Nat) (s : State) :
    (takeError e pos s).regs = { s.regs with errpos := BitVec.ofNat 32 pos, errcmd := s.latch.cmd } := by
  unfold takeError; split <;> rfl
@[simp] theorem takeError_status (e : ErrorCode) (pos : Nat) (s : State) :
    (takeError e pos s).status = { s.status with busy := false, done := true, err := true, errcode := e } := by
  unfold takeError; split <;> rfl
@[simp] theorem takeError_obuf (e : ErrorCode) (pos : Nat) (s : State) :
    (takeError e pos s).out.obuf = s.out.obuf := by
  unfold takeError; split <;> rfl
@[simp] theorem takeError_ibuf (e : ErrorCode) (pos : Nat) (s : State) :
    (takeError e pos s).inp.ibuf = s.inp.ibuf := by
  unfold takeError; split <;> rfl
@[simp] theorem takeError_hist (e : ErrorCode) (pos : Nat) (s : State) :
    (takeError e pos s).huf.hist = s.huf.hist := by
  unfold takeError; split <;> rfl
@[simp] theorem takeError_nsym (e : ErrorCode) (pos : Nat) (s : State) :
    (takeError e pos s).huf.nsym = s.huf.nsym := by
  unfold takeError; split <;> rfl
theorem takeError_out_classX (e : ErrorCode) (pos : Nat) (s : State) (h : e.classX = true) :
    (takeError e pos s).out = (abandonUnits s).out := by
  unfold takeError; rw [if_pos h]
theorem takeError_out_classC (e : ErrorCode) (pos : Nat) (s : State) (h : e.classX = false) :
    (takeError e pos s).out = s.out := by
  unfold takeError; rw [if_neg (by simp [h])]
theorem takeError_inp_classX (e : ErrorCode) (pos : Nat) (s : State) (h : e.classX = true) :
    (takeError e pos s).inp = (abandonUnits s).inp := by
  unfold takeError; rw [if_pos h]
theorem takeError_inp_classC (e : ErrorCode) (pos : Nat) (s : State) (h : e.classX = false) :
    (takeError e pos s).inp = s.inp := by
  unfold takeError; rw [if_neg (by simp [h])]
theorem takeError_huf_classX (e : ErrorCode) (pos : Nat) (s : State) (h : e.classX = true) :
    (takeError e pos s).huf = (abandonUnits s).huf := by
  unfold takeError; rw [if_pos h]
theorem takeError_huf_classC (e : ErrorCode) (pos : Nat) (s : State) (h : e.classX = false) :
    (takeError e pos s).huf = s.huf := by
  unfold takeError; rw [if_neg (by simp [h])]

/-! ## clearError -/

@[simp] theorem clearError_cfg (s : State) :
    (clearError s).cfg = s.cfg := rfl
@[simp] theorem clearError_regs (s : State) :
    (clearError s).regs = s.regs := rfl
@[simp] theorem clearError_status (s : State) :
    (clearError s).status = { s.status with err := false, errcode := .noError } := rfl
@[simp] theorem clearError_latch (s : State) :
    (clearError s).latch = s.latch := rfl
@[simp] theorem clearError_out (s : State) :
    (clearError s).out = s.out := rfl
@[simp] theorem clearError_inp (s : State) :
    (clearError s).inp = s.inp := rfl
@[simp] theorem clearError_huf (s : State) :
    (clearError s).huf = s.huf := rfl
@[simp] theorem clearError_env (s : State) :
    (clearError s).env = s.env := rfl

/-! ## acceptCmd -/

@[simp] theorem acceptCmd_cfg (c : Word) (s : State) :
    (acceptCmd c s).cfg = s.cfg := rfl
@[simp] theorem acceptCmd_regs (c : Word) (s : State) :
    (acceptCmd c s).regs = s.regs := rfl
@[simp] theorem acceptCmd_status (c : Word) (s : State) :
    (acceptCmd c s).status = { s.status with busy := true } := rfl
@[simp] theorem acceptCmd_latch (c : Word) (s : State) :
    (acceptCmd c s).latch = { cmd := c, arg0 := s.regs.arg0, arg1 := s.regs.arg1, arg2 := s.regs.arg2 } := rfl
@[simp] theorem acceptCmd_out (c : Word) (s : State) :
    (acceptCmd c s).out = s.out := rfl
@[simp] theorem acceptCmd_inp (c : Word) (s : State) :
    (acceptCmd c s).inp = s.inp := rfl
@[simp] theorem acceptCmd_huf (c : Word) (s : State) :
    (acceptCmd c s).huf = s.huf := rfl
@[simp] theorem acceptCmd_env (c : Word) (s : State) :
    (acceptCmd c s).env = { s.env with delay := Config.completionDelay s.env.draws, draws := s.env.draws + 1 } := rfl

/-! ## refuseCmd -/

@[simp] theorem refuseCmd_cfg (s : State) :
    (refuseCmd s).cfg = s.cfg := rfl
@[simp] theorem refuseCmd_regs (s : State) :
    (refuseCmd s).regs = s.regs := rfl
@[simp] theorem refuseCmd_status (s : State) :
    (refuseCmd s).status = { s.status with rej := true } := rfl
@[simp] theorem refuseCmd_latch (s : State) :
    (refuseCmd s).latch = s.latch := rfl
@[simp] theorem refuseCmd_out (s : State) :
    (refuseCmd s).out = s.out := rfl
@[simp] theorem refuseCmd_inp (s : State) :
    (refuseCmd s).inp = s.inp := rfl
@[simp] theorem refuseCmd_huf (s : State) :
    (refuseCmd s).huf = s.huf := rfl
@[simp] theorem refuseCmd_env (s : State) :
    (refuseCmd s).env = s.env := rfl

/-! ## lockViolation -/

@[simp] theorem lockViolation_cfg (s : State) :
    (lockViolation s).cfg = s.cfg := rfl
@[simp] theorem lockViolation_regs (s : State) :
    (lockViolation s).regs = s.regs := rfl
@[simp] theorem lockViolation_status (s : State) :
    (lockViolation s).status = { s.status with lockv := true } := rfl
@[simp] theorem lockViolation_latch (s : State) :
    (lockViolation s).latch = s.latch := rfl
@[simp] theorem lockViolation_out (s : State) :
    (lockViolation s).out = s.out := rfl
@[simp] theorem lockViolation_inp (s : State) :
    (lockViolation s).inp = s.inp := rfl
@[simp] theorem lockViolation_huf (s : State) :
    (lockViolation s).huf = s.huf := rfl
@[simp] theorem lockViolation_env (s : State) :
    (lockViolation s).env = s.env := rfl

/-! ## reply -/

@[simp] theorem reply_cfg (r : HostReply) (s : State) :
    (reply r s).cfg = s.cfg := rfl
@[simp] theorem reply_regs (r : HostReply) (s : State) :
    (reply r s).regs = s.regs := rfl
@[simp] theorem reply_status (r : HostReply) (s : State) :
    (reply r s).status = s.status := rfl
@[simp] theorem reply_latch (r : HostReply) (s : State) :
    (reply r s).latch = s.latch := rfl
@[simp] theorem reply_out (r : HostReply) (s : State) :
    (reply r s).out = s.out := rfl
@[simp] theorem reply_inp (r : HostReply) (s : State) :
    (reply r s).inp = s.inp := rfl
@[simp] theorem reply_huf (r : HostReply) (s : State) :
    (reply r s).huf = s.huf := rfl
@[simp] theorem reply_env (r : HostReply) (s : State) :
    (reply r s).env = { s.env with replies := s.env.replies ++ [r] } := rfl

/-! ## resetUnits -/

@[simp] theorem resetUnits_cfg (s : State) :
    (resetUnits s).cfg = s.cfg := rfl
@[simp] theorem resetUnits_regs (s : State) :
    (resetUnits s).regs = Regs.reset := rfl
@[simp] theorem resetUnits_status (s : State) :
    (resetUnits s).status = Status.reset := rfl
@[simp] theorem resetUnits_latch (s : State) :
    (resetUnits s).latch = Latch.reset := rfl
@[simp] theorem resetUnits_out (s : State) :
    (resetUnits s).out = { s.out with wr := Writer.reset } := rfl
@[simp] theorem resetUnits_inp (s : State) :
    (resetUnits s).inp = { s.inp with rd := Reader.reset } := rfl
@[simp] theorem resetUnits_huf (s : State) :
    (resetUnits s).huf = Huffman.reset s.huf.hist s.huf.nsym := rfl
@[simp] theorem resetUnits_env (s : State) :
    (resetUnits s).env = { s.env with delay := 0 } := rfl

/-! ## State.rehearsal -/

@[simp] theorem State.rehearsal_cfg (s : State) :
    s.rehearsal.cfg = s.cfg := rfl
@[simp] theorem State.rehearsal_regs (s : State) :
    s.rehearsal.regs = s.regs := rfl
@[simp] theorem State.rehearsal_status (s : State) :
    s.rehearsal.status = s.status := rfl
@[simp] theorem State.rehearsal_latch (s : State) :
    s.rehearsal.latch = s.latch := rfl
@[simp] theorem State.rehearsal_huf (s : State) :
    s.rehearsal.huf = s.huf := rfl
@[simp] theorem State.rehearsal_env (s : State) :
    s.rehearsal.env = s.env := rfl
@[simp] theorem State.rehearsal_out (s : State) :
    s.rehearsal.out = { s.out with obuf := [] } := rfl
@[simp] theorem State.rehearsal_inp (s : State) :
    s.rehearsal.inp = { s.inp with ibuf := s.heldIbuf } := rfl

/-! ## abortCommand -/

@[simp] theorem abortCommand_cfg (s : State) :
    (abortCommand s).cfg = s.cfg := by
  unfold abortCommand; split <;> rfl
@[simp] theorem abortCommand_regs (s : State) :
    (abortCommand s).regs = s.regs := by
  unfold abortCommand; split <;> rfl
@[simp] theorem abortCommand_status (s : State) :
    (abortCommand s).status = s.status := by
  unfold abortCommand; split <;> rfl
@[simp] theorem abortCommand_latch (s : State) :
    (abortCommand s).latch = s.latch := by
  unfold abortCommand; split <;> rfl
@[simp] theorem abortCommand_huf (s : State) :
    (abortCommand s).huf = s.huf := by
  unfold abortCommand; split <;> rfl
@[simp] theorem abortCommand_inp (s : State) :
    (abortCommand s).inp = s.inp := by
  unfold abortCommand; split <;> rfl
@[simp] theorem abortCommand_wr (s : State) :
    (abortCommand s).out.wr = s.out.wr := by
  unfold abortCommand; split <;> rfl
theorem abortCommand_idle (s : State) (h : s.status.busy = false) :
    abortCommand s = s := by
  unfold abortCommand; rw [if_neg (by simp [h])]
theorem abortCommand_obuf_busy (s : State) (h : s.status.busy = true) :
    (abortCommand s).out.obuf = spoilBytes s.env.draws (wouldWrite s) s.out.obuf := by
  unfold abortCommand; rw [if_pos h]
theorem abortCommand_env_busy (s : State) (h : s.status.busy = true) :
    (abortCommand s).env = { s.env with draws := s.env.draws + 1 } := by
  unfold abortCommand; rw [if_pos h]

/-! ## powerOnReset -/

@[simp] theorem powerOnReset_cfg (s : State) :
    (powerOnReset s).cfg = s.cfg := rfl
@[simp] theorem powerOnReset_regs (s : State) :
    (powerOnReset s).regs = Regs.reset := rfl
@[simp] theorem powerOnReset_status (s : State) :
    (powerOnReset s).status = Status.reset := rfl
@[simp] theorem powerOnReset_latch (s : State) :
    (powerOnReset s).latch = Latch.reset := rfl
@[simp] theorem powerOnReset_out (s : State) :
    (powerOnReset s).out = { wr := Writer.reset, obuf := [] } := rfl
@[simp] theorem powerOnReset_inp (s : State) :
    (powerOnReset s).inp = { rd := Reader.reset, ibuf := [] } := rfl
@[simp] theorem powerOnReset_huf (s : State) :
    (powerOnReset s).huf = Huffman.reset [] 0 := rfl
@[simp] theorem powerOnReset_env (s : State) :
    (powerOnReset s).env = { s.env with delay := 0, ibufGen := s.env.draws, obufGen := s.env.draws, draws := s.env.draws + 1 } := rfl

/-! ## State.withFetchWord -/

@[simp] theorem State.withFetchWord_cfg (s : State) (nbits w : Nat) :
    (s.withFetchWord nbits w).cfg = s.cfg := rfl
@[simp] theorem State.withFetchWord_regs (s : State) (nbits w : Nat) :
    (s.withFetchWord nbits w).regs = s.regs := rfl
@[simp] theorem State.withFetchWord_status (s : State) (nbits w : Nat) :
    (s.withFetchWord nbits w).status = { s.status with busy := true } := rfl
@[simp] theorem State.withFetchWord_latch (s : State) (nbits w : Nat) :
    (s.withFetchWord nbits w).latch = { cmd := BitVec.ofNat 32 (w % 2 ^ nbits), arg0 := s.regs.arg0, arg1 := s.regs.arg1, arg2 := s.regs.arg2 } := rfl
@[simp] theorem State.withFetchWord_out (s : State) (nbits w : Nat) :
    (s.withFetchWord nbits w).out = s.out := rfl
@[simp] theorem State.withFetchWord_inp (s : State) (nbits w : Nat) :
    (s.withFetchWord nbits w).inp = s.inp := rfl
@[simp] theorem State.withFetchWord_huf (s : State) (nbits w : Nat) :
    (s.withFetchWord nbits w).huf = s.huf := rfl
@[simp] theorem State.withFetchWord_env (s : State) (nbits w : Nat) :
    (s.withFetchWord nbits w).env = { s.env with delay := 0 } := rfl

end Sys2Proof.Machine
end

