-- ==== Sys2Proof/Laws/Memory.lean ====
section
/-! SUPPORT. The laws of the buffers: what a byte reads as after a write, that every write keeps the canonical form and
the bounds of the buffer, ranges of bytes, and what an aborted command would write. -/

namespace Sys2Proof.Machine

@[simp] theorem Memory.read_nil (a : Nat) : Memory.read [] a = none := rfl

/-! ## Reading after writing -/

theorem Memory.read_write (m : Memory) (a x : Nat) (b : Byte) :
    (m.write a b).read x = if x = a then some b else m.read x := by
  induction m with
  | nil => simp only [Memory.write, Memory.read, eq_comm]
  | cons p m ih =>
    obtain ⟨k, v⟩ := p
    simp only [Memory.write]
    split
    · simp only [Memory.read, eq_comm]
    · split
      · subst_vars
        simp only [Memory.read, eq_comm]
        split <;> simp_all
      · simp only [Memory.read, ih]
        split <;> split <;> simp_all

@[simp] theorem Memory.read_write_same (m : Memory) (a : Nat) (b : Byte) : (m.write a b).read a = some b := by
  simp [Memory.read_write]

theorem Memory.read_write_other (m : Memory) {a x : Nat} (b : Byte) (h : x ≠ a) : (m.write a b).read x = m.read x := by
  simp [Memory.read_write, h]

theorem Memory.read_writeList (m : Memory) (a x : Nat) (bs : List Byte) :
    (m.writeList a bs).read x = if a ≤ x ∧ x < a + bs.length then bs[x - a]? else m.read x := by
  induction bs generalizing m a with
  | nil =>
    simp only [Memory.writeList, List.length_nil]
    split
    · omega
    · rfl
  | cons b bs ih =>
    simp only [Memory.writeList, ih, Memory.read_write, List.length_cons]
    by_cases hx : x = a
    · subst hx
      simp
    · by_cases hlt : a + 1 ≤ x ∧ x < a + 1 + bs.length
      · have h' : a ≤ x ∧ x < a + (bs.length + 1) := by omega
        have e : x - a = (x - (a + 1)) + 1 := by omega
        rw [if_pos hlt, if_pos h', e, List.getElem?_cons_succ]
      · have h' : ¬ (a ≤ x ∧ x < a + (bs.length + 1)) := by omega
        rw [if_neg hlt, if_neg h', if_neg hx]

theorem Memory.writeList_sameOutside (m : Memory) (a : Nat) (bs : List Byte) :
    SameOutside m (m.writeList a bs) a bs.length := by
  intro x hx
  rw [Memory.read_writeList, if_neg (by omega)]

theorem Memory.writeList_written (m : Memory) (a : Nat) (bs : List Byte) :
    Written (m.writeList a bs) a bs.length := by
  intro i hi
  rw [Memory.read_writeList, if_pos (by omega), Nat.add_sub_cancel_left, List.getElem?_eq_getElem hi]
  rfl

theorem Memory.writeList_append (m : Memory) (a : Nat) (bs cs : List Byte) :
    m.writeList a (bs ++ cs) = (m.writeList a bs).writeList (a + bs.length) cs := by
  induction bs generalizing m a with
  | nil => rfl
  | cons b bs ih =>
    simp only [List.cons_append, Memory.writeList, List.length_cons, ih]
    congr 1
    omega

/-! ## The canonical form and the bounds -/

/-- Every listed address is below `n`. -/
def Memory.Below (n : Nat) (m : Memory) : Prop := ∀ p ∈ m, p.1 < n

theorem Memory.wf_iff_pairwise (m : Memory) : m.wf = true ↔ (m.map Prod.fst).Pairwise (· < ·) := by
  induction m with
  | nil => simp [Memory.wf]
  | cons p m ih =>
    cases m with
    | nil => simp [Memory.wf]
    | cons q m =>
      obtain ⟨k, v⟩ := p
      obtain ⟨k', v'⟩ := q
      simp only [Memory.wf, Bool.and_eq_true, decide_eq_true_eq, ih, List.map_cons, List.pairwise_cons]
      constructor
      · rintro ⟨h, h1, h2⟩
        refine ⟨?_, h1, h2⟩
        intro x hx
        rcases List.mem_cons.mp hx with rfl | hx
        · exact h
        · exact h.trans (h1 x hx)
      · rintro ⟨h, h1, h2⟩
        exact ⟨h k' (List.mem_cons_self ..), h1, h2⟩

theorem Memory.mem_write {m : Memory} {a : Nat} {b : Byte} {p : Host.Cell} (h : p ∈ m.write a b) :
    p = (a, b) ∨ p ∈ m := by
  induction m with
  | nil => simpa [Memory.write] using h
  | cons q m ih =>
    obtain ⟨k, v⟩ := q
    simp only [Memory.write] at h
    split at h
    · simpa using h
    · split at h
      · subst_vars
        rcases List.mem_cons.mp h with h | h
        · exact .inl h
        · exact .inr (List.mem_cons_of_mem _ h)
      · rcases List.mem_cons.mp h with h | h
        · exact .inr (h ▸ List.mem_cons_self ..)
        · exact (ih h).imp id (List.mem_cons_of_mem _)

theorem Memory.wf_write {m : Memory} (h : m.wf = true) (a : Nat) (b : Byte) : (m.write a b).wf = true := by
  rw [Memory.wf_iff_pairwise] at *
  induction m with
  | nil => simp [Memory.write]
  | cons p m ih =>
    obtain ⟨k, v⟩ := p
    simp only [List.map_cons, List.pairwise_cons] at h
    simp only [Memory.write]
    split
    · rename_i hlt
      simp only [List.map_cons, List.pairwise_cons, List.mem_cons]
      refine ⟨?_, h⟩
      rintro x (rfl | hx)
      · exact hlt
      · exact hlt.trans (h.1 x hx)
    · split
      · simpa only [List.map_cons, List.pairwise_cons] using h
      · simp only [List.map_cons, List.pairwise_cons]
        refine ⟨?_, ih h.2⟩
        intro x hx
        obtain ⟨q, hq, rfl⟩ := List.mem_map.mp hx
        rcases Memory.mem_write hq with rfl | hq
        · show k < a
          omega
        · exact h.1 _ (List.mem_map_of_mem hq)

theorem Memory.Below.write {n : Nat} {m : Memory} (h : Memory.Below n m) {a : Nat} (ha : a < n) (b : Byte) :
    Memory.Below n (m.write a b) := by
  intro p hp
  rcases Memory.mem_write hp with rfl | hp
  · exact ha
  · exact h p hp

theorem Memory.wf_writeList {m : Memory} (h : m.wf = true) (a : Nat) (bs : List Byte) :
    (m.writeList a bs).wf = true := by
  induction bs generalizing m a with
  | nil => exact h
  | cons b bs ih => exact ih (Memory.wf_write h a b) (a + 1)

theorem Memory.Below.writeList {n : Nat} {m : Memory} (h : Memory.Below n m) {a : Nat} {bs : List Byte}
    (ha : a + bs.length ≤ n) : Memory.Below n (m.writeList a bs) := by
  induction bs generalizing m a with
  | nil => exact h
  | cons b bs ih =>
    simp only [List.length_cons] at ha
    exact ih (h.write (by omega) b) (by omega)

theorem Memory.wf_spoilBytes {m : Memory} (h : m.wf = true) (g : Nat) (as : List Nat) :
    (spoilBytes g as m).wf = true := by
  induction as generalizing m with
  | nil => exact h
  | cons a as ih => exact ih (Memory.wf_write h a _)

theorem Memory.Below.spoilBytes {n : Nat} {m : Memory} (h : Memory.Below n m) (g : Nat) {as : List Nat}
    (ha : ∀ a ∈ as, a < n) : Memory.Below n (spoilBytes g as m) := by
  induction as generalizing m with
  | nil => exact h
  | cons a as ih =>
    exact ih (h.write (ha a (List.mem_cons_self ..)) _) fun x hx => ha x (List.mem_cons_of_mem _ hx)

theorem Memory.read_spoilBytes (g : Nat) (as : List Nat) (m : Memory) (x : Nat) :
    (spoilBytes g as m).read x = if x ∈ as then some (Config.freeObufByte g x) else m.read x := by
  induction as generalizing m with
  | nil => rfl
  | cons a as ih =>
    show (spoilBytes g as (m.write a (Config.freeObufByte g a))).read x = _
    rw [ih, Memory.read_write]
    by_cases h1 : x ∈ as <;> by_cases h2 : x = a <;> simp [h1, h2]

/-- An address is listed exactly when its byte has a value. -/
theorem Memory.isSome_read (m : Memory) (a : Nat) : (m.read a).isSome = true ↔ a ∈ m.map Prod.fst := by
  induction m with
  | nil => simp
  | cons p m ih =>
    obtain ⟨k, v⟩ := p
    simp only [Memory.read, List.map_cons, List.mem_cons]
    by_cases h : k = a
    · simp [h]
    · rw [if_neg h, ih]
      exact ⟨.inr, fun h' => h'.resolve_left (Ne.symm h)⟩

/-! ## What an aborted command would write (notes/assumptions/5.md) -/

/-- The buffer as it is held reads, at each of its addresses, the byte written there or else the free value. -/
theorem Memory.read_heldFrom (m : Memory) (free : Nat → Byte) (n a x : Nat) :
    (m.heldFrom free n a).read x = if a ≤ x ∧ x < a + n then some ((m.read x).getD (free x)) else none := by
  induction n generalizing a with
  | zero => rw [if_neg (by omega)]; rfl
  | succ n ih =>
    simp only [Memory.heldFrom, Memory.read, ih]
    by_cases h : a = x
    · subst h
      rw [if_pos rfl, if_pos (by omega)]
    · rw [if_neg h]
      by_cases h' : a + 1 ≤ x ∧ x < a + 1 + n
      · rw [if_pos h', if_pos (by omega)]
      · rw [if_neg h', if_neg (by omega)]

/-- The buffer as it is held is in canonical form. -/
theorem Memory.wf_heldFrom (m : Memory) (free : Nat → Byte) (n a : Nat) : (m.heldFrom free n a).wf = true := by
  rw [Memory.wf_iff_pairwise]
  induction n generalizing a with
  | zero => exact .nil
  | succ n ih =>
    refine .cons (fun x hx => ?_) (ih (a + 1))
    obtain ⟨p, hp, rfl⟩ := List.mem_map.mp hx
    have hr := (Memory.isSome_read (m.heldFrom free n (a + 1)) p.1).mpr (List.mem_map_of_mem hp)
    rw [Memory.read_heldFrom] at hr
    split at hr
    · omega
    · simp at hr

/-- IBUF as it is held reads what the host would read there. -/
theorem State.read_heldIbuf (s : State) (a : Nat) :
    s.heldIbuf.read a = if a < s.cfg.ibufBytes then some (Buffer.ibuf.byteAt s a) else none := by
  rw [State.heldIbuf, Memory.read_heldFrom]
  by_cases h : a < s.cfg.ibufBytes
  · rw [if_pos (by omega), if_pos h]
    rfl
  · rw [if_neg (by omega), if_neg h]

/-- The addresses an aborted command would write are those its rule leaves written in an empty OBUF. -/
theorem mem_wouldWrite (s : State) (a : Nat) :
    a ∈ wouldWrite s ↔ ∃ t, runCommand s.rehearsal = .next t ∧ (t.out.obuf.read a).isSome = true := by
  unfold wouldWrite
  cases runCommand s.rehearsal with
  | next t =>
    rw [← Memory.isSome_read]
    exact ⟨fun h => ⟨t, rfl, h⟩, fun ⟨_, h, h'⟩ => by cases h; exact h'⟩
  | fault f => exact ⟨fun h => absurd h List.not_mem_nil, fun ⟨_, h, _⟩ => nomatch h⟩
  | refused r => exact ⟨fun h => absurd h List.not_mem_nil, fun ⟨_, h, _⟩ => nomatch h⟩

/-- Aborting a command changes OBUF exactly at the addresses its rule would write. -/
theorem abortCommand_read_obuf {s : State} (h : s.status.busy = true) (a : Nat) :
    (abortCommand s).out.obuf.read a
      = if a ∈ wouldWrite s then some (Config.freeObufByte s.env.draws a) else s.out.obuf.read a := by
  rw [abortCommand_obuf_busy s h, Memory.read_spoilBytes]

theorem Memory.reset_wf : State.reset.out.obuf.wf = true ∧ State.reset.inp.ibuf.wf = true := ⟨rfl, rfl⟩

/-! ## Ranges of bytes -/

@[simp] theorem bytesAt_length (m : Memory) (a n : Nat) : (bytesAt m a n).length = n := by simp [bytesAt]

@[simp] theorem bytesAt_zero (m : Memory) (a : Nat) : bytesAt m a 0 = [] := rfl

theorem bytesAt_getElem? (m : Memory) (a n i : Nat) :
    (bytesAt m a n)[i]? = if i < n then some ((m.read (a + i)).getD 0) else none := by
  unfold bytesAt
  by_cases h : i < n
  · simp [h]
  · simp [h]

theorem bytesAt_add (m : Memory) (a n k : Nat) : bytesAt m a (n + k) = bytesAt m a n ++ bytesAt m (a + n) k := by
  simp [bytesAt, List.range_add, Nat.add_assoc]

theorem bytesAt_congr {m m' : Memory} {a n : Nat} (h : ∀ i < n, m'.read (a + i) = m.read (a + i)) :
    bytesAt m' a n = bytesAt m a n := by
  unfold bytesAt
  refine List.map_congr_left fun i hi => ?_
  rw [h i (List.mem_range.mp hi)]

theorem bytesAt_writeList (m : Memory) (a : Nat) (bs : List Byte) : bytesAt (m.writeList a bs) a bs.length = bs := by
  refine List.ext_getElem? fun i => ?_
  rw [bytesAt_getElem?]
  split
  · rename_i h
    rw [Memory.read_writeList, if_pos (by omega), Nat.add_sub_cancel_left, List.getElem?_eq_getElem h]
    rfl
  · rename_i h
    rw [List.getElem?_eq_none (by omega)]

theorem bytesAt_writeList_before (m : Memory) {a b n : Nat} (bs : List Byte) (h : a + n ≤ b) :
    bytesAt (m.writeList b bs) a n = bytesAt m a n :=
  bytesAt_congr fun i hi => by rw [Memory.read_writeList, if_neg (by omega)]

/-- A written range as its bytes. -/
theorem Written.read {m : Memory} {a n i : Nat} (h : Written m a n) (hi : i < n) :
    m.read (a + i) = some ((bytesAt m a n)[i]?.getD 0) := by
  have := h i hi
  rw [bytesAt_getElem?, if_pos hi]
  obtain ⟨b, hb⟩ := Option.isSome_iff_exists.mp this
  rw [hb]
  rfl

theorem SameOutside.refl (m : Memory) (a n : Nat) : SameOutside m m a n := fun _ _ => rfl

theorem SameOutside.trans {m m' m'' : Memory} {a n k : Nat} (h : SameOutside m m' a n)
    (h' : SameOutside m' m'' (a + n) k) : SameOutside m m'' a (n + k) := by
  intro x hx
  rw [h' x (by omega), h x (by omega)]

end Sys2Proof.Machine
end

