-- ==== Sys2Proof/Laws/Act.lean ====
section
/-! SUPPORT. Running a command body: one equation per combinator and per shared check, the inversion of a sequence, and
what `complete` answers. -/

namespace Sys2Proof.Machine

variable {σ α β : Type}

/-! ## Combinators -/

@[simp] theorem Act.pure_apply (a : α) (s : σ) : (pure a : Act σ α) s = .ok a s := rfl

@[simp] theorem Act.bind_apply (x : Act σ α) (f : α → Act σ β) (s : σ) :
    (x >>= f) s = match x s with
      | .ok a t => f a t
      | .error e t => .error e t := by
  rcases h : x s with _ | _ <;> simp only [bind, EStateM.bind, h]

@[simp] theorem Act.map_apply (f : α → β) (x : Act σ α) (s : σ) :
    (f <$> x) s = match x s with
      | .ok a t => .ok (f a) t
      | .error e t => .error e t := by
  rcases h : x s with _ | _ <;> simp only [Functor.map, EStateM.map, h]

@[simp] theorem Act.get_apply (s : σ) : (get : Act σ σ) s = .ok s s := rfl

@[simp] theorem Act.set_apply (t s : σ) : (set t : Act σ Unit) s = .ok () t := rfl

@[simp] theorem Act.modify_apply (f : σ → σ) (s : σ) : (modify f : Act σ Unit) s = .ok () (f s) := rfl

@[simp] theorem raiseError_apply (e : ErrorCode) (pos : Nat) (s : σ) :
    (raiseError e pos : Act σ α) s = .error (.raised e pos) s := rfl

@[simp] theorem require_true {p : Prop} [Decidable p] (h : p) (e : ErrorCode) (pos : Nat) (s : σ) :
    (require p e pos : Act σ Unit) s = .ok () s := by
  unfold require
  rw [if_pos h]
  rfl

@[simp] theorem require_false {p : Prop} [Decidable p] (h : ¬ p) (e : ErrorCode) (pos : Nat) (s : σ) :
    (require p e pos : Act σ Unit) s = .error (.raised e pos) s := by
  unfold require
  rw [if_neg h]
  rfl

theorem require_apply (p : Prop) [Decidable p] (e : ErrorCode) (pos : Nat) (s : σ) :
    (require p e pos : Act σ Unit) s = if p then .ok () s else .error (.raised e pos) s := by
  unfold require
  split <;> rfl

theorem ibufByte_apply (ibuf : Memory) (a : Nat) (s : σ) :
    (ibufByte ibuf a : Act σ Byte) s = match ibuf.read a with
      | some b => .ok b s
      | none => .error (.stuck (.unwrittenIbuf a)) s := by
  unfold ibufByte
  cases ibuf.read a <;> rfl

theorem ibufByte_written {ibuf : Memory} {a : Nat} {b : Byte} (h : ibuf.read a = some b) (s : σ) :
    (ibufByte ibuf a : Act σ Byte) s = .ok b s := by
  rw [ibufByte_apply, h]

theorem ibufByte_unwritten {ibuf : Memory} {a : Nat} (h : ibuf.read a = none) (s : σ) :
    (ibufByte ibuf a : Act σ Byte) s = .error (.stuck (.unwrittenIbuf a)) s := by
  rw [ibufByte_apply, h]

@[simp] theorem onOut_apply (x : Act OutPort α) (s : State) :
    onOut x s = match x s.out with
      | .ok a o => .ok a { s with out := o }
      | .error e o => .error e { s with out := o } := rfl

@[simp] theorem onReader_apply (x : Memory → Act Reader α) (s : State) :
    onReader x s = match x s.inp.ibuf s.inp.rd with
      | .ok a r => .ok a { s with inp := { s.inp with rd := r } }
      | .error e r => .error e { s with inp := { s.inp with rd := r } } := rfl

@[simp] theorem onHuf_apply (f : Huffman → Huffman) (s : State) :
    onHuf f s = .ok () { s with huf := f s.huf } := rfl

@[simp] theorem storeBytes_apply (a : Nat) (bs : List Byte) (s : State) :
    storeBytes a bs s = .ok () { s with out := { s.out with obuf := s.out.obuf.writeList a bs } } := rfl

@[simp] theorem wrInit_apply (base : Nat) (g : Gran) (o : OutPort) :
    wrInit base g o = .ok () { o with wr :=
      { st := .active, gran := g, base := base, acc := 0, cnt := 0, out := 0, bits := 0 } } := rfl

@[simp] theorem rdInit_apply (base len : Nat) (g : Gran) (r : Reader) :
    rdInit base len g r = .ok ()
      { st := .active, gran := g, base := base, len := len, fetch := 0, win := 0, cnt := 0, pos := 0 } := rfl

theorem requireIbuf_apply (a n : Nat) (s : State) :
    requireIbuf a n s = if a + n ≤ s.cfg.ibufBytes then .ok () s else .error (.raised .bufferBounds 0) s := by
  simp [requireIbuf, require_apply]

theorem requireObuf_apply (a : Nat) (s : State) :
    requireObuf a s = if a ≤ s.cfg.obufBytes then .ok () s else .error (.raised .bufferBounds 0) s := by
  simp [requireObuf, require_apply]

theorem putBytes_apply (a : Nat) (bs : List Byte) (s : State) :
    putBytes a bs s = if a + bs.length ≤ s.cfg.obufBytes
      then .ok () { s with out := { s.out with obuf := s.out.obuf.writeList a bs } }
      else .error (.raised .bufferOverflow a) s := by
  simp only [putBytes, Act.bind_apply, Act.get_apply, require_apply]
  by_cases h : a + bs.length ≤ s.cfg.obufBytes <;> simp [h]

/-! ## Ranges of IBUF -/

/-- Reading a written range answers its bytes. -/
theorem ibufBytes_written {ibuf : Memory} {a n : Nat} (h : Written ibuf a n) (s : σ) :
    (ibufBytes ibuf a n : Act σ (List Byte)) s = .ok (bytesAt ibuf a n) s := by
  induction n generalizing a with
  | zero => rfl
  | succ n ih =>
    obtain ⟨b, hb⟩ := Option.isSome_iff_exists.mp (h 0 (by omega))
    have h' : Written ibuf (a + 1) n := fun i hi => by
      have := h (i + 1) (by omega)
      rwa [show a + (i + 1) = a + 1 + i by omega] at this
    have e : bytesAt ibuf a (n + 1) = b :: bytesAt ibuf (a + 1) n := by
      rw [Nat.add_comm n 1, bytesAt_add]
      simp only [bytesAt, List.range_one, List.map_cons, List.map_nil, hb, Option.getD_some, List.singleton_append]
    simp only [Nat.add_zero] at hb
    simp only [ibufBytes, Act.bind_apply, ibufByte_written hb, ih h', Act.pure_apply, e]

/-- Reading a range whose first unwritten byte is at `a + k` stops there. -/
theorem ibufBytes_unwritten {ibuf : Memory} {a n k : Nat} (hk : k < n) (h : Written ibuf a k)
    (hn : ibuf.read (a + k) = none) (s : σ) :
    (ibufBytes ibuf a n : Act σ (List Byte)) s = .error (.stuck (.unwrittenIbuf (a + k))) s := by
  induction n generalizing a k with
  | zero => omega
  | succ n ih =>
    cases k with
    | zero =>
      simp only [ibufBytes, Act.bind_apply]
      rw [ibufByte_unwritten (by simpa using hn)]
      rfl
    | succ k =>
      obtain ⟨b, hb⟩ := Option.isSome_iff_exists.mp (h 0 (by omega))
      have h' : Written ibuf (a + 1) k := fun i hi => by
        have := h (i + 1) (by omega)
        rwa [show a + (i + 1) = a + 1 + i by omega] at this
      have hn' : ibuf.read (a + 1 + k) = none := by rwa [show a + 1 + k = a + (k + 1) by omega]
      simp only [Nat.add_zero] at hb
      simp only [ibufBytes, Act.bind_apply, ibufByte_written hb, ih (by omega) h' hn']
      rw [show a + 1 + k = a + (k + 1) by omega]

/-- Everything reading a range can do: it changes nothing, and answers the bytes of a written range or stops at the
first unwritten byte. -/
theorem ibufBytes_cases (ibuf : Memory) (a n : Nat) (s : σ) :
    (Written ibuf a n ∧ (ibufBytes ibuf a n : Act σ (List Byte)) s = .ok (bytesAt ibuf a n) s)
    ∨ ∃ k < n, Written ibuf a k ∧ ibuf.read (a + k) = none
        ∧ (ibufBytes ibuf a n : Act σ (List Byte)) s = .error (.stuck (.unwrittenIbuf (a + k))) s := by
  induction n with
  | zero => exact .inl ⟨fun i hi => absurd hi (by omega), rfl⟩
  | succ n ih =>
    rcases ih with ⟨hw, _⟩ | ⟨k, hk, hw, hn, _⟩
    · cases hr : ibuf.read (a + n) with
      | none => exact .inr ⟨n, by omega, hw, hr, ibufBytes_unwritten (by omega) hw hr s⟩
      | some b =>
        have hw' : Written ibuf a (n + 1) := fun i hi => by
          by_cases h : i < n
          · exact hw i h
          · rw [show i = n by omega, hr]
            rfl
        exact .inl ⟨hw', ibufBytes_written hw' s⟩
    · exact .inr ⟨k, by omega, hw, hn, ibufBytes_unwritten (by omega) hw hn s⟩

/-! ## Completion -/

theorem complete_ok {body : Act State Results} {s t : State} {r : Results} (h : body s = .ok r t) :
    complete body s = .next (completeOk r t) := by
  unfold complete
  rw [h]

theorem complete_raised {body : Act State Results} {s t : State} {e : ErrorCode} {pos : Nat}
    (h : body s = .error (.raised e pos) t) : complete body s = .next (takeError e pos t) := by
  unfold complete
  rw [h]

theorem complete_stuck {body : Act State Results} {s t : State} {f : Fault} (h : body s = .error (.stuck f) t) :
    complete body s = .fault f := by
  unfold complete
  rw [h]

/-- Everything a completion can do. -/
theorem complete_cases (body : Act State Results) (s : State) :
    (∃ r t, body s = .ok r t ∧ complete body s = .next (completeOk r t))
    ∨ (∃ e pos t, body s = .error (.raised e pos) t ∧ complete body s = .next (takeError e pos t))
    ∨ ∃ f t, body s = .error (.stuck f) t ∧ complete body s = .fault f := by
  rcases h : body s with ⟨r, t⟩ | ⟨e, t⟩
  · exact .inl ⟨r, t, rfl, complete_ok h⟩
  · cases e with
    | raised e pos => exact .inr (.inl ⟨e, pos, t, rfl, complete_raised h⟩)
    | stuck f => exact .inr (.inr ⟨f, t, rfl, complete_stuck h⟩)

/-- A completion never refuses. -/
theorem complete_ne_refused (body : Act State Results) (s : State) (r : Refusal) : complete body s ≠ .refused r := by
  rcases complete_cases body s with ⟨_, _, _, h⟩ | ⟨_, _, _, _, h⟩ | ⟨_, _, _, h⟩ <;> rw [h] <;> exact fun h => nomatch h

/-- A class C error leaves what R278 says. -/
theorem takeError_classC {e : ErrorCode} (he : e.classX = false) (s : State) :
    takeError e 0 s = failedCheck e s := by
  unfold takeError
  simp only [he]
  rfl

/-- A class X error leaves what R278 says. -/
theorem takeError_classX {e : ErrorCode} (he : e.classX = true) (pos : Nat) (s : State) :
    takeError e pos s = failedExecution e pos s := by
  unfold takeError
  simp only [he]
  rfl

end Sys2Proof.Machine
end

