-- ==== Sys2Proof/Laws/Bits.lean ====
section
/-! SUPPORT. The algebra of bit strings (spec/00_scope.md R12): numbers as bits and back, and the stream order of stored
bytes (spec/41_bitstream.md R104). -/

namespace Sys2Proof.Machine

/-! ## Numbers as bit strings -/

@[simp] theorem natBits_length (n v : Nat) : (natBits n v).length = n := by simp [natBits]

@[simp] theorem natBits_zero (v : Nat) : natBits 0 v = [] := rfl

theorem natBits_getElem? (n v i : Nat) :
    (natBits n v)[i]? = if i < n then some (v.testBit (n - 1 - i)) else none := by
  unfold natBits
  by_cases h : i < n <;> simp [h]

/-- The first bits are those of the high part. -/
theorem natBits_add (a b v : Nat) : natBits (a + b) v = natBits a (v / 2 ^ b) ++ natBits b v := by
  refine List.ext_getElem? fun i => ?_
  rw [natBits_getElem?]
  by_cases hi : i < a
  · rw [if_pos (by omega), List.getElem?_append_left (by simpa using hi), natBits_getElem?, if_pos hi,
      Nat.testBit_div_two_pow, show a - 1 - i + b = a + b - 1 - i by omega]
  · rw [List.getElem?_append_right (by simpa using hi), natBits_length, natBits_getElem?]
    by_cases h2 : i < a + b
    · rw [if_pos h2, if_pos (by omega), show b - 1 - (i - a) = a + b - 1 - i by omega]
    · rw [if_neg h2, if_neg (by omega)]

/-- Only the low `n` bits count. -/
theorem natBits_congr {n v w : Nat} (h : v % 2 ^ n = w % 2 ^ n) : natBits n v = natBits n w := by
  refine List.ext_getElem? fun i => ?_
  rw [natBits_getElem?, natBits_getElem?]
  split
  · have := congrArg (fun x => x.testBit (n - 1 - i)) h
    simp only [Nat.testBit_mod_two_pow] at this
    have hlt : n - 1 - i < n := by omega
    simp only [hlt, decide_true, Bool.true_and] at this
    rw [this]
  · rfl

@[simp] theorem natBits_mod (n v : Nat) : natBits n (v % 2 ^ n) = natBits n v :=
  natBits_congr (Nat.mod_mod _ _)

theorem natBits_zero_value (n : Nat) : natBits n 0 = List.replicate n false := by
  refine List.ext_getElem? fun i => ?_
  rw [natBits_getElem?, List.getElem?_replicate]
  simp

theorem natBits_mul_two_pow (n k v : Nat) : natBits (n + k) (v * 2 ^ k) = natBits n v ++ List.replicate k false := by
  rw [natBits_add, Nat.mul_div_cancel _ (Nat.two_pow_pos k), ← natBits_zero_value k]
  congr 1
  exact natBits_congr (by simp)

theorem natBits_succ (n v : Nat) : natBits (n + 1) v = v.testBit n :: natBits n v := by
  rw [Nat.add_comm, natBits_add]
  simp [natBits, Nat.testBit_eq_decide_div_mod_eq]

theorem bitsNat_foldl (bs : List Bool) (k : Nat) :
    bs.foldl (fun v b => 2 * v + b.toNat) k = k * 2 ^ bs.length + bitsNat bs := by
  unfold bitsNat
  induction bs generalizing k with
  | nil => simp
  | cons b bs ih =>
    simp only [List.foldl_cons, List.length_cons]
    rw [ih, ih (2 * 0 + b.toNat)]
    ring

@[simp] theorem bitsNat_nil : bitsNat [] = 0 := rfl

theorem bitsNat_append (as bs : List Bool) : bitsNat (as ++ bs) = bitsNat as * 2 ^ bs.length + bitsNat bs := by
  conv_lhs => unfold bitsNat
  rw [List.foldl_append, bitsNat_foldl]
  rfl

theorem bitsNat_cons (b : Bool) (bs : List Bool) : bitsNat (b :: bs) = b.toNat * 2 ^ bs.length + bitsNat bs := by
  rw [show b :: bs = [b] ++ bs from rfl, bitsNat_append]
  simp [bitsNat]

theorem bitsNat_lt (bs : List Bool) : bitsNat bs < 2 ^ bs.length := by
  induction bs with
  | nil => simp
  | cons b bs ih =>
    rw [bitsNat_cons, List.length_cons, Nat.pow_succ]
    cases b <;> simp <;> omega

theorem bitsNat_natBits (n v : Nat) : bitsNat (natBits n v) = v % 2 ^ n := by
  induction n with
  | zero => simp [Nat.mod_one]
  | succ n ih =>
    have hs : v % 2 ^ (n + 1) = v % 2 ^ n + 2 ^ n * (v / 2 ^ n % 2) := by rw [Nat.pow_succ, Nat.mod_mul]
    rw [natBits_succ, bitsNat_cons, ih, natBits_length, hs, Nat.testBit_eq_decide_div_mod_eq]
    rcases Nat.mod_two_eq_zero_or_one (v / 2 ^ n) with h | h <;> simp [h, Nat.add_comm]

theorem natBits_bitsNat (bs : List Bool) : natBits bs.length (bitsNat bs) = bs := by
  induction bs with
  | nil => rfl
  | cons b bs ih =>
    have hlt := bitsNat_lt bs
    rw [List.length_cons, natBits_succ, bitsNat_cons]
    congr 1
    · rw [Nat.mul_comm, Nat.testBit_two_pow_mul_add _ hlt]
      cases b <;> simp
    · rw [← ih]
      simp only [natBits_length]
      refine natBits_congr ?_
      rw [ih]
      simp [Nat.add_mod]

/-- Two strings of one length that spell one number are equal. -/
theorem bitsNat_injective {as bs : List Bool} (hl : as.length = bs.length) (h : bitsNat as = bitsNat bs) : as = bs := by
  rw [← natBits_bitsNat as, ← natBits_bitsNat bs, hl, h]

theorem natBits_injective {n v w : Nat} (h : natBits n v = natBits n w) : v % 2 ^ n = w % 2 ^ n := by
  rw [← bitsNat_natBits, ← bitsNat_natBits, h]

theorem natBits_take (n k v : Nat) (h : k ≤ n) : (natBits n v).take k = natBits k (v / 2 ^ (n - k)) := by
  conv_lhs => rw [show n = k + (n - k) by omega, natBits_add]
  rw [List.take_left' (natBits_length _ _)]

theorem natBits_drop (n k v : Nat) (h : k ≤ n) : (natBits n v).drop k = natBits (n - k) v := by
  conv_lhs => rw [show n = k + (n - k) by omega, natBits_add]
  rw [List.drop_left' (natBits_length _ _)]

/-! ## Little-endian bytes -/

@[simp] theorem littleEndianBytes_length (v n : Nat) : (littleEndianBytes v n).length = n := by
  induction n generalizing v with
  | zero => rfl
  | succ n ih => simp [littleEndianBytes, ih]

theorem littleEndian_littleEndianBytes (v n : Nat) : littleEndian (littleEndianBytes v n) = v % 256 ^ n := by
  induction n generalizing v with
  | zero => simp [littleEndianBytes, littleEndian, Nat.mod_one]
  | succ n ih =>
    have h : v % 256 ^ (n + 1) = v % 256 + 256 * (v / 256 % 256 ^ n) := by
      rw [Nat.pow_succ, Nat.mul_comm (256 ^ n), Nat.mod_mul]
    rw [h]
    simp only [littleEndianBytes, littleEndian, ih, BitVec.toNat_ofNat]

theorem littleEndian_lt (bs : List Byte) : littleEndian bs < 256 ^ bs.length := by
  induction bs with
  | nil => simp [littleEndian]
  | cons b bs ih =>
    have := b.isLt
    simp only [littleEndian, List.length_cons, Nat.pow_succ]
    omega

/-! ## Stored bytes as a stream -/

theorem granBits_pos (g : Gran) : 0 < granBits g := by cases g <;> decide

theorem granBits_le (g : Gran) : granBits g ≤ 32 := by cases g <;> decide

theorem granBits_div (g : Gran) : 8 * (granBits g / 8) = granBits g := by cases g <;> rfl

theorem granBytes_pos (g : Gran) : 0 < granBits g / 8 := by cases g <;> decide

@[simp] theorem storedBits_nil (g : Gran) : storedBits g [] = [] := by cases g <;> rfl

/-- The first stored unit comes first. -/
theorem storedBits_cons_unit (g : Gran) {u bs : List Byte} (hu : u.length = granBits g / 8) :
    storedBits g (u ++ bs) = natBits (granBits g) (littleEndian u) ++ storedBits g bs := by
  cases g with
  | byte =>
    match u, hu with
    | [b], _ => simp [storedBits, littleEndian, granBits]
  | word =>
    match u, hu with
    | [a, b, c, d], _ => simp [storedBits, granBits]

theorem storedBits_unit (g : Gran) {u : List Byte} (hu : u.length = granBits g / 8) :
    storedBits g u = natBits (granBits g) (littleEndian u) := by
  have := storedBits_cons_unit g (bs := []) hu
  simpa using this

/-- Whole units: a list of bytes splits into its first unit and the rest. -/
theorem exists_unit (g : Gran) {bs : List Byte} (h : bs.length % (granBits g / 8) = 0) (hne : bs ≠ []) :
    ∃ u cs, bs = u ++ cs ∧ u.length = granBits g / 8 ∧ cs.length % (granBits g / 8) = 0 := by
  have hm := granBytes_pos g
  have hlen : granBits g / 8 ≤ bs.length := by
    have hpos : 0 < bs.length := List.length_pos_iff.mpr hne
    exact Nat.le_of_dvd hpos (Nat.dvd_of_mod_eq_zero h)
  refine ⟨bs.take (granBits g / 8), bs.drop (granBits g / 8), (List.take_append_drop _ _).symm, ?_, ?_⟩
  · simpa using hlen
  · rw [List.length_drop, ← Nat.mod_eq_sub_mod hlen]
    exact h

theorem storedBits_append (g : Gran) {as bs : List Byte} (h : as.length % (granBits g / 8) = 0) :
    storedBits g (as ++ bs) = storedBits g as ++ storedBits g bs := by
  by_cases hne : as = []
  · simp [hne]
  · obtain ⟨u, cs, rfl, hu, hcs⟩ := exists_unit g h hne
    have hm := granBytes_pos g
    rw [List.append_assoc, storedBits_cons_unit g hu, storedBits_cons_unit g hu, storedBits_append g hcs,
      List.append_assoc]
termination_by as.length
decreasing_by
  subst_vars
  simp only [List.length_append]
  omega

theorem storedBits_length (g : Gran) {bs : List Byte} (h : bs.length % (granBits g / 8) = 0) :
    (storedBits g bs).length = 8 * bs.length := by
  by_cases hne : bs = []
  · simp [hne]
  · obtain ⟨u, cs, rfl, hu, hcs⟩ := exists_unit g h hne
    have hm := granBytes_pos g
    have hd := granBits_div g
    rw [storedBits_cons_unit g hu, List.length_append, storedBits_length g hcs, natBits_length, List.length_append, hu]
    omega
termination_by bs.length
decreasing_by
  subst_vars
  simp only [List.length_append]
  omega

/-- A stored unit is its bits, most significant first (spec/41_bitstream.md R104, R107). -/
theorem storedBits_unitBytes (g : Gran) (u : DWord) : storedBits g (unitBytes g u) = natBits (granBits g) u.toNat := by
  rw [storedBits_unit g (by simp [unitBytes]), unitBytes, littleEndian_littleEndianBytes]
  refine natBits_congr ?_
  cases g <;> simp [granBits]

end Sys2Proof.Machine
end

