-- ==== Sys2Proof/Laws/HufBuild.lean ====
section
/-! SUPPORT. What the operations of the Huffman table builder do (spec/43_huffman_build.md R191 to R202), said once:
counting a symbol, inserting and merging nodes, the codes of a tree, sorting a table, assigning codes. -/

namespace Sys2Proof.Machine

/-! ## Histogram -/

/-- The canonical form: symbols strictly rising, every count positive. -/
theorem histWf_iff (h : List (Nat × Nat)) :
    histWf h = true ↔ (h.map Prod.fst).Pairwise (· < ·) ∧ ∀ p ∈ h, 0 < p.2 := by
  induction h with
  | nil => simp [histWf]
  | cons p h ih =>
    cases h with
    | nil => simp [histWf]
    | cons q h =>
      obtain ⟨k, n⟩ := p
      obtain ⟨k', n'⟩ := q
      rw [histWf, Bool.and_eq_true, Bool.and_eq_true, ih]
      simp only [decide_eq_true_eq, List.map_cons, List.pairwise_cons, List.mem_cons, List.mem_map, forall_eq_or_imp]
      constructor
      · rintro ⟨⟨hn, hk⟩, ⟨hlt, hp⟩, hpos⟩
        exact ⟨⟨⟨hk, fun a ha => hk.trans (hlt a ha)⟩, hlt, hp⟩, hn, hpos⟩
      · rintro ⟨⟨⟨hk, _⟩, hlt, hp⟩, hn, hpos⟩
        exact ⟨⟨hn, hk⟩, ⟨hlt, hp⟩, hpos⟩

/-- A symbol below every listed one has count 0. -/
theorem histCount_eq_zero {h : List (Nat × Nat)} {x : Nat} (hx : x ∉ h.map Prod.fst) : histCount h x = 0 := by
  induction h with
  | nil => rfl
  | cons p h ih =>
    obtain ⟨k, n⟩ := p
    simp only [List.map_cons, List.mem_cons, not_or] at hx
    rw [histCount, if_neg fun e => hx.1 e.symm, ih hx.2]

/-- A listed pair is the symbol and its count. -/
theorem histCount_of_mem {h : List (Nat × Nat)} (hs : (h.map Prod.fst).Pairwise (· < ·)) {p : Nat × Nat} (hp : p ∈ h) :
    histCount h p.1 = p.2 := by
  induction h with
  | nil => simp at hp
  | cons q h ih =>
    obtain ⟨k, n⟩ := q
    rw [List.map_cons, List.pairwise_cons] at hs
    rw [histCount]
    rcases List.mem_cons.mp hp with rfl | hp
    · rw [if_pos rfl]
    · have := hs.1 p.1 (List.mem_map_of_mem hp)
      rw [if_neg (by simp only at this; omega), ih hs.2 hp]

/-- The symbols listed after a count are those before and the counted one. -/
theorem mem_histBump (h : List (Nat × Nat)) (x y : Nat) :
    y ∈ (histBump h x).map Prod.fst ↔ y = x ∨ y ∈ h.map Prod.fst := by
  induction h with
  | nil => simp [histBump]
  | cons p h ih =>
    obtain ⟨k, n⟩ := p
    rw [histBump]
    split
    · simp
    · split
      · rename_i hx
        simp [hx]
      · simp only [List.map_cons, List.mem_cons, ih]
        tauto

/-- Counting one symbol keeps the canonical form (R191). -/
theorem histBump_wf {h : List (Nat × Nat)} (hw : histWf h = true) (x : Nat) : histWf (histBump h x) = true := by
  rw [histWf_iff] at hw ⊢
  obtain ⟨hs, hpos⟩ := hw
  induction h with
  | nil => simp [histBump]
  | cons p h ih =>
    obtain ⟨k, n⟩ := p
    simp only [List.map_cons, List.pairwise_cons, List.mem_cons, forall_eq_or_imp] at hs hpos
    rw [histBump]
    split
    · rename_i hlt
      simp only [List.map_cons, List.pairwise_cons, List.mem_cons, forall_eq_or_imp]
      exact ⟨⟨⟨hlt, fun a ha => hlt.trans (hs.1 a ha)⟩, hs⟩, by omega, hpos⟩
    · split
      · simp only [List.map_cons, List.pairwise_cons, List.mem_cons, forall_eq_or_imp]
        exact ⟨hs, by omega, hpos.2⟩
      · rename_i hlt hne
        obtain ⟨ih1, ih2⟩ := ih hs.2 hpos.2
        simp only [List.map_cons, List.pairwise_cons, List.mem_cons, forall_eq_or_imp]
        refine ⟨⟨fun a ha => ?_, ih1⟩, hpos.1, ih2⟩
        rcases (mem_histBump h x a).mp ha with rfl | ha
        · omega
        · exact hs.1 a ha

/-- Counting one symbol adds 1 to its count and changes no other (R191). -/
theorem histCount_histBump {h : List (Nat × Nat)} (hw : histWf h = true) (x y : Nat) :
    histCount (histBump h x) y = histCount h y + if y = x then 1 else 0 := by
  obtain ⟨hs, -⟩ := (histWf_iff h).mp hw
  clear hw
  induction h with
  | nil => simp [histBump, histCount, eq_comm]
  | cons p h ih =>
    obtain ⟨k, n⟩ := p
    rw [List.map_cons, List.pairwise_cons] at hs
    rw [histBump]
    split
    · rename_i hlt
      rw [histCount]
      by_cases hy : y = x
      · subst hy
        rw [if_pos rfl, if_pos rfl, histCount_eq_zero]
        rw [List.map_cons, List.mem_cons, not_or]
        exact ⟨by omega, fun hm => absurd (hs.1 y hm) (by simp only; omega)⟩
      · rw [if_neg fun e => hy e.symm, if_neg hy, Nat.add_zero]
    · split
      · rename_i hx
        subst hx
        rw [histCount, histCount]
        by_cases hy : y = x
        · rw [if_pos hy.symm, if_pos hy.symm, if_pos hy]
        · rw [if_neg fun e => hy e.symm, if_neg fun e => hy e.symm, if_neg hy, Nat.add_zero]
      · rename_i hne
        rw [histCount, histCount, ih hs.2]
        split
        · rename_i hk
          rw [if_neg (by omega), Nat.add_zero]
        · rfl

theorem histBump_foldl {h : List (Nat × Nat)} (hw : histWf h = true) (xs : List Nat) :
    histWf (xs.foldl histBump h) = true
      ∧ ∀ y, histCount (xs.foldl histBump h) y = histCount h y + xs.count y := by
  induction xs generalizing h with
  | nil => exact ⟨hw, fun y => by simp⟩
  | cons x xs ih =>
    obtain ⟨h1, h2⟩ := ih (histBump_wf hw x)
    refine ⟨h1, fun y => ?_⟩
    rw [List.foldl_cons, h2, histCount_histBump hw, List.count_cons]
    simp only [beq_iff_eq, eq_comm (a := x)]
    omega

/-- A histogram is in canonical form. -/
theorem histogram_wf (xs : List Nat) : histWf (histogram xs) = true := (histBump_foldl rfl xs).1

/-- A histogram's counts are how often each symbol occurs (R191). -/
theorem histCount_histogram (xs : List Nat) (y : Nat) : histCount (histogram xs) y = xs.count y := by
  rw [histogram, (histBump_foldl rfl xs).2]
  simp [histCount]

/-- A histogram lists the symbols that occur. -/
theorem mem_histogram (xs : List Nat) (y : Nat) : y ∈ (histogram xs).map Prod.fst ↔ y ∈ xs := by
  have hw := (histWf_iff _).mp (histogram_wf xs)
  rw [← List.count_pos_iff (l := xs), ← histCount_histogram]
  constructor
  · rintro hy
    obtain ⟨p, hp, rfl⟩ := List.mem_map.mp hy
    rw [histCount_of_mem hw.1 hp]
    exact hw.2 p hp
  · intro hy
    by_contra hno
    rw [histCount_eq_zero hno] at hy
    omega

/-- No listed count of a canonical histogram is 0. -/
theorem filter_pos_of_histWf {h : List (Nat × Nat)} (hw : histWf h = true) :
    (h.filter fun p => decide (0 < p.2)) = h :=
  List.filter_eq_self.mpr fun p hp => decide_eq_true (((histWf_iff h).mp hw).2 p hp)

theorem distinctSymbols_of_histWf {h : List (Nat × Nat)} (hw : histWf h = true) : distinctSymbols h = h.length := by
  rw [distinctSymbols, filter_pos_of_histWf hw]

/-- `D` is the number of different symbols (R191). -/
theorem distinctSymbols_histogram (xs : List Nat) : distinctSymbols (histogram xs) = xs.dedup.length := by
  rw [distinctSymbols_of_histWf (histogram_wf xs), ← List.length_map (f := Prod.fst)]
  have hs := ((histWf_iff _).mp (histogram_wf xs)).1
  refine List.Perm.length_eq ?_
  rw [List.perm_ext_iff_of_nodup (hs.imp Nat.ne_of_lt) (List.nodup_dedup xs)]
  intro y
  rw [mem_histogram, List.mem_dedup]

theorem histBump_sum (h : List (Nat × Nat)) (x : Nat) :
    ((histBump h x).map Prod.snd).sum = (h.map Prod.snd).sum + 1 := by
  induction h with
  | nil => rfl
  | cons p h ih =>
    obtain ⟨k, n⟩ := p
    rw [histBump]
    split
    · simp only [List.map_cons, List.sum_cons]
      omega
    · split
      · simp only [List.map_cons, List.sum_cons]
        omega
      · simp only [List.map_cons, List.sum_cons, ih]
        omega

/-- The counts of a histogram add up to the number of symbols. -/
theorem histogram_sum (xs : List Nat) : ((histogram xs).map Prod.snd).sum = xs.length := by
  have : ∀ h : List (Nat × Nat),
      ((xs.foldl histBump h).map Prod.snd).sum = (h.map Prod.snd).sum + xs.length := by
    induction xs with
    | nil => intro h; rfl
    | cons x xs ih =>
      intro h
      rw [List.foldl_cons, ih, histBump_sum, List.length_cons]
      omega
  rw [histogram, this]
  simp

/-! ## Nodes -/

/-- Weights do not rise along the list (R193). -/
def WeightSorted (l : List HuffTree) : Prop := l.Pairwise fun a b => b.weight ≤ a.weight

/-- Inserting into a sorted list: after every node of at least its weight, before every lighter one (R194). -/
theorem insertNode_cases {l : List HuffTree} (h : WeightSorted l) (z : HuffTree) :
    ∃ hi lo, l = hi ++ lo ∧ (∀ n ∈ hi, z.weight ≤ n.weight) ∧ (∀ n ∈ lo, n.weight < z.weight)
      ∧ insertNode l z = hi ++ z :: lo := by
  induction l with
  | nil => exact ⟨[], [], rfl, by simp, by simp, rfl⟩
  | cons n l ih =>
    obtain ⟨hn, hl⟩ := List.pairwise_cons.mp h
    by_cases hz : z.weight ≤ n.weight
    · obtain ⟨hi, lo, rfl, h1, h2, h3⟩ := ih hl
      refine ⟨n :: hi, lo, rfl, ?_, h2, ?_⟩
      · simp only [List.mem_cons, forall_eq_or_imp]
        exact ⟨hz, h1⟩
      · rw [insertNode, List.filter_cons_of_pos (by simpa using hz), List.length_cons, List.insertIdx_succ_cons]
        rw [insertNode] at h3
        rw [h3]
        rfl
    · refine ⟨[], n :: l, rfl, by simp, ?_, ?_⟩
      · intro m hm
        rcases List.mem_cons.mp hm with rfl | hm
        · omega
        · exact Nat.lt_of_le_of_lt (hn m hm) (by omega)
      · rw [insertNode, List.filter_eq_nil_iff.mpr]
        · rfl
        · intro m hm
          rcases List.mem_cons.mp hm with rfl | hm
          · simpa using hz
          · have := hn m hm
            simp only [decide_eq_true_eq]
            omega

/-- Inserting keeps a list sorted. -/
theorem insertNode_sorted {l : List HuffTree} (h : WeightSorted l) (z : HuffTree) : WeightSorted (insertNode l z) := by
  obtain ⟨hi, lo, rfl, h1, h2, h3⟩ := insertNode_cases h z
  unfold WeightSorted at h ⊢
  rw [h3]
  obtain ⟨p1, p2, p3⟩ := List.pairwise_append.mp h
  refine List.pairwise_append.mpr ⟨p1, List.pairwise_cons.mpr ⟨fun m hm => Nat.le_of_lt (h2 m hm), p2⟩, ?_⟩
  intro a ha b hb
  rcases List.mem_cons.mp hb with rfl | hb
  · exact h1 a ha
  · exact p3 a ha b hb

/-- Inserting adds the node and no other. -/
theorem insertNode_perm (l : List HuffTree) (z : HuffTree) : (insertNode l z).Perm (z :: l) :=
  List.perm_insertIdx _ _ (List.length_filter_le ..)

theorem insertNode_length (l : List HuffTree) (z : HuffTree) : (insertNode l z).length = l.length + 1 :=
  (insertNode_perm l z).length_eq

/-- One merge step takes the two last nodes (R194). -/
theorem mergeStep_two (l : List HuffTree) (x y : HuffTree) :
    mergeStep (l ++ [y, x]) = insertNode l (.interior (x.weight + y.weight) x y) := by
  rw [mergeStep, List.reverse_append]
  simp

/-- A merge step removes one node, while there are two (R195). -/
theorem mergeStep_length {l : List HuffTree} (h : 2 ≤ l.length) : (mergeStep l).length + 1 = l.length := by
  rw [mergeStep]
  split
  · rename_i x y rest he
    have := congrArg List.length he
    simp only [List.length_reverse, List.length_cons] at this
    rw [insertNode_length, List.length_reverse]
    omega
  · rename_i hno
    match hr : l.reverse, hno with
    | [], _ => simp_all
    | [x], _ =>
      have := congrArg List.length hr
      simp only [List.length_reverse, List.length_singleton] at this
      omega
    | x :: y :: rest, hno => exact (hno x y rest rfl).elim

/-- A merge step keeps the list sorted. -/
theorem mergeStep_sorted {l : List HuffTree} (h : WeightSorted l) : WeightSorted (mergeStep l) := by
  rw [mergeStep]
  split
  · rename_i x y rest he
    refine insertNode_sorted (l := rest.reverse) ?_ _
    have : l = rest.reverse ++ [y, x] := by
      have := congrArg List.reverse he
      simpa using this
    rw [this] at h
    exact (List.pairwise_append.mp h).1
  · exact h

theorem foldl_insertNode (ls acc : List HuffTree) (h : WeightSorted acc) :
    WeightSorted (ls.foldl insertNode acc) ∧ (ls.foldl insertNode acc).Perm (ls ++ acc) := by
  induction ls generalizing acc with
  | nil => exact ⟨h, List.Perm.refl _⟩
  | cons z ls ih =>
    obtain ⟨h1, h2⟩ := ih _ (insertNode_sorted h z)
    exact ⟨h1, h2.trans ((insertNode_perm acc z).append_left ls |>.trans List.perm_middle)⟩

/-- The initial list is sorted and has the leaves (R193). -/
theorem initialNodes_sorted (h : List (Nat × Nat)) :
    WeightSorted (initialNodes h) ∧ (initialNodes h).Perm (leaves h) := by
  obtain ⟨h1, h2⟩ := foldl_insertNode (leaves h) [] List.Pairwise.nil
  exact ⟨h1, by rwa [List.append_nil] at h2⟩

/-! ## Codes -/

/-- The walk's table is the tree's paths below the place it starts from (R200). -/
theorem treeCodes_eq (tree : HuffTree) (path depth : Nat) :
    treeCodes tree path depth = tree.paths.map fun p =>
      { sym := p.1, len := depth + p.2.length, code := BitVec.ofNat 64 (path * 2 ^ p.2.length + bitsNat p.2) } := by
  induction tree generalizing path depth with
  | leaf w s => simp [treeCodes, HuffTree.paths, bitsNat]
  | interior w l r ihl ihr =>
    simp only [treeCodes, HuffTree.paths, List.map_append, List.map_map, ihl, ihr]
    congr 1
    · refine List.map_congr_left fun p _ => ?_
      simp only [Function.comp_apply, List.length_cons, Entry.mk.injEq, true_and]
      refine ⟨by omega, congrArg _ ?_⟩
      rw [bitsNat_cons, Nat.pow_succ]
      simp only [Bool.toNat_false]
      ring
    · refine List.map_congr_left fun p _ => ?_
      simp only [Function.comp_apply, List.length_cons, Entry.mk.injEq, true_and]
      refine ⟨by omega, congrArg _ ?_⟩
      rw [bitsNat_cons, Nat.pow_succ]
      simp only [Bool.toNat_true]
      ring

/-- The paths lead to the leaves in order. -/
theorem paths_symbols (tree : HuffTree) : tree.paths.map Prod.fst = tree.symbols := by
  induction tree with
  | leaf w s => rfl
  | interior w l r ihl ihr =>
    rw [HuffTree.paths, HuffTree.symbols, List.map_append, List.map_map, List.map_map, ← ihl, ← ihr]
    rfl

theorem foldl_max_le (es : List Entry) (m n : Nat) :
    es.foldl (fun m e => max m e.len) m ≤ n ↔ m ≤ n ∧ ∀ e ∈ es, e.len ≤ n := by
  induction es generalizing m with
  | nil => simp
  | cons e es ih =>
    rw [List.foldl_cons, ih]
    simp only [List.mem_cons, forall_eq_or_imp, max_le_iff, and_assoc]

/-- The largest length bounds every length and nothing smaller does (R201). -/
theorem longestCode_le (es : List Entry) (n : Nat) : longestCode es ≤ n ↔ ∀ e ∈ es, e.len ≤ n := by
  rw [longestCode, foldl_max_le]
  simp

/-! ## Canonical form -/

theorem insertEntry_perm (e : Entry) (es : List Entry) : (insertEntry e es).Perm (e :: es) := by
  induction es with
  | nil => exact List.Perm.refl _
  | cons f fs ih =>
    rw [insertEntry]
    split
    · exact List.Perm.refl _
    · exact (ih.cons f).trans (List.Perm.swap e f fs)

/-- Sorting keeps the entries (R202). -/
theorem sortEntries_perm (es : List Entry) : (sortEntries es).Perm es := by
  induction es with
  | nil => exact List.Perm.refl _
  | cons e es ih => exact (insertEntry_perm e _).trans (ih.cons e)

theorem entryLe_iff (a b : Entry) :
    entryLe a b = true ↔ a.len < b.len ∨ (a.len = b.len ∧ a.sym.key ≤ b.sym.key) := by
  simp [entryLe]

theorem entryLe_total {a b : Entry} (h : ¬ entryLe a b = true) : entryLe b a = true := by
  rw [entryLe_iff] at h ⊢
  omega

theorem entryLe_trans {a b c : Entry} (h : entryLe a b = true) (h' : entryLe b c = true) : entryLe a c = true := by
  rw [entryLe_iff] at h h' ⊢
  omega

theorem insertEntry_sorted {e : Entry} {es : List Entry} (h : es.Pairwise fun a b => entryLe a b = true) :
    (insertEntry e es).Pairwise fun a b => entryLe a b = true := by
  induction es with
  | nil => simp [insertEntry]
  | cons f fs ih =>
    obtain ⟨hf, hfs⟩ := List.pairwise_cons.mp h
    rw [insertEntry]
    split
    · rename_i hle
      refine List.pairwise_cons.mpr ⟨fun g hg => ?_, h⟩
      rcases List.mem_cons.mp hg with rfl | hg
      · exact hle
      · exact entryLe_trans hle (hf g hg)
    · rename_i hle
      refine List.pairwise_cons.mpr ⟨fun g hg => ?_, ih hfs⟩
      rcases List.mem_cons.mp ((insertEntry_perm e fs).mem_iff.mp hg) with rfl | hg
      · exact entryLe_total hle
      · exact hf g hg

/-- Sorting orders by length, then key (R202). -/
theorem sortEntries_sorted (es : List Entry) :
    (sortEntries es).Pairwise fun a b => a.len < b.len ∨ (a.len = b.len ∧ a.sym.key ≤ b.sym.key) := by
  have : (sortEntries es).Pairwise fun a b => entryLe a b = true := by
    induction es with
    | nil => exact List.Pairwise.nil
    | cons e es ih => exact insertEntry_sorted ih
  exact this.imp fun h => (entryLe_iff _ _).mp h

/-- Assigning codes keeps symbols and lengths (R202). -/
theorem assignFrom_symLen (prev code : Nat) (es : List Entry) :
    (assignFrom prev code es).map (fun e => (e.sym, e.len)) = es.map fun e => (e.sym, e.len) := by
  induction es generalizing prev code with
  | nil => rfl
  | cons e es ih => simp only [assignFrom, List.map_cons, ih]

@[simp] theorem assignFrom_length (prev code : Nat) (es : List Entry) :
    (assignFrom prev code es).length = es.length := by
  have := congrArg List.length (assignFrom_symLen prev code es)
  simpa using this

@[simp] theorem assignCodes_length (es : List Entry) : (assignCodes es).length = es.length := assignFrom_length _ _ _

theorem assignCodes_symLen (es : List Entry) :
    (assignCodes es).map (fun e => (e.sym, e.len)) = es.map fun e => (e.sym, e.len) := assignFrom_symLen _ _ _

theorem assignCodes_sym (es : List Entry) : (assignCodes es).map Entry.sym = es.map Entry.sym := by
  have := congrArg (List.map Prod.fst) (assignCodes_symLen es)
  simpa [Function.comp_def] using this

theorem assignCodes_len (es : List Entry) : (assignCodes es).map Entry.len = es.map Entry.len := by
  have := congrArg (List.map Prod.snd) (assignCodes_symLen es)
  simpa [Function.comp_def] using this

/-- Assigning codes looks only at symbols and lengths. -/
theorem assignFrom_congr (prev code : Nat) {es fs : List Entry}
    (h : es.map (fun e => (e.sym, e.len)) = fs.map fun e => (e.sym, e.len)) :
    assignFrom prev code es = assignFrom prev code fs := by
  induction es generalizing prev code fs with
  | nil =>
    cases fs with
    | nil => rfl
    | cons f fs => simp at h
  | cons e es ih =>
    cases fs with
    | nil => simp at h
    | cons f fs =>
      simp only [List.map_cons, List.cons.injEq, Prod.mk.injEq] at h
      rw [assignFrom, assignFrom, ih _ _ h.2, h.1.2, h.1.1]

/-- The canonical form has the same symbols and lengths (R202). -/
theorem canonicalise_perm (es : List Entry) :
    ((canonicalise es).map fun e => (e.sym, e.len)).Perm (es.map fun e => (e.sym, e.len)) := by
  rw [canonicalise, assignCodes_symLen]
  exact (sortEntries_perm es).map _

end Sys2Proof.Machine
end

