-- ==== Sys2Proof/Laws/Reader.lean ====
section
/-! SUPPORT. What the reader's primitives do (spec/41_bitstream.md R110 to R113), said once: `Fetches` is the effect of a
refill, `Consumes` of reading bits, and `Reads` is an action that reads given bits and answers a given value; it
composes. -/

namespace Sys2Proof.Machine

/-! ## The bits ahead -/

theorem Reader.ahead_length {cap : Nat} {r : Reader} (h : r.wf cap) (ibuf : Memory) :
    (r.ahead ibuf).length = r.cnt + 8 * (r.len - r.fetch) := by
  obtain ⟨hc, _, _, hf, _, hl, hfe⟩ := h
  have hm : (r.len - r.fetch) % (granBits r.gran / 8) = 0 := by
    rw [← Nat.dvd_iff_mod_eq_zero] at *
    exact Nat.dvd_sub hl hfe
  rw [Reader.ahead, List.length_append, List.length_take, natBits_length, storedBits_length _ (by simpa using hm),
    bytesAt_length]
  omega

theorem Reader.ahead_length_avail {cap : Nat} {r : Reader} (h : r.wf cap) (ibuf : Memory) :
    (r.ahead ibuf).length = r.avail := Reader.ahead_length h ibuf

/-- The next bits, while buffered, are the top of the window. -/
theorem Reader.bitsNat_ahead_take {r : Reader} (ibuf : Memory) {n : Nat} (hn : n ≤ r.cnt) (hc : r.cnt ≤ 64) :
    bitsNat ((r.ahead ibuf).take n) = r.top n := by
  have hlen : ((natBits 64 r.win.toNat).take r.cnt).length = r.cnt := by
    rw [List.length_take, natBits_length]
    omega
  have hlt : r.win.toNat / 2 ^ (64 - n) < 2 ^ n := by
    rw [Nat.div_lt_iff_lt_mul (Nat.two_pow_pos _), ← Nat.pow_add, show n + (64 - n) = 64 by omega]
    exact r.win.isLt
  rw [Reader.ahead, List.take_append_of_le_length (by omega), List.take_take, Nat.min_eq_left hn,
    natBits_take _ _ _ (by omega), bitsNat_natBits, Nat.mod_eq_of_lt hlt, Reader.top, BitVec.toNat_ushiftRight,
    Nat.shiftRight_eq_div_pow]

/-! ## Refill -/

/-- `r'` is `r` after `k` units were fetched: the same bits are ahead. -/
structure Fetches (cap : Nat) (ibuf : Memory) (r r' : Reader) (k : Nat) : Prop where
  eq : r' = { r with
    win := r'.win, cnt := r.cnt + granBits r.gran * k, fetch := r.fetch + granBits r.gran / 8 * k }
  ahead : r'.ahead ibuf = r.ahead ibuf
  wf : r'.wf cap

/-- One unit enters the window. -/
theorem fetch_unit {cap : Nat} {ibuf : Memory} {r : Reader} (h : r.wf cap) (hc : r.cnt < 32) (hf : r.fetch < r.len) :
    Fetches cap ibuf r { r with
      win := r.win ||| (BitVec.ofNat 64 (littleEndian (bytesAt ibuf (r.base + r.fetch) (granBits r.gran / 8)))
        <<< (64 - r.cnt - granBits r.gran))
      cnt := r.cnt + granBits r.gran
      fetch := r.fetch + granBits r.gran / 8 } 1 := by
  obtain ⟨hc64, hwin, hpos, hfl, hbl, hl, hfe⟩ := h
  have hg := granBits_pos r.gran
  have hgl := granBits_le r.gran
  have hgd := granBits_div r.gran
  have hmp := granBytes_pos r.gran
  have hle : granBits r.gran / 8 ≤ r.len - r.fetch := by
    refine Nat.le_of_dvd (by omega) ?_
    rw [← Nat.dvd_iff_mod_eq_zero] at hl hfe
    exact Nat.dvd_sub hl hfe
  generalize hu : littleEndian (bytesAt ibuf (r.base + r.fetch) (granBits r.gran / 8)) = u
  have hult : u < 2 ^ granBits r.gran := by
    have := littleEndian_lt (bytesAt ibuf (r.base + r.fetch) (granBits r.gran / 8))
    rw [bytesAt_length, hu] at this
    rwa [show (256 : Nat) = 2 ^ 8 by rfl, ← Nat.pow_mul, hgd] at this
  obtain ⟨q, hq⟩ := Nat.dvd_of_mod_eq_zero hwin
  have hsh : 64 - r.cnt = granBits r.gran + (64 - r.cnt - granBits r.gran) := by omega
  have hu64 : u < 2 ^ 64 := lt_of_lt_of_le hult (Nat.pow_le_pow_right (by decide) (by omega))
  have hushift : u * 2 ^ (64 - r.cnt - granBits r.gran) < 2 ^ (64 - r.cnt) := by
    rw [hsh, Nat.pow_add, Nat.add_sub_cancel_left]
    exact Nat.mul_lt_mul_of_pos_right hult (Nat.two_pow_pos _)
  have hs64 : u * 2 ^ (64 - r.cnt - granBits r.gran) < 2 ^ 64 :=
    lt_of_lt_of_le hushift (Nat.pow_le_pow_right (by decide) (by omega))
  have hnew : (r.win ||| (BitVec.ofNat 64 u <<< (64 - r.cnt - granBits r.gran))).toNat
      = (q * 2 ^ granBits r.gran + u) * 2 ^ (64 - r.cnt - granBits r.gran) := by
    rw [BitVec.toNat_or, BitVec.toNat_shiftLeft, BitVec.toNat_ofNat, Nat.mod_eq_of_lt hu64, Nat.shiftLeft_eq,
      Nat.mod_eq_of_lt hs64, hq, ← Nat.two_pow_add_eq_or_of_lt hushift, Nat.add_mul, hsh, Nat.add_sub_cancel_left,
      Nat.pow_add]
    ring
  refine ⟨by simp, ?_, ?_⟩
  · simp only [Reader.ahead]
    have hb : bytesAt ibuf (r.base + r.fetch) (r.len - r.fetch)
        = bytesAt ibuf (r.base + r.fetch) (granBits r.gran / 8)
          ++ bytesAt ibuf (r.base + (r.fetch + granBits r.gran / 8)) (r.len - (r.fetch + granBits r.gran / 8)) := by
      conv_lhs => rw [show r.len - r.fetch = granBits r.gran / 8 + (r.len - (r.fetch + granBits r.gran / 8)) by omega,
        bytesAt_add]
      rw [Nat.add_assoc]
    rw [hb, storedBits_cons_unit _ (bytesAt_length ..), ← List.append_assoc, hu]
    congr 1
    rw [natBits_take _ _ _ (by omega), natBits_take _ _ _ (by omega), hnew, hq,
      show 64 - (r.cnt + granBits r.gran) = 64 - r.cnt - granBits r.gran by omega,
      Nat.mul_div_cancel _ (Nat.two_pow_pos _), Nat.mul_div_cancel_left _ (Nat.two_pow_pos _), natBits_add]
    congr 1
    · rw [Nat.mul_comm, Nat.mul_add_div (Nat.two_pow_pos _), Nat.div_eq_of_lt hult, Nat.add_zero]
    · refine natBits_congr ?_
      rw [Nat.mul_comm, Nat.mul_add_mod]
  · refine ⟨by show r.cnt + granBits r.gran ≤ 64; omega, ?_, ?_, ?_, hbl, hl, ?_⟩
    · show (r.win ||| (BitVec.ofNat 64 u <<< (64 - r.cnt - granBits r.gran))).toNat
        % 2 ^ (64 - (r.cnt + granBits r.gran)) = 0
      rw [hnew, show 64 - (r.cnt + granBits r.gran) = 64 - r.cnt - granBits r.gran by omega, Nat.mul_mod_left]
    · show r.pos + (r.cnt + granBits r.gran) = 8 * (r.fetch + granBits r.gran / 8)
      omega
    · show r.fetch + granBits r.gran / 8 ≤ r.len
      omega
    · show (r.fetch + granBits r.gran / 8) % (granBits r.gran / 8) = 0
      rw [Nat.add_mod_right]
      exact hfe

theorem Reader.unitsToFetch_zero {r : Reader} (h : ¬ (r.cnt < 32 ∧ r.fetch < r.len)) : r.unitsToFetch = 0 := by
  have hg := granBits_pos r.gran
  unfold Reader.unitsToFetch
  rcases Nat.lt_or_ge r.cnt 32 with hc | hc
  · have : r.len - r.fetch = 0 := by omega
    rw [this, Nat.zero_div, Nat.min_zero]
  · have : (32 - r.cnt + granBits r.gran - 1) / granBits r.gran = 0 := Nat.div_eq_of_lt (by omega)
    rw [this, Nat.zero_min]

theorem Reader.unitsToFetch_succ {cap : Nat} {r r' : Reader} (h : r.wf cap) (hc : r.cnt < 32) (hf : r.fetch < r.len)
    (hg' : r'.gran = r.gran) (hc' : r'.cnt = r.cnt + granBits r.gran)
    (hf' : r'.fetch = r.fetch + granBits r.gran / 8) (hl' : r'.len = r.len) :
    r.unitsToFetch = r'.unitsToFetch + 1 := by
  obtain ⟨_, _, _, _, _, hl, hfe⟩ := h
  unfold Reader.unitsToFetch
  rw [hg', hc', hf', hl']
  cases hgr : r.gran <;> simp only [hgr, granBits] at * <;> omega

theorem Reader.unitsToFetch_inside {r : Reader} : granBits r.gran / 8 * r.unitsToFetch ≤ r.len - r.fetch := by
  unfold Reader.unitsToFetch
  calc _ ≤ granBits r.gran / 8 * ((r.len - r.fetch) / (granBits r.gran / 8)) :=
        Nat.mul_le_mul_left _ (Nat.min_le_right ..)
    _ ≤ _ := Nat.mul_div_le ..

/-- Everything a refill of at most `n` units can do when `n` units are enough. -/
theorem refillUnits_cases {cap n : Nat} {ibuf : Memory} {r : Reader} (h : r.wf cap) (hn : r.unitsToFetch ≤ n) :
    (Written ibuf (r.base + r.fetch) (granBits r.gran / 8 * r.unitsToFetch) ∧ ∃ r', refillUnits ibuf n r = .ok () r'
      ∧ Fetches cap ibuf r r' r.unitsToFetch ∧ (32 ≤ r'.cnt ∨ r'.fetch = r'.len))
    ∨ ∃ k r', k < granBits r.gran / 8 * r.unitsToFetch ∧ Written ibuf (r.base + r.fetch) k
        ∧ ibuf.read (r.base + r.fetch + k) = none
        ∧ refillUnits ibuf n r = .error (.stuck (.unwrittenIbuf (r.base + r.fetch + k))) r' := by
  induction n generalizing r with
  | zero =>
    have hz : r.unitsToFetch = 0 := by omega
    have hend : ¬ (r.cnt < 32 ∧ r.fetch < r.len) := by
      rintro ⟨h1, h2⟩
      have := Reader.unitsToFetch_succ (r' := { r with
        cnt := r.cnt + granBits r.gran, fetch := r.fetch + granBits r.gran / 8 }) h h1 h2 rfl rfl rfl rfl
      omega
    have hfl := h.2.2.2.1
    rw [hz]
    exact .inl ⟨fun i hi => by simp at hi, r, rfl, ⟨by simp, rfl, h⟩, by omega⟩
  | succ n ih =>
    by_cases hgo : r.cnt < 32 ∧ r.fetch < r.len
    · obtain ⟨hc, hf⟩ := hgo
      have h1 := fetch_unit (ibuf := ibuf) h hc hf
      generalize hr1 : ({ r with
        win := r.win ||| (BitVec.ofNat 64 (littleEndian (bytesAt ibuf (r.base + r.fetch) (granBits r.gran / 8)))
          <<< (64 - r.cnt - granBits r.gran))
        cnt := r.cnt + granBits r.gran
        fetch := r.fetch + granBits r.gran / 8 } : Reader) = r1 at h1
      have hg1 : r1.gran = r.gran := by rw [← hr1]
      have hb1 : r1.base = r.base := by rw [← hr1]
      have hf1 : r1.fetch = r.fetch + granBits r.gran / 8 := by rw [← hr1]
      have hc1 : r1.cnt = r.cnt + granBits r.gran := by rw [← hr1]
      have hl1 : r1.len = r.len := by rw [← hr1]
      have hu := Reader.unitsToFetch_succ h hc hf hg1 hc1 hf1 hl1
      have hadd : r1.base + r1.fetch = r.base + r.fetch + granBits r.gran / 8 := by omega
      rcases ibufBytes_cases (σ := Reader) ibuf (r.base + r.fetch) (granBits r.gran / 8) r with
        ⟨hw, hr⟩ | ⟨k, hk, hw, hno, hr⟩
      · have hstep : refillUnits ibuf (n + 1) r = refillUnits ibuf n r1 := by
          simp only [refillUnits, Act.bind_apply, Act.get_apply, hc, hf, and_self, if_true, hr, Act.set_apply, hr1]
        have := ih h1.wf (by omega)
        rw [hadd, hg1] at this
        rw [hu, Nat.mul_succ]
        rcases this with ⟨hw1, r', hr', hfe, hdone⟩ | ⟨k, r', hk, hw1, hno, hr'⟩
        · refine .inl ⟨?_, r', by rw [hstep, hr'], ⟨?_, hfe.ahead.trans h1.ahead, hfe.wf⟩, hdone⟩
          · intro i hi
            by_cases hlt : i < granBits r.gran / 8
            · exact hw i hlt
            · have := hw1 (i - granBits r.gran / 8) (by omega)
              rwa [show r.base + r.fetch + granBits r.gran / 8 + (i - granBits r.gran / 8) = r.base + r.fetch + i
                by omega] at this
          · rw [hfe.eq, hg1, hc1, hf1, ← hr1]
            simp only [Nat.mul_succ]
            congr 1 <;> omega
        · refine .inr ⟨granBits r.gran / 8 + k, r', by omega, ?_, ?_, ?_⟩
          · intro i hi
            by_cases hlt : i < granBits r.gran / 8
            · exact hw i hlt
            · have := hw1 (i - granBits r.gran / 8) (by omega)
              rwa [show r.base + r.fetch + granBits r.gran / 8 + (i - granBits r.gran / 8) = r.base + r.fetch + i
                by omega] at this
          · rwa [← Nat.add_assoc]
          · rw [hstep, hr', ← Nat.add_assoc]
      · refine .inr ⟨k, r, ?_, hw, hno, ?_⟩
        · rw [hu, Nat.mul_succ]
          omega
        · simp only [refillUnits, Act.bind_apply, Act.get_apply, hc, hf, and_self, if_true, hr]
    · have hz := Reader.unitsToFetch_zero hgo
      have hfl := h.2.2.2.1
      rw [hz]
      refine .inl ⟨fun i hi => by simp at hi, r, ?_, ⟨by simp, rfl, h⟩, by omega⟩
      simp only [refillUnits, Act.bind_apply, Act.get_apply, if_neg hgo, Act.pure_apply]

theorem Reader.unitsToFetch_le (r : Reader) : r.unitsToFetch ≤ 4 := by
  unfold Reader.unitsToFetch
  refine (Nat.min_le_left ..).trans ?_
  cases r.gran <;> simp only [granBits] <;> omega

/-- Everything `refill()` can do (R110). -/
theorem refill_cases {cap : Nat} {ibuf : Memory} {r : Reader} (h : r.wf cap) :
    (Written ibuf (r.base + r.fetch) (granBits r.gran / 8 * r.unitsToFetch) ∧ ∃ r', refill ibuf r = .ok () r'
      ∧ Fetches cap ibuf r r' r.unitsToFetch ∧ (32 ≤ r'.cnt ∨ r'.fetch = r'.len))
    ∨ ∃ k r', k < granBits r.gran / 8 * r.unitsToFetch ∧ Written ibuf (r.base + r.fetch) k
        ∧ ibuf.read (r.base + r.fetch + k) = none
        ∧ refill ibuf r = .error (.stuck (.unwrittenIbuf (r.base + r.fetch + k))) r' :=
  refillUnits_cases h r.unitsToFetch_le

/-! ## Reading bits -/

/-- Consuming `n` buffered bits. -/
theorem consume_buffered {cap : Nat} {r : Reader} (h : r.wf cap) {n : Nat} (hn : n ≤ r.cnt) (ibuf : Memory) :
    ({ r with win := r.win <<< n, cnt := r.cnt - n, pos := r.pos + n } : Reader).wf cap
    ∧ ({ r with win := r.win <<< n, cnt := r.cnt - n, pos := r.pos + n } : Reader).ahead ibuf = (r.ahead ibuf).drop n := by
  obtain ⟨hc64, hwin, hpos, hfl, hbl, hl, hfe⟩ := h
  obtain ⟨q, hq⟩ := Nat.dvd_of_mod_eq_zero hwin
  have hwlt := r.win.isLt
  have hqlt : q < 2 ^ r.cnt := by
    rw [hq, show (2 : Nat) ^ 64 = 2 ^ (64 - r.cnt) * 2 ^ r.cnt by rw [← Nat.pow_add]; congr 1; omega] at hwlt
    exact Nat.lt_of_mul_lt_mul_left hwlt
  have hnew : (r.win <<< n).toNat = (q % 2 ^ (r.cnt - n)) * 2 ^ (64 - (r.cnt - n)) := by
    rw [BitVec.toNat_shiftLeft, Nat.shiftLeft_eq, hq,
      show (2 : Nat) ^ 64 = 2 ^ (64 - (r.cnt - n)) * 2 ^ (r.cnt - n) by rw [← Nat.pow_add]; congr 1; omega,
      show 2 ^ (64 - r.cnt) * q * 2 ^ n = 2 ^ (64 - (r.cnt - n)) * q by
        rw [show 64 - (r.cnt - n) = 64 - r.cnt + n by omega, Nat.pow_add]; ring,
      Nat.mul_mod_mul_left, Nat.mul_comm]
  refine ⟨⟨by show r.cnt - n ≤ 64; omega, ?_, by show r.pos + n + (r.cnt - n) = 8 * r.fetch; omega, hfl, hbl, hl, hfe⟩, ?_⟩
  · show (r.win <<< n).toNat % 2 ^ (64 - (r.cnt - n)) = 0
    rw [hnew, Nat.mul_mod_left]
  · simp only [Reader.ahead]
    have hlen : ((natBits 64 r.win.toNat).take r.cnt).length = r.cnt := by
      rw [List.length_take, natBits_length]
      omega
    rw [List.drop_append_of_le_length (by omega)]
    congr 1
    rw [natBits_take _ _ _ (by omega), natBits_take _ _ _ hc64, natBits_drop _ _ _ hn, hnew, hq,
      Nat.mul_div_cancel _ (Nat.two_pow_pos _), Nat.mul_div_cancel_left _ (Nat.two_pow_pos _), natBits_mod]

/-- Everything `rd_bits(n)` can do (R111): it stops at an unwritten byte, or consumes the next `n` bits and answers their
number, or with fewer than `n` bits ahead raises `UNEXPECTED_EOF` having consumed none. -/
theorem rdBits_cases {cap n : Nat} {ibuf : Memory} {r : Reader} (h : r.wf cap) (hn : n ≤ 32) :
    (Written ibuf (r.base + r.fetch) (granBits r.gran / 8 * r.unitsToFetch) ∧ ∃ r1,
      Fetches cap ibuf r r1 r.unitsToFetch
      ∧ ((n ≤ (r.ahead ibuf).length ∧ n ≤ r1.cnt
          ∧ rdBits ibuf n r = .ok (bitsNat ((r.ahead ibuf).take n))
              { r1 with win := r1.win <<< n, cnt := r1.cnt - n, pos := r1.pos + n })
        ∨ ((r.ahead ibuf).length < n
          ∧ rdBits ibuf n r = .error (.raised .unexpectedEof (8 * r.base + r.pos)) r1)))
    ∨ ∃ k r', k < granBits r.gran / 8 * r.unitsToFetch ∧ Written ibuf (r.base + r.fetch) k
        ∧ ibuf.read (r.base + r.fetch + k) = none
        ∧ rdBits ibuf n r = .error (.stuck (.unwrittenIbuf (r.base + r.fetch + k))) r' := by
  rcases refill_cases (ibuf := ibuf) h with ⟨hw, r1, hr, hfe, hdone⟩ | ⟨k, r', hk, hw, hno, hr⟩
  · refine .inl ⟨hw, r1, hfe, ?_⟩
    have hlen := Reader.ahead_length hfe.wf ibuf
    rw [hfe.ahead] at hlen
    by_cases hle : n ≤ r1.cnt
    · refine .inl ⟨by omega, hle, ?_⟩
      have htop := Reader.bitsNat_ahead_take ibuf hle hfe.wf.1
      rw [hfe.ahead] at htop
      simp only [rdBits, Act.bind_apply, hr, Act.get_apply, require_true hle, Act.set_apply, Act.pure_apply, htop]
    · refine .inr ⟨by omega, ?_⟩
      have hb : r1.bitAddress = 8 * r.base + r.pos := by rw [hfe.eq]; rfl
      simp only [rdBits, Act.bind_apply, hr, Act.get_apply, require_false hle, hb]
  · exact .inr ⟨k, r', hk, hw, hno, by simp only [rdBits, Act.bind_apply, hr]⟩

/-! ## Actions that read -/

/-- Every input byte not yet fetched has been written. -/
def Reader.Fed (ibuf : Memory) (r : Reader) : Prop := Written ibuf (r.base + r.fetch) (r.len - r.fetch)

/-- `r'` is `r` after the next `n` bits were consumed. -/
structure Consumes (cap : Nat) (ibuf : Memory) (r r' : Reader) (n : Nat) : Prop where
  st_eq : r'.st = r.st
  gran_eq : r'.gran = r.gran
  base_eq : r'.base = r.base
  len_eq : r'.len = r.len
  pos_eq : r'.pos = r.pos + n
  fetch_le : r.fetch ≤ r'.fetch
  le_ahead : n ≤ (r.ahead ibuf).length
  ahead : r'.ahead ibuf = (r.ahead ibuf).drop n
  wf : r'.wf cap

theorem Consumes.trans {cap n k : Nat} {ibuf : Memory} {r r' r'' : Reader} (h : Consumes cap ibuf r r' n)
    (h' : Consumes cap ibuf r' r'' k) : Consumes cap ibuf r r'' (n + k) where
  st_eq := h'.st_eq.trans h.st_eq
  gran_eq := h'.gran_eq.trans h.gran_eq
  base_eq := h'.base_eq.trans h.base_eq
  len_eq := h'.len_eq.trans h.len_eq
  pos_eq := by rw [h'.pos_eq, h.pos_eq, Nat.add_assoc]
  fetch_le := h.fetch_le.trans h'.fetch_le
  le_ahead := by
    have := h'.le_ahead
    rw [h.ahead, List.length_drop] at this
    have := h.le_ahead
    omega
  ahead := by rw [h'.ahead, h.ahead, List.drop_drop]
  wf := h'.wf

theorem Fetches.consumes {cap k : Nat} {ibuf : Memory} {r r' : Reader} (h : Fetches cap ibuf r r' k) :
    Consumes cap ibuf r r' 0 where
  st_eq := by rw [h.eq]
  gran_eq := by rw [h.eq]
  base_eq := by rw [h.eq]
  len_eq := by rw [h.eq]
  pos_eq := by rw [h.eq]; rfl
  fetch_le := by rw [h.eq]; exact Nat.le_add_right ..
  le_ahead := Nat.zero_le _
  ahead := h.ahead
  wf := h.wf

theorem Consumes.fed {cap n : Nat} {ibuf : Memory} {r r' : Reader} (h : Consumes cap ibuf r r' n) (hf : r.Fed ibuf) :
    r'.Fed ibuf := by
  intro i hi
  have hle := h.fetch_le
  rw [h.len_eq] at hi
  rw [h.base_eq]
  have := hf (r'.fetch - r.fetch + i) (by omega)
  rwa [show r.base + r.fetch + (r'.fetch - r.fetch + i) = r.base + r'.fetch + i by omega] at this

/-- With the whole input written a refill succeeds. -/
theorem refill_fed {cap : Nat} {ibuf : Memory} {r : Reader} (h : r.wf cap) (hf : r.Fed ibuf) :
    ∃ r', refill ibuf r = .ok () r' ∧ Fetches cap ibuf r r' r.unitsToFetch ∧ (32 ≤ r'.cnt ∨ r'.fetch = r'.len) := by
  rcases refill_cases (ibuf := ibuf) h with ⟨_, hr⟩ | ⟨k, _, hk, _, hno, _⟩
  · exact hr
  · have hin := r.unitsToFetch_inside
    have := hf k (by omega)
    rw [hno] at this
    exact absurd this (by simp)

/-- With the whole input written and `n` bits ahead, `rd_bits(n)` consumes them. -/
theorem rdBits_fed {cap n : Nat} {ibuf : Memory} {r : Reader} (h : r.wf cap) (hf : r.Fed ibuf) (hn : n ≤ 32)
    (hl : n ≤ (r.ahead ibuf).length) :
    ∃ r', rdBits ibuf n r = .ok (bitsNat ((r.ahead ibuf).take n)) r' ∧ Consumes cap ibuf r r' n := by
  rcases rdBits_cases (ibuf := ibuf) h hn with ⟨_, r1, hfe, ⟨_, hc, hr⟩ | ⟨hlt, _⟩⟩ | ⟨k, _, hk, _, hno, _⟩
  · have hcons := consume_buffered hfe.wf hc ibuf
    refine ⟨_, hr, ?_⟩
    have h0 := hfe.consumes
    exact ⟨h0.st_eq, h0.gran_eq, h0.base_eq, h0.len_eq, by show r1.pos + n = r.pos + n; rw [h0.pos_eq]; rfl, h0.fetch_le,
      hl, by rw [hcons.2, hfe.ahead], hcons.1⟩
  · omega
  · have hin := r.unitsToFetch_inside
    have := hf k (by omega)
    rw [hno] at this
    exact absurd this (by simp)

/-- With the whole input written and fewer than `n` bits ahead, `rd_bits(n)` raises `UNEXPECTED_EOF` at the next bit. -/
theorem rdBits_short {cap n : Nat} {ibuf : Memory} {r : Reader} (h : r.wf cap) (hf : r.Fed ibuf) (hn : n ≤ 32)
    (hl : (r.ahead ibuf).length < n) :
    ∃ r', rdBits ibuf n r = .error (.raised .unexpectedEof r.bitAddress) r' ∧ Consumes cap ibuf r r' 0 := by
  rcases rdBits_cases (ibuf := ibuf) h hn with ⟨_, r1, hfe, ⟨hle, _⟩ | ⟨_, hr⟩⟩ | ⟨k, _, hk, _, hno, _⟩
  · omega
  · exact ⟨r1, hr, hfe.consumes⟩
  · have hin := r.unitsToFetch_inside
    have := hf k (by omega)
    rw [hno] at this
    exact absurd this (by simp)

/-- `x` consumes the bits `bs` when they are ahead, and answers `a`. -/
def Reads {α : Type} (cap : Nat) (ibuf : Memory) (x : Act Reader α) (bs : List Bool) (a : α) : Prop :=
  ∀ r : Reader, r.wf cap → r.Fed ibuf → bs <+: r.ahead ibuf → ∃ r', x r = .ok a r' ∧ Consumes cap ibuf r r' bs.length

theorem Reads.pure {α : Type} (cap : Nat) (ibuf : Memory) (a : α) : Reads cap ibuf (pure a) [] a := by
  intro r h _ _
  exact ⟨r, rfl, rfl, rfl, rfl, rfl, rfl, Nat.le_refl _, Nat.zero_le _, rfl, h⟩

theorem Reads.bind {α β : Type} {cap : Nat} {ibuf : Memory} {x : Act Reader α} {f : α → Act Reader β}
    {bs cs : List Bool} {a : α} {b : β} (hx : Reads cap ibuf x bs a) (hf : Reads cap ibuf (f a) cs b) :
    Reads cap ibuf (x >>= f) (bs ++ cs) b := by
  intro r h hfed hpre
  obtain ⟨rest, hrest⟩ := hpre
  obtain ⟨r1, h1, hc1⟩ := hx r h hfed ⟨cs ++ rest, by rw [← hrest, List.append_assoc]⟩
  have ha1 : r1.ahead ibuf = cs ++ rest := by
    rw [hc1.ahead, ← hrest, List.append_assoc, List.drop_left]
  obtain ⟨r2, h2, hc2⟩ := hf r1 hc1.wf (hc1.fed hfed) ⟨rest, ha1.symm⟩
  exact ⟨r2, by rw [Act.bind_apply, h1]; exact h2, by rw [List.length_append]; exact hc1.trans hc2⟩

/-- `rd_bits(n)` reads the `n`-bit form of a value. -/
theorem rdBits_reads (cap : Nat) (ibuf : Memory) {n : Nat} (hn : n ≤ 32) (v : Nat) :
    Reads cap ibuf (rdBits ibuf n) (natBits n v) (v % 2 ^ n) := by
  intro r h hfed hpre
  obtain ⟨rest, hrest⟩ := hpre
  obtain ⟨r', hr, hc⟩ := rdBits_fed h hfed hn (by rw [← hrest, List.length_append, natBits_length]; omega)
  refine ⟨r', ?_, by rwa [natBits_length]⟩
  rw [hr, ← hrest, List.take_left' (natBits_length n v), bitsNat_natBits]

/-- Reading what is ahead leaves the rest ahead. -/
theorem Reads.step {α : Type} {cap : Nat} {ibuf : Memory} {x : Act Reader α} {bs rest : List Bool} {a : α}
    (hx : Reads cap ibuf x bs a) {r : Reader} (hw : r.wf cap) (hf : r.Fed ibuf) (ha : r.ahead ibuf = bs ++ rest) :
    ∃ r', x r = .ok a r' ∧ Consumes cap ibuf r r' bs.length ∧ r'.ahead ibuf = rest ∧ r'.wf cap ∧ r'.Fed ibuf := by
  obtain ⟨r', h1, h2⟩ := hx r hw hf ⟨rest, ha.symm⟩
  refine ⟨r', h1, h2, ?_, h2.wf, h2.fed hf⟩
  rw [h2.ahead, ha, List.drop_left]

end Sys2Proof.Machine
end

