-- ==== Sys2Proof/Laws/Writer.lean ====
section
/-! SUPPORT. What the writer's primitives do (spec/41_bitstream.md R105 to R109), said once: `Emits` is the effect of
appending bits and emitting units, `Writes` is an action whose only effect is to append given bits, and it composes. -/

namespace Sys2Proof.Machine

/-! ## Masks -/

theorem mask64_toNat {n : Nat} (h : n ≤ 64) : (mask64 n).toNat = 2 ^ n - 1 := by
  unfold mask64
  rcases Nat.lt_or_ge n 64 with hn | hn
  · have h1 : (1#64 <<< n).toNat = 2 ^ n := by
      rw [BitVec.toNat_shiftLeft, BitVec.toNat_ofNat, Nat.one_mod_two_pow (by decide), Nat.one_shiftLeft]
      exact Nat.mod_eq_of_lt (Nat.pow_lt_pow_right (by decide) hn)
    have hpos := Nat.two_pow_pos n
    rw [BitVec.toNat_sub_of_le, h1]
    · rfl
    · rw [BitVec.le_def, h1]
      exact hpos
  · obtain rfl : n = 64 := by omega
    decide

theorem and_mask64_toNat (x : DWord) {n : Nat} (h : n ≤ 64) : (x &&& mask64 n).toNat = x.toNat % 2 ^ n := by
  rw [BitVec.toNat_and, mask64_toNat h, Nat.and_two_pow_sub_one_eq_mod]

/-- Appending `n` bits below an accumulator of `cnt` bits. -/
theorem shiftLeft_or_toNat {acc : DWord} {x : DWord} {cnt n : Nat} (hacc : acc.toNat < 2 ^ cnt) (hx : x.toNat < 2 ^ n)
    (h : cnt + n ≤ 64) : (acc <<< n ||| x).toNat = acc.toNat * 2 ^ n + x.toNat := by
  have hlt : acc.toNat * 2 ^ n < 2 ^ 64 := by
    calc acc.toNat * 2 ^ n < 2 ^ cnt * 2 ^ n := Nat.mul_lt_mul_of_pos_right hacc (Nat.two_pow_pos n)
      _ = 2 ^ (cnt + n) := (Nat.pow_add ..).symm
      _ ≤ 2 ^ 64 := Nat.pow_le_pow_right (by decide) h
  rw [BitVec.toNat_or, BitVec.toNat_shiftLeft, Nat.shiftLeft_eq, Nat.mod_eq_of_lt hlt, Nat.mul_comm,
    Nat.two_pow_add_eq_or_of_lt hx]

/-! ## The effect of writing -/

/-- A writer that is ready for more bits (spec/10_state.md R36): less than a unit pending, no accumulator bit above,
whole units emitted inside OBUF. -/
structure Writer.Ready (cap : Nat) (w : Writer) : Prop where
  cnt_lt : w.cnt < granBits w.gran
  acc_lt : w.acc.toNat < 2 ^ w.cnt
  inside : w.base + w.out ≤ cap
  whole : w.out % (granBits w.gran / 8) = 0

/-- `o'` is `o` after the bits `bs` were appended and `e` units emitted. -/
structure Emits (cap : Nat) (o o' : OutPort) (bs : List Bool) (e : Nat) : Prop where
  wr_eq : o'.wr = { o.wr with
    acc := o'.wr.acc
    cnt := o.wr.cnt + bs.length - granBits o.wr.gran * e
    out := o.wr.out + granBits o.wr.gran / 8 * e
    bits := o.wr.bits + bs.length }
  le_cnt : granBits o.wr.gran * e ≤ o.wr.cnt + bs.length
  acc_lt : o'.wr.acc.toNat < 2 ^ (o.wr.cnt + bs.length - granBits o.wr.gran * e)
  stream : o'.stream = o.stream ++ bs
  inside : o.wr.base + o.wr.out + granBits o.wr.gran / 8 * e ≤ cap
  same : SameOutside o.obuf o'.obuf (o.wr.base + o.wr.out) (granBits o.wr.gran / 8 * e)
  written : Written o'.obuf (o.wr.base + o.wr.out) (granBits o.wr.gran / 8 * e)
  wf : o.obuf.wf = true → o'.obuf.wf = true
  below : Memory.Below cap o.obuf → Memory.Below cap o'.obuf

theorem Emits.st_eq {cap e : Nat} {o o' : OutPort} {bs : List Bool} (h : Emits cap o o' bs e) :
    o'.wr.st = o.wr.st := by rw [h.wr_eq]

theorem Emits.gran_eq {cap e : Nat} {o o' : OutPort} {bs : List Bool} (h : Emits cap o o' bs e) :
    o'.wr.gran = o.wr.gran := by rw [h.wr_eq]

theorem Emits.base_eq {cap e : Nat} {o o' : OutPort} {bs : List Bool} (h : Emits cap o o' bs e) :
    o'.wr.base = o.wr.base := by rw [h.wr_eq]

theorem Emits.cnt_eq {cap e : Nat} {o o' : OutPort} {bs : List Bool} (h : Emits cap o o' bs e) :
    o'.wr.cnt = o.wr.cnt + bs.length - granBits o.wr.gran * e := by rw [h.wr_eq]

theorem Emits.out_eq {cap e : Nat} {o o' : OutPort} {bs : List Bool} (h : Emits cap o o' bs e) :
    o'.wr.out = o.wr.out + granBits o.wr.gran / 8 * e := by rw [h.wr_eq]

theorem Emits.bits_eq {cap e : Nat} {o o' : OutPort} {bs : List Bool} (h : Emits cap o o' bs e) :
    o'.wr.bits = o.wr.bits + bs.length := by rw [h.wr_eq]

theorem Emits.refl {cap : Nat} {o : OutPort} (h : o.wr.acc.toNat < 2 ^ o.wr.cnt) (hi : o.wr.base + o.wr.out ≤ cap) :
    Emits cap o o [] 0 where
  wr_eq := rfl
  le_cnt := by simp
  acc_lt := by simpa using h
  stream := by simp
  inside := by simpa using hi
  same := SameOutside.refl _ _ _
  written := fun i hi => absurd hi (by simp)
  wf := id
  below := id

theorem Emits.trans {cap e e' : Nat} {o o' o'' : OutPort} {bs bs' : List Bool} (h : Emits cap o o' bs e)
    (h' : Emits cap o' o'' bs' e') : Emits cap o o'' (bs ++ bs') (e + e') := by
  have hle := h.le_cnt
  have hle' := h'.le_cnt
  have hacc' := h'.acc_lt
  have hin' := h'.inside
  have hsame' := h'.same
  have hwr' := h'.wr_eq
  have hwrit' := h'.written
  rw [h.gran_eq] at hle' hacc' hin' hsame' hwr' hwrit'
  rw [h.cnt_eq] at hle' hacc' hwr'
  rw [h.base_eq, h.out_eq] at hin' hsame' hwrit'
  have hcnt : o.wr.cnt + bs.length - granBits o.wr.gran * e + bs'.length - granBits o.wr.gran * e'
      = o.wr.cnt + (bs ++ bs').length - granBits o.wr.gran * (e + e') := by
    rw [List.length_append, Nat.mul_add]
    omega
  have hassoc : o.wr.base + (o.wr.out + granBits o.wr.gran / 8 * e)
      = o.wr.base + o.wr.out + granBits o.wr.gran / 8 * e := by omega
  rw [hassoc] at hin' hsame' hwrit'
  refine ⟨?_, ?_, ?_, ?_, ?_, ?_, ?_, fun x => h'.wf (h.wf x), fun x => h'.below (h.below x)⟩
  · rw [hwr', hcnt, h.wr_eq]
    simp only [List.length_append, Nat.mul_add, Nat.add_assoc]
  · rw [List.length_append, Nat.mul_add]
    omega
  · rwa [hcnt] at hacc'
  · rw [h'.stream, h.stream, List.append_assoc]
  · rw [Nat.mul_add]
    omega
  · rw [Nat.mul_add]
    exact h.same.trans hsame'
  · rw [Nat.mul_add]
    intro i hi
    by_cases hlt : i < granBits o.wr.gran / 8 * e
    · rw [hsame' _ (by omega)]
      exact h.written i hlt
    · have := hwrit' (i - granBits o.wr.gran / 8 * e) (by omega)
      rwa [show o.wr.base + o.wr.out + granBits o.wr.gran / 8 * e + (i - granBits o.wr.gran / 8 * e)
        = o.wr.base + o.wr.out + i by omega] at this

/-- A writer that emitted all it could is ready again. -/
theorem Emits.ready {cap e : Nat} {o o' : OutPort} {bs : List Bool} (h : Emits cap o o' bs e)
    (hw : o.wr.out % (granBits o.wr.gran / 8) = 0) (he : e = (o.wr.cnt + bs.length) / granBits o.wr.gran) :
    o'.wr.Ready cap := by
  have hg := granBits_pos o.wr.gran
  constructor
  · rw [h.gran_eq, h.cnt_eq, he, ← Nat.mod_eq_sub_mul_div]
    exact Nat.mod_lt _ hg
  · rw [h.cnt_eq]
    exact h.acc_lt
  · have := h.inside
    rw [h.base_eq, h.out_eq]
    omega
  · rw [h.gran_eq, h.out_eq, Nat.add_mul_mod_self_left]
    exact hw

/-! ## The primitives -/

theorem emit_apply (cap : Nat) (u : DWord) (o : OutPort) :
    emit cap u o = if o.wr.base + o.wr.out + granBits o.wr.gran / 8 ≤ cap
      then .ok () { wr := { o.wr with out := o.wr.out + granBits o.wr.gran / 8 }
                    obuf := o.obuf.writeList (o.wr.base + o.wr.out) (unitBytes o.wr.gran u) }
      else .error (.raised .bufferOverflow (o.wr.base + o.wr.out)) o := by
  simp only [emit, Act.bind_apply, Act.get_apply, require_apply]
  by_cases h : o.wr.base + o.wr.out + granBits o.wr.gran / 8 ≤ cap <;> simp [h]

@[simp] theorem unitBytes_length (g : Gran) (u : DWord) : (unitBytes g u).length = granBits g / 8 := by
  simp [unitBytes]

/-- The writer after one turn of the emission loop whose unit fits. -/
def OutPort.afterUnit (o : OutPort) : OutPort where
  wr := { o.wr with
    acc := o.wr.acc &&& mask64 (o.wr.cnt - granBits o.wr.gran)
    cnt := o.wr.cnt - granBits o.wr.gran
    out := o.wr.out + granBits o.wr.gran / 8 }
  obuf := o.obuf.writeList (o.wr.base + o.wr.out)
    (unitBytes o.wr.gran ((o.wr.acc >>> (o.wr.cnt - granBits o.wr.gran)) &&& mask64 (granBits o.wr.gran)))

/-- One unit leaves the accumulator for OBUF; the stream is the same. -/
theorem emit_oldest {cap : Nat} {o : OutPort} (hcnt : o.wr.cnt ≤ 63) (hg : granBits o.wr.gran ≤ o.wr.cnt)
    (hw : o.wr.out % (granBits o.wr.gran / 8) = 0)
    (hfit : o.wr.base + o.wr.out + granBits o.wr.gran / 8 ≤ cap) :
    Emits cap o o.afterUnit [] 1 := by
  have hm := granBytes_pos o.wr.gran
  have hle := granBits_le o.wr.gran
  refine ⟨by simp [OutPort.afterUnit], by simpa using hg, ?_, ?_, by simpa using hfit, ?_, ?_,
    fun h => Memory.wf_writeList h .., ?_⟩
  · simp only [List.length_nil, Nat.add_zero, Nat.mul_one]
    rw [OutPort.afterUnit, and_mask64_toNat _ (by omega)]
    exact Nat.mod_lt _ (Nat.two_pow_pos _)
  · simp only [OutPort.stream, OutPort.afterUnit, List.append_nil]
    rw [bytesAt_add, bytesAt_writeList_before _ _ (Nat.le_refl _), storedBits_append _ (by simpa using hw),
      List.append_assoc]
    congr 1
    have hb := bytesAt_writeList o.obuf (o.wr.base + o.wr.out)
      (unitBytes o.wr.gran ((o.wr.acc >>> (o.wr.cnt - granBits o.wr.gran)) &&& mask64 (granBits o.wr.gran)))
    rw [unitBytes_length] at hb
    rw [hb, storedBits_unitBytes, and_mask64_toNat _ (by omega), and_mask64_toNat _ (by omega), natBits_mod, natBits_mod,
      BitVec.toNat_ushiftRight, Nat.shiftRight_eq_div_pow, ← natBits_add,
      show granBits o.wr.gran + (o.wr.cnt - granBits o.wr.gran) = o.wr.cnt by omega]
  · have := Memory.writeList_sameOutside o.obuf (o.wr.base + o.wr.out)
      (unitBytes o.wr.gran ((o.wr.acc >>> (o.wr.cnt - granBits o.wr.gran)) &&& mask64 (granBits o.wr.gran)))
    rwa [unitBytes_length, ← Nat.mul_one (granBits o.wr.gran / 8)] at this
  · have := Memory.writeList_written o.obuf (o.wr.base + o.wr.out)
      (unitBytes o.wr.gran ((o.wr.acc >>> (o.wr.cnt - granBits o.wr.gran)) &&& mask64 (granBits o.wr.gran)))
    rwa [unitBytes_length, ← Nat.mul_one (granBits o.wr.gran / 8)] at this
  · intro h
    exact h.writeList (by rw [unitBytes_length]; exact hfit)

/-- `n` turns of the emission loop: they all fit, or the loop stops at the first that does not. -/
theorem emitUnits_cases {cap n : Nat} {o : OutPort} (hcnt : o.wr.cnt ≤ 63) (hn : granBits o.wr.gran * n ≤ o.wr.cnt)
    (hacc : o.wr.acc.toNat < 2 ^ o.wr.cnt) (hw : o.wr.out % (granBits o.wr.gran / 8) = 0)
    (hin : o.wr.base + o.wr.out ≤ cap) :
    (∃ o', emitUnits cap n o = .ok () o' ∧ Emits cap o o' [] n)
    ∨ ∃ e o', e < n ∧ cap < o.wr.base + o.wr.out + granBits o.wr.gran / 8 * (e + 1) ∧ Emits cap o o' [] e
        ∧ emitUnits cap n o =
            .error (.raised .bufferOverflow (o.wr.base + o.wr.out + granBits o.wr.gran / 8 * e)) o' := by
  induction n generalizing o with
  | zero => exact .inl ⟨o, rfl, Emits.refl hacc hin⟩
  | succ n ih =>
    rw [Nat.mul_succ] at hn
    by_cases hfit : o.wr.base + o.wr.out + granBits o.wr.gran / 8 ≤ cap
    · have h1 := emit_oldest hcnt (by omega) hw hfit
      have hstep : emitUnits cap (n + 1) o = emitUnits cap n o.afterUnit := by
        simp only [emitUnits, Act.bind_apply, Act.get_apply, emit_apply, if_pos hfit, Act.modify_apply,
          OutPort.afterUnit]
      have hc := h1.cnt_eq
      have ho := h1.out_eq
      have ha := h1.acc_lt
      simp only [List.length_nil, Nat.add_zero, Nat.mul_one] at hc ho ha
      have := ih (o := o.afterUnit) (by omega) (by rw [h1.gran_eq]; omega) (by rw [hc]; exact ha)
        (by rw [h1.gran_eq, ho, Nat.add_mod_right]; exact hw) (by rw [h1.base_eq, ho]; omega)
      rw [h1.gran_eq, h1.base_eq, ho] at this
      rcases this with ⟨o', hr, he⟩ | ⟨e, o', hlt, hcap, he, hr⟩
      · refine .inl ⟨o', by rw [hstep, hr], ?_⟩
        have := h1.trans he
        rwa [Nat.add_comm 1 n] at this
      · refine .inr ⟨e + 1, o', by omega, ?_, ?_, ?_⟩
        · rw [Nat.mul_succ]
          omega
        · have := h1.trans he
          rwa [Nat.add_comm 1 e] at this
        · rw [hstep, hr, Nat.mul_succ]
          congr 2
          omega
    · refine .inr ⟨0, o, by omega, by simpa using hfit, Emits.refl hacc hin, ?_⟩
      simp only [emitUnits, Act.bind_apply, Act.get_apply, emit_apply, if_neg hfit, Nat.mul_zero, Nat.add_zero]

/-! ## Actions that write -/

/-- `x` answers `a` and its only effect is to append `bs` to the stream, emitting each completed unit; where a unit does
not fit OBUF it raises `BUFFER_OVERFLOW` at that unit's address, after some of the bits. -/
def Writes {α : Type} (cap : Nat) (x : Act OutPort α) (bs : List Bool) (a : α) : Prop :=
  ∀ o : OutPort, o.wr.Ready cap →
    (∃ o', x o = .ok a o' ∧ Emits cap o o' bs ((o.wr.cnt + bs.length) / granBits o.wr.gran))
    ∨ ∃ e o' pre, x o = .error (.raised .bufferOverflow (o.wr.base + o.wr.out + granBits o.wr.gran / 8 * e)) o'
        ∧ e < (o.wr.cnt + bs.length) / granBits o.wr.gran
        ∧ cap < o.wr.base + o.wr.out + granBits o.wr.gran / 8 * (e + 1)
        ∧ pre <+: bs ∧ Emits cap o o' pre e ∧ o'.wr.cnt ≤ 63

theorem Writes.pure {α : Type} (cap : Nat) (a : α) : Writes cap (pure a) [] a := by
  intro o h
  refine .inl ⟨o, rfl, ?_⟩
  have : (o.wr.cnt + ([] : List Bool).length) / granBits o.wr.gran = 0 := Nat.div_eq_of_lt h.cnt_lt
  rw [this]
  exact Emits.refl h.acc_lt h.inside

theorem Writes.bind {α β : Type} {cap : Nat} {x : Act OutPort α} {f : α → Act OutPort β} {bs cs : List Bool} {a : α}
    {b : β} (hx : Writes cap x bs a) (hf : Writes cap (f a) cs b) : Writes cap (x >>= f) (bs ++ cs) b := by
  intro o h
  have hg := granBits_pos o.wr.gran
  have hsum : ∀ c l k : Nat, (c + (l + k)) / granBits o.wr.gran
      = (c + l) / granBits o.wr.gran
        + (c + l - granBits o.wr.gran * ((c + l) / granBits o.wr.gran) + k) / granBits o.wr.gran := by
    intro c l k
    have hle : granBits o.wr.gran * ((c + l) / granBits o.wr.gran) ≤ c + l := Nat.mul_div_le ..
    rw [show c + (l + k) = c + l - granBits o.wr.gran * ((c + l) / granBits o.wr.gran) + k
      + granBits o.wr.gran * ((c + l) / granBits o.wr.gran) by omega, Nat.add_mul_div_left _ _ hg, Nat.add_comm]
  rcases hx o h with ⟨o1, h1, he1⟩ | ⟨e, o', pre, h1, hlt, hcap, hpre, he1, hc⟩
  · have hr1 := he1.ready h.whole rfl
    rcases hf o1 hr1 with ⟨o2, h2, he2⟩ | ⟨e, o2, pre, h2, hlt, hcap, hpre, he2, hc⟩
    · refine .inl ⟨o2, by rw [Act.bind_apply, h1]; exact h2, ?_⟩
      have := he1.trans he2
      rw [List.length_append, hsum]
      rwa [he1.gran_eq, he1.cnt_eq] at this
    · rw [he1.gran_eq] at hlt hcap h2
      rw [he1.cnt_eq] at hlt
      rw [he1.base_eq, he1.out_eq] at hcap h2
      refine .inr ⟨(o.wr.cnt + bs.length) / granBits o.wr.gran + e, o2, bs ++ pre, ?_, ?_, ?_, ?_, he1.trans he2, hc⟩
      · rw [Act.bind_apply, h1]
        show f a o1 = _
        rw [h2, Nat.mul_add]
        congr 2
        omega
      · rw [List.length_append, hsum]
        omega
      · rw [Nat.add_assoc _ e 1, Nat.mul_add]
        omega
      · exact (List.prefix_append_right_inj bs).mpr hpre
  · refine .inr ⟨e, o', pre, ?_, ?_, hcap, hpre.trans (List.prefix_append ..), he1, hc⟩
    · rw [Act.bind_apply, h1]
    · rw [List.length_append, hsum]
      exact Nat.lt_add_right _ hlt

/-- Where all of it fits, the action ends without error. -/
theorem Writes.fits {α : Type} {cap : Nat} {x : Act OutPort α} {bs : List Bool} {a : α} (hx : Writes cap x bs a)
    {o : OutPort} (h : o.wr.Ready cap)
    (hfit : o.wr.base + o.wr.out + granBits o.wr.gran / 8 * ((o.wr.cnt + bs.length) / granBits o.wr.gran) ≤ cap) :
    ∃ o', x o = .ok a o' ∧ Emits cap o o' bs ((o.wr.cnt + bs.length) / granBits o.wr.gran) := by
  rcases hx o h with hok | ⟨e, o', pre, h1, hlt, hcap, _⟩
  · exact hok
  · have : granBits o.wr.gran / 8 * (e + 1)
        ≤ granBits o.wr.gran / 8 * ((o.wr.cnt + bs.length) / granBits o.wr.gran) := Nat.mul_le_mul_left _ hlt
    omega

/-- `wr_bits(v, n)` appends the low `n` bits of `v`, most significant first (R106). -/
theorem wrBits_writes (cap : Nat) (v : Word) {n : Nat} (hn : n ≤ 32) :
    Writes cap (wrBits cap v n) (natBits n v.toNat) () := by
  intro o h
  have hg := granBits_pos o.wr.gran
  have hgl := granBits_le o.wr.gran
  have hcl := h.cnt_lt
  have hv : (v.setWidth 64 &&& mask64 n).toNat = v.toNat % 2 ^ n := by
    rw [and_mask64_toNat _ (by omega), BitVec.toNat_setWidth, Nat.mod_eq_of_lt (a := v.toNat) (by have := v.isLt; omega)]
  have hvlt : (v.setWidth 64 &&& mask64 n).toNat < 2 ^ n := by
    rw [hv]
    exact Nat.mod_lt _ (Nat.two_pow_pos n)
  have hacc := shiftLeft_or_toNat h.acc_lt hvlt (by omega : o.wr.cnt + n ≤ 64)
  rw [hv] at hacc
  have hacclt : o.wr.acc.toNat * 2 ^ n + v.toNat % 2 ^ n < 2 ^ (o.wr.cnt + n) := by
    have h1 := Nat.mod_lt v.toNat (Nat.two_pow_pos n)
    have h2 : (o.wr.acc.toNat + 1) * 2 ^ n ≤ 2 ^ o.wr.cnt * 2 ^ n := Nat.mul_le_mul_right _ h.acc_lt
    rw [Nat.add_mul, Nat.one_mul, ← Nat.pow_add] at h2
    omega
  have hstep : wrBits cap v n o = emitUnits cap ((o.wr.cnt + n) / granBits o.wr.gran)
      { o with wr := { o.wr with
          acc := o.wr.acc <<< n ||| v.setWidth 64 &&& mask64 n
          cnt := o.wr.cnt + n
          bits := o.wr.bits + n } } := by
    simp only [wrBits, Act.bind_apply, Act.modify_apply, Act.get_apply]
  have h1 : Emits cap o { o with wr := { o.wr with
      acc := o.wr.acc <<< n ||| v.setWidth 64 &&& mask64 n
      cnt := o.wr.cnt + n
      bits := o.wr.bits + n } } (natBits n v.toNat) 0 := by
    refine ⟨by simp, by simp, ?_, ?_, by simpa using h.inside, SameOutside.refl _ _ _, ?_, id, id⟩
    · simp only [natBits_length, Nat.mul_zero, Nat.sub_zero]
      rw [hacc]
      exact hacclt
    · simp only [OutPort.stream, List.append_assoc]
      congr 1
      rw [hacc, natBits_add]
      congr 1
      · rw [Nat.mul_comm, Nat.mul_add_div (Nat.two_pow_pos n), Nat.div_eq_of_lt (Nat.mod_lt _ (Nat.two_pow_pos n)),
          Nat.add_zero]
      · refine natBits_congr ?_
        rw [Nat.mul_comm, Nat.mul_add_mod, Nat.mod_mod]
    · intro i hi
      simp at hi
  have := emitUnits_cases (cap := cap) (n := (o.wr.cnt + n) / granBits o.wr.gran)
    (o := { o with wr := { o.wr with
      acc := o.wr.acc <<< n ||| v.setWidth 64 &&& mask64 n
      cnt := o.wr.cnt + n
      bits := o.wr.bits + n } })
    (by show o.wr.cnt + n ≤ 63; omega) (Nat.mul_div_le ..) (by show (_ : Nat) < 2 ^ (o.wr.cnt + n); rw [hacc]; exact hacclt)
    h.whole h.inside
  rw [← hstep] at this
  rw [natBits_length]
  rcases this with ⟨o', hr, he⟩ | ⟨e, o', hlt, hcap, he, hr⟩
  · refine .inl ⟨o', hr, ?_⟩
    have := h1.trans he
    rwa [List.append_nil, Nat.zero_add] at this
  · have ht := h1.trans he
    rw [List.append_nil, Nat.zero_add] at ht
    refine .inr ⟨e, o', natBits n v.toNat, hr, hlt, hcap, List.prefix_rfl, ht, ?_⟩
    rw [ht.cnt_eq, natBits_length]
    omega

/-- The bits of a code, most significant first. -/
theorem codeBits_eq_natBits (len : Nat) (code : DWord) : codeBits len code = natBits len code.toNat := rfl

/-- `wr_long(v, n)` appends the low `n` bits of `v`, most significant first (R109). -/
theorem wrLong_writes (cap : Nat) (v : DWord) {n : Nat} (hn : n ≤ 64) :
    Writes cap (wrLong cap v n) (natBits n v.toNat) () := by
  unfold wrLong
  by_cases h : 32 < n
  · rw [if_pos h]
    have h1 := wrBits_writes cap (((v >>> 32) &&& mask64 (n - 32)).setWidth 32) (n := n - 32) (by omega)
    have h2 := wrBits_writes cap (v.setWidth 32) (n := 32) (Nat.le_refl _)
    have hb := h1.bind (f := fun _ => wrBits cap (v.setWidth 32) 32) h2
    have e : natBits (n - 32) (((v >>> 32) &&& mask64 (n - 32)).setWidth 32).toNat ++ natBits 32 (v.setWidth 32).toNat
        = natBits n v.toNat := by
      conv_rhs => rw [show n = n - 32 + 32 by omega, natBits_add]
      congr 1
      · refine natBits_congr ?_
        have hlt : (v.toNat >>> 32) % 2 ^ (n - 32) < 2 ^ 32 :=
          lt_of_lt_of_le (Nat.mod_lt _ (Nat.two_pow_pos _)) (Nat.pow_le_pow_right (by decide) (by omega))
        rw [BitVec.toNat_setWidth, and_mask64_toNat _ (by omega), BitVec.toNat_ushiftRight, Nat.mod_eq_of_lt hlt,
          Nat.mod_mod, Nat.shiftRight_eq_div_pow]
      · refine natBits_congr ?_
        rw [BitVec.toNat_setWidth, Nat.mod_mod]
    rwa [e] at hb
  · rw [if_neg h]
    have h1 := wrBits_writes cap (v.setWidth 32) (n := n) (by omega)
    have e : natBits n (v.setWidth 32).toNat = natBits n v.toNat := by
      refine natBits_congr ?_
      rw [BitVec.toNat_setWidth]
      exact Nat.mod_mod_of_dvd _ (Nat.pow_dvd_pow 2 (by omega))
    rwa [e] at h1

/-- `wr_finish()` (R108): it pads with zeros to a whole unit and ends the stream, or the padded unit does not fit. -/
theorem wrFinish_cases {cap : Nat} {o : OutPort} (h : o.wr.Ready cap) :
    (∃ obuf, o.wr.base + o.wr.out + (if o.wr.cnt = 0 then 0 else granBits o.wr.gran / 8) ≤ cap
      ∧ wrFinish cap o = .ok (o.wr.out + if o.wr.cnt = 0 then 0 else granBits o.wr.gran / 8)
          { wr := { o.wr with
              st := .finished, acc := 0, cnt := 0
              out := o.wr.out + if o.wr.cnt = 0 then 0 else granBits o.wr.gran / 8 }
            obuf := obuf }
      ∧ storedBits o.wr.gran (bytesAt obuf o.wr.base (o.wr.out + if o.wr.cnt = 0 then 0 else granBits o.wr.gran / 8))
          = o.stream ++ List.replicate ((8 * if o.wr.cnt = 0 then 0 else granBits o.wr.gran / 8) - o.wr.cnt) false
      ∧ SameOutside o.obuf obuf (o.wr.base + o.wr.out) (if o.wr.cnt = 0 then 0 else granBits o.wr.gran / 8)
      ∧ Written obuf (o.wr.base + o.wr.out) (if o.wr.cnt = 0 then 0 else granBits o.wr.gran / 8)
      ∧ (o.obuf.wf = true → obuf.wf = true) ∧ (Memory.Below cap o.obuf → Memory.Below cap obuf))
    ∨ (0 < o.wr.cnt ∧ cap < o.wr.base + o.wr.out + granBits o.wr.gran / 8
        ∧ wrFinish cap o = .error (.raised .bufferOverflow (o.wr.base + o.wr.out)) o) := by
  have hacc := h.acc_lt
  have hin := h.inside
  by_cases hc : o.wr.cnt = 0
  · refine .inl ⟨o.obuf, ?_⟩
    have ha : o.wr.acc = 0 := by
      rw [hc] at hacc
      exact BitVec.eq_of_toNat_eq (by simpa using hacc)
    refine ⟨by simpa [hc] using hin, ?_, ?_, ?_, ?_, id, id⟩
    · simp [wrFinish, hc, ha]
    · simp [OutPort.stream, hc]
    · exact SameOutside.refl _ _ _
    · intro i hi
      simp [hc] at hi
  · have hpos : 0 < o.wr.cnt := Nat.pos_of_ne_zero hc
    by_cases hfit : o.wr.base + o.wr.out + granBits o.wr.gran / 8 ≤ cap
    · refine .inl ⟨o.obuf.writeList (o.wr.base + o.wr.out)
        (unitBytes o.wr.gran ((o.wr.acc <<< (granBits o.wr.gran - o.wr.cnt)) &&& mask64 (granBits o.wr.gran))), ?_⟩
      simp only [hc, if_false]
      have hlen := unitBytes_length o.wr.gran
        ((o.wr.acc <<< (granBits o.wr.gran - o.wr.cnt)) &&& mask64 (granBits o.wr.gran))
      refine ⟨hfit, ?_, ?_, ?_, ?_, fun hm => Memory.wf_writeList hm .., fun hm => hm.writeList (by rw [hlen]; exact hfit)⟩
      · simp only [wrFinish, Act.bind_apply, Act.get_apply, if_pos hpos, emit_apply, if_pos hfit, Act.modify_apply,
          Act.pure_apply]
      · have hb := bytesAt_writeList o.obuf (o.wr.base + o.wr.out)
          (unitBytes o.wr.gran ((o.wr.acc <<< (granBits o.wr.gran - o.wr.cnt)) &&& mask64 (granBits o.wr.gran)))
        rw [hlen] at hb
        rw [bytesAt_add, bytesAt_writeList_before _ _ (Nat.le_refl _), hb,
          storedBits_append _ (by simpa using h.whole), storedBits_unitBytes, OutPort.stream, List.append_assoc]
        congr 1
        have hcl := h.cnt_lt
        have hgl := granBits_le o.wr.gran
        rw [and_mask64_toNat _ (by omega), natBits_mod, BitVec.toNat_shiftLeft, Nat.shiftLeft_eq]
        have hlt : o.wr.acc.toNat * 2 ^ (granBits o.wr.gran - o.wr.cnt) < 2 ^ 64 := by
          calc o.wr.acc.toNat * 2 ^ (granBits o.wr.gran - o.wr.cnt)
              < 2 ^ o.wr.cnt * 2 ^ (granBits o.wr.gran - o.wr.cnt) :=
                Nat.mul_lt_mul_of_pos_right hacc (Nat.two_pow_pos _)
            _ = 2 ^ (granBits o.wr.gran) := by rw [← Nat.pow_add]; congr 1; omega
            _ ≤ 2 ^ 64 := Nat.pow_le_pow_right (by decide) (by omega)
        rw [Nat.mod_eq_of_lt hlt, granBits_div]
        conv_lhs => rw [show granBits o.wr.gran = o.wr.cnt + (granBits o.wr.gran - o.wr.cnt) by omega]
        rw [show o.wr.cnt + (granBits o.wr.gran - o.wr.cnt) - o.wr.cnt = granBits o.wr.gran - o.wr.cnt by omega,
          natBits_mul_two_pow]
      · have := Memory.writeList_sameOutside o.obuf (o.wr.base + o.wr.out)
          (unitBytes o.wr.gran ((o.wr.acc <<< (granBits o.wr.gran - o.wr.cnt)) &&& mask64 (granBits o.wr.gran)))
        rwa [hlen] at this
      · have := Memory.writeList_written o.obuf (o.wr.base + o.wr.out)
          (unitBytes o.wr.gran ((o.wr.acc <<< (granBits o.wr.gran - o.wr.cnt)) &&& mask64 (granBits o.wr.gran)))
        rwa [hlen] at this
    · refine .inr ⟨hpos, by omega, ?_⟩
      simp only [wrFinish, Act.bind_apply, Act.get_apply, if_pos hpos, emit_apply, if_neg hfit]

end Sys2Proof.Machine
end

