-- ==== Sys2Proof/Laws/Rle.lean ====
section
/-! SUPPORT. The codebook and what the codeword operations do (spec/42_rle.md R141 to R148, R154), said once. -/

namespace Sys2Proof.Machine

/-! ## A legal configuration -/

/-- The four conditions of spec/42_rle.md R141, bucket by bucket. -/
structure LegalCodebook (c : Config) : Prop where
  one_le_prefixBits : ∀ i ≤ 6, 1 ≤ prefixBits c i
  prefixBits_le : ∀ i ≤ 6, prefixBits c i ≤ 32
  prefixPat_lt : ∀ i ≤ 6, prefixPat c i < 2 ^ prefixBits c i
  codewordBits_le : ∀ t ≤ 5, ∀ i ≤ 6, codewordBits c t i ≤ 32
  free : ∀ i ≤ 6, ∀ j ≤ 6, i ≠ j → prefixBits c j ≤ prefixBits c i →
    prefixPat c i >>> (prefixBits c i - prefixBits c j) ≠ prefixPat c j
  longestRun_lt : ∀ t ≤ 5, longestRun c t < 2 ^ 32

theorem mem_buckets {i : Nat} : i ∈ buckets ↔ i ≤ 6 := by
  simp only [buckets, List.mem_cons, List.not_mem_nil, or_false]
  omega

theorem mem_types {t : Nat} : t ∈ types ↔ t ≤ 5 := by
  simp only [types, List.mem_cons, List.not_mem_nil, or_false]
  omega

theorem legalCodebook {c : Config} (h : configLegal c = true) : LegalCodebook c := by
  simp only [configLegal, Bool.and_eq_true] at h
  obtain ⟨⟨⟨⟨_, hp⟩, hpl⟩, hf⟩, hr⟩ := h
  simp only [prefixesLegal, payloadsLegal, prefixFree, runsLegal, List.all_eq_true, Bool.and_eq_true, Bool.or_eq_true,
    decide_eq_true_eq] at hp hpl hf hr
  refine ⟨fun i hi => (hp i (mem_buckets.mpr hi)).1.1, fun i hi => (hp i (mem_buckets.mpr hi)).1.2,
    fun i hi => (hp i (mem_buckets.mpr hi)).2, fun t ht i hi => (hpl t (mem_types.mpr ht) i (mem_buckets.mpr hi)).2,
    fun i hi j hj hne hle => ?_, fun t ht => ?_⟩
  · rcases hf i (mem_buckets.mpr hi) j (mem_buckets.mpr hj) with (h | h) | h
    · exact absurd h hne
    · omega
    · exact h
  · have := hr t (mem_types.mpr ht)
    omega

/-! ## Buckets -/

theorem maxRun_lt_succ (c : Config) (t i : Nat) : maxRun c t i < maxRun c t (i + 1) := by
  have := Nat.two_pow_pos (payloadBits c t (i + 1))
  simp only [maxRun]
  omega

theorem maxRun_strictMono (c : Config) (t : Nat) : StrictMono (maxRun c t) :=
  strictMono_nat_of_lt_succ (maxRun_lt_succ c t)

theorem maxRun_eq (c : Config) (t i : Nat) : maxRun c t i + 1 = minRun c t i + 2 ^ payloadBits c t i := by
  cases i with
  | zero => simp only [maxRun, minRun]; omega
  | succ i => simp only [maxRun, minRun]; omega

theorem one_le_minRun (c : Config) (t i : Nat) : 1 ≤ minRun c t i := by
  cases i <;> simp [minRun]

/-- The bucket of a length is the least whose largest length is not below it (R144). -/
theorem bucketOf_eq_some {c : Config} {t len i : Nat} :
    bucketOf c t len = some i ↔ i ≤ 6 ∧ len ≤ maxRun c t i ∧ ∀ j < i, maxRun c t j < len := by
  simp only [bucketOf, buckets, List.find?_cons, List.find?_nil]
  constructor
  · intro h
    repeat' split at h
    all_goals first
      | (cases h; done)
      | (obtain rfl := Option.some.inj h
         simp only [decide_eq_true_eq, decide_eq_false_iff_not, Nat.not_le] at *
         refine ⟨by omega, by assumption, ?_⟩
         intro j hj
         interval_cases j <;> assumption)
  · rintro ⟨hi, hle, hlt⟩
    have hb : ∀ j, j ≤ 6 → (decide (len ≤ maxRun c t j) = true ↔ i ≤ j) := by
      intro j _
      rw [decide_eq_true_eq]
      constructor
      · intro h
        by_contra hj
        have := hlt j (by omega)
        omega
      · intro h
        exact hle.trans ((maxRun_strictMono c t).monotone h)
    have hd : ∀ j, j ≤ 6 → decide (len ≤ maxRun c t j) = decide (i ≤ j) := by
      intro j hj
      rw [Bool.eq_iff_iff, hb j hj, decide_eq_true_eq]
    simp only [hd 0 (by omega), hd 1 (by omega), hd 2 (by omega), hd 3 (by omega), hd 4 (by omega), hd 5 (by omega),
      hd 6 (by omega)]
    interval_cases i <;> rfl

theorem exists_bucketOf {c : Config} {t len : Nat} (h : len ≤ longestRun c t) :
    ∃ i ≤ 6, bucketOf c t len = some i := by
  have hex : ∃ i, len ≤ maxRun c t i := ⟨6, h⟩
  have hle : Nat.find hex ≤ 6 := Nat.find_min' hex h
  exact ⟨Nat.find hex, hle, bucketOf_eq_some.mpr ⟨hle, Nat.find_spec hex, fun j hj => by
    have := Nat.find_min hex hj
    omega⟩⟩

/-- A length lies in the range of its bucket. -/
theorem minRun_le_of_bucketOf {c : Config} {t len i : Nat} (hlen : 1 ≤ len) (h : bucketOf c t len = some i) :
    minRun c t i ≤ len ∧ len ≤ maxRun c t i := by
  obtain ⟨_, hle, hlt⟩ := bucketOf_eq_some.mp h
  refine ⟨?_, hle⟩
  cases i with
  | zero => exact hlen
  | succ i => exact hlt i (Nat.lt_succ_self i)

/-- A length in a bucket's range has that bucket. -/
theorem bucketOf_of_range {c : Config} {t len i : Nat} (hi : i ≤ 6) (h1 : minRun c t i ≤ len) (h2 : len ≤ maxRun c t i) :
    bucketOf c t len = some i := by
  refine bucketOf_eq_some.mpr ⟨hi, h2, fun j hj => ?_⟩
  cases i with
  | zero => omega
  | succ i =>
    have := (maxRun_strictMono c t).monotone (Nat.lt_succ_iff.mp hj)
    simp only [minRun] at h1
    omega

theorem payload_lt {c : Config} {t len i : Nat} (hlen : 1 ≤ len) (h : bucketOf c t len = some i) :
    len - minRun c t i < 2 ^ payloadBits c t i := by
  obtain ⟨h1, h2⟩ := minRun_le_of_bucketOf hlen h
  have := maxRun_eq c t i
  omega

theorem seven_le_longestRun (c : Config) (t : Nat) : 7 ≤ longestRun c t := by
  have h0 := Nat.two_pow_pos (payloadBits c t 0)
  have h := fun i => maxRun_lt_succ c t i
  have h0' := h 0
  have h1 := h 1
  have h2 := h 2
  have h3 := h 3
  have h4 := h 4
  have h5 := h 5
  simp only [Nat.reduceAdd] at *
  have e : 1 ≤ maxRun c t 0 := h0
  unfold longestRun
  omega

/-! ## Codewords -/

theorem codeword_eq {c : Config} {t len i : Nat} (h : bucketOf c t len = some i) :
    codeword c t len
      = natBits (prefixBits c i) (prefixPat c i) ++ natBits (payloadBits c t i) (len - minRun c t i) := by
  unfold codeword
  rw [h]

theorem codeword_length {c : Config} {t len i : Nat} (h : bucketOf c t len = some i) :
    (codeword c t len).length = codewordBits c t i := by
  rw [codeword_eq h, List.length_append, natBits_length, natBits_length, codewordBits]

theorem codeword_ne_nil {c : Config} (hc : LegalCodebook c) {t len : Nat} (h : len ≤ longestRun c t) :
    codeword c t len ≠ [] := by
  obtain ⟨i, hi, hb⟩ := exists_bucketOf h
  have := codeword_length hb
  have h1 := hc.one_le_prefixBits i hi
  intro he
  rw [he, codewordBits] at this
  simp at this
  omega

/-- Two prefixes of one string are the same bucket's. -/
theorem bucket_unique {c : Config} (hc : LegalCodebook c) {i j : Nat} (hi : i ≤ 6) (hj : j ≤ 6) {bs : List Bool}
    (h1 : natBits (prefixBits c i) (prefixPat c i) <+: bs) (h2 : natBits (prefixBits c j) (prefixPat c j) <+: bs) :
    i = j := by
  by_contra hne
  wlog hle : prefixBits c j ≤ prefixBits c i generalizing i j
  · exact this hj hi h2 h1 (Ne.symm hne) (by omega)
  · refine hc.free i hi j hj hne hle ?_
    have hpre := List.prefix_of_prefix_length_le h2 h1 (by simpa using hle)
    have he := List.prefix_iff_eq_take.mp hpre
    rw [natBits_length, natBits_take _ _ _ hle] at he
    have := natBits_injective he
    have hjlt := hc.prefixPat_lt j hj
    have hilt := hc.prefixPat_lt i hi
    have hdlt : prefixPat c i / 2 ^ (prefixBits c i - prefixBits c j) < 2 ^ prefixBits c j := by
      rw [Nat.div_lt_iff_lt_mul (Nat.two_pow_pos _), ← Nat.pow_add]
      rwa [show prefixBits c j + (prefixBits c i - prefixBits c j) = prefixBits c i by omega]
    rw [Nat.mod_eq_of_lt hjlt, Nat.mod_eq_of_lt hdlt] at this
    rw [Nat.shiftRight_eq_div_pow]
    exact this.symm

theorem natBits_ofNat {n v : Nat} (hn : n ≤ 32) : natBits n (BitVec.ofNat 32 v).toNat = natBits n v := by
  refine natBits_congr ?_
  rw [BitVec.toNat_ofNat]
  exact Nat.mod_mod_of_dvd _ (Nat.pow_dvd_pow 2 hn)

/-- `enc_cw` writes the codeword and answers its bucket (R144). -/
theorem encCw_writes {c : Config} (hc : LegalCodebook c) {t len i : Nat} (ht : t ≤ 5)
    (h : bucketOf c t len = some i) : Writes c.obufBytes (encCw c t len) (codeword c t len) i := by
  have hi := (bucketOf_eq_some.mp h).1
  have hcw := hc.codewordBits_le t ht i hi
  rw [codewordBits] at hcw
  have h1 := wrBits_writes c.obufBytes (BitVec.ofNat 32 (prefixPat c i)) (n := prefixBits c i) (by omega)
  have h2 := wrBits_writes c.obufBytes (BitVec.ofNat 32 (len - minRun c t i)) (n := payloadBits c t i) (by omega)
  rw [natBits_ofNat (by omega)] at h1 h2
  unfold encCw
  rw [codeword_eq h]
  simp only [h]
  have := h2.bind (f := fun _ => (Pure.pure i : Act OutPort Nat)) (Writes.pure _ i)
  rw [List.append_nil] at this
  exact h1.bind this

/-- Codewords in order write their strings. -/
theorem encCws_writes {c : Config} (hc : LegalCodebook c) {t : Nat} (ht : t ≤ 5) {vs : List Nat}
    (h : ∀ v ∈ vs, v ≤ longestRun c t) : Writes c.obufBytes (encCws c t vs) (codewordString c t vs) () := by
  induction vs with
  | nil => exact Writes.pure _ ()
  | cons v vs ih =>
    obtain ⟨i, _, hb⟩ := exists_bucketOf (h v (List.mem_cons_self ..))
    have := (encCw_writes hc ht hb).bind (f := fun _ => encCws c t vs)
      (ih fun x hx => h x (List.mem_cons_of_mem _ hx))
    simpa only [codewordString, List.map_cons, List.flatten_cons, encCws] using this

/-! ## Runs -/

/-- Every codeword value of a run is at most `M_t`. -/
theorem runCodewords_le {c : Config} {t fuel len : Nat} : ∀ v ∈ runCodewords c t fuel len, v ≤ longestRun c t := by
  induction fuel generalizing len with
  | zero => intro v hv; simp [runCodewords] at hv
  | succ fuel ih =>
    intro v hv
    simp only [runCodewords] at hv
    split at hv
    · rcases List.mem_cons.mp hv with rfl | hv
      · exact Nat.le_refl _
      · exact ih v hv
    · simp only [List.mem_cons, List.not_mem_nil, or_false] at hv
      omega

/-- Every codeword value of a run of at least 1 is at least 1. -/
theorem one_le_runCodewords {c : Config} {t fuel len : Nat} (h : 1 ≤ len) :
    ∀ v ∈ runCodewords c t fuel len, 1 ≤ v := by
  have hM := seven_le_longestRun c t
  induction fuel generalizing len with
  | zero => intro v hv; simp [runCodewords] at hv
  | succ fuel ih =>
    intro v hv
    simp only [runCodewords] at hv
    split at hv
    · rcases List.mem_cons.mp hv with rfl | hv
      · omega
      · exact ih (by omega) v hv
    · simp only [List.mem_cons, List.not_mem_nil, or_false] at hv
      omega

/-- The codewords of a run stand for its symbols and one change of symbol (R143, R146), whatever follows. -/
theorem expandCodewords_runCodewords {c : Config} {t fuel len : Nat} (h : 1 ≤ len) (hf : len ≤ fuel) (cur : Bool)
    (vs : List Nat) :
    expandCodewords c t cur (runCodewords c t fuel len ++ vs)
      = List.replicate len cur ++ expandCodewords c t (!cur) vs := by
  have hM := seven_le_longestRun c t
  induction fuel generalizing len with
  | zero => omega
  | succ fuel ih =>
    simp only [runCodewords]
    split
    · rename_i hle
      rw [List.cons_append, expandCodewords, if_pos rfl, ih (by omega) (by omega), ← List.append_assoc,
        List.replicate_append_replicate]
      congr 2
      omega
    · rw [List.cons_append, expandCodewords, if_neg (by omega), List.nil_append]

theorem runString_eq (c : Config) (t len : Nat) : runString c t len = codewordString c t (runCodewords c t len len) := rfl

/-- `emit_run` writes the codewords of the run (R146). -/
theorem emitRun_writes {c : Config} (hc : LegalCodebook c) {t : Nat} (ht : t ≤ 5) (len : Nat) :
    Writes c.obufBytes (emitRun c t len) (runString c t len) () :=
  encCws_writes hc ht runCodewords_le

theorem runString_length {c : Config} {t len : Nat} : (runString c t len).length = runBits c t len := by
  unfold runString runBits
  rw [List.length_flatten, List.map_map]
  congr 1
  refine List.map_congr_left fun v hv => ?_
  obtain ⟨i, _, hb⟩ := exists_bucketOf (runCodewords_le v hv)
  simp only [Function.comp_apply, codeword_length hb, hb, Option.getD_some]

/-! ## Planes -/

theorem pixelsAt_succ (m : Memory) (a n : Nat) :
    pixelsAt m a (n + 1) = pixelOf ((m.read a).getD 0) :: pixelsAt m (a + 1) n := by
  rw [pixelsAt, Nat.add_comm n 1, bytesAt_add]
  simp [pixelsAt, bytesAt]

/-- The strings of runs, one after another. -/
def runsString (c : Config) (t : Nat) (rs : List Nat) : List Bool := (rs.map (runString c t)).flatten

theorem planeString_eq (c : Config) (t : Nat) (ps : List Bool) : planeString c t ps = runsString c t (planeRuns ps) := rfl

/-- The pixel scan of a written range writes the codewords of its runs (R148, R153). -/
theorem encScan_writes {c : Config} (hc : LegalCodebook c) {t : Nat} (ht : t ≤ 5) {ibuf : Memory} {n a : Nat}
    (h : Written ibuf a n) (cur : Bool) (run : Nat) :
    Writes c.obufBytes (encScan c t ibuf n a cur run) (runsString c t (runsFrom cur run (pixelsAt ibuf a n))) () := by
  induction n generalizing a cur run with
  | zero =>
    have hp : pixelsAt ibuf a 0 = [] := rfl
    rw [hp, encScan, runsFrom]
    split
    · have := emitRun_writes hc ht run
      simpa only [runsString, List.map_cons, List.map_nil, List.flatten_cons, List.flatten_nil, List.append_nil] using this
    · exact Writes.pure _ ()
  | succ n ih =>
    obtain ⟨b, hb⟩ := Option.isSome_iff_exists.mp (h 0 (by omega))
    simp only [Nat.add_zero] at hb
    have h' : Written ibuf (a + 1) n := fun i hi => by
      have := h (i + 1) (by omega)
      rwa [show a + (i + 1) = a + 1 + i by omega] at this
    have hread : Writes c.obufBytes (ibufByte ibuf a : Act OutPort Byte) [] b := by
      intro o ho
      have hp := Writes.pure c.obufBytes b o ho
      rcases hp with ⟨o', h1, h2⟩ | ⟨_, _, _, h1, _⟩
      · refine .inl ⟨o', ?_, h2⟩
        rw [ibufByte_written hb]
        exact h1
      · cases h1
    rw [pixelsAt_succ, hb, Option.getD_some, encScan, runsFrom]
    have hgo : Writes c.obufBytes
        (if pixelOf b = cur then encScan c t ibuf n (a + 1) cur (run + 1)
          else do
            emitRun c t run
            encScan c t ibuf n (a + 1) (pixelOf b) 1)
        (runsString c t (if pixelOf b = cur then runsFrom cur (run + 1) (pixelsAt ibuf (a + 1) n)
          else run :: runsFrom (pixelOf b) 1 (pixelsAt ibuf (a + 1) n))) () := by
      split
      · exact ih h' cur (run + 1)
      · have := (emitRun_writes hc ht run).bind (f := fun _ => encScan c t ibuf n (a + 1) (pixelOf b) 1)
          (ih h' (pixelOf b) 1)
        simpa only [runsString, List.map_cons, List.flatten_cons] using this
    have := hread.bind (f := fun b => if pixelOf b = cur then encScan c t ibuf n (a + 1) cur (run + 1)
          else do
            emitRun c t run
            encScan c t ibuf n (a + 1) (pixelOf b) 1) hgo
    rwa [List.nil_append] at this

/-- The runs from a current symbol stand for the current run and the pixels (R148). -/
theorem expandCodewords_runsFrom (c : Config) (t : Nat) (cur : Bool) (run : Nat) (ps : List Bool)
    (h : 1 ≤ run ∨ ps.head? = some cur ∨ ps = []) :
    expandCodewords c t cur (((runsFrom cur run ps).map fun r => runCodewords c t r r).flatten)
      = List.replicate run cur ++ ps := by
  induction ps generalizing cur run with
  | nil =>
    rw [runsFrom]
    split
    · rename_i hr
      have := expandCodewords_runCodewords (c := c) (t := t) hr (Nat.le_refl run) cur []
      simpa [expandCodewords] using this
    · have : run = 0 := by omega
      simp [this, expandCodewords]
  | cons p ps ih =>
    rw [runsFrom]
    split
    · rename_i hp
      subst hp
      rw [ih _ (run + 1) (.inl (by omega)), List.replicate_succ', List.append_assoc]
      rfl
    · rename_i hp
      have hr : 1 ≤ run := by
        rcases h with h | h | h
        · exact h
        · simp at h
          exact absurd h hp
        · simp at h
      rw [List.map_cons, List.flatten_cons, expandCodewords_runCodewords hr (Nat.le_refl _),
        show (!cur) = p by cases cur <;> cases p <;> simp_all, ih p 1 (.inl (Nat.le_refl 1))]
      rfl

/-! ## Reading codewords -/

theorem refill_idle {ibuf : Memory} {r : Reader} (h : 32 ≤ r.cnt ∨ r.fetch = r.len) : refill ibuf r = .ok () r := by
  have : ¬ (r.cnt < 32 ∧ r.fetch < r.len) := by omega
  simp only [refill, refillUnits, Act.bind_apply, Act.get_apply, if_neg this, Act.pure_apply]

theorem rdPeek_idle {ibuf : Memory} {r : Reader} (h : 32 ≤ r.cnt ∨ r.fetch = r.len) (n : Nat) :
    rdPeek ibuf n r = .ok (r.top n) r := by
  simp only [rdPeek, Act.bind_apply, refill_idle h, Act.get_apply, Act.pure_apply]

/-- A prefix test against buffered bits is a test of the bits ahead. -/
theorem top_eq_iff {cap n v : Nat} {ibuf : Memory} {r : Reader} (h : r.wf cap) (hn : n ≤ r.cnt) (hv : v < 2 ^ n) :
    r.top n = v ↔ natBits n v <+: r.ahead ibuf := by
  have hle : n ≤ (r.ahead ibuf).length := by
    rw [Reader.ahead_length h]
    omega
  have ht := Reader.bitsNat_ahead_take ibuf hn h.1
  rw [List.prefix_iff_eq_take, natBits_length, ← ht]
  constructor
  · intro he
    refine bitsNat_injective (by simp [hle]) ?_
    rw [bitsNat_natBits, he, Nat.mod_eq_of_lt hv]
  · intro he
    rw [← he, bitsNat_natBits, Nat.mod_eq_of_lt hv]

/-- The bucket scan after a refill finds the first bucket whose prefix is ahead (R145). -/
theorem scanBuckets_eq {c : Config} (hc : LegalCodebook c) {cap : Nat} {ibuf : Memory} {r : Reader} (h : r.wf cap)
    (hd : 32 ≤ r.cnt ∨ r.fetch = r.len) {is : List Nat} (his : ∀ i ∈ is, i ≤ 6) :
    scanBuckets c ibuf is r
      = .ok (is.find? fun i => decide (natBits (prefixBits c i) (prefixPat c i) <+: r.ahead ibuf)) r := by
  have hlen := Reader.ahead_length h ibuf
  have hfl := h.2.2.2.1
  induction is with
  | nil => rfl
  | cons i is ih =>
    have hi := his i (List.mem_cons_self ..)
    have ih := ih fun j hj => his j (List.mem_cons_of_mem _ hj)
    have hp32 := hc.prefixBits_le i hi
    rw [List.find?_cons]
    simp only [scanBuckets, Act.bind_apply, Act.get_apply]
    by_cases hle : prefixBits c i ≤ r.cnt
    · have hiff := top_eq_iff (ibuf := ibuf) h hle (hc.prefixPat_lt i hi)
      rw [if_pos hle]
      simp only [Act.bind_apply, rdPeek_idle hd]
      by_cases htop : r.top (prefixBits c i) = prefixPat c i
      · rw [if_pos htop, decide_eq_true (hiff.mp htop)]
        rfl
      · rw [if_neg htop, decide_eq_false (fun hx => htop (hiff.mpr hx))]
        exact ih
    · rw [if_neg hle, decide_eq_false]
      · exact ih
      · intro hx
        have := hx.length_le
        rw [natBits_length, hlen] at this
        omega

/-- Everything `dec_cw` can do when the whole input is written (R145): it consumes the codeword the input begins with, or
consumes nothing and raises `UNEXPECTED_EOF` or `CORRUPT_STREAM` at the next bit. -/
theorem decCw_cases {c : Config} (hc : LegalCodebook c) {cap t : Nat} (ht : t ≤ 5) {ibuf : Memory} {r : Reader}
    (h : r.wf cap) (hf : r.Fed ibuf) :
    (∃ v i r', 1 ≤ v ∧ v ≤ longestRun c t ∧ bucketOf c t v = some i ∧ codeword c t v <+: r.ahead ibuf
      ∧ decCw c t ibuf r = .ok (v, i) r' ∧ Consumes cap ibuf r r' (codeword c t v).length)
    ∨ ∃ e r', (∀ v, 1 ≤ v → v ≤ longestRun c t → ¬ codeword c t v <+: r.ahead ibuf)
        ∧ decCw c t ibuf r = .error (.raised e (8 * r.base + r.pos)) r' ∧ Consumes cap ibuf r r' 0
        ∧ (((∃ i ≤ 6, natBits (prefixBits c i) (prefixPat c i) <+: r.ahead ibuf)
              ∨ ∃ i ≤ 6, (r.ahead ibuf).length < prefixBits c i) → e = .unexpectedEof)
        ∧ ((∀ i ≤ 6, ¬ natBits (prefixBits c i) (prefixPat c i) <+: r.ahead ibuf
              ∧ prefixBits c i ≤ (r.ahead ibuf).length) → e = .corruptStream) := by
  obtain ⟨r1, hr1, hfe, hd⟩ := refill_fed h hf
  have hcons := hfe.consumes
  have hfed1 := hcons.fed hf
  have hah : r1.ahead ibuf = r.ahead ibuf := hfe.ahead
  have hlen := Reader.ahead_length hfe.wf ibuf
  have hfl := hfe.wf.2.2.2.1
  have hscan := scanBuckets_eq hc (ibuf := ibuf) hfe.wf hd (is := buckets) fun i hi => mem_buckets.mp hi
  have haddr : r1.bitAddress = 8 * r.base + r.pos := by rw [Reader.bitAddress, hcons.base_eq, hcons.pos_eq]; rfl
  rw [hah] at hlen hscan
  cases hfind : buckets.find? (fun i => decide (natBits (prefixBits c i) (prefixPat c i) <+: r.ahead ibuf)) with
  | some i =>
    rw [hfind] at hscan
    have hpre : natBits (prefixBits c i) (prefixPat c i) <+: r.ahead ibuf := by
      have := List.find?_some hfind
      simpa using this
    have hi : i ≤ 6 := mem_buckets.mp (List.mem_of_find?_eq_some hfind)
    have hcw32 := hc.codewordBits_le t ht i hi
    by_cases hcut : codewordBits c t i ≤ r1.cnt
    · refine .inl ?_
      have hp32 := hc.prefixBits_le i hi
      rw [codewordBits] at hcw32 hcut
      obtain ⟨rest, hrest⟩ := hpre
      obtain ⟨r2, hr2, hc2⟩ := rdBits_fed (n := prefixBits c i) hfe.wf hfed1 hp32 (by rw [hah]; omega)
      have ha2 : r2.ahead ibuf = rest := by
        rw [hc2.ahead, hah, ← hrest, List.drop_left' (natBits_length ..)]
      have hl2 : (r.ahead ibuf).length = prefixBits c i + rest.length := by
        rw [← hrest, List.length_append, natBits_length]
      obtain ⟨r3, hr3, hc3⟩ := rdBits_fed (n := payloadBits c t i) hc2.wf (hc2.fed hfed1) (by omega)
        (by rw [ha2]; omega)
      rw [ha2] at hr3
      have hplt := bitsNat_lt (rest.take (payloadBits c t i))
      have htl : (rest.take (payloadBits c t i)).length = payloadBits c t i := by
        rw [List.length_take]
        omega
      rw [htl] at hplt
      have hmax := maxRun_eq c t i
      have hb : bucketOf c t (minRun c t i + bitsNat (rest.take (payloadBits c t i))) = some i :=
        bucketOf_of_range hi (by omega) (by omega)
      have hcw : codeword c t (minRun c t i + bitsNat (rest.take (payloadBits c t i)))
          = natBits (prefixBits c i) (prefixPat c i) ++ rest.take (payloadBits c t i) := by
        rw [codeword_eq hb, Nat.add_sub_cancel_left]
        congr 1
        have := natBits_bitsNat (rest.take (payloadBits c t i))
        rwa [htl] at this
      have hmono : maxRun c t i ≤ longestRun c t := (maxRun_strictMono c t).monotone hi
      refine ⟨minRun c t i + bitsNat (rest.take (payloadBits c t i)), i, r3, ?_, ?_, hb, ?_, ?_, ?_⟩
      · have := one_le_minRun c t i
        omega
      · omega
      · rw [hcw, ← hrest]
        exact (List.prefix_append_right_inj _).mpr (List.take_prefix ..)
      · simp only [decCw, Act.bind_apply, hr1, hscan, Act.get_apply]
        rw [require_true (by rw [codewordBits]; exact hcut)]
        simp only [hr2, hr3, Act.pure_apply]
      · rw [hcw, List.length_append, natBits_length, htl]
        have := (hcons.trans hc2).trans hc3
        rwa [Nat.zero_add] at this
    · refine .inr ⟨.unexpectedEof, r1, ?_, ?_, hcons, fun _ => rfl, ?_⟩
      · intro v hv1 hv2 hcw
        obtain ⟨j, hj, hb⟩ := exists_bucketOf hv2
        have hpj : natBits (prefixBits c j) (prefixPat c j) <+: r.ahead ibuf := by
          rw [codeword_eq hb] at hcw
          exact (List.prefix_append ..).trans hcw
        obtain rfl := bucket_unique hc hj hi hpj hpre
        have hl := hcw.length_le
        rw [codeword_length hb] at hl
        omega
      · simp only [decCw, Act.bind_apply, hr1, hscan, Act.get_apply]
        rw [require_false hcut]
        simp only [haddr]
      · intro hno
        exact absurd hpre (hno i hi).1
  | none =>
    rw [hfind] at hscan
    have hno : ∀ i ≤ 6, ¬ natBits (prefixBits c i) (prefixPat c i) <+: r.ahead ibuf := by
      intro i hi
      have := List.find?_eq_none.mp hfind i (mem_buckets.mpr hi)
      simpa using this
    have hlp : ∀ n, n ≤ 32 → ((∀ i ≤ 6, prefixBits c i ≤ n) ↔ longestPrefix c ≤ n) := by
      intro n _
      simp only [longestPrefix, buckets, List.foldl_cons, List.foldl_nil]
      constructor
      · intro hall
        have := fun i hi => hall i hi
        have h0 := this 0 (by omega)
        have h1 := this 1 (by omega)
        have h2 := this 2 (by omega)
        have h3 := this 3 (by omega)
        have h4 := this 4 (by omega)
        have h5 := this 5 (by omega)
        have h6 := this 6 (by omega)
        omega
      · intro hm i hi
        interval_cases i <;> omega
    have hl32 : longestPrefix c ≤ 32 := (hlp 32 (Nat.le_refl _)).mp hc.prefixBits_le
    refine .inr ⟨if longestPrefix c ≤ r1.cnt then .corruptStream else .unexpectedEof, r1, ?_, ?_, hcons, ?_, ?_⟩
    · intro v hv1 hv2 hcw
      obtain ⟨j, hj, hb⟩ := exists_bucketOf hv2
      rw [codeword_eq hb] at hcw
      exact hno j hj ((List.prefix_append ..).trans hcw)
    · simp only [decCw, Act.bind_apply, hr1, hscan, Act.get_apply]
      by_cases hlong : longestPrefix c ≤ r1.cnt
      · rw [require_true hlong, if_pos hlong]
        simp only [raiseError_apply, haddr]
      · rw [require_false hlong, if_neg hlong]
        simp only [haddr]
    · rintro (⟨i, hi, hp⟩ | ⟨i, hi, hlt⟩)
      · exact absurd hp (hno i hi)
      · rw [if_neg]
        intro hlong
        rw [hlen] at hlt
        have hcnt : prefixBits c i ≤ longestPrefix c := (hlp (longestPrefix c) hl32).mpr (Nat.le_refl _) i hi
        omega
    · intro hall
      rw [if_pos]
      have hcnt : longestPrefix c ≤ (r.ahead ibuf).length ∨ 32 < (r.ahead ibuf).length := by
        by_cases h32 : (r.ahead ibuf).length ≤ 32
        · exact .inl ((hlp _ h32).mp fun i hi => (hall i hi).2)
        · exact .inr (by omega)
      omega

/-- `dec_cw` reads the codeword of a run length (R144, R145). -/
theorem decCw_reads {c : Config} (hc : LegalCodebook c) (cap : Nat) {t len i : Nat} (ht : t ≤ 5) (h1 : 1 ≤ len)
    (hb : bucketOf c t len = some i) (ibuf : Memory) :
    Reads cap ibuf (decCw c t ibuf) (codeword c t len) (len, i) := by
  intro r h hf hpre
  have hbd := minRun_le_of_bucketOf h1 hb
  have hi := (bucketOf_eq_some.mp hb).1
  have hlen : len ≤ longestRun c t := hbd.2.trans ((maxRun_strictMono c t).monotone hi)
  rcases decCw_cases hc ht h hf with ⟨v, j, r', hv1, hv2, hbv, hcw, hr, hcons⟩ | ⟨e, r', hno, _⟩
  · have hpi : natBits (prefixBits c i) (prefixPat c i) <+: r.ahead ibuf := by
      rw [codeword_eq hb] at hpre
      exact (List.prefix_append ..).trans hpre
    have hpj : natBits (prefixBits c j) (prefixPat c j) <+: r.ahead ibuf := by
      rw [codeword_eq hbv] at hcw
      exact (List.prefix_append ..).trans hcw
    obtain rfl := bucket_unique hc hi (bucketOf_eq_some.mp hbv).1 hpi hpj
    have heq : codeword c t v = codeword c t len := by
      have := List.prefix_of_prefix_length_le hcw hpre (by rw [codeword_length hbv, codeword_length hb])
      exact this.eq_of_length (by rw [codeword_length hbv, codeword_length hb])
    have hval : v = len := by
      rw [codeword_eq hbv, codeword_eq hb, List.append_cancel_left_eq] at heq
      have := natBits_injective heq
      rw [Nat.mod_eq_of_lt (payload_lt hv1 hbv), Nat.mod_eq_of_lt (payload_lt h1 hb)] at this
      have := minRun_le_of_bucketOf hv1 hbv
      omega
    subst hval
    exact ⟨r', hr, hcons⟩
  · exact absurd hpre (hno len h1 hlen)

/-! ## The plane decoder -/

/-- Everything writing pixels can do (R154): all of them, or those that fit and an overflow at the first that does
not. -/
theorem putPixels_cases (p : Bool) (n a : Nat) (s : State) :
    (a + n ≤ s.cfg.obufBytes ∨ n = 0) ∧ putPixels p n a s = .ok ()
        { s with out := { s.out with obuf := s.out.obuf.writeList a (List.replicate n (pixelByte p)) } }
    ∨ ∃ k < n, s.cfg.obufBytes < a + k + 1 ∧ (k = 0 ∨ a + k ≤ s.cfg.obufBytes)
        ∧ putPixels p n a s = .error (.raised .bufferOverflow (a + k))
          { s with out := { s.out with obuf := s.out.obuf.writeList a (List.replicate k (pixelByte p)) } } := by
  induction n generalizing a s with
  | zero => exact .inl ⟨.inr rfl, rfl⟩
  | succ n ih =>
    by_cases h : a + 1 ≤ s.cfg.obufBytes
    · rcases ih (a + 1) { s with out := { s.out with obuf := s.out.obuf.writeList a [pixelByte p] } } with
        ⟨h1, h2⟩ | ⟨k, hk, h1, h2, h3⟩
      · refine .inl ⟨.inl ?_, ?_⟩
        · rcases h1 with h1 | h1
          · simp only at h1
            omega
          · omega
        · rw [putPixels]
          simp only [Act.bind_apply, putBytes_apply, List.length_singleton, if_pos h, h2]
          rfl
      · refine .inr ⟨k + 1, by omega, ?_, .inr ?_, ?_⟩
        · simp only at h1
          omega
        · rcases h2 with h2 | h2
          · omega
          · simp only at h2
            omega
        · rw [putPixels]
          simp only [Act.bind_apply, putBytes_apply, List.length_singleton, if_pos h, h3]
          rw [show a + 1 + k = a + (k + 1) by omega]
          rfl
    · refine .inr ⟨0, by omega, by omega, .inl rfl, ?_⟩
      rw [putPixels]
      simp only [Act.bind_apply, putBytes_apply, List.length_singleton, if_neg h]
      rfl

/-- Pixels that fit are all written. -/
theorem putPixels_fits {p : Bool} {n a : Nat} {s : State} (h : a + n ≤ s.cfg.obufBytes) :
    putPixels p n a s = .ok ()
      { s with out := { s.out with obuf := s.out.obuf.writeList a (List.replicate n (pixelByte p)) } } := by
  rcases putPixels_cases p n a s with ⟨_, h1⟩ | ⟨k, hk, h1, _⟩
  · exact h1
  · omega

/-- The pixels a codeword value stands for (R143). -/
def codewordPixels (c : Config) (t v : Nat) : Nat := if v = longestRun c t then longestRun c t - 1 else v

/-- The current symbol after a codeword value (R143). -/
def nextSymbol (c : Config) (t : Nat) (cur : Bool) (v : Nat) : Bool := if v = longestRun c t then cur else !cur

theorem one_le_codewordPixels {c : Config} {t v : Nat} (h : 1 ≤ v) : 1 ≤ codewordPixels c t v := by
  have := seven_le_longestRun c t
  unfold codewordPixels
  split <;> omega

theorem expandCodewords_cons (c : Config) (t : Nat) (cur : Bool) (v : Nat) (vs : List Nat) :
    expandCodewords c t cur (v :: vs)
      = List.replicate (codewordPixels c t v) cur ++ expandCodewords c t (nextSymbol c t cur v) vs := by
  rw [expandCodewords, codewordPixels, nextSymbol]
  split <;> rfl

theorem expandCodewords_append (c : Config) (t : Nat) (cur : Bool) (vs ws : List Nat) :
    expandCodewords c t cur (vs ++ ws)
      = expandCodewords c t cur vs ++ expandCodewords c t (vs.foldl (nextSymbol c t) cur) ws := by
  induction vs generalizing cur with
  | nil => rfl
  | cons v vs ih =>
    rw [List.cons_append, expandCodewords_cons, expandCodewords_cons, ih, List.append_assoc]
    rfl

theorem length_le_expandCodewords {c : Config} {t : Nat} {vs : List Nat} (h : ∀ v ∈ vs, 1 ≤ v) (cur : Bool) :
    vs.length ≤ (expandCodewords c t cur vs).length := by
  induction vs generalizing cur with
  | nil => exact Nat.zero_le _
  | cons v vs ih =>
    have h1 := one_le_codewordPixels (c := c) (t := t) (h v (List.mem_cons_self ..))
    have h2 := ih (fun x hx => h x (List.mem_cons_of_mem _ hx)) (nextSymbol c t cur v)
    rw [expandCodewords_cons, List.length_append, List.length_replicate, List.length_cons]
    omega

theorem codewordString_cons (c : Config) (t v : Nat) (vs : List Nat) :
    codewordString c t (v :: vs) = codeword c t v ++ codewordString c t vs := by
  simp [codewordString]

/-- One turn of the decoder's loop with pixels still to come and a codeword ahead (R154): the run must stay in the plane,
its pixels are written, and the loop goes on. -/
theorem decRuns_codeword {s : State} (hc : LegalCodebook s.cfg) {cap t n dst out v : Nat} (ht : t ≤ 5) (h1 : 1 ≤ v)
    (hv : v ≤ longestRun s.cfg t) (cur : Bool) (hout : out < n) (hw : s.inp.rd.wf cap) (hf : s.inp.rd.Fed s.inp.ibuf)
    {rest : List Bool} (ha : s.inp.rd.ahead s.inp.ibuf = codeword s.cfg t v ++ rest) :
    ∃ r, (∀ fuel, decRuns t n dst (fuel + 1) out cur s = (do
          require (out + codewordPixels s.cfg t v ≤ n) .corruptStream s.inp.rd.bitAddress
          putPixels cur (codewordPixels s.cfg t v) (dst + out)
          decRuns t n dst fuel (out + codewordPixels s.cfg t v) (nextSymbol s.cfg t cur v) : Act State Unit)
        { s with inp := { s.inp with rd := r } })
      ∧ Consumes cap s.inp.ibuf s.inp.rd r (codeword s.cfg t v).length ∧ r.ahead s.inp.ibuf = rest := by
  obtain ⟨i, _, hb⟩ := exists_bucketOf hv
  obtain ⟨r, e, c, a, _⟩ := (decCw_reads hc cap ht h1 hb s.inp.ibuf).step hw hf ha
  refine ⟨r, fun fuel => ?_, c, a⟩
  rw [decRuns, if_pos hout]
  simp only [Act.bind_apply, Act.get_apply, onReader_apply, e, codewordPixels, nextSymbol]
  rfl

/-- One turn of the decoder's loop with pixels still to come and no whole codeword ahead (R145, R154). -/
theorem decRuns_no_codeword {s : State} (hc : LegalCodebook s.cfg) {cap t n dst fuel out : Nat} (ht : t ≤ 5) (cur : Bool)
    (hout : out < n) (hw : s.inp.rd.wf cap) (hf : s.inp.rd.Fed s.inp.ibuf)
    (hno : ∀ v, 1 ≤ v → v ≤ longestRun s.cfg t → ¬ codeword s.cfg t v <+: s.inp.rd.ahead s.inp.ibuf) :
    ∃ e r, decRuns t n dst (fuel + 1) out cur s = .error (.raised e s.inp.rd.bitAddress)
          { s with inp := { s.inp with rd := r } }
      ∧ Consumes cap s.inp.ibuf s.inp.rd r 0
      ∧ (((∃ i ≤ 6, natBits (prefixBits s.cfg i) (prefixPat s.cfg i) <+: s.inp.rd.ahead s.inp.ibuf)
            ∨ ∃ i ≤ 6, (s.inp.rd.ahead s.inp.ibuf).length < prefixBits s.cfg i) → e = .unexpectedEof)
      ∧ ((∀ i ≤ 6, ¬ natBits (prefixBits s.cfg i) (prefixPat s.cfg i) <+: s.inp.rd.ahead s.inp.ibuf
            ∧ prefixBits s.cfg i ≤ (s.inp.rd.ahead s.inp.ibuf).length) → e = .corruptStream) := by
  rcases decCw_cases hc ht hw hf with ⟨v, _, _, h1, h2, _, hp, _⟩ | ⟨e, r, _, h1, h2, h3⟩
  · exact absurd hp (hno v h1 h2)
  · refine ⟨e, r, ?_, h2, h3⟩
    rw [decRuns, if_pos hout]
    simp only [Act.bind_apply, Act.get_apply, onReader_apply, h1]
    rfl

/-- Codewords whose pixels fit plane and OBUF: the decoder's loop writes those pixels and goes on after them (R154). -/
theorem decRuns_skip {s : State} (hc : LegalCodebook s.cfg) {cap t n dst : Nat} (ht : t ≤ 5) {vs : List Nat}
    (hv : ∀ v ∈ vs, 1 ≤ v ∧ v ≤ longestRun s.cfg t) {out : Nat} {cur : Bool}
    (hn : out + (expandCodewords s.cfg t cur vs).length ≤ n)
    (hroom : dst + out + (expandCodewords s.cfg t cur vs).length ≤ s.cfg.obufBytes)
    (hw : s.inp.rd.wf cap) (hf : s.inp.rd.Fed s.inp.ibuf) {rest : List Bool}
    (ha : s.inp.rd.ahead s.inp.ibuf = codewordString s.cfg t vs ++ rest) :
    ∃ r', (∀ fuel, decRuns t n dst (vs.length + fuel) out cur s
        = decRuns t n dst fuel (out + (expandCodewords s.cfg t cur vs).length) (vs.foldl (nextSymbol s.cfg t) cur) { s with
            inp := { s.inp with rd := r' }
            out := { s.out with obuf :=
              s.out.obuf.writeList (dst + out) ((expandCodewords s.cfg t cur vs).map pixelByte) } })
      ∧ Consumes cap s.inp.ibuf s.inp.rd r' (codewordString s.cfg t vs).length ∧ r'.ahead s.inp.ibuf = rest := by
  induction vs generalizing out cur s with
  | nil =>
    obtain ⟨_, h1, h2⟩ := Reads.pure cap s.inp.ibuf () s.inp.rd hw hf List.nil_prefix
    cases h1
    exact ⟨s.inp.rd, fun fuel => by rw [List.length_nil, Nat.zero_add]; rfl, h2, by simpa [codewordString] using ha⟩
  | cons v vs ih =>
    obtain ⟨hv1, hv2⟩ := hv v (List.mem_cons_self ..)
    have hpos := one_le_codewordPixels (c := s.cfg) (t := t) hv1
    rw [codewordString_cons, List.append_assoc] at ha
    rw [expandCodewords_cons, List.length_append, List.length_replicate] at hn hroom
    obtain ⟨r1, e1, c1, a1⟩ := decRuns_codeword (n := n) (dst := dst) (out := out) hc ht hv1 hv2 cur (by omega) hw hf ha
    obtain ⟨r', h2, c2, a2⟩ := ih (s := { s with
        inp := { s.inp with rd := r1 }
        out := { s.out with obuf :=
          s.out.obuf.writeList (dst + out) (List.replicate (codewordPixels s.cfg t v) (pixelByte cur)) } })
      hc (fun y hy => hv y (List.mem_cons_of_mem _ hy)) (out := out + codewordPixels s.cfg t v)
      (cur := nextSymbol s.cfg t cur v) (by simp only; omega) (by simp only; omega) c1.wf (c1.fed hf) a1
    refine ⟨r', fun fuel => ?_, ?_, a2⟩
    · rw [List.length_cons, Nat.add_right_comm, e1]
      simp only [Act.bind_apply]
      rw [require_true (by omega)]
      dsimp only
      rw [putPixels_fits (by simp only; omega)]
      simp only [h2, expandCodewords_cons, List.map_append, List.map_replicate, Memory.writeList_append,
        List.length_append, List.length_replicate, Nat.add_assoc, List.foldl_cons]
    · rw [codewordString_cons, List.length_append]
      exact c1.trans c2

/-- Over the codewords of values whose pixels fill the plane, the decoder's loop writes those pixels and stops (R154). -/
theorem decRuns_reads {s : State} (hc : LegalCodebook s.cfg) {cap t n dst : Nat} (ht : t ≤ 5) {vs : List Nat}
    (hv : ∀ v ∈ vs, 1 ≤ v ∧ v ≤ longestRun s.cfg t) {fuel out : Nat} {cur : Bool} (hfuel : vs.length ≤ fuel)
    (hn : out + (expandCodewords s.cfg t cur vs).length = n) (hroom : dst + n ≤ s.cfg.obufBytes)
    (hw : s.inp.rd.wf cap) (hf : s.inp.rd.Fed s.inp.ibuf) {rest : List Bool}
    (ha : s.inp.rd.ahead s.inp.ibuf = codewordString s.cfg t vs ++ rest) :
    ∃ r', decRuns t n dst fuel out cur s = .ok () { s with
        inp := { s.inp with rd := r' }
        out := { s.out with obuf :=
          s.out.obuf.writeList (dst + out) ((expandCodewords s.cfg t cur vs).map pixelByte) } }
      ∧ Consumes cap s.inp.ibuf s.inp.rd r' (codewordString s.cfg t vs).length ∧ r'.ahead s.inp.ibuf = rest := by
  obtain ⟨r', h, c, a⟩ := decRuns_skip (dst := dst) hc ht hv (Nat.le_of_eq hn) (by omega) hw hf ha
  obtain ⟨k, rfl⟩ := Nat.exists_eq_add_of_le hfuel
  refine ⟨r', ?_, c, a⟩
  rw [h k, hn]
  cases k with
  | zero => rfl
  | succ k =>
    rw [decRuns, if_neg (Nat.lt_irrefl n)]
    rfl

end Sys2Proof.Machine
end

