-- ==== Sys2Proof/Laws/HufCodec.lean ====
section
/-! SUPPORT. What the operations of the Huffman codec do (spec/44_huffman_codec.md R231 to R236), said once: writing
codes and entries, reading a header, following the bits of a prefix-free table or past it, and the checks of a table. -/

namespace Sys2Proof.Machine

/-! ## Encoder -/

/-- An entry found is one of the table, with the symbol asked for. -/
theorem entryOf_eq_some {es : List Entry} {x : Sym} {e : Entry} (h : entryOf es x = some e) : e ∈ es ∧ e.sym = x := by
  unfold entryOf at h
  exact ⟨List.mem_of_find?_eq_some h, by simpa using List.find?_some h⟩

/-- A symbol of the table has an entry. -/
theorem exists_entryOf {es : List Entry} {x : Sym} (h : x ∈ es.map Entry.sym) : ∃ e, entryOf es x = some e := by
  obtain ⟨e, he, hx⟩ := List.mem_map.mp h
  cases hf : entryOf es x with
  | some f => exact ⟨f, rfl⟩
  | none =>
    unfold entryOf at hf
    have := List.find?_eq_none.mp hf e he
    simp [hx] at this

/-- Writing a symbol writes its code (R233). -/
theorem wrSymbol_writes (cap : Nat) {es : List Entry} (h : ∀ e ∈ es, e.len ≤ maxCodeLen) (x : Sym) :
    Writes cap (wrSymbol cap es x) (symbolString es x) () := by
  unfold wrSymbol symbolString
  cases hf : entryOf es x with
  | none => exact Writes.pure cap ()
  | some e => exact wrLong_writes cap e.code (h e (entryOf_eq_some hf).1)

/-- Writing symbols writes their codes in order (R233). -/
theorem wrSymbols_writes (cap : Nat) {es : List Entry} (h : ∀ e ∈ es, e.len ≤ maxCodeLen) (xs : List Nat) :
    Writes cap (wrSymbols cap es xs) ((xs.map fun x => symbolString es (.ord x)).flatten) () := by
  induction xs with
  | nil => exact Writes.pure cap ()
  | cons x xs ih =>
    exact (wrSymbol_writes cap h (.ord x)).bind (f := fun _ => wrSymbols cap es xs) ih

/-- Writing the entries writes symbol and length of each ordinary one in table order (R231). -/
theorem wrEntries_writes (cap : Nat) {sw lw : Nat} (hs : sw ≤ 32) (hl : lw ≤ 32) (es : List Entry) :
    Writes cap (wrEntries cap sw lw es)
      ((es.filter fun e => decide (e.sym ≠ .sent)).map fun e => natBits sw e.sym.value ++ natBits lw e.len).flatten
      () := by
  induction es with
  | nil => exact Writes.pure cap ()
  | cons e es ih =>
    unfold wrEntries
    by_cases he : e.sym = .sent
    · simp only [he, ne_eq, not_true_eq_false, if_false]
      have := (Writes.pure cap ()).bind (f := fun _ => wrEntries cap sw lw es) ih
      rw [List.filter_cons_of_neg (by simpa using he)]
      simpa using this
    · have h1 := wrBits_writes cap (BitVec.ofNat 32 e.sym.value) hs
      have h2 := wrBits_writes cap (BitVec.ofNat 32 e.len) hl
      rw [natBits_ofNat hs] at h1
      rw [natBits_ofNat hl] at h2
      rw [List.filter_cons_of_pos (by simpa using he), List.map_cons, List.flatten_cons]
      simp only [ne_eq, he, not_false_eq_true, if_true]
      rw [List.append_assoc]
      exact h1.bind (h2.bind ih)

theorem fieldWidth_le (b : Bool) : fieldWidth b ≤ 32 := by cases b <;> decide

/-- A field that is written or not. -/
theorem ite_writes (cap : Nat) {p : Prop} [Decidable p] {x : Act OutPort Unit} {bs : List Bool} (h : Writes cap x bs ()) :
    Writes cap (if p then x else pure ()) (if p then bs else []) () := by
  split
  · exact h
  · exact Writes.pure cap ()

/-- The header's writes (R231). -/
def wrHeader (cap : Nat) (h : Huffman) (w : Bool) : Act OutPort Unit := do
  let f := encoderFlags h w
  wrBits cap (BitVec.ofNat 32 f.value) 8
  (if h.trailp = true then wrBits cap (h.trailb.setWidth 32) 8 else pure () : Act OutPort Unit)
  (if 0 < h.k - 1 then wrBits cap (BitVec.ofNat 32 (h.k - 1 - 1)) (fieldWidth f.longCount) else pure () : Act OutPort Unit)
  wrBits cap (BitVec.ofNat 32 (sentIndex h.ctab)) 32
  wrBits cap (BitVec.ofNat 32 (((entryOf h.ctab .sent).map Entry.len).getD 0)) (fieldWidth f.longLen)
  wrEntries cap (fieldWidth w) (fieldWidth f.longLen) h.ctab

/-- The header's bits (R231). -/
theorem wrHeader_writes (cap : Nat) {h : Huffman} (w : Bool) (hk : h.k = h.ctab.length) :
    Writes cap (wrHeader cap h w) (headerString (encoderFlags h w) h.trailb h.ctab) () := by
  have hw := fieldWidth_le (encoderFlags h w).longCount
  have hl := fieldWidth_le (encoderFlags h w).longLen
  have h1 := wrBits_writes cap (BitVec.ofNat 32 (encoderFlags h w).value) (n := 8) (by decide)
  have h2 := ite_writes cap (p := h.trailp = true) (wrBits_writes cap (h.trailb.setWidth 32) (n := 8) (by decide))
  have h3 := ite_writes cap (p := 0 < h.k - 1) (wrBits_writes cap (BitVec.ofNat 32 (h.k - 1 - 1)) hw)
  have h4 := wrBits_writes cap (BitVec.ofNat 32 (sentIndex h.ctab)) (n := 32) (by decide)
  have h5 := wrBits_writes cap (BitVec.ofNat 32 (((entryOf h.ctab .sent).map Entry.len).getD 0)) hl
  have h6 := wrEntries_writes cap (fieldWidth_le w) hl h.ctab
  rw [natBits_ofNat (by decide)] at h1 h4
  rw [natBits_ofNat hw] at h3
  rw [natBits_ofNat hl] at h5
  have e2 : natBits 8 (h.trailb.setWidth 32).toNat = natBits 8 h.trailb.toNat := by
    refine natBits_congr ?_
    simp
  rw [e2] at h2
  have := h1.bind (f := fun _ => _) (h2.bind (f := fun _ => _) (h3.bind (f := fun _ => _)
    (h4.bind (f := fun _ => _) (h5.bind (f := fun _ => _) h6))))
  unfold wrHeader headerString
  have e3 : (0 < h.k - 1) = (1 < h.ctab.length) := by rw [hk]; exact propext (by omega)
  have e4 : h.ctab.length - 2 = h.k - 1 - 1 := by omega
  simp only [List.append_assoc, e4]
  simp only [e3] at this ⊢
  exact this

/-- The stream of a canonical table: initialisation, header, payload, terminator, padding (R231, R233, R237). -/
theorem wrStream_eq (cap dst : Nat) (h : Huffman) (w : Bool) (xs : List Nat) :
    wrStream cap dst h w xs = (do
      wrInit dst .byte
      wrHeader cap h w
      wrSymbols cap h.ctab xs
      wrSymbol cap h.ctab .sent
      wrFinish cap) := by
  unfold wrStream wrHeader
  by_cases h1 : h.trailp = true <;> by_cases h2 : 0 < h.k - 1 <;> simp [h1, h2, bind_assoc]

/-! ## Decoder -/

/-- Reading entries reads symbol and length of each (R234). -/
theorem rdEntries_reads (cap : Nat) (ibuf : Memory) {sw lw : Nat} (hs : sw ≤ 32) (hl : lw ≤ 32) (es : List (Nat × Nat))
    (h : ∀ e ∈ es, e.1 < 2 ^ sw ∧ e.2 < 2 ^ lw) :
    Reads cap ibuf (rdEntries ibuf sw lw es.length)
      ((es.map fun e => natBits sw e.1 ++ natBits lw e.2).flatten)
      (es.map fun e => { sym := .ord e.1, len := e.2, code := 0 }) := by
  induction es with
  | nil => exact Reads.pure cap ibuf []
  | cons e es ih =>
    obtain ⟨h1, h2⟩ := h e (List.mem_cons_self ..)
    have r1 := rdBits_reads cap ibuf hs e.1
    have r2 := rdBits_reads cap ibuf hl e.2
    rw [Nat.mod_eq_of_lt h1] at r1
    rw [Nat.mod_eq_of_lt h2] at r2
    have r3 := (ih fun x hx => h x (List.mem_cons_of_mem _ hx)).bind
      (f := fun es => (pure ({ sym := .ord e.1, len := e.2, code := 0 } :: es) : Act Reader (List Entry)))
      (Reads.pure cap ibuf _)
    rw [List.append_nil] at r3
    simp only [List.map_cons, List.flatten_cons, List.append_assoc, List.length_cons]
    exact r1.bind (r2.bind r3)

/-! ## The trie -/

/-- The path `bs` leads to a leaf of symbol `s`. -/
inductive Trie.Has (s : Sym) : Trie → List Bool → Prop
  | here : Trie.Has s (.leaf s) []
  | left {l : Trie} {bs : List Bool} (r : Trie) (h : Trie.Has s l bs) : Trie.Has s (.node l r) (false :: bs)
  | right {r : Trie} {bs : List Bool} (l : Trie) (h : Trie.Has s r bs) : Trie.Has s (.node l r) (true :: bs)

/-- A new leaf is found at the end of its path, where no leaf stands on the way. -/
theorem Trie.has_insert (s : Sym) {t : Trie} {bs : List Bool} (h : ∀ x cs, t.Has x cs → cs <+: bs → cs = bs) :
    (Trie.insert s bs t).Has s bs := by
  induction bs generalizing t with
  | nil => exact .here
  | cons b bs ih =>
    cases t with
    | missing =>
      have := ih (t := .missing) fun x cs hx => by cases hx
      cases b
      · exact .left _ this
      · exact .right _ this
    | leaf x => exact absurd (h x [] .here (List.nil_prefix)) (by simp)
    | node l r =>
      cases b
      · refine .left _ (ih fun x cs hx hp => ?_)
        have := h x (false :: cs) (.left _ hx) (List.cons_prefix_cons.mpr ⟨rfl, hp⟩)
        simpa using this
      · refine .right _ (ih fun x cs hx hp => ?_)
        have := h x (true :: cs) (.right _ hx) (List.cons_prefix_cons.mpr ⟨rfl, hp⟩)
        simpa using this

/-- A new leaf leaves every other path alone, unless it stands on that path. -/
theorem Trie.has_insert_of_has {s x : Sym} {t : Trie} {bs cs : List Bool} (h : t.Has x cs) (hp : ¬ bs <+: cs) :
    (Trie.insert s bs t).Has x cs := by
  induction h generalizing bs with
  | here =>
    cases bs with
    | nil => exact absurd List.nil_prefix hp
    | cons b bs =>
      cases b <;> exact .here
  | left r h ih =>
    cases bs with
    | nil => exact absurd List.nil_prefix hp
    | cons b bs =>
      cases b
      · exact .left _ (ih fun hx => hp (List.cons_prefix_cons.mpr ⟨rfl, hx⟩))
      · exact .left _ h
  | right l h ih =>
    cases bs with
    | nil => exact absurd List.nil_prefix hp
    | cons b bs =>
      cases b
      · exact .right _ h
      · exact .right _ (ih fun hx => hp (List.cons_prefix_cons.mpr ⟨rfl, hx⟩))

/-- A leaf of a trie after an insertion is the new one or an old one. -/
theorem Trie.has_of_has_insert {s x : Sym} {t : Trie} {bs cs : List Bool} (h : (Trie.insert s bs t).Has x cs) :
    cs = bs ∨ t.Has x cs := by
  induction bs generalizing t cs with
  | nil =>
    cases h
    exact .inl rfl
  | cons b bs ih =>
    cases t with
    | missing =>
      cases b
      · cases h with
        | left _ h => rcases ih h with rfl | h <;> [exact .inl rfl; cases h]
        | right _ h => cases h
      · cases h with
        | right _ h => rcases ih h with rfl | h <;> [exact .inl rfl; cases h]
        | left _ h => cases h
    | leaf y => cases b <;> exact .inr h
    | node l r =>
      cases b
      · cases h with
        | left _ h => rcases ih h with rfl | h <;> [exact .inl rfl; exact .inr (.left _ h)]
        | right _ h => exact .inr (.right _ h)
      · cases h with
        | right _ h => rcases ih h with rfl | h <;> [exact .inl rfl; exact .inr (.right _ h)]
        | left _ h => exact .inr (.left _ h)

theorem trie_foldl {es : List Entry} {t : Trie} (hp : PrefixFree es)
    (ht : ∀ e ∈ es, ∀ x cs, t.Has x cs → ¬ cs <+: e.bits ∧ ¬ e.bits <+: cs) :
    (∀ e ∈ es, (es.foldl (fun t e => Trie.insert e.sym (codeBits e.len e.code) t) t).Has e.sym e.bits)
      ∧ ∀ x cs, t.Has x cs → (es.foldl (fun t e => Trie.insert e.sym (codeBits e.len e.code) t) t).Has x cs := by
  induction es generalizing t with
  | nil => exact ⟨by simp, fun _ _ h => h⟩
  | cons e es ih =>
    obtain ⟨hpe, hpes⟩ := List.pairwise_cons.mp hp
    have hnew : (Trie.insert e.sym e.bits t).Has e.sym e.bits :=
      Trie.has_insert e.sym fun x cs hx hc => absurd hc (ht e (List.mem_cons_self ..) x cs hx).1
    obtain ⟨h1, h2⟩ := ih (t := Trie.insert e.sym e.bits t) hpes fun f hf x cs hx => by
      rcases Trie.has_of_has_insert hx with rfl | hx
      · exact hpe f hf
      · exact ht f (List.mem_cons_of_mem _ hf) x cs hx
    refine ⟨fun f hf => ?_, fun x cs hx => ?_⟩
    · rcases List.mem_cons.mp hf with rfl | hf
      · exact h2 _ _ hnew
      · exact h1 f hf
    · exact h2 x cs (Trie.has_insert_of_has hx (ht e (List.mem_cons_self ..) x cs hx).2)

/-- The trie of a prefix-free table leads each code to its symbol (R235). -/
theorem trieOf_has {es : List Entry} (hp : PrefixFree es) {e : Entry} (he : e ∈ es) : (trieOf es).Has e.sym e.bits :=
  (trie_foldl hp fun _ _ _ _ hx => by cases hx).1 e he

/-- Every leaf of a table's trie stands at the end of an entry's code. -/
theorem has_trieOf {es : List Entry} {x : Sym} {cs : List Bool} (h : (trieOf es).Has x cs) : ∃ e ∈ es, cs = e.bits := by
  have key : ∀ (es : List Entry) (t : Trie),
      (es.foldl (fun t e => Trie.insert e.sym (codeBits e.len e.code) t) t).Has x cs →
      (∃ e ∈ es, cs = e.bits) ∨ t.Has x cs := by
    intro es
    induction es with
    | nil => exact fun t h => .inr h
    | cons e es ih =>
      intro t h
      rcases ih _ h with ⟨f, hf, hx⟩ | h
      · exact .inl ⟨f, List.mem_cons_of_mem _ hf, hx⟩
      · exact (Trie.has_of_has_insert h).imp (fun hx => ⟨e, List.mem_cons_self .., hx⟩) id
  exact (key es .missing h).resolve_right fun h => nomatch h

/-- Every node leads to a leaf. -/
def Trie.Grown : Trie → Prop
  | .missing => True
  | .leaf _ => True
  | .node l r => (l ≠ .missing ∨ r ≠ .missing) ∧ l.Grown ∧ r.Grown

theorem Trie.Grown.exists_has {t : Trie} (h : t.Grown) (hne : t ≠ .missing) : ∃ x cs, t.Has x cs := by
  induction t with
  | missing => exact absurd rfl hne
  | leaf x => exact ⟨x, [], .here⟩
  | node l r ihl ihr =>
    rcases h.1 with hl | hr
    · obtain ⟨x, cs, hx⟩ := ihl h.2.1 hl
      exact ⟨x, _, .left _ hx⟩
    · obtain ⟨x, cs, hx⟩ := ihr h.2.2 hr
      exact ⟨x, _, .right _ hx⟩

theorem Trie.Grown.insert {t : Trie} (h : t.Grown) (s : Sym) (bs : List Bool) :
    (Trie.insert s bs t).Grown ∧ Trie.insert s bs t ≠ .missing := by
  induction bs generalizing t with
  | nil => exact ⟨trivial, fun h => nomatch h⟩
  | cons b bs ih =>
    cases t with
    | missing =>
      have := ih (t := .missing) trivial
      cases b
      · exact ⟨⟨.inl this.2, this.1, trivial⟩, fun h => nomatch h⟩
      · exact ⟨⟨.inr this.2, trivial, this.1⟩, fun h => nomatch h⟩
    | leaf x => cases b <;> exact ⟨trivial, fun h => nomatch h⟩
    | node l r =>
      cases b
      · exact ⟨⟨.inl (ih h.2.1).2, (ih h.2.1).1, h.2.2⟩, fun h => nomatch h⟩
      · exact ⟨⟨.inr (ih h.2.2).2, h.2.1, (ih h.2.2).1⟩, fun h => nomatch h⟩

theorem trieOf_grown (es : List Entry) : (trieOf es).Grown := by
  have key : ∀ (es : List Entry) (t : Trie), t.Grown →
      (es.foldl (fun t e => Trie.insert e.sym (codeBits e.len e.code) t) t).Grown := by
    intro es
    induction es with
    | nil => exact fun t h => h
    | cons e es ih => exact fun t h => ih _ (h.insert _ _).1
  exact key es .missing trivial

/-- Following the input to a leaf reads that leaf's path (R236). -/
theorem descend_reads (cap : Nat) (ibuf : Memory) {t : Trie} {s : Sym} {bs : List Bool} (h : t.Has s bs) (p : Nat) :
    Reads cap ibuf (descend ibuf t p) bs s := by
  have step : ∀ (l r : Trie) (b : Bool) (bs : List Bool) (p : Nat),
      (∀ q, Reads cap ibuf (descend ibuf (if b then r else l) q) bs s) →
      Reads cap ibuf (descend ibuf (.node l r) p) (b :: bs) s := by
    intro l r b bs p ih rd hw hfed hpre
    have hav : 0 < rd.avail := by
      rw [← Reader.ahead_length_avail hw ibuf]
      exact Nat.lt_of_lt_of_le (Nat.succ_pos _) hpre.length_le
    have hb : natBits 1 b.toNat = [b] := by cases b <;> rfl
    have hx := (rdBits_reads cap ibuf (n := 1) (by decide) b.toNat).bind
      (f := fun v => if v = 0 then descend ibuf l rd.bitAddress else descend ibuf r rd.bitAddress) (cs := bs) (b := s)
      (by cases b <;> exact ih rd.bitAddress)
    rw [hb] at hx
    obtain ⟨r', h1, h2⟩ := hx rd hw hfed hpre
    refine ⟨r', ?_, h2⟩
    rw [descend]
    simp only [Act.bind_apply, Act.get_apply, require_true hav]
    simpa only [Act.bind_apply] using h1
  induction h generalizing p with
  | here => exact Reads.pure cap ibuf s
  | left r h ih => exact step _ r false _ p ih
  | right l h ih => exact step l _ true _ p ih

/-- At a node with a bit ahead, the loop consumes it and goes to that child (R236). -/
theorem descend_node {cap : Nat} {ibuf : Memory} (lt rt : Trie) {b : Bool} {rest : List Bool} {r : Reader} (hw : r.wf cap)
    (hf : r.Fed ibuf) (ha : r.ahead ibuf = b :: rest) :
    ∃ r', (∀ p, descend ibuf (.node lt rt) p r = descend ibuf (if b then rt else lt) r.bitAddress r')
      ∧ Consumes cap ibuf r r' 1 ∧ r'.ahead ibuf = rest := by
  have hav : 0 < r.avail := by
    rw [← Reader.ahead_length_avail hw ibuf, ha]
    exact Nat.succ_pos _
  have hb : natBits 1 b.toNat = [b] := by cases b <;> rfl
  have hx := rdBits_reads cap ibuf (n := 1) (by decide) b.toNat
  rw [hb] at hx
  obtain ⟨r', e, c, a, _⟩ := hx.step hw hf (rest := rest) ha
  refine ⟨r', fun p => ?_, c, a⟩
  rw [descend]
  simp only [Act.bind_apply, Act.get_apply, require_true hav, e]
  cases b <;> rfl

/-- Where no path leads to a leaf, following the input fails at the first bit with no child, or at the end of the input
(R236): `k` bits lead to a place inside the trie, and one bit more to none. -/
theorem descend_fails {cap : Nat} {ibuf : Memory} {t : Trie} (hg : t.Grown) {tail : List Bool} {k : Nat}
    (hno : ∀ x cs, t.Has x cs → ¬ cs <+: tail) (hk : k ≤ tail.length) (hin : ∃ x cs, t.Has x cs ∧ tail.take k <+: cs)
    (hout : k < tail.length → ∀ x cs, t.Has x cs → ¬ tail.take (k + 1) <+: cs) (p : Nat) {r : Reader} (hw : r.wf cap)
    (hf : r.Fed ibuf) (ha : r.ahead ibuf = tail) :
    ∃ r', descend ibuf t p r = .error (.raised .corruptStream (r.bitAddress + k)) r'
      ∧ Consumes cap ibuf r r' (min (k + 1) tail.length) := by
  induction t generalizing tail k p r with
  | missing =>
    obtain ⟨_, _, hx, _⟩ := hin
    cases hx
  | leaf x => exact absurd List.nil_prefix (hno _ _ .here)
  | node lt rt ihl ihr =>
    cases tail with
    | nil =>
      have hav : ¬ 0 < r.avail := by
        rw [← Reader.ahead_length_avail hw ibuf, ha]
        exact Nat.lt_irrefl 0
      obtain rfl : k = 0 := Nat.le_zero.mp hk
      obtain ⟨_, h1, h2⟩ := Reads.pure cap ibuf () r hw hf List.nil_prefix
      cases h1
      refine ⟨r, ?_, h2⟩
      rw [descend]
      simp only [Act.bind_apply, Act.get_apply, require_false hav, Nat.add_zero]
    | cons b tail =>
      obtain ⟨r1, e, c1, a1⟩ := descend_node lt rt hw hf ha
      have hchild : ∀ x cs, (if b then rt else lt : Trie).Has x cs → (Trie.node lt rt).Has x (b :: cs) := by
        cases b
        · exact fun _ _ h => .left _ h
        · exact fun _ _ h => .right _ h
      have hinv : ∀ x cs, (Trie.node lt rt).Has x (b :: cs) → (if b then rt else lt : Trie).Has x cs := by
        intro x cs h
        cases h <;> assumption
      have hgc : (if b then rt else lt : Trie).Grown := by
        cases b
        · exact hg.2.1
        · exact hg.2.2
      have hih : (if b then rt else lt : Trie) = lt ∨ (if b then rt else lt : Trie) = rt := by cases b <;> simp
      generalize (if b then rt else lt : Trie) = child at e hchild hinv hgc hih
      rw [e]
      cases k with
      | zero =>
        obtain rfl : child = .missing := by
          by_contra hne
          obtain ⟨x, cs, hx⟩ := hgc.exists_has hne
          exact hout (Nat.succ_pos _) x _ (hchild x cs hx) (by simp)
        refine ⟨r1, rfl, ?_⟩
        rwa [show min (0 + 1) (b :: tail).length = 1 by simp]
      | succ k =>
        obtain ⟨x, cs, hx, hp⟩ := hin
        rw [List.take_succ_cons] at hp
        obtain ⟨cs, rfl⟩ : ∃ ds, cs = b :: ds := by
          cases cs with
          | nil => exact absurd (List.prefix_nil.mp hp) (by simp)
          | cons c cs => exact ⟨cs, by rw [(List.cons_prefix_cons.mp hp).1]⟩
        rw [List.cons_prefix_cons] at hp
        have ih : ∃ r', descend ibuf child r.bitAddress r1 = .error (.raised .corruptStream (r1.bitAddress + k)) r'
            ∧ Consumes cap ibuf r1 r' (min (k + 1) tail.length) := by
          have h1 : ∀ x cs, child.Has x cs → ¬ cs <+: tail := fun x cs h hp =>
            hno x _ (hchild x cs h) (List.cons_prefix_cons.mpr ⟨rfl, hp⟩)
          have h2 : k < tail.length → ∀ x cs, child.Has x cs → ¬ tail.take (k + 1) <+: cs := fun hlt x cs h hp =>
            hout (by simpa using hlt) x _ (hchild x cs h) (by
              rw [List.take_succ_cons]
              exact List.cons_prefix_cons.mpr ⟨rfl, hp⟩)
          have h3 : k ≤ tail.length := by simpa using hk
          rcases hih with rfl | rfl
          · exact ihl hgc h1 h3 ⟨x, cs, hinv x cs hx, hp.2⟩ h2 _ c1.wf (c1.fed hf) a1
          · exact ihr hgc h1 h3 ⟨x, cs, hinv x cs hx, hp.2⟩ h2 _ c1.wf (c1.fed hf) a1
        obtain ⟨r', h, c2⟩ := ih
        refine ⟨r', ?_, ?_⟩
        · rw [h, Reader.bitAddress, Reader.bitAddress, c1.base_eq, c1.pos_eq]
          congr 2
          omega
        · have := c1.trans c2
          rwa [show min (k + 1 + 1) (b :: tail).length = 1 + min (k + 1) tail.length by
            rw [List.length_cons]
            omega]

/-! ## The header -/

/-- The header's bits look only at symbols and lengths. -/
theorem headerString_congr (f : StreamFlags) (trail : Byte) {es fs : List Entry}
    (h : es.map (fun e => (e.sym, e.len)) = fs.map fun e => (e.sym, e.len)) :
    headerString f trail es = headerString f trail fs := by
  have key : ∀ es : List Entry, headerString f trail es =
      let ps := es.map fun e => (e.sym, e.len)
      natBits 8 f.value
        ++ (if f.trailing then natBits 8 trail.toNat else [])
        ++ (if 1 < ps.length then natBits (fieldWidth f.longCount) (ps.length - 2) else [])
        ++ natBits 32 (ps.findIdx fun p => decide (p.1 = .sent))
        ++ natBits (fieldWidth f.longLen) (((ps.find? fun p => decide (p.1 = .sent)).map Prod.snd).getD 0)
        ++ ((ps.filter fun p => decide (p.1 ≠ .sent)).map fun p =>
            natBits (fieldWidth f.wide) p.1.value ++ natBits (fieldWidth f.longLen) p.2).flatten := by
    intro es
    simp only [headerString, sentIndex, entryOf, List.length_map, List.findIdx_map, List.find?_map, List.filter_map,
      List.map_map, Option.map_map]
    rfl
  rw [key, key, h]

/-- Where the sentinel stands in a table with one. -/
theorem sentIndex_append {before after : List Entry} {sent : Entry} (hs : sent.sym = .sent)
    (hb : ∀ e ∈ before, e.sym ≠ .sent) : sentIndex (before ++ sent :: after) = before.length := by
  induction before with
  | nil => simp [sentIndex, List.findIdx_cons, hs]
  | cons e es ih =>
    have := ih fun x hx => hb x (List.mem_cons_of_mem _ hx)
    have he := hb e (List.mem_cons_self ..)
    simp only [sentIndex] at this ⊢
    simp [List.findIdx_cons, he, this]

theorem entryOf_sent {before after : List Entry} {sent : Entry} (hs : sent.sym = .sent)
    (hb : ∀ e ∈ before, e.sym ≠ .sent) : entryOf (before ++ sent :: after) .sent = some sent := by
  induction before with
  | nil => simp [entryOf, hs]
  | cons e es ih =>
    have := ih fun x hx => hb x (List.mem_cons_of_mem _ hx)
    have he := hb e (List.mem_cons_self ..)
    simp only [entryOf] at this ⊢
    simp [he, this]

/-- The header's bits of a table with one sentinel (R231). -/
theorem headerString_eq (f : StreamFlags) (trail : Byte) {before after : List Entry} {sent : Entry}
    (hs : sent.sym = .sent) (hb : ∀ e ∈ before ++ after, e.sym ≠ .sent) :
    headerString f trail (before ++ sent :: after)
      = natBits 8 f.value ++ ((if f.trailing then natBits 8 trail.toNat else [])
        ++ ((if before ++ after = [] then [] else natBits (fieldWidth f.longCount) ((before ++ after).length - 1))
        ++ (natBits 32 before.length ++ (natBits (fieldWidth f.longLen) sent.len
        ++ ((before ++ after).map fun e =>
            natBits (fieldWidth f.wide) e.sym.value ++ natBits (fieldWidth f.longLen) e.len).flatten)))) := by
  have hb' : ∀ e ∈ before, e.sym ≠ .sent := fun e he => hb e (List.mem_append_left _ he)
  have hf : ((before ++ sent :: after).filter fun e => decide (e.sym ≠ .sent)) = before ++ after := by
    rw [List.filter_append, List.filter_cons_of_neg (by simp [hs]), ← List.filter_append]
    exact List.filter_eq_self.mpr fun e he => decide_eq_true (hb e he)
  have hl : (before ++ sent :: after).length = (before ++ after).length + 1 := by
    simp only [List.length_append, List.length_cons]
    omega
  rw [headerString, sentIndex_append hs hb', entryOf_sent hs hb', hf, hl]
  simp only [List.append_assoc, Option.map_some, Option.getD_some, Nat.lt_add_left_iff_pos]
  have e1 : (before ++ after).length + 1 - 2 = (before ++ after).length - 1 := by omega
  rw [e1]
  by_cases he : before ++ after = []
  · simp only [he, List.length_nil, Nat.lt_irrefl, if_true, if_false]
  · simp only [he, List.length_pos_iff.mpr he, if_true, if_false]

theorem flags_value_lt (f : StreamFlags) : f.value < 16 := by
  obtain ⟨a, b, c, d⟩ := f
  cases a <;> cases b <;> cases c <;> cases d <;> decide

theorem flags_ofNat_value (f : StreamFlags) : StreamFlags.ofNat f.value = f := by
  obtain ⟨a, b, c, d⟩ := f
  cases a <;> cases b <;> cases c <;> cases d <;> rfl

/-- Reading the trailing byte, where the flags announce one (R234). -/
theorem rdTrailing_reads (cap : Nat) (ibuf : Memory) (f : StreamFlags) (trail : Byte) :
    Reads cap ibuf (rdTrailing ibuf f) (if f.trailing then natBits 8 trail.toNat else [])
      (if f.trailing then some trail else none) := by
  unfold rdTrailing
  by_cases hft : f.trailing = true
  · simp only [hft, if_true]
    have h1 := rdBits_reads cap ibuf (n := 8) (by decide) trail.toNat
    rw [Nat.mod_eq_of_lt trail.isLt] at h1
    have := h1.bind (f := fun b => (pure (some (BitVec.ofNat 8 b)) : Act Reader (Option Byte)))
      (Reads.pure cap ibuf (some (BitVec.ofNat 8 trail.toNat)))
    rw [List.append_nil] at this
    simpa using this
  · simp only [hft, Bool.false_eq_true, if_false]
    exact Reads.pure cap ibuf none

/-- No count field where nothing but the sentinel is left (R234). -/
theorem rdCount_none {ibuf : Memory} {f : StreamFlags} {r : Reader} (h : r.avail = 32 + fieldWidth f.longLen) :
    rdCount ibuf f r = .ok 0 r := by
  simp [rdCount, h]

/-- The count field otherwise (R234). -/
theorem rdCount_some {ibuf : Memory} {f : StreamFlags} {r : Reader} (h : r.avail ≠ 32 + fieldWidth f.longLen) :
    rdCount ibuf f r
      = (do let c ← rdBits ibuf (fieldWidth f.longCount); return c + 1 : Act Reader Nat) r := by
  simp [rdCount, h]

theorem head_len_congr {es fs : List Entry}
    (h : es.map (fun e => (e.sym, e.len)) = fs.map fun e => (e.sym, e.len)) :
    (es.head?.map Entry.len).getD 0 = (fs.head?.map Entry.len).getD 0 := by
  have := congrArg (fun l => (l.head?.map Prod.snd).getD 0) h
  simpa [List.head?_map, Function.comp_def] using this

/-- Assigning codes looks only at symbols and lengths. -/
theorem assignCodes_congr {es fs : List Entry}
    (h : es.map (fun e => (e.sym, e.len)) = fs.map fun e => (e.sym, e.len)) : assignCodes es = assignCodes fs := by
  rw [assignCodes, assignCodes, head_len_congr h, assignFrom_congr _ _ h]

theorem tableOkFrom_congr (k prev code : Nat) {es fs : List Entry}
    (h : es.map (fun e => (e.sym, e.len)) = fs.map fun e => (e.sym, e.len)) :
    tableOkFrom k prev code es = tableOkFrom k prev code fs := by
  induction es generalizing prev code fs with
  | nil =>
    cases fs with
    | nil => rfl
    | cons f fs => simp at h
  | cons e es ih =>
    cases fs with
    | nil => simp at h
    | cons f fs =>
      simp only [List.map_cons, List.cons.injEq, Prod.mk.injEq] at h
      rw [tableOkFrom, tableOkFrom, h.1.2, ih _ _ h.2]

/-- The checks of a table look only at symbols and lengths. -/
theorem tableOk_congr {es fs : List Entry}
    (h : es.map (fun e => (e.sym, e.len)) = fs.map fun e => (e.sym, e.len)) : tableOk es = tableOk fs := by
  have hk : es.length = fs.length := by simpa using congrArg List.length h
  rw [tableOk, tableOk, hk, head_len_congr h, tableOkFrom_congr _ _ _ h]

/-- Reading a valid header answers its flags, trailing byte and table (R234). A header with no ordinary entry is
recognised where nothing follows it (R319). -/
theorem rdHeader_reads {cap src : Nat} {ibuf : Memory} {r : Reader} (hw : r.wf cap) (hf : r.Fed ibuf) {f : StreamFlags}
    {trail : Byte} {before after : List Entry} {sent : Entry} {rest : List Bool}
    (hflags : f.trailing = true → f.wide = true) (hs : sent.sym = .sent)
    (hord : ∀ e ∈ before ++ after, ∃ x, e.sym = .ord x ∧ x < 2 ^ fieldWidth f.wide)
    (hlen : ∀ e ∈ before ++ sent :: after, e.len < 2 ^ fieldWidth f.longLen)
    (hcount : (before ++ after).length ≤ 2 ^ fieldWidth f.longCount) (hok : tableOk (before ++ sent :: after) = true)
    (hempty : before ++ after = [] → rest = [])
    (ha : r.ahead ibuf = headerString f trail (before ++ sent :: after) ++ rest) :
    ∃ r', rdHeader src ibuf r = .ok
        { flags := f.value, trailing := if f.trailing then some trail else none
          table := assignCodes (before ++ sent :: after) } r'
      ∧ Consumes cap ibuf r r' (headerString f trail (before ++ sent :: after)).length
      ∧ r'.ahead ibuf = rest := by
  have hne : ∀ e ∈ before ++ after, e.sym ≠ .sent := fun e he => by
    obtain ⟨x, hx, _⟩ := hord e he
    rw [hx]
    exact fun h => nomatch h
  have hlw := fieldWidth_le f.longLen
  have hcw := fieldWidth_le f.longCount
  have hsw := fieldWidth_le f.wide
  have hlw8 : 8 ≤ fieldWidth f.longLen := by cases f.longLen <;> decide
  have hcw8 : 8 ≤ fieldWidth f.longCount := by cases f.longCount <;> decide
  rw [headerString_eq f trail hs hne] at ha ⊢
  -- flags
  have hv := rdBits_reads cap ibuf (n := 8) (by decide) f.value
  rw [Nat.mod_eq_of_lt (by have := flags_value_lt f; omega)] at hv
  simp only [List.append_assoc] at ha
  obtain ⟨r1, e1, c1, a1, w1, f1⟩ := hv.step hw hf ha
  obtain ⟨r2, e2, c2, a2, w2, f2⟩ := (rdTrailing_reads cap ibuf f trail).step w1 f1 a1
  -- count
  have hcnt : ∃ r3, rdCount ibuf f r2 = .ok (before ++ after).length r3
      ∧ Consumes cap ibuf r2 r3 (if before ++ after = [] then [] else natBits (fieldWidth f.longCount)
          ((before ++ after).length - 1)).length
      ∧ r3.ahead ibuf = natBits 32 before.length ++ (natBits (fieldWidth f.longLen) sent.len
        ++ (((before ++ after).map fun e =>
            natBits (fieldWidth f.wide) e.sym.value ++ natBits (fieldWidth f.longLen) e.len).flatten ++ rest))
      ∧ r3.wf cap ∧ r3.Fed ibuf := by
    have hav : (r2.ahead ibuf).length = r2.avail := Reader.ahead_length_avail w2 ibuf
    by_cases he : before ++ after = []
    · rw [he, if_pos rfl, hempty he] at a2
      have havail : r2.avail = 32 + fieldWidth f.longLen := by
        rw [← hav, a2]
        simp
      rw [rdCount_none havail, he, if_pos rfl, hempty he]
      obtain ⟨_, h1, h2⟩ := Reads.pure cap ibuf () r2 w2 f2 List.nil_prefix
      cases h1
      exact ⟨r2, rfl, h2, by simpa using a2, w2, f2⟩
    · have hpos := List.length_pos_iff.mpr he
      rw [if_neg he] at a2
      have havail : r2.avail ≠ 32 + fieldWidth f.longLen := by
        rw [← hav, a2]
        simp only [List.length_append, natBits_length]
        omega
      rw [rdCount_some havail, if_neg he]
      have h1 := rdBits_reads cap ibuf hcw ((before ++ after).length - 1)
      rw [Nat.mod_eq_of_lt (by omega)] at h1
      have h2 := h1.bind (f := fun c => (pure (c + 1) : Act Reader Nat)) (Reads.pure cap ibuf _)
      rw [List.append_nil, Nat.sub_add_cancel hpos] at h2
      exact h2.step w2 f2 a2
  obtain ⟨r3, e3, c3, a3, w3, f3⟩ := hcnt
  -- sentinel
  have hblt : before.length < 2 ^ 32 := by
    have : (before ++ after).length = before.length + after.length := List.length_append
    have h16 : 2 ^ fieldWidth f.longCount ≤ 2 ^ 16 := by cases f.longCount <;> decide
    omega
  have hsi := rdBits_reads cap ibuf (n := 32) (by decide) before.length
  rw [Nat.mod_eq_of_lt hblt] at hsi
  obtain ⟨r4, e4, c4, a4, w4, f4⟩ := hsi.step w3 f3 a3
  have hsl := rdBits_reads cap ibuf hlw sent.len
  rw [Nat.mod_eq_of_lt (hlen sent (by simp))] at hsl
  obtain ⟨r5, e5, c5, a5, w5, f5⟩ := hsl.step w4 f4 a4
  -- entries
  have hes := rdEntries_reads cap ibuf hsw hlw ((before ++ after).map fun e => (e.sym.value, e.len)) (by
    intro p hp
    obtain ⟨e, he, rfl⟩ := List.mem_map.mp hp
    obtain ⟨x, hx, hlt⟩ := hord e he
    refine ⟨by simpa [hx, Sym.value] using hlt, hlen e ?_⟩
    rcases List.mem_append.mp he with h | h <;> simp [h])
  rw [List.length_map, List.map_map, List.map_map] at hes
  obtain ⟨r6, e6, c6, a6, w6, f6⟩ := hes.step w5 f5 a5
  -- the table
  have htab : (((before ++ after).map
        ((fun e : Nat × Nat => ({ sym := .ord e.1, len := e.2, code := 0 } : Entry)) ∘
          fun e => (e.sym.value, e.len))).insertIdx before.length { sym := .sent, len := sent.len, code := 0 }).map
        (fun e => (e.sym, e.len)) = (before ++ sent :: after).map fun e => (e.sym, e.len) := by
    have hm : ∀ es : List Entry, (∀ e ∈ es, ∃ x, e.sym = .ord x) →
        (es.map ((fun e : Nat × Nat => ({ sym := .ord e.1, len := e.2, code := 0 } : Entry)) ∘
          fun e => (e.sym.value, e.len))).map (fun e => (e.sym, e.len)) = es.map fun e => (e.sym, e.len) := by
      intro es hes
      rw [List.map_map]
      refine List.map_congr_left fun e he => ?_
      obtain ⟨x, hx⟩ := hes e he
      simp [hx, Sym.value]
    have hi : ∀ (as bs : List Entry) (z : Entry), (as ++ bs).insertIdx as.length z = as ++ z :: bs := by
      intro as bs z
      induction as with
      | nil => rfl
      | cons a as ih => simp [ih]
    have hbm := hm before fun e he => (hord e (List.mem_append_left _ he)).imp fun _ h => h.1
    have ham := hm after fun e he => (hord e (List.mem_append_right _ he)).imp fun _ h => h.1
    rw [List.map_append]
    conv_lhs =>
      rw [← List.length_map (as := before) ((fun e : Nat × Nat => ({ sym := .ord e.1, len := e.2, code := 0 } : Entry)) ∘
          fun e => (e.sym.value, e.len))]
    rw [hi, List.map_append, List.map_cons, hbm, ham, List.map_append, List.map_cons, hs]
  have ht1 := tableOk_congr htab
  have ht2 := assignCodes_congr htab
  refine ⟨r6, ?_, ?_, a6⟩
  · rw [rdHeader]
    simp only [Act.bind_apply, e1, flags_ofNat_value]
    rw [require_true ⟨flags_value_lt f, hflags⟩]
    simp only [e2, e3, Act.get_apply, e4, e5]
    rw [require_true (by rw [List.length_append]; omega)]
    simp only [e6]
    rw [require_true (by rw [ht1]; exact hok)]
    simp only [Act.pure_apply, ht2]
  · have := (((((c1.trans c2).trans c3).trans c4).trans c5).trans c6)
    simp only [List.length_append, Nat.add_assoc] at this ⊢
    exact this

/-! ## The payload -/

/-- In a prefix-free table, following the input reads the code of a symbol (R235, R236). -/
theorem descend_symbol_reads (cap : Nat) (ibuf : Memory) {es : List Entry} (hp : PrefixFree es) {x : Sym}
    (hx : x ∈ es.map Entry.sym) (p : Nat) : Reads cap ibuf (descend ibuf (trieOf es) p) (symbolString es x) x := by
  obtain ⟨e, he⟩ := exists_entryOf hx
  obtain ⟨hmem, hsym⟩ := entryOf_eq_some he
  have := descend_reads cap ibuf (trieOf_has hp hmem) p
  rw [hsym] at this
  simpa [symbolString, he] using this

theorem symbolBytes_length_pos (wide : Bool) (v : Nat) : 0 < (symbolBytes wide v).length := by
  cases wide <;> simp [symbolBytes]

/-- In a prefix-free table, following the input reads the code of an entry (R235, R236). -/
theorem descend_entry_reads (cap : Nat) (ibuf : Memory) {es : List Entry} (hp : PrefixFree es) {e : Entry} (he : e ∈ es)
    (p : Nat) : Reads cap ibuf (descend ibuf (trieOf es) p) e.bits e.sym :=
  descend_reads cap ibuf (trieOf_has hp he) p

/-- One turn of the walk with the code of an ordinary entry ahead: it writes the symbol's bytes and goes on (R236). -/
theorem walkSymbols_entry {cap : Nat} {es : List Entry} (hp : PrefixFree es) (wide : Bool) {e : Entry} (he : e ∈ es)
    (hx : e.sym ≠ .sent) {s : State} (hw : s.inp.rd.wf cap) (hf : s.inp.rd.Fed s.inp.ibuf) {rest : List Bool}
    (ha : s.inp.rd.ahead s.inp.ibuf = e.bits ++ rest) :
    ∃ r, (∀ fuel o, walkSymbols (trieOf es) wide (fuel + 1) o s = (do
          putBytes o (symbolBytes wide e.sym.value)
          walkSymbols (trieOf es) wide fuel (o + (symbolBytes wide e.sym.value).length) : Act State Nat)
        { s with inp := { s.inp with rd := r } })
      ∧ Consumes cap s.inp.ibuf s.inp.rd r e.bits.length ∧ r.ahead s.inp.ibuf = rest := by
  obtain ⟨r, h, c, a, _⟩ := (descend_entry_reads cap s.inp.ibuf hp he s.inp.rd.bitAddress).step hw hf ha
  refine ⟨r, fun fuel o => ?_, c, a⟩
  rw [walkSymbols]
  simp only [Act.bind_apply, Act.get_apply, onReader_apply, h]
  cases hs : e.sym with
  | sent => exact absurd hs hx
  | ord v => simp only [Act.bind_apply, Sym.value]

/-- One turn of the walk with the sentinel's code ahead: it stops (R236). -/
theorem walkSymbols_sentinel {cap : Nat} {es : List Entry} (hp : PrefixFree es) (wide : Bool) {e : Entry} (he : e ∈ es)
    (hx : e.sym = .sent) {s : State} (hw : s.inp.rd.wf cap) (hf : s.inp.rd.Fed s.inp.ibuf) {rest : List Bool}
    (ha : s.inp.rd.ahead s.inp.ibuf = e.bits ++ rest) :
    ∃ r, (∀ fuel o, walkSymbols (trieOf es) wide (fuel + 1) o s = .ok o { s with inp := { s.inp with rd := r } })
      ∧ Consumes cap s.inp.ibuf s.inp.rd r e.bits.length ∧ r.ahead s.inp.ibuf = rest := by
  obtain ⟨r, h, c, a, _⟩ := (descend_entry_reads cap s.inp.ibuf hp he s.inp.rd.bitAddress).step hw hf ha
  refine ⟨r, fun fuel o => ?_, c, a⟩
  rw [walkSymbols]
  simp only [Act.bind_apply, Act.get_apply, onReader_apply, h, hx, Act.pure_apply]

theorem entryBytes_cons (wide : Bool) (e : Entry) (es : List Entry) :
    entryBytes wide (e :: es) = symbolBytes wide e.sym.value ++ entryBytes wide es := rfl

theorem codeString_cons (e : Entry) (es : List Entry) : codeString (e :: es) = e.bits ++ codeString es := rfl

theorem symbolBytes_length (wide : Bool) (v : Nat) : (symbolBytes wide v).length = symbolWidth wide := by
  cases wide <;> rfl

theorem entryBytes_length (wide : Bool) (es : List Entry) :
    (entryBytes wide es).length = symbolWidth wide * es.length := by
  induction es with
  | nil => simp [entryBytes]
  | cons e es ih =>
    rw [entryBytes_cons, List.length_append, symbolBytes_length, ih, List.length_cons, Nat.mul_succ, Nat.add_comm]

/-- The codes of ordinary entries ahead whose bytes fit OBUF: the walk writes those bytes and goes on after them
(R236). -/
theorem walkSymbols_skip {cap : Nat} {es : List Entry} (hp : PrefixFree es) (wide : Bool) {ys : List Entry}
    (hys : ∀ e ∈ ys, e ∈ es ∧ e.sym ≠ .sent) {o : Nat} {s : State} (hw : s.inp.rd.wf cap)
    (hf : s.inp.rd.Fed s.inp.ibuf) {rest : List Bool} (ha : s.inp.rd.ahead s.inp.ibuf = codeString ys ++ rest)
    (hroom : ys = [] ∨ o + (entryBytes wide ys).length ≤ s.cfg.obufBytes) :
    ∃ r', (∀ fuel, walkSymbols (trieOf es) wide (ys.length + fuel) o s
        = walkSymbols (trieOf es) wide fuel (o + (entryBytes wide ys).length) { s with
            inp := { s.inp with rd := r' }
            out := { s.out with obuf := s.out.obuf.writeList o (entryBytes wide ys) } })
      ∧ Consumes cap s.inp.ibuf s.inp.rd r' (codeString ys).length ∧ r'.ahead s.inp.ibuf = rest := by
  induction ys generalizing o s with
  | nil =>
    obtain ⟨_, h1, h2⟩ := Reads.pure cap s.inp.ibuf () s.inp.rd hw hf List.nil_prefix
    cases h1
    exact ⟨s.inp.rd, fun fuel => by rw [List.length_nil, Nat.zero_add]; rfl, h2, by simpa [codeString] using ha⟩
  | cons y ys ih =>
    obtain ⟨hy, hns⟩ := hys y (List.mem_cons_self ..)
    have hroom := hroom.resolve_left (by simp)
    rw [codeString_cons, List.append_assoc] at ha
    rw [entryBytes_cons, List.length_append] at hroom
    obtain ⟨r1, e1, c1, a1⟩ := walkSymbols_entry hp wide hy hns hw hf ha
    obtain ⟨r', h2, c2, a2⟩ := ih (o := o + (symbolBytes wide y.sym.value).length)
      (s := { s with
        inp := { s.inp with rd := r1 }
        out := { s.out with obuf := s.out.obuf.writeList o (symbolBytes wide y.sym.value) } })
      (fun z hz => hys z (List.mem_cons_of_mem _ hz)) c1.wf (c1.fed hf) a1 (.inr (by simp only; omega))
    refine ⟨r', fun fuel => ?_, ?_, a2⟩
    · rw [List.length_cons, Nat.add_right_comm, e1]
      simp only [Act.bind_apply, putBytes_apply]
      rw [if_pos (by omega)]
      simp only [h2, entryBytes_cons, List.length_append, Memory.writeList_append, Nat.add_assoc]
    · rw [codeString_cons, List.length_append]
      exact c1.trans c2

/-- The walk stops where no code of the table is ahead, at the first bit with no child or at the end of the input
(R236). -/
theorem walkSymbols_fails {cap : Nat} {es : List Entry} (hp : PrefixFree es) (wide : Bool) {s : State} {k : Nat}
    (hw : s.inp.rd.wf cap) (hf : s.inp.rd.Fed s.inp.ibuf) (hno : ∀ e ∈ es, ¬ e.bits <+: s.inp.rd.ahead s.inp.ibuf)
    (hk : k ≤ (s.inp.rd.ahead s.inp.ibuf).length) (hin : ∃ e ∈ es, (s.inp.rd.ahead s.inp.ibuf).take k <+: e.bits)
    (hout : k < (s.inp.rd.ahead s.inp.ibuf).length → ∀ e ∈ es, ¬ (s.inp.rd.ahead s.inp.ibuf).take (k + 1) <+: e.bits) :
    ∃ r, (∀ fuel o, walkSymbols (trieOf es) wide (fuel + 1) o s
          = .error (.raised .corruptStream (s.inp.rd.bitAddress + k)) { s with inp := { s.inp with rd := r } })
      ∧ Consumes cap s.inp.ibuf s.inp.rd r (min (k + 1) (s.inp.rd.ahead s.inp.ibuf).length) := by
  obtain ⟨e, he, hpre⟩ := hin
  obtain ⟨r, h, c⟩ := descend_fails (trieOf_grown es)
    (fun x cs hx => by
      obtain ⟨f, hf, rfl⟩ := has_trieOf hx
      exact hno f hf) hk ⟨_, _, trieOf_has hp he, hpre⟩
    (fun hlt x cs hx => by
      obtain ⟨f, hf, rfl⟩ := has_trieOf hx
      exact hout hlt f hf) s.inp.rd.bitAddress hw hf rfl
  refine ⟨r, fun fuel o => ?_, c⟩
  rw [walkSymbols]
  simp only [Act.bind_apply, Act.get_apply, onReader_apply, h]

/-- Symbols of a table as entries of it, with the same codes and bytes. -/
theorem exists_entries {es : List Entry} {xs : List Nat} (h : ∀ x ∈ xs, Sym.ord x ∈ es.map Entry.sym) :
    ∃ ys : List Entry, (∀ e ∈ ys, e ∈ es ∧ e.sym ≠ .sent) ∧ ys.length = xs.length
      ∧ codeString ys = (xs.map fun x => symbolString es (.ord x)).flatten
      ∧ ∀ wide, entryBytes wide ys = (xs.map fun x => symbolBytes wide x).flatten := by
  induction xs with
  | nil => exact ⟨[], by simp, rfl, rfl, fun _ => rfl⟩
  | cons x xs ih =>
    obtain ⟨ys, h1, h2, h3, h4⟩ := ih fun y hy => h y (List.mem_cons_of_mem _ hy)
    obtain ⟨e, he⟩ := exists_entryOf (h x (List.mem_cons_self ..))
    obtain ⟨hmem, hsym⟩ := entryOf_eq_some he
    refine ⟨e :: ys, ?_, by simp [h2], ?_, fun wide => ?_⟩
    · intro f hf
      rcases List.mem_cons.mp hf with rfl | hf
      · exact ⟨hmem, by rw [hsym]; exact fun h => nomatch h⟩
      · exact h1 f hf
    · rw [codeString_cons, h3, List.map_cons, List.flatten_cons, symbolString, he]
      rfl
    · rw [entryBytes_cons, h4, List.map_cons, List.flatten_cons, hsym]
      rfl

/-- Over the codes of symbols and the sentinel's code, the walk writes the symbols' bytes and stops (R236). -/
theorem walkSymbols_reads {cap : Nat} {es : List Entry} (hp : PrefixFree es) (wide : Bool)
    (hsent : Sym.sent ∈ es.map Entry.sym) {xs : List Nat} (hxs : ∀ x ∈ xs, Sym.ord x ∈ es.map Entry.sym)
    {fuel o : Nat} (hfuel : xs.length < fuel) {s : State} (hw : s.inp.rd.wf cap) (hf : s.inp.rd.Fed s.inp.ibuf)
    {rest : List Bool} (ha : s.inp.rd.ahead s.inp.ibuf = payloadString es xs ++ rest)
    (hroom : o + ((xs.map fun x => symbolBytes wide x).flatten).length ≤ s.cfg.obufBytes) :
    ∃ r', walkSymbols (trieOf es) wide fuel o s = .ok (o + ((xs.map fun x => symbolBytes wide x).flatten).length)
        { s with
          inp := { s.inp with rd := r' }
          out := { s.out with obuf := s.out.obuf.writeList o (xs.map fun x => symbolBytes wide x).flatten } }
      ∧ Consumes cap s.inp.ibuf s.inp.rd r' (payloadString es xs).length ∧ r'.ahead s.inp.ibuf = rest := by
  obtain ⟨ys, hys, hl, hcode, hbytes⟩ := exists_entries hxs
  obtain ⟨z, hz⟩ := exists_entryOf hsent
  obtain ⟨hzmem, hzsym⟩ := entryOf_eq_some hz
  have hpay : payloadString es xs = codeString ys ++ z.bits := by
    rw [payloadString, hcode, symbolString, hz]
    rfl
  rw [hpay, List.append_assoc] at ha
  rw [← hbytes wide] at hroom ⊢
  obtain ⟨r1, h1, c1, a1⟩ := walkSymbols_skip hp wide hys hw hf ha (.inr hroom)
  obtain ⟨r', h2, c2, a2⟩ := walkSymbols_sentinel hp wide hzmem hzsym
    (s := { s with
      inp := { s.inp with rd := r1 }
      out := { s.out with obuf := s.out.obuf.writeList o (entryBytes wide ys) } }) c1.wf (c1.fed hf) a1
  obtain ⟨k, rfl⟩ : ∃ k, fuel = ys.length + (k + 1) := ⟨fuel - ys.length - 1, by omega⟩
  refine ⟨r', by rw [h1, h2], ?_, a2⟩
  rw [hpay, List.length_append]
  exact c1.trans c2

/-! ## The checks of a table -/

/-- The checks from a running code (R234): the running code stays below `2^len` as long as the code space it and the
entries still to come take is no more than the whole. -/
theorem tableOkFrom_iff {k prev code : Nat} {es : List Entry} (hp : prev ≤ 64) :
    tableOkFrom k prev code es = true ↔
      (∀ e ∈ es, e.len ≤ 64) ∧ (∀ e ∈ es, prev ≤ e.len) ∧ (es.map Entry.len).Pairwise (· ≤ ·)
        ∧ (1 < k → ∀ e ∈ es, e.len ≠ 0)
        ∧ (es = [] ∨ code * 2 ^ (64 - prev) + (es.map fun e => 2 ^ (64 - e.len)).sum ≤ 2 ^ 64) := by
  induction es generalizing prev code with
  | nil => simp [tableOkFrom]
  | cons e es ih =>
    have hstep : ∀ h : prev ≤ e.len, ∀ h64 : e.len ≤ 64,
        code * 2 ^ (64 - prev) = (code <<< (e.len - prev)) * 2 ^ (64 - e.len) := by
      intro h h64
      rw [Nat.shiftLeft_eq, Nat.mul_assoc, ← Nat.pow_add]
      congr 2
      omega
    have hcheck : ∀ h64 : e.len ≤ 64, ∀ c : Nat, c < 2 ^ e.len ↔ c * 2 ^ (64 - e.len) + 2 ^ (64 - e.len) ≤ 2 ^ 64 := by
      intro h64 c
      have h2 : 2 ^ 64 = 2 ^ e.len * 2 ^ (64 - e.len) := by
        rw [← Nat.pow_add]
        congr 1
        omega
      rw [h2, ← Nat.succ_mul, Nat.mul_le_mul_right_iff (Nat.two_pow_pos _)]
      rfl
    simp only [tableOkFrom, Bool.and_eq_true, decide_eq_true_eq, Bool.not_eq_true', Bool.and_eq_false_iff,
      decide_eq_false_iff_not, List.forall_mem_cons, List.map_cons, List.pairwise_cons, List.sum_cons]
    rw [show maxCodeLen = 64 from rfl]
    constructor
    · rintro ⟨⟨⟨⟨h64, hprev⟩, hz⟩, hc⟩, hrest⟩
      obtain ⟨i1, i2, i3, i4, i5⟩ := (ih h64).mp hrest
      refine ⟨⟨h64, i1⟩, ⟨hprev, fun f hf => hprev.trans (i2 f hf)⟩, ⟨?_, i3⟩, fun h1 => ⟨by omega, i4 h1⟩, .inr ?_⟩
      · intro l hl
        obtain ⟨f, hf, rfl⟩ := List.mem_map.mp hl
        exact i2 f hf
      · rw [hstep hprev h64]
        rcases i5 with rfl | i5
        · simpa using (hcheck h64 _).mp hc
        · rw [Nat.add_mul, Nat.one_mul] at i5
          omega
    · rintro ⟨⟨h64, i1⟩, ⟨hprev, _⟩, ⟨i2, i3⟩, i4, i5⟩
      have i5 := i5.resolve_left (by simp)
      rw [hstep hprev h64] at i5
      refine ⟨⟨⟨⟨h64, hprev⟩, ?_⟩, (hcheck h64 _).mpr (by omega)⟩,
        (ih h64).mpr ⟨i1, fun f hf => i2 _ (List.mem_map_of_mem hf), i3, fun h1 => (i4 h1).2, .inr ?_⟩⟩
      · by_cases h1 : 1 < k
        · exact .inr (i4 h1).1
        · exact .inl h1
      · rw [Nat.add_mul, Nat.one_mul]
        omega

/-- The table checks accept exactly the lengths R234 accepts. -/
theorem tableOk_iff (es : List Entry) : tableOk es = true ↔ LengthsAccepted (es.map Entry.len) := by
  unfold tableOk LengthsAccepted
  cases es with
  | nil => simp [tableOkFrom]
  | cons e es =>
    simp only [List.head?_cons, Option.map_some, Option.getD_some]
    by_cases h64 : e.len ≤ 64
    · rw [tableOkFrom_iff h64]
      simp only [List.length_map, List.forall_mem_map, List.map_map, Function.comp_def, Nat.zero_mul, Nat.zero_add]
      constructor
      · rintro ⟨h1, _, h3, h4, h5⟩
        exact ⟨h1, h3, h4, h5.resolve_left (by simp)⟩
      · rintro ⟨h1, h3, h4, h5⟩
        refine ⟨h1, ?_, h3, h4, .inr h5⟩
        intro f hf
        rcases List.mem_cons.mp hf with rfl | hf
        · exact Nat.le_refl _
        · exact (List.pairwise_cons.mp h3).1 _ (List.mem_map_of_mem hf)
    · constructor
      · intro h
        simp only [tableOkFrom, Bool.and_eq_true, decide_eq_true_eq] at h
        exact absurd h.1.1.1.1 h64
      · rintro ⟨h1, _⟩
        exact absurd (h1 e.len (by simp)) h64

end Sys2Proof.Machine
end

