-- ==== Sys2Proof/Laws/Fetch.lean ====
section
/-! SUPPORT. Input with a byte that nothing has written (spec/20_memory.md R75, notes/assumptions/3.md): what the reader's
actions can do where `a` is the lowest unwritten byte at or above the next byte to fetch. `Below` says it of a reader
action, `InputBelow` and `KeepsBelow` of an action on the whole state; both compose. -/

namespace Sys2Proof.Machine

variable {α β : Type}

/-- The reader's next byte lies at or below `a`, and every byte from it up to `a`, but not `a`, has been written. -/
structure Reader.UpTo (cap a : Nat) (ibuf : Memory) (r : Reader) : Prop where
  wf : r.wf cap
  unwritten : ibuf.read a = none
  le : r.base + r.fetch ≤ a
  written : Written ibuf (r.base + r.fetch) (a - (r.base + r.fetch))

/-- `r'` is still at or below `a`, having fetched no less than `r`. -/
theorem Reader.UpTo.mono {cap a : Nat} {ibuf : Memory} {r r' : Reader} (h : r.UpTo cap a ibuf) (hw : r'.wf cap)
    (hb : r'.base = r.base) (hf : r.fetch ≤ r'.fetch) (hle : r'.base + r'.fetch ≤ a) : r'.UpTo cap a ibuf := by
  refine ⟨hw, h.unwritten, hle, fun i hi => ?_⟩
  have := h.written (r'.fetch - r.fetch + i) (by omega)
  rwa [show r.base + r.fetch + (r'.fetch - r.fetch + i) = r'.base + r'.fetch + i by omega] at this

/-- An action's outcome: a state that meets `R`, with or without error, or a fault that meets `F`. -/
def Ends {σ : Type} (R : σ → Prop) (F : Fault → Prop) : EStateM.Result Stop σ α → Prop
  | .ok _ t => R t
  | .error (.raised _ _) t => R t
  | .error (.stuck f) _ => F f

/-- Outcomes compose: what follows is asked only where the first action answers. -/
theorem Ends.bind {σ : Type} {R : σ → Prop} {F : Fault → Prop} {x : Act σ α} {f : α → Act σ β} {s : σ}
    (hx : Ends R F (x s)) (hf : ∀ v t, x s = .ok v t → R t → Ends R F (f v t)) : Ends R F ((x >>= f) s) := by
  rw [Act.bind_apply]
  cases hr : x s with
  | error e t =>
    rw [hr] at hx
    cases e <;> exact hx
  | ok v t =>
    rw [hr] at hx
    exact hf v t hr hx

/-- The action keeps the reader below `a`, with or without error, or stops at the byte `a`. -/
def Below (cap a : Nat) (ibuf : Memory) (x : Act Reader α) : Prop :=
  ∀ r : Reader, r.UpTo cap a ibuf →
    Ends (fun r' => r'.base = r.base ∧ r'.UpTo cap a ibuf) (· = .unwrittenIbuf a) (x r)

theorem Below.pure (cap a : Nat) (ibuf : Memory) (v : α) : Below cap a ibuf (pure v : Act Reader α) :=
  fun _ h => ⟨rfl, h⟩

theorem Below.get (cap a : Nat) (ibuf : Memory) : Below cap a ibuf (get : Act Reader Reader) := fun _ h => ⟨rfl, h⟩

theorem Below.raiseError (cap a : Nat) (ibuf : Memory) (e : ErrorCode) (pos : Nat) :
    Below cap a ibuf (raiseError e pos : Act Reader α) := fun _ h => ⟨rfl, h⟩

theorem Below.require (cap a : Nat) (ibuf : Memory) (p : Prop) [Decidable p] (e : ErrorCode) (pos : Nat) :
    Below cap a ibuf (require p e pos : Act Reader Unit) := by
  intro r h
  by_cases hp : p
  · rw [require_true hp]
    exact ⟨rfl, h⟩
  · rw [require_false hp]
    exact ⟨rfl, h⟩

theorem Below.bind {cap a : Nat} {ibuf : Memory} {x : Act Reader α} {f : α → Act Reader β} (hx : Below cap a ibuf x)
    (hf : ∀ v, Below cap a ibuf (f v)) : Below cap a ibuf (x >>= f) := by
  intro r h
  refine Ends.bind (hx r h) fun v r1 _ h1 => ?_
  have h2 := hf v r1 h1.2
  rwa [h1.1] at h2

/-- Of the bytes from the next one up to `a`, the first unwritten one is `a`. -/
theorem Reader.UpTo.first {cap a k : Nat} {ibuf : Memory} {r : Reader} (h : r.UpTo cap a ibuf)
    (hw : Written ibuf (r.base + r.fetch) k) (hno : ibuf.read (r.base + r.fetch + k) = none) :
    r.base + r.fetch + k = a := by
  have hle := h.le
  rcases Nat.lt_trichotomy (r.base + r.fetch + k) a with hlt | heq | hgt
  · have := h.written k (by omega)
    rw [hno] at this
    exact absurd this (by simp)
  · exact heq
  · have := hw (a - (r.base + r.fetch)) (by omega)
    rw [show r.base + r.fetch + (a - (r.base + r.fetch)) = a by omega, h.unwritten] at this
    exact absurd this (by simp)

/-- Bytes that have all been written, from the next one, end below `a`. -/
theorem Reader.UpTo.inside {cap a k : Nat} {ibuf : Memory} {r : Reader} (h : r.UpTo cap a ibuf)
    (hw : Written ibuf (r.base + r.fetch) k) : r.base + r.fetch + k ≤ a := by
  have hle := h.le
  by_contra hgt
  have := hw (a - (r.base + r.fetch)) (by omega)
  rw [show r.base + r.fetch + (a - (r.base + r.fetch)) = a by omega, h.unwritten] at this
  exact absurd this (by simp)

theorem refill_below (cap a : Nat) (ibuf : Memory) : Below cap a ibuf (refill ibuf) := by
  intro r h
  rcases refill_cases (ibuf := ibuf) h.wf with ⟨hw, r', hr, hfe, _⟩ | ⟨k, r', _, hw, hno, hr⟩
  · rw [hr]
    have hin := h.inside hw
    have e := hfe.eq
    have hb : r'.base = r.base := by rw [e]
    have hf : r'.fetch = r.fetch + granBits r.gran / 8 * r.unitsToFetch := by rw [e]
    exact ⟨hb, h.mono hfe.wf hb (by omega) (by omega)⟩
  · rw [hr, h.first hw hno]
    exact Eq.refl (Fault.unwrittenIbuf a)

theorem rdBits_below (cap a : Nat) (ibuf : Memory) {n : Nat} (hn : n ≤ 32) : Below cap a ibuf (rdBits ibuf n) := by
  intro r h
  rcases rdBits_cases (ibuf := ibuf) h.wf hn with ⟨hw, r1, hfe, hor⟩ | ⟨k, r', _, hw, hno, hr⟩
  · have hin := h.inside hw
    have e := hfe.eq
    have hb : r1.base = r.base := by rw [e]
    have hf : r1.fetch = r.fetch + granBits r.gran / 8 * r.unitsToFetch := by rw [e]
    have hup := h.mono hfe.wf hb (by omega) (by omega)
    rcases hor with ⟨_, hc, hr⟩ | ⟨_, hr⟩
    · rw [hr]
      exact ⟨hb, hup.mono (consume_buffered hfe.wf hc ibuf).1 rfl (Nat.le_refl _) hup.le⟩
    · rw [hr]
      exact ⟨hb, hup⟩
  · rw [hr, h.first hw hno]
    exact Eq.refl (Fault.unwrittenIbuf a)

theorem rdPeek_below (cap a : Nat) (ibuf : Memory) (n : Nat) : Below cap a ibuf (rdPeek ibuf n) :=
  (refill_below cap a ibuf).bind fun _ => (Below.get cap a ibuf).bind fun _ => Below.pure cap a ibuf _

theorem scanBuckets_below (c : Config) (cap a : Nat) (ibuf : Memory) (is : List Nat) :
    Below cap a ibuf (scanBuckets c ibuf is) := by
  induction is with
  | nil => exact Below.pure cap a ibuf none
  | cons i is ih =>
    refine (Below.get cap a ibuf).bind fun r => ?_
    split
    · refine (rdPeek_below cap a ibuf _).bind fun v => ?_
      split
      · exact Below.pure cap a ibuf _
      · exact ih
    · exact ih

/-- The bucket scan answers one of the buckets it is given. -/
theorem scanBuckets_mem {c : Config} {ibuf : Memory} {is : List Nat} {i : Nat} {r r' : Reader}
    (h : scanBuckets c ibuf is r = .ok (some i) r') : i ∈ is := by
  induction is generalizing r with
  | nil => cases h
  | cons j is ih =>
    simp only [scanBuckets, Act.bind_apply, Act.get_apply] at h
    split at h
    · rw [Act.bind_apply] at h
      cases hp : rdPeek ibuf (prefixBits c j) r with
      | error e r1 => rw [hp] at h; cases h
      | ok v r1 =>
        rw [hp] at h
        dsimp only at h
        split at h
        · cases h
          exact List.mem_cons_self ..
        · exact List.mem_cons_of_mem _ (ih h)
    · exact List.mem_cons_of_mem _ (ih h)

theorem decCw_below {c : Config} (hc : LegalCodebook c) {t : Nat} (ht : t ≤ 5) (cap a : Nat) (ibuf : Memory) :
    Below cap a ibuf (decCw c t ibuf) := by
  have hfound : ∀ found : Option Nat, (∀ i, found = some i → i ≤ 6) → Below cap a ibuf (do
      let r ← get
      match found with
      | some i =>
        require (codewordBits c t i ≤ r.cnt) .unexpectedEof r.bitAddress
        let _ ← rdBits ibuf (prefixBits c i)
        let p ← rdBits ibuf (payloadBits c t i)
        return (minRun c t i + p, i)
      | none =>
        require (longestPrefix c ≤ r.cnt) .unexpectedEof r.bitAddress
        raiseError .corruptStream r.bitAddress : Act Reader (Nat × Nat)) := by
    intro found hf
    refine (Below.get cap a ibuf).bind fun r => ?_
    cases found with
    | none => exact (Below.require cap a ibuf _ _ _).bind fun _ => Below.raiseError cap a ibuf _ _
    | some i =>
      have hi := hf i rfl
      have h32 := hc.codewordBits_le t ht i hi
      rw [codewordBits] at h32
      exact (Below.require cap a ibuf _ _ _).bind fun _ => (rdBits_below cap a ibuf (by omega)).bind fun _ =>
        (rdBits_below cap a ibuf (by omega)).bind fun _ => Below.pure cap a ibuf _
  intro r h
  refine Ends.bind (refill_below cap a ibuf r h) fun _ r1 _ h1 => ?_
  rw [← h1.1]
  refine Ends.bind (scanBuckets_below c cap a ibuf buckets r1 h1.2) fun found r2 hs h2 => ?_
  rw [← h2.1]
  refine hfound found (fun i hi => ?_) r2 h2.2
  subst hi
  exact mem_buckets.mp (scanBuckets_mem hs)

theorem rdEntries_below (cap a : Nat) (ibuf : Memory) {sw lw : Nat} (hs : sw ≤ 32) (hl : lw ≤ 32) (n : Nat) :
    Below cap a ibuf (rdEntries ibuf sw lw n) := by
  induction n with
  | zero => exact Below.pure cap a ibuf []
  | succ n ih =>
    exact (rdBits_below cap a ibuf hs).bind fun _ => (rdBits_below cap a ibuf hl).bind fun _ =>
      ih.bind fun _ => Below.pure cap a ibuf _

theorem rdHeader_below (src cap a : Nat) (ibuf : Memory) : Below cap a ibuf (rdHeader src ibuf) := by
  refine (rdBits_below cap a ibuf (by decide)).bind fun v => (Below.require cap a ibuf _ _ _).bind fun _ => ?_
  refine Below.bind ?_ fun trailing => Below.bind ?_ fun cnt => (Below.get cap a ibuf).bind fun r =>
    (rdBits_below cap a ibuf (by decide)).bind fun si => (rdBits_below cap a ibuf (fieldWidth_le _)).bind fun sl =>
      (Below.require cap a ibuf _ _ _).bind fun _ =>
        (rdEntries_below cap a ibuf (fieldWidth_le _) (fieldWidth_le _) _).bind fun es =>
          (Below.get cap a ibuf).bind fun r => (Below.require cap a ibuf _ _ _).bind fun _ => Below.pure cap a ibuf _
  · unfold rdTrailing
    split
    · exact (rdBits_below cap a ibuf (by decide)).bind fun _ => Below.pure cap a ibuf _
    · exact Below.pure cap a ibuf _
  · refine (Below.get cap a ibuf).bind fun r => ?_
    split
    · exact Below.pure cap a ibuf _
    · exact (rdBits_below cap a ibuf (fieldWidth_le _)).bind fun _ => Below.pure cap a ibuf _

theorem descend_below (cap a : Nat) (ibuf : Memory) (t : Trie) (p : Nat) : Below cap a ibuf (descend ibuf t p) := by
  induction t generalizing p with
  | missing => exact Below.raiseError cap a ibuf _ _
  | leaf s => exact Below.pure cap a ibuf s
  | node l r ihl ihr =>
    refine (Below.get cap a ibuf).bind fun rd => (Below.require cap a ibuf _ _ _).bind fun _ =>
      (rdBits_below cap a ibuf (by decide)).bind fun b => ?_
    split
    · exact ihl _
    · exact ihr _

/-! ## Actions on the whole state -/

/-- The state's reader is at or below `a`. -/
abbrev State.InputBelow (cap a : Nat) (s : State) : Prop := s.inp.rd.UpTo cap a s.inp.ibuf

/-- The action keeps the state's reader below `a`, with or without error, or stops at the byte `a`; it changes no
parameter. -/
def KeepsBelow (cap a : Nat) (x : Act State α) : Prop :=
  ∀ s : State, LegalCodebook s.cfg → s.InputBelow cap a →
    Ends (fun t => t.cfg = s.cfg ∧ t.inp.rd.base = s.inp.rd.base ∧ t.InputBelow cap a) (· = .unwrittenIbuf a) (x s)

theorem KeepsBelow.bind {cap a : Nat} {x : Act State α} {f : α → Act State β} (hx : KeepsBelow cap a x)
    (hf : ∀ v, KeepsBelow cap a (f v)) : KeepsBelow cap a (x >>= f) := by
  intro s hc h
  refine Ends.bind (hx s hc h) fun v t _ h1 => ?_
  have h2 := hf v t (h1.1 ▸ hc) h1.2.2
  rwa [h1.1, h1.2.1] at h2

/-- An action that first reads the state. -/
theorem KeepsBelow.get_bind {cap a : Nat} {f : State → Act State β} (hf : ∀ v, LegalCodebook v.cfg → KeepsBelow cap a (f v)) :
    KeepsBelow cap a (get >>= f) := fun s hc h => hf s hc s hc h

theorem KeepsBelow.pure (cap a : Nat) (v : α) : KeepsBelow cap a (pure v : Act State α) := fun _ _ h => ⟨rfl, rfl, h⟩

theorem KeepsBelow.require (cap a : Nat) (p : Prop) [Decidable p] (e : ErrorCode) (pos : Nat) :
    KeepsBelow cap a (require p e pos : Act State Unit) := by
  intro s hc h
  by_cases hp : p
  · rw [require_true hp]
    exact ⟨rfl, rfl, h⟩
  · rw [require_false hp]
    exact ⟨rfl, rfl, h⟩

theorem KeepsBelow.onReader {cap a : Nat} {x : Memory → Act Reader α} (hx : ∀ ibuf, Below cap a ibuf (x ibuf)) :
    KeepsBelow cap a (onReader x) := by
  intro s hc h
  have h1 := hx s.inp.ibuf s.inp.rd h
  rw [onReader_apply]
  cases hr : x s.inp.ibuf s.inp.rd with
  | ok v r =>
    rw [hr] at h1
    exact ⟨rfl, h1⟩
  | error e r =>
    rw [hr] at h1
    cases e with
    | raised e pos => exact ⟨rfl, h1⟩
    | stuck f => exact h1

theorem KeepsBelow.putBytes (cap a o : Nat) (bs : List Byte) : KeepsBelow cap a (putBytes o bs) := by
  intro s hc h
  rw [putBytes_apply]
  by_cases hp : o + bs.length ≤ s.cfg.obufBytes
  · rw [if_pos hp]
    exact ⟨rfl, rfl, h⟩
  · rw [if_neg hp]
    exact ⟨rfl, rfl, h⟩

theorem KeepsBelow.putPixels (cap a : Nat) (p : Bool) (n o : Nat) : KeepsBelow cap a (putPixels p n o) := by
  induction n generalizing o with
  | zero => exact KeepsBelow.pure cap a ()
  | succ n ih => exact (KeepsBelow.putBytes cap a o _).bind fun _ => ih _

theorem walkSymbols_below (cap a : Nat) (trie : Trie) (wide : Bool) (fuel o : Nat) :
    KeepsBelow cap a (walkSymbols trie wide fuel o) := by
  induction fuel generalizing o with
  | zero => exact KeepsBelow.pure cap a o
  | succ fuel ih =>
    refine KeepsBelow.get_bind fun s _ => (KeepsBelow.onReader fun ibuf => descend_below cap a ibuf trie _).bind fun x => ?_
    cases x with
    | sent => exact KeepsBelow.pure cap a o
    | ord v => exact (KeepsBelow.putBytes cap a o _).bind fun _ => ih _

theorem walk_below (cap a dst : Nat) (trie : Trie) (wide : Bool) (trailing : Option Byte) :
    KeepsBelow cap a (walk dst trie wide trailing) := by
  refine KeepsBelow.get_bind fun s _ => (walkSymbols_below cap a trie wide _ dst).bind fun o => ?_
  cases trailing with
  | none => exact KeepsBelow.pure cap a _
  | some b => exact (KeepsBelow.putBytes cap a o _).bind fun _ => KeepsBelow.pure cap a _

theorem decRuns_below {cap a t n dst : Nat} (ht : t ≤ 5) (fuel out : Nat) (cur : Bool) :
    KeepsBelow cap a (decRuns t n dst fuel out cur) := by
  induction fuel generalizing out cur with
  | zero => exact KeepsBelow.pure cap a ()
  | succ fuel ih =>
    rw [decRuns]
    split
    · exact KeepsBelow.get_bind fun s hc => (KeepsBelow.onReader fun ibuf => decCw_below hc ht cap a ibuf).bind fun v =>
        (KeepsBelow.require cap a _ _ _).bind fun _ => (KeepsBelow.putPixels cap a _ _ _).bind fun _ => ih _ _
    · exact KeepsBelow.pure cap a ()

/-- A command whose body keeps the reader below `a` fetches only below it. -/
theorem complete_fetchesOnlyBelow {cap a base : Nat} {body : Act State Results} {s : State}
    (h : Ends (fun t => t.inp.rd.base = base ∧ t.InputBelow cap a) (· = .unwrittenIbuf a) (body s)) :
    FetchesOnlyBelow base a (complete body s) := by
  rcases complete_cases body s with ⟨r, t, hb, hc⟩ | ⟨e, pos, t, hb, hc⟩ | ⟨f, t, hb, hc⟩ <;> rw [hb] at h <;> rw [hc]
  · refine ⟨fun f hf => (nomatch hf), fun u hu => ?_⟩
    cases hu
    exact h.1 ▸ h.2.le
  · refine ⟨fun f hf => (nomatch hf), fun u hu => ?_⟩
    cases hu
    have := h.2.le
    rw [h.1] at this
    unfold takeError
    split
    · exact this
    · exact this
  · refine ⟨fun g hg => ?_, fun u hu => nomatch hu⟩
    cases hg
    rw [show f = .unwrittenIbuf a from h]

end Sys2Proof.Machine
end

