-- ==== Sys2Proof/Laws/Frame.lean ====
section
/-! SUPPORT. What command bodies can change, whatever they answer: `Moves` relates the state before an action to the one
it ends in, with or without error, and composes; a step is the sequencer's or the host's. -/

namespace Sys2Proof.Machine

variable {σ α β : Type}

/-- The state an action ends in. -/
def Act.endState (x : Act σ α) (s : σ) : σ :=
  match x s with
  | .ok _ t => t
  | .error _ t => t

/-- From every state the action ends, with or without error, in a state related to it. -/
def Moves (R : σ → σ → Prop) (x : Act σ α) : Prop := ∀ s, R s (x.endState s)

theorem Moves.of_ok {R : σ → σ → Prop} {x : Act σ α} (h : Moves R x) {s t : σ} {a : α} (hx : x s = .ok a t) : R s t := by
  have := h s
  rwa [Act.endState, hx] at this

theorem Moves.of_error {R : σ → σ → Prop} {x : Act σ α} (h : Moves R x) {s t : σ} {e : Stop} (hx : x s = .error e t) :
    R s t := by
  have := h s
  rwa [Act.endState, hx] at this

theorem Moves.imp {R S : σ → σ → Prop} {x : Act σ α} (h : Moves R x) (hi : ∀ s t, R s t → S s t) : Moves S x :=
  fun s => hi _ _ (h s)

/-- An action after another moves as the two do, one after the other. -/
theorem Moves.bind {R : σ → σ → Prop} (ht : ∀ a b c, R a b → R b c → R a c) {x : Act σ α} {f : α → Act σ β}
    (hx : Moves R x) (hf : ∀ a, Moves R (f a)) : Moves R (x >>= f) := by
  intro s
  rw [Act.endState, Act.bind_apply]
  cases h : x s with
  | ok a t => exact ht _ _ _ (hx.of_ok h) (hf a t)
  | error e t => exact hx.of_error h

theorem Moves.pure {R : σ → σ → Prop} (hr : ∀ s, R s s) (a : α) : Moves R (pure a : Act σ α) := fun s => hr s

theorem Moves.get {R : σ → σ → Prop} (hr : ∀ s, R s s) : Moves R (get : Act σ σ) := fun s => hr s

theorem Moves.raiseError {R : σ → σ → Prop} (hr : ∀ s, R s s) (e : ErrorCode) (pos : Nat) :
    Moves R (raiseError e pos : Act σ α) := fun s => hr s

theorem Moves.require {R : σ → σ → Prop} (hr : ∀ s, R s s) (p : Prop) [Decidable p] (e : ErrorCode) (pos : Nat) :
    Moves R (require p e pos : Act σ Unit) := by
  intro s
  rw [Act.endState, require_apply]
  split <;> [rename_i h; rename_i h] <;> split at h <;> cases h <;> exact hr s

theorem Moves.ibufByte {R : σ → σ → Prop} (hr : ∀ s, R s s) (ibuf : Memory) (a : Nat) :
    Moves R (ibufByte ibuf a : Act σ Byte) := by
  intro s
  rw [Act.endState, ibufByte_apply]
  cases ibuf.read a <;> exact hr s

theorem Moves.ibufBytes {R : σ → σ → Prop} (hr : ∀ s, R s s) (ibuf : Memory) (a n : Nat) :
    Moves R (ibufBytes ibuf a n : Act σ (List Byte)) := by
  intro s
  rw [Act.endState]
  rcases ibufBytes_cases ibuf a n s with ⟨_, h⟩ | ⟨k, _, _, _, h⟩ <;> rw [h] <;> exact hr s

/-- A writer action moves the writer's part and nothing else. -/
theorem Moves.onOut {R : State → State → Prop} {x : Act OutPort α} (h : ∀ s : State, R s { s with out := x.endState s.out }) :
    Moves R (onOut x) := by
  intro s
  have := h s
  unfold Act.endState at this ⊢
  rw [onOut_apply]
  cases hx : x s.out <;> rw [hx] at this <;> exact this

/-- A reader action moves the reader's part and nothing else. -/
theorem Moves.onReader {R : State → State → Prop} {x : Memory → Act Reader α}
    (h : ∀ s : State, R s { s with inp := { s.inp with rd := (x s.inp.ibuf).endState s.inp.rd } }) :
    Moves R (onReader x) := by
  intro s
  have := h s
  unfold Act.endState at this ⊢
  rw [onReader_apply]
  cases hx : x s.inp.ibuf s.inp.rd <;> rw [hx] at this <;> exact this

/-! ## The frame of a command body -/

/-- A command body changes at most the writer with OBUF, the reader, and the Huffman unit; registers and `STATUS` are
written by the completion (spec/60_exceptions.md R274), IBUF by no command (spec/20_memory.md R61). -/
def BodyFrame (s t : State) : Prop :=
  t = { s with out := t.out, inp := { s.inp with rd := t.inp.rd }, huf := t.huf }

theorem BodyFrame.refl (s : State) : BodyFrame s s := rfl

theorem BodyFrame.trans (a b c : State) (h : BodyFrame a b) (h' : BodyFrame b c) : BodyFrame a c := by
  unfold BodyFrame at *
  rw [h'] at *
  rw [h]

theorem onOut_frame (x : Act OutPort α) : Moves BodyFrame (onOut x) := Moves.onOut fun _ => rfl

theorem onReader_frame (x : Memory → Act Reader α) : Moves BodyFrame (onReader x) := Moves.onReader fun _ => rfl

theorem onHuf_frame (f : Huffman → Huffman) : Moves BodyFrame (onHuf f) := fun _ => rfl

theorem storeBytes_frame (a : Nat) (bs : List Byte) : Moves BodyFrame (storeBytes a bs) := fun _ => rfl

theorem requireIbuf_frame (a n : Nat) : Moves BodyFrame (requireIbuf a n) :=
  (Moves.get BodyFrame.refl).bind BodyFrame.trans fun _ => Moves.require BodyFrame.refl _ _ _

theorem requireObuf_frame (a : Nat) : Moves BodyFrame (requireObuf a) :=
  (Moves.get BodyFrame.refl).bind BodyFrame.trans fun _ => Moves.require BodyFrame.refl _ _ _

theorem putBytes_frame (a : Nat) (bs : List Byte) : Moves BodyFrame (putBytes a bs) := by
  intro s
  rw [Act.endState, putBytes_apply]
  by_cases h : a + bs.length ≤ s.cfg.obufBytes
  · rw [if_pos h]
    rfl
  · rw [if_neg h]
    rfl

theorem putPixels_frame (p : Bool) (n a : Nat) : Moves BodyFrame (putPixels p n a) := by
  induction n generalizing a with
  | zero => exact Moves.pure BodyFrame.refl ()
  | succ n ih => exact (putBytes_frame a _).bind BodyFrame.trans fun _ => ih _

theorem decRuns_frame (t n dst fuel out : Nat) (cur : Bool) : Moves BodyFrame (decRuns t n dst fuel out cur) := by
  induction fuel generalizing out cur with
  | zero => exact Moves.pure BodyFrame.refl ()
  | succ fuel ih =>
    rw [decRuns]
    split
    · exact (Moves.get BodyFrame.refl).bind BodyFrame.trans fun s =>
        (onReader_frame _).bind BodyFrame.trans fun v =>
          (Moves.require BodyFrame.refl _ _ _).bind BodyFrame.trans fun _ =>
            (putPixels_frame _ _ _).bind BodyFrame.trans fun _ => ih _ _
    · exact Moves.pure BodyFrame.refl ()

theorem walkSymbols_frame (trie : Trie) (wide : Bool) (fuel o : Nat) :
    Moves BodyFrame (walkSymbols trie wide fuel o) := by
  induction fuel generalizing o with
  | zero => exact Moves.pure BodyFrame.refl o
  | succ fuel ih =>
    refine (Moves.get BodyFrame.refl).bind BodyFrame.trans fun s => (onReader_frame _).bind BodyFrame.trans fun x => ?_
    cases x with
    | sent => exact Moves.pure BodyFrame.refl o
    | ord v => exact (putBytes_frame _ _).bind BodyFrame.trans fun _ => ih _

theorem walk_frame (dst : Nat) (trie : Trie) (wide : Bool) (trailing : Option Byte) :
    Moves BodyFrame (walk dst trie wide trailing) := by
  refine (Moves.get BodyFrame.refl).bind BodyFrame.trans fun s =>
    (walkSymbols_frame _ _ _ _).bind BodyFrame.trans fun o => ?_
  cases trailing with
  | none => exact Moves.pure BodyFrame.refl _
  | some b => exact (putBytes_frame _ _).bind BodyFrame.trans fun _ => Moves.pure BodyFrame.refl _

theorem histBody_frame (w : Bool) (a n : Nat) : Moves BodyFrame (histBody w a n) :=
  (Moves.get BodyFrame.refl).bind BodyFrame.trans fun _ =>
    (Moves.ibufBytes BodyFrame.refl _ _ _).bind BodyFrame.trans fun _ =>
      (onHuf_frame _).bind BodyFrame.trans fun _ =>
        (Moves.get BodyFrame.refl).bind BodyFrame.trans fun _ => Moves.pure BodyFrame.refl _

theorem requireHist_frame : Moves BodyFrame requireHist :=
  (Moves.get BodyFrame.refl).bind BodyFrame.trans fun _ => Moves.require BodyFrame.refl _ _ _

theorem requireCodes_frame : Moves BodyFrame requireCodes :=
  (Moves.get BodyFrame.refl).bind BodyFrame.trans fun _ => Moves.require BodyFrame.refl _ _ _

theorem treeBody_frame : Moves BodyFrame treeBody :=
  requireHist_frame.bind BodyFrame.trans fun _ => (onHuf_frame _).bind BodyFrame.trans fun _ =>
    (Moves.get BodyFrame.refl).bind BodyFrame.trans fun _ => Moves.pure BodyFrame.refl _

theorem codesBody_frame : Moves BodyFrame codesBody := by
  refine (Moves.get BodyFrame.refl).bind BodyFrame.trans fun s =>
    (Moves.require BodyFrame.refl _ _ _).bind BodyFrame.trans fun _ => ?_
  cases s.huf.tree with
  | none => exact Moves.raiseError BodyFrame.refl _ _
  | some tree =>
    exact (Moves.require BodyFrame.refl _ _ _).bind BodyFrame.trans fun _ =>
      (onHuf_frame _).bind BodyFrame.trans fun _ => Moves.pure BodyFrame.refl _

theorem canonBody_frame : Moves BodyFrame canonBody :=
  requireCodes_frame.bind BodyFrame.trans fun _ => (onHuf_frame _).bind BodyFrame.trans fun _ =>
    (Moves.get BodyFrame.refl).bind BodyFrame.trans fun _ => Moves.pure BodyFrame.refl _

theorem encPlane_frame (t : Nat) : Moves BodyFrame (encPlane t) := by
  refine (Moves.get BodyFrame.refl).bind BodyFrame.trans fun s =>
    (requireIbuf_frame _ _).bind BodyFrame.trans fun _ =>
      (requireObuf_frame _).bind BodyFrame.trans fun _ =>
        (Moves.require BodyFrame.refl _ _ _).bind BodyFrame.trans fun _ => ?_
  have rest : ∀ first : Byte, Moves BodyFrame (do
      storeBytes s.argl2 (planeHeader (pixelOf first) s.planeWidth s.planeHeight t)
      onOut (wrInit (s.argl2 + rleHeaderBytes) .word)
      onOut (encScan s.cfg t s.inp.ibuf (s.planeWidth * s.planeHeight) s.argl0 (pixelOf first) 0)
      let len ← onOut (wrFinish s.cfg.obufBytes)
      storeBytes (s.argl2 + 6) (littleEndianBytes (len / 4) 4)
      return ({ res0 := some (rleHeaderBytes + len), res1 := some (len / 4), res2 := some t } : Results) : Act State Results) := fun first =>
    (storeBytes_frame _ _).bind BodyFrame.trans fun _ => (onOut_frame _).bind BodyFrame.trans fun _ =>
      (onOut_frame _).bind BodyFrame.trans fun _ => (onOut_frame _).bind BodyFrame.trans fun _ =>
        (storeBytes_frame _ _).bind BodyFrame.trans fun _ => Moves.pure BodyFrame.refl _
  split
  · exact (Moves.ibufByte BodyFrame.refl _ _).bind BodyFrame.trans rest
  · exact (Moves.pure BodyFrame.refl _).bind BodyFrame.trans rest

/-! ## A step -/

/-- A step that answers a next state is the sequencer's, with its command's outcome, or the host's next access. -/
theorem step_cases {s t : State} (h : step s = .next t) :
    configLegal s.cfg = true
      ∧ ((sequencerTurn s = true ∧ runCommand s = .next t) ∨ (sequencerTurn s = false ∧ t = hostTurn s)) := by
  unfold step at h
  split at h
  · rename_i hc
    refine ⟨hc, ?_⟩
    split at h
    · rename_i ht
      exact .inl ⟨ht, h⟩
    · rename_i ht
      cases h
      exact .inr ⟨by simpa using ht, rfl⟩
  · cases h

/-- The sequencer's step is the meaning of the decoded command, or the completion with `ILLEGAL_COMMAND`. -/
theorem runCommand_cases (s : State) :
    (∃ i, decode s.latch.cmd = .ok i ∧ runCommand s = exec i s)
    ∨ runCommand s = .next (takeError .illegalCommand 0 s) := by
  unfold runCommand
  cases decode s.latch.cmd with
  | ok i => exact .inl ⟨i, rfl, rfl⟩
  | error e => exact .inr (complete_raised (raiseError_apply ..))

/-- With nothing pending the host rests; otherwise its next access takes effect. -/
theorem hostTurn_cases (s : State) :
    (s.env.pending = [] ∧ hostTurn s = s)
    ∨ ∃ a rest, s.env.pending = a :: rest
        ∧ hostTurn s = hostAccess a { s with env := { s.env with pending := rest, delay := s.env.delay - 1 } } := by
  unfold hostTurn
  cases s.env.pending with
  | nil => exact .inl ⟨rfl, rfl⟩
  | cons a rest => exact .inr ⟨a, rest, rfl, rfl⟩

end Sys2Proof.Machine
end

