-- ==== Sys2Proof/Laws/PerInstr.lean ====
section
/-! SUPPORT. For every command as syntax: the word of a well-formed command matches the row of its mnemonic
(spec/30_encoding.md R83, R84). One lemma per constructor of `Instr`. -/

namespace Sys2Proof.Laws

/-- The word of `i` matches a row of the opcode table that has the mnemonic of `i`. -/
def EncodedRow.Statement (i : Instr) : Prop :=
  i.wellFormed = true → ∃ r ∈ opTable, r.mnemonic = Machine.instrMnemonic i ∧ encode i &&& r.mask = BitVec.ofNat 32 r.op

theorem EncodedRow.nop : EncodedRow.Statement (.nop) := fun _ => by decide

theorem EncodedRow.bwInit (g : Gran) : EncodedRow.Statement (.bwInit g) := by cases g <;> exact fun _ => by decide

theorem EncodedRow.bwWrite (n : Nat) : EncodedRow.Statement (.bwWrite n) := fun h => by
  have h' : n < 64 := of_decide_eq_true h
  exact (by decide : ∀ x < 64, ∃ r ∈ opTable, r.mnemonic = "BW_WRITE" ∧ encode (.bwWrite x) &&& r.mask = BitVec.ofNat 32 r.op) n h'

theorem EncodedRow.bwFinish : EncodedRow.Statement (.bwFinish) := fun _ => by decide

theorem EncodedRow.brInit (g : Gran) : EncodedRow.Statement (.brInit g) := by cases g <;> exact fun _ => by decide

theorem EncodedRow.brRead (n : Nat) : EncodedRow.Statement (.brRead n) := fun h => by
  have h' : n < 64 := of_decide_eq_true h
  exact (by decide : ∀ x < 64, ∃ r ∈ opTable, r.mnemonic = "BR_READ" ∧ encode (.brRead x) &&& r.mask = BitVec.ofNat 32 r.op) n h'

theorem EncodedRow.brRemain : EncodedRow.Statement (.brRemain) := fun _ => by decide

theorem EncodedRow.cbQuery (t b : Nat) : EncodedRow.Statement (.cbQuery t b) := fun h => by
  simp only [Instr.wellFormed, Bool.and_eq_true, decide_eq_true_eq] at h
  exact (by decide : ∀ x < 8, ∀ y < 8, ∃ r ∈ opTable, r.mnemonic = "CB_QUERY" ∧ encode (.cbQuery x y) &&& r.mask = BitVec.ofNat 32 r.op) t h.1 b h.2

theorem EncodedRow.rleEncrun (t : Nat) : EncodedRow.Statement (.rleEncrun t) := fun h => by
  have h' : t < 8 := of_decide_eq_true h
  exact (by decide : ∀ x < 8, ∃ r ∈ opTable, r.mnemonic = "RLE_ENCRUN" ∧ encode (.rleEncrun x) &&& r.mask = BitVec.ofNat 32 r.op) t h'

theorem EncodedRow.rleDecrun (t : Nat) : EncodedRow.Statement (.rleDecrun t) := fun h => by
  have h' : t < 8 := of_decide_eq_true h
  exact (by decide : ∀ x < 8, ∃ r ∈ opTable, r.mnemonic = "RLE_DECRUN" ∧ encode (.rleDecrun x) &&& r.mask = BitVec.ofNat 32 r.op) t h'

theorem EncodedRow.rleEncplane (t : Nat) : EncodedRow.Statement (.rleEncplane t) := fun h => by
  have h' : t < 8 := of_decide_eq_true h
  exact (by decide : ∀ x < 8, ∃ r ∈ opTable, r.mnemonic = "RLE_ENCPLANE" ∧ encode (.rleEncplane x) &&& r.mask = BitVec.ofNat 32 r.op) t h'

theorem EncodedRow.rleDecplane : EncodedRow.Statement (.rleDecplane) := fun _ => by decide

theorem EncodedRow.rleBest : EncodedRow.Statement (.rleBest) := fun _ => by decide

theorem EncodedRow.hufHist (w : Bool) : EncodedRow.Statement (.hufHist w) := by cases w <;> exact fun _ => by decide

theorem EncodedRow.hufHistrd : EncodedRow.Statement (.hufHistrd) := fun _ => by decide

theorem EncodedRow.hufTree : EncodedRow.Statement (.hufTree) := fun _ => by decide

theorem EncodedRow.hufCodes : EncodedRow.Statement (.hufCodes) := fun _ => by decide

theorem EncodedRow.hufCanon : EncodedRow.Statement (.hufCanon) := fun _ => by decide

theorem EncodedRow.hufTabrd : EncodedRow.Statement (.hufTabrd) := fun _ => by decide

theorem EncodedRow.hufEnc (w : Bool) : EncodedRow.Statement (.hufEnc w) := by cases w <;> exact fun _ => by decide

theorem EncodedRow.hufDec : EncodedRow.Statement (.hufDec) := fun _ => by decide

end Sys2Proof.Laws
end

