-- ==== Sys2Proof/Tests/Slice0.lean ====
section
/-! SUPPORT. Tests: ill-formed terms and configurations refused, every constructor's word decoded, one or two steps of
each command with the values of spec/95_test_vectors.md or of the rules' worked examples, the host's accesses, and for
every statement with hypotheses a witness that meets them. -/

set_option Elab.async false

namespace Sys2Proof.Tests.Slice0

open Sys2Proof.Machine

/-! ## Helpers -/

/-- Whether a step answered a next state with a property. -/
def ends (p : State → Bool) : Result → Bool
  | .next t => p t
  | .fault _ => false
  | .refused _ => false

/-- The fault of a step that faults. -/
def faultAt : Result → Option Fault
  | .next _ => none
  | .fault f => some f
  | .refused _ => none

/-- The state after `exec`, when it is a next state; the state itself otherwise. -/
def after (i : Instr) (s : State) : State :=
  match exec i s with
  | .next t => t
  | .fault _ => s
  | .refused _ => s

/-- A small configuration: REFCFG's codebook with 64-byte buffers. -/
def tiny : Config := { Config.refcfg with ibufBytes := 64, obufBytes := 64 }

/-- `tiny` with a codebook that leaves prefixes such as `010` unused. -/
def sparse : Config := { tiny with
  cbPrefixBits := #v[3, 3, 3, 4, 5, 6, 6], cbPrefixPat := #v[0b000, 0b100, 0b110, 0b1110, 0b11110, 0b111110, 0b111111] }

/-- The reset state with small buffers, latched arguments `a b c` and IBUF bytes `bs` from address 0. -/
def given (a b c : Word) (bs : List Byte) : State :=
  { State.reset with
    cfg := tiny
    latch := { cmd := 0, arg0 := a, arg1 := b, arg2 := c }
    inp := { State.reset.inp with ibuf := Memory.writeList [] 0 bs } }

/-- A state with an ACTIVE byte-mode writer at `base` that holds `cnt` pending bits `acc`. -/
def writing (a : Word) (base cnt : Nat) (acc : DWord) : State :=
  { given a 0 0 [] with
    out := { wr := { st := .active, gran := .byte, base := base, acc := acc, cnt := cnt, out := 0, bits := cnt }
             obuf := [] } }

/-- A state with an ACTIVE byte-mode reader over the bytes `bs` at address 0. -/
def reading (bs : List Byte) : State :=
  let s := given 0 0 0 bs
  { s with inp := { s.inp with rd := { State.reset.inp.rd with st := .active, len := bs.length } } }

/-- `reading` in word mode. -/
def readingWords (bs : List Byte) : State :=
  let s := reading bs
  { s with inp := { s.inp with rd := { s.inp.rd with gran := .word } } }

/-- A state with a command in flight. -/
def busy (s : State) (cmd : Word) : State :=
  { s with latch := { s.latch with cmd := cmd }, status := { s.status with busy := true } }

/-- "AAAABBBBCCCCCCCC" (spec/43_huffman_build.md R191). -/
def abc : List Byte := [0x41, 0x41, 0x41, 0x41, 0x42, 0x42, 0x42, 0x42, 0x43, 0x43, 0x43, 0x43, 0x43, 0x43, 0x43, 0x43]

/-- The stream of `abc` (spec/44_huffman_codec.md R237). -/
def abcStream : List Byte :=
  [0x00, 0x02, 0x00, 0x00, 0x00, 0x02, 0x03, 0x43, 0x01, 0x41, 0x02, 0x42, 0x03, 0xAA, 0xFF, 0xF0, 0x0C]

/-- The plane of spec/42_rle.md R153. -/
def row : List Byte := [0, 0, 0, 1, 1, 1, 1, 0]

/-- The RLE buffer of `row` under type 0 (spec/42_rle.md R153). -/
def rowBuffer : List Byte := [0, 8, 0, 1, 0, 0, 1, 0, 0, 0, 0, 0, 0, 0x89]

/-! ## Well-formedness -/

theorem test_wellFormed_refuses_wide_counts :
    (Instr.bwWrite 64).wellFormed = false ∧ (Instr.brRead 64).wellFormed = false := by decide
theorem test_wellFormed_refuses_wide_types :
    (Instr.cbQuery 8 0).wellFormed = false ∧ (Instr.cbQuery 0 8).wellFormed = false
      ∧ (Instr.rleEncrun 8).wellFormed = false ∧ (Instr.rleDecrun 8).wellFormed = false
      ∧ (Instr.rleEncplane 8).wellFormed = false := by decide
theorem test_wellFormed_accepts_runtime_refusals :
    (Instr.bwWrite 40).wellFormed = true ∧ (Instr.cbQuery 7 7).wellFormed = true := by decide
theorem test_configLegal_refuses_buffers :
    configLegal { tiny with ibufBytes := 0 } = false ∧ configLegal { tiny with obufBytes := 2 ^ 28 + 1 } = false := by
  decide +kernel
theorem test_configLegal_refuses_pattern_above_its_bits :
    configLegal { tiny with cbPrefixPat := #v[2, 0b10, 0b110, 0b1110, 0b11110, 0b111110, 0b111111] } = false := by
  decide +kernel
theorem test_configLegal_refuses_wide_codeword :
    configLegal { tiny with cbPayload := tiny.cbPayload.set 0 #v[1, 2, 3, 4, 5, 6, 27] } = false := by decide +kernel
theorem test_configLegal_refuses_nested_patterns :
    configLegal { tiny with cbPrefixPat := #v[0b1, 0b10, 0b110, 0b1110, 0b11110, 0b111110, 0b111111] } = false := by
  decide +kernel
theorem test_configLegal_refuses_long_runs :
    configLegal { tiny with
      cbPrefixBits := #v[1, 3, 3, 4, 5, 6, 6], cbPrefixPat := #v[0b0, 0b100, 0b110, 0b1110, 0b11110, 0b111110, 0b111111]
      cbPayload := tiny.cbPayload.set 0 #v[31, 29, 29, 28, 27, 26, 26] } = true
    ∧ configLegal { tiny with
      cbPrefixBits := #v[1, 1, 3, 4, 5, 6, 6], cbPrefixPat := #v[0, 1, 0b110, 0b1110, 0b11110, 0b111110, 0b111111]
      cbPayload := tiny.cbPayload.set 0 #v[31, 31, 25, 25, 25, 25, 25] } = false := by decide +kernel

/-! ## Decoding: words written out from spec/30_encoding.md R80, R83 -/

theorem test_decode_nop : decode 0b00000000000000000000000000000000 = .ok .nop := by decide
theorem test_decode_bwInit : decode 0b00000000000100000000000000000001 = .ok (.bwInit .word) := by decide
theorem test_decode_bwWrite : decode 0b00000000000000000000010100000010 = .ok (.bwWrite 5) := by decide
theorem test_decode_bwFinish : decode 0b00000000000000000000000000000011 = .ok .bwFinish := by decide
theorem test_decode_brInit : decode 0b00000000000100000000000000000100 = .ok (.brInit .word) := by decide
theorem test_decode_brRead : decode 0b00000000000000000010000000000101 = .ok (.brRead 32) := by decide
theorem test_decode_brRemain : decode 0b00000000000000000000000000000110 = .ok .brRemain := by decide
theorem test_decode_cbQuery : decode 0b00000000000011001000000000010000 = .ok (.cbQuery 2 6) := by decide
theorem test_decode_rleEncrun : decode 0b00000000000000010100000000010001 = .ok (.rleEncrun 5) := by decide
theorem test_decode_rleDecrun : decode 0b00000000000000001100000000010010 = .ok (.rleDecrun 3) := by decide
theorem test_decode_rleEncplane : decode 0b00000000000000011100000000010011 = .ok (.rleEncplane 7) := by decide
theorem test_decode_rleDecplane : decode 0b00000000000000000000000000010100 = .ok .rleDecplane := by decide
theorem test_decode_rleBest : decode 0b00000000000000000000000000010101 = .ok .rleBest := by decide
theorem test_decode_hufHist : decode 0b00000000001000000000000000100000 = .ok (.hufHist true) := by decide
theorem test_decode_hufHistrd : decode 0b00000000000000000000000000100001 = .ok .hufHistrd := by decide
theorem test_decode_hufTree : decode 0b00000000000000000000000000100010 = .ok .hufTree := by decide
theorem test_decode_hufCodes : decode 0b00000000000000000000000000100011 = .ok .hufCodes := by decide
theorem test_decode_hufCanon : decode 0b00000000000000000000000000100100 = .ok .hufCanon := by decide
theorem test_decode_hufTabrd : decode 0b00000000000000000000000000100101 = .ok .hufTabrd := by decide
theorem test_decode_hufEnc : decode 0b00000000001000000000000000100110 = .ok (.hufEnc true) := by decide
theorem test_decode_hufDec : decode 0b00000000000000000000000000100111 = .ok .hufDec := by decide
theorem test_decode_refuses : decode 0x00000028 = .error .reservedOpcode ∧ decode 0x80000002 = .error .reservedBits
    ∧ decode 0x00004003 = .error .unusedField ∧ decodeTableWord 32 0x100 = none := by decide
theorem test_encode_of_examples : encode (.bwWrite 5) = 0x00000502 ∧ encode (.brInit .word) = 0x00100004
    ∧ encode (.cbQuery 2 6) = 0x000C8010 ∧ encode (.hufEnc true) = 0x00200026 := by decide
theorem test_assemble : assemble { mnemonic := "CB_QUERY", t := some 2, b := some 6 } = some 0x000C8010
    ∧ assemble { mnemonic := "HUF_ENC", w := some 1 } = some 0x00200026
    ∧ assemble { mnemonic := "BW_WRITE", n := some 64 } = none ∧ assemble { mnemonic := "NOP", g := some 0 } = none
    ∧ assemble { mnemonic := "BW_INIT" } = some 1 := by decide

/-! ## The bit-stream unit (spec/95_test_vectors.md 3.1, 3.2; examples of spec/41_bitstream.md) -/

theorem test_nop : ends (fun t => t.status.word = 2) (step (State.reset.withFetchWord 32 0)) = true := by decide
theorem test_bwInit : ends (fun t => t.out.wr.statWord = 5) (exec (.bwInit .word) (given 0 0 0 [])) = true := by decide
theorem test_bwInit_bounds :
    ends (fun t => t.status.errcode = .bufferBounds) (exec (.bwInit .byte) (given 65 0 0 [])) = true := by decide
theorem test_bwWrite : ends (fun t => (t.out.obuf, t.out.wr.out, t.out.wr.cnt, t.out.wr.bits) = ([(0, 0xBF)], 1, 2, 10))
    (exec (.bwWrite 7) (writing 0x7F 0 3 5)) = true := by decide +kernel
theorem test_bwWrite_overflow :
    ends (fun t => (t.status.word, t.regs.errpos, t.out.wr.statWord, t.out.obuf) = (0x806, 64, 0x800, []))
      (exec (.bwWrite 8) (writing 1 64 0 0)) = true := by decide +kernel
theorem test_bwFinish : ends (fun t => (t.out.obuf, t.regs.res0, t.regs.res1, t.out.wr.st) = ([(1, 0xC0)], 1, 2, .finished))
    (exec .bwFinish (writing 0 1 2 3)) = true := by decide +kernel
theorem test_bwFinish_sequence :
    ends (fun t => t.status.errcode = .sequenceError) (exec .bwFinish (given 0 0 0 [])) = true := by decide
theorem test_brInit : ends (fun t => (t.inp.rd.statWord, t.inp.rd.pos) = (1, 0)) (exec (.brInit .byte) (given 0 2 0 []))
    = true := by decide
theorem test_brInit_length :
    ends (fun t => t.status.errcode = .illegalArgument) (exec (.brInit .word) (given 0 6 0 [])) = true := by decide
theorem test_brRead : ends (fun t => (t.regs.res0, t.inp.rd.pos) = (5, 3)) (exec (.brRead 3) (reading [0xBF, 0xC0]))
    = true := by decide +kernel
theorem test_brRead_word : ends (fun t => t.regs.res0 = 0xBFC00000) (exec (.brRead 32) (readingWords [0, 0, 0xC0, 0xBF]))
    = true := by decide +kernel
theorem test_brRemain : ends (fun t => (t.regs.res0, t.regs.res1) = (2, 6))
    (exec .brRemain (after (.brRead 10) (reading [0xBF, 0xC0]))) = true := by decide +kernel

/-! ## The RLE unit (spec/95_test_vectors.md 3.3, 3.4; examples of spec/42_rle.md) -/

theorem test_cbQuery : ends (fun t => (t.regs.res0, t.regs.res1, t.regs.res2, t.regs.res3) = (127, 33554558, 0x1906, 0x3F))
    (exec (.cbQuery 0 6) State.reset) = true := by decide +kernel
theorem test_cbQuery_argument :
    ends (fun t => t.status.errcode = .illegalArgument) (exec (.cbQuery 6 0) State.reset) = true := by decide
theorem test_rleEncrun : ends (fun t => (t.regs.res0, t.regs.res1, t.out.wr.bits, t.out.wr.acc) = (1, 4, 4, 8))
    (exec (.rleEncrun 0) (writing 3 0 0 0)) = true := by decide +kernel
theorem test_rleEncrun_too_long :
    ends (fun t => t.status.errcode = .runTooLong) (exec (.rleEncrun 0) (writing 33554559 0 0 0)) = true := by
  decide +kernel
theorem test_rleDecrun : ends (fun t => (t.regs.res0, t.regs.res1, t.regs.res2) = (3, 1, 0))
    (exec (.rleDecrun 0) (readingWords [0, 0, 0, 0x89])) = true := by decide +kernel
theorem test_rleEncplane : ends (fun t => (bytesAt t.out.obuf 0 14, t.regs.res0, t.regs.res1) = (rowBuffer, 14, 1))
    (exec (.rleEncplane 0) (given 0 0x00010008 0 row)) = true := by decide +kernel
theorem test_rleDecplane : ends (fun t => (bytesAt t.out.obuf 0 8, t.regs.res0, t.regs.res1) = (row, 8, 10))
    (exec .rleDecplane (given 0 14 0 rowBuffer)) = true := by decide +kernel
theorem test_rleBest : ends (fun t => (bytesAt t.out.obuf 0 14, t.regs.res2) = (rowBuffer, 0))
    (exec .rleBest (given 0 0x00010008 0 row)) = true := by decide +kernel

/-! ## The Huffman unit (spec/95_test_vectors.md 3.5 to 3.8; examples of spec/43_huffman_build.md and 44) -/

/-- The states after the builder's steps over `abc`. -/
def counted : State := after (.hufHist false) (given 0 16 0 abc)

/-- `counted` with its tree. -/
def treed : State := after .hufTree counted

/-- `treed` with its code table. -/
def coded : State := after .hufCodes treed

/-- `coded` made canonical. -/
def canoned : State := after .hufCanon coded

theorem test_hufHist : ends (fun t => (t.regs.res0, t.regs.res1, t.huf.statWord) = (16, 3, 1))
    (exec (.hufHist false) (given 0 16 0 abc)) = true := by decide +kernel
theorem test_hufHist_trailing : ends (fun t => (t.regs.res0, t.huf.statWord, t.huf.hist) = (1, 0x0331, [(0x0102, 1)]))
    (exec (.hufHist true) (given 0 3 0 [1, 2, 3])) = true := by decide +kernel
theorem test_hufHistrd : ends (fun t => (t.regs.res0, t.regs.res1) = (8, 16))
    (exec .hufHistrd { counted with latch := { counted.latch with arg0 := 0x43 } }) = true := by decide +kernel
theorem test_hufTree : ends (fun t => (t.regs.res0, t.regs.res1, t.huf.k) = (4, 16, 4)) (exec .hufTree counted) = true := by
  decide +kernel
theorem test_hufCodes : ends (fun t => t.huf.ctab = [⟨.sent, 3, 0b000⟩, ⟨.ord 0x42, 3, 0b001⟩, ⟨.ord 0x41, 2, 0b01⟩,
    ⟨.ord 0x43, 1, 1⟩]) (exec .hufCodes treed) = true := by decide +kernel
theorem test_hufCanon : ends (fun t => (t.regs.res0, t.huf.ctab) = (2, [⟨.ord 0x43, 1, 0⟩, ⟨.ord 0x41, 2, 0b10⟩,
    ⟨.sent, 3, 0b110⟩, ⟨.ord 0x42, 3, 0b111⟩])) (exec .hufCanon coded) = true := by decide +kernel
theorem test_hufTabrd : ends (fun t => (t.regs.res0, t.regs.res1, t.regs.res2, t.regs.res3) = (0xFFFFFFFF, 3, 6, 0))
    (exec .hufTabrd { canoned with latch := { canoned.latch with arg0 := 2 } }) = true := by decide +kernel
theorem test_hufEnc : ends (fun t => (bytesAt t.out.obuf 0 17, t.regs.res0, t.regs.res3) = (abcStream, 17, 3))
    (exec (.hufEnc false) (given 0 16 0 abc)) = true := by decide +kernel
theorem test_hufEnc_empty : ends (fun t => (bytesAt t.out.obuf 0 6, t.regs.res0) = ([8, 0, 0, 0, 0, 0], 6))
    (exec (.hufEnc true) (given 0 0 0 [])) = true := by decide +kernel
theorem test_hufDec : ends (fun t => (bytesAt t.out.obuf 0 16, t.regs.res0, t.regs.res1, t.regs.res2) = (abc, 16, 135, 4))
    (exec .hufDec (given 0 17 0 abcStream)) = true := by decide +kernel
theorem test_hufDec_long_empty_stream : ends (fun t => (t.status.errcode, t.regs.errpos) = (.unexpectedEof, 56))
    (exec .hufDec (given 0 7 0 [0, 0, 0, 0, 0, 0, 0])) = true := by decide +kernel

/-! ## The host (spec/95_test_vectors.md 3.9, 4; spec/30_encoding.md R90) -/

theorem test_script : ends (fun t => t.env.pending.length = 2) (step (State.reset.withScript
    [.set .arg0 5, .cmd .nop, .wait])) = true := by decide
theorem test_accept_then_refuse : (writeCmd 3 (writeCmd 0 State.reset)).latch.cmd = 0
    ∧ (writeCmd 3 (writeCmd 0 State.reset)).status.rej = true := ⟨rfl, rfl⟩
theorem test_clear : (hostAccess (.regWrite 0x08 0x1E) (busy (given 0 0 0 []) 0)).status.word = 1 := by decide
theorem test_locked_read : (hostAccess (.bufRead .ibuf 0) (busy (given 0 0 0 [7]) 0)).env.replies = [.byte 0]
    ∧ (hostAccess (.bufRead .ibuf 0) (given 0 0 0 [7])).env.replies = [.byte 7] := by decide
theorem test_abort_spoils_what_it_would_write :
    (softReset (busy (given 0 8 0 row) 0x20)).out.obuf = []
    ∧ ((softReset (busy (given 0 0x00010008 0 row) 0x13)).out.obuf.map Prod.fst)
        = [0, 1, 2, 3, 4, 5, 6, 7, 8, 9, 10, 11, 12, 13] := by decide +kernel

/-- Over input that nothing has written, a command with no output writes no byte (R74, R301). -/
theorem test_abort_over_unwritten_input : wouldWrite (busy (given 0 8 0 []) 0x20) = []
    ∧ wouldWrite (busy { reading [] with inp := { (reading []).inp with rd := { (reading []).inp.rd with len := 4 } } } 0x2005)
        = [] := by decide +kernel

/-- A power-on reset from the reset state takes another generation of unwritten bytes (R300). -/
theorem test_powerOn_generation : (hostAccess .powerOn State.reset).env.obufGen = 1
    ∧ (hostAccess .powerOn State.reset).env.ibufGen = 1 ∧ State.reset.env.obufGen = 0 ∧ State.reset.env.ibufGen = 0 := by
  decide

/-! ## Witnesses: the hypotheses of the statements are met -/

theorem witness_DecodeReadsBackEveryEncodedCommand :
    (Instr.bwWrite 63).wellFormed = true ∧ (Instr.cbQuery 7 7).wellFormed = true := by decide
theorem witness_DecodedWordIsTheEncodingOfItsCommand : decode 0x00003F02 = .ok (.bwWrite 63) := by decide
theorem witness_WordSpellsTheCommandWhoseRowItMatches :
    ∃ r ∈ opTable, (0x00003F02 : Word) &&& r.mask = BitVec.ofNat 32 r.op := by decide
theorem witness_AssembledLineDecodesToItsCommand :
    (∃ r ∈ opTable, r.mnemonic = "CB_QUERY" ∧ r.usesT = true ∧ r.usesB = true ∧ 7 < 8)
    ∧ assemble { mnemonic := "BW_INIT", g := some 1 } = some 0x00100001
    ∧ assemble { mnemonic := "BW_INIT", g := some 2 } = none ∧ assemble { mnemonic := "HUF_ENC", w := some 2 } = none
    ∧ assemble { mnemonic := "RLE_ENCRUN", t := some 8 } = none ∧ assemble { mnemonic := "CB_QUERY", b := some 8 } = none
    ∧ assemble { mnemonic := "ADD" } = none ∧ (∀ r ∈ opTable, r.mnemonic = "NOP" → r.usesN = false) := by decide
theorem witness_StepRunsTheDecodedCommand : configLegal tiny = true
    ∧ (busy (given 0 0 0 []) 0).status.busy = true ∧ (busy (given 0 0 0 []) 0).env.pending = []
    ∧ decode (busy (given 0 0 0 []) 0).latch.cmd = .ok .nop := by decide +kernel
theorem witness_IllegalWordRaisesIllegalCommand : configLegal tiny = true
    ∧ (busy (given 0 0 0 []) 0xFFFFFFFF).status.busy = true ∧ (busy (given 0 0 0 []) 0xFFFFFFFF).env.delay = 0
    ∧ ∀ r ∈ opTable, (busy (given 0 0 0 []) 0xFFFFFFFF).latch.cmd &&& r.mask ≠ BitVec.ofNat 32 r.op := by decide +kernel
theorem witness_StepTakesTheNextHostAccess : configLegal tiny = true
    ∧ ((given 0 0 0 []).withScript [.wait]).env.pending = [.wait] ∧ (given 0 0 0 []).status.busy = false
    ∧ (given 0 0 0 []).env.pending = [] ∧ HostAction.regRead 0 ≠ .wait
    ∧ { (given 0 0 0 []).env with delay := 1 }.delay ≠ 0 := by decide +kernel
theorem witness_FetchedWordRunsItsCommand : configLegal State.reset.cfg = true ∧ Instr.hufDec.wellFormed = true := by
  decide +kernel
theorem witness_StepStopsOnlyOnAnUnwrittenByteOrAnIllegalConfiguration :
    (given 0 0 0 []).cfg.obufBytes = 64 ∧ configLegal { tiny with ibufBytes := 0 } = false
    ∧ (busy (given 63 1 0 []) 0x20).inp.rd.wf 64
    ∧ faultAt (step (busy (given 63 1 0 []) 0x20)) = some (.unwrittenIbuf 63) := by decide +kernel
theorem witness_UnwrittenInputByteStopsTheCommand_first :
    let s := given 0 10 0 []
    configLegal s.cfg = true ∧ s.inp.ibuf.read 0 = none ∧ s.argl0 ≤ 0 ∧ Written s.inp.ibuf s.argl0 0
    ∧ 0 < s.argl0 + s.argl1 ∧ s.argl0 + s.argl1 ≤ s.cfg.ibufBytes ∧ s.argl2 ≤ s.cfg.obufBytes ∧ 10 ≤ s.argl1 := by
  decide +kernel
theorem witness_UnwrittenInputByteStopsTheCommand_last :
    let s := given 0 10 64 [0, 2, 3, 4, 5, 5, 0, 0, 0]
    s.inp.ibuf.read 9 = none ∧ s.argl0 ≤ 9 ∧ Written s.inp.ibuf s.argl0 (9 - s.argl0) ∧ 9 < s.argl0 + s.argl1
    ∧ s.argl2 ≤ s.cfg.obufBytes ∧ 9 < s.argl0 + 10 ∧ faultAt (exec .hufDec (given 0 4 0 [0, 0, 0])) = some (.unwrittenIbuf 3) := by
  decide +kernel
theorem witness_UnwrittenInputByteStopsTheCommand_codewords :
    let s := given 0 14 0 [1, 8, 0, 1, 0, 5, 1, 0, 0, 0]
    let byte := fun i => ((s.inp.ibuf.read (s.argl0 + i)).getD 0).toNat
    s.inp.ibuf.read 10 = none ∧ Written s.inp.ibuf 0 10 ∧ s.argl0 + 10 ≤ 10 ∧ 10 < s.argl0 + s.argl1 ∧ byte 0 ≤ 1
    ∧ byte 5 ≤ 5 ∧ 10 + 4 * littleEndian (bytesAt s.inp.ibuf (s.argl0 + 6) 4) ≤ s.argl1
    ∧ faultAt (exec .rleDecplane s) = some (.unwrittenIbuf 10) := by decide +kernel
theorem witness_UnwrittenInputByteStopsTheCommand_plane :
    let s := given 0 0x00010001 54 []
    s.inp.ibuf.read 0 = none ∧ 0 < s.argl0 + s.planeWidth * s.planeHeight
    ∧ s.argl0 + s.planeWidth * s.planeHeight ≤ s.cfg.ibufBytes
    ∧ s.argl2 + 10 + 4 * ((((planeRuns (pixelsAt s.inp.ibuf 0 0)).dropLast.map (runString s.cfg 0)).flatten).length / 32)
        ≤ s.cfg.obufBytes := by decide +kernel
theorem witness_UnwrittenInputByteStopsTheCommand_reader :
    let s := { reading [] with inp := { (reading []).inp with rd := { (reading []).inp.rd with len := 1 } } }
    s.inp.ibuf.read 0 = none ∧ s.inp.rd.st = .active ∧ s.inp.rd.wf s.cfg.ibufBytes ∧ s.inp.rd.base + s.inp.rd.fetch ≤ 0
    ∧ Written s.inp.ibuf 0 0 ∧ 0 < s.inp.rd.base + s.inp.rd.fetch + granBits s.inp.rd.gran / 8 * s.inp.rd.unitsToFetch := by
  decide +kernel

/-- Four bytes fill the window before the prefix; the refill before the payload asks for the fifth. -/
theorem witness_UnwrittenInputByteStopsTheCommand_payload :
    let s := { reading [0, 0, 0, 0] with
      inp := { (reading [0, 0, 0, 0]).inp with rd := { (reading [0, 0, 0, 0]).inp.rd with len := 5 } } }
    s.inp.ibuf.read 4 = none ∧ s.inp.rd.wf s.cfg.ibufBytes ∧ Written s.inp.ibuf 0 4 ∧ s.inp.rd.unitsToFetch = 4
    ∧ natBits (prefixBits s.cfg 0) (prefixPat s.cfg 0) <+: s.inp.rd.ahead s.inp.ibuf ∧ codewordBits s.cfg 0 0 ≤ 8 * 4
    ∧ 4 < 4 + { s.inp.rd with cnt := 8 * 4 - prefixBits s.cfg 0, fetch := 4 }.unitsToFetch
    ∧ faultAt (exec (.rleDecrun 0) s) = some (.unwrittenIbuf 4) := by decide +kernel
theorem witness_AcceptedCommandComesToAnEnd :
    configLegal tiny = true ∧ (busy (given 0 0 0 []) 0).status.busy = true := by decide +kernel
theorem witness_CommandWriteIsLatchedOrRefused :
    State.reset.status.busy = false ∧ State.reset.status.err = false ∧ (busy State.reset 0).status.busy = true
    ∧ (after .bwFinish State.reset).status.err = true := by decide
theorem witness_RegisterWritesReachOnlyTheirRegister :
    (2 : Word).getLsbD 0 = false ∧ (0xFF : BitVec 8) ≠ 0x04 ∧ (0x00 : BitVec 8) ≠ 0x18 ∧ (0x1C : BitVec 8) ≠ 0x18 := by
  decide
theorem witness_RegisterReadsReturnTheirState :
    (0x01 : BitVec 8).toNat % 4 ≠ 0 ∧ 0x54 ≤ (0x54 : BitVec 8).toNat ∧ 0x54 ≤ (0xFF : BitVec 8).toNat := by decide
theorem witness_StatusRegistersShowTheirFields : (writing 0 0 63 0).out.wr.cnt ≤ 63
    ∧ { (reading []).inp.rd with cnt := 64 }.cnt ≤ 64 := by decide
theorem witness_BusyLocksBothBuffers : (busy State.reset 0).status.busy = true := by decide
theorem witness_IdleBufferAccessReachesOneByte : (given 0 0 0 []).status.busy = false
    ∧ 63 < Buffer.ibuf.capacity (given 0 0 0 []) ∧ Buffer.obuf.capacity (given 0 0 0 []) ≤ 64 := by decide
theorem witness_SoftResetPutsStateAtItsResetValues : (1 : Word).getLsbD 0 = true
    ∧ State.reset.status.busy = false ∧ State.reset.inp.rd.wf State.reset.cfg.ibufBytes
    ∧ (busy (given 0 0x00010008 2 row) 0x13).status.busy = true ∧ decode 0x13 = .ok (.rleEncplane 0)
    ∧ ends (fun t => (t.out.obuf.read 1).isNone && (t.out.obuf.read 2).isSome && (t.out.obuf.read 15).isSome
          && (t.out.obuf.read 16).isNone)
        (runCommand (busy (given 0 0x00010008 2 row) 0x13).rehearsal) = true
    ∧ decode 0x20 = .ok (.hufHist false) ∧ decode 0x802 = .ok (.bwWrite 8)
    ∧ ends (fun t => (t.out.obuf.read 62).isNone && (t.out.obuf.read 63).isSome)
        (runCommand (busy (writing 0 63 0 0) 0x802).rehearsal) = true := by decide +kernel
theorem witness_PowerOnResetPutsStateAtItsResetValues : State.reset.env.wf := by decide
theorem witness_BwInitInitialisesTheWriter :
    (given 64 0 0 []).argl0 ≤ (given 64 0 0 []).cfg.obufBytes ∧ (given 65 0 0 []).cfg.obufBytes < (given 65 0 0 []).argl0 := by
  decide
theorem witness_BwWriteAppendsBitsToTheStream :
    (given 0 0 0 []).out.wr.st ≠ .active ∧ (writing 0x7F 0 3 5).out.wr.st = .active
    ∧ (writing 0x7F 0 3 5).out.wr.wf 64 ∧ (writing 0x7F 64 7 5).out.wr.wf 64 := by decide
theorem witness_BwWriteAppendsBitsToTheStream_both_ends :
    min ((3 + 32) / granBits (writing 0 0 3 5).out.wr.gran)
        ((64 - ((writing 0 0 3 5).out.wr.base + (writing 0 0 3 5).out.wr.out)) / (granBits .byte / 8)) = (3 + 32) / 8
    ∧ min ((7 + 1) / granBits (writing 0 64 7 5).out.wr.gran)
        ((64 - ((writing 0 64 7 5).out.wr.base + (writing 0 64 7 5).out.wr.out)) / (granBits .byte / 8)) < (7 + 1) / 8 := by
  decide
theorem witness_BwFinishPadsAndEndsTheStream :
    (given 0 0 0 []).out.wr.st ≠ .active ∧ (writing 0 63 2 3).out.wr.st = .active ∧ (writing 0 63 2 3).out.wr.wf 64
    ∧ (writing 0 63 2 3).out.wr.base + (writing 0 63 2 3).out.wr.out + granBits .byte / 8 ≤ 64
    ∧ (writing 0 64 2 3).out.wr.wf 64
    ∧ 64 < (writing 0 64 2 3).out.wr.base + (writing 0 64 2 3).out.wr.out + granBits .byte / 8 := by decide
theorem witness_BrInitInitialisesTheReader :
    (given 60 4 0 []).argl1 % 4 = 0 ∧ (given 60 4 0 []).argl0 + (given 60 4 0 []).argl1 ≤ 64
    ∧ (given 0 6 0 []).argl1 % 4 ≠ 0 ∧ 64 < (given 61 4 0 []).argl0 + (given 61 4 0 []).argl1 := by decide
theorem witness_BrReadConsumesTheNextBits :
    (given 0 0 0 []).inp.rd.st ≠ .active ∧ (reading [0xBF, 0xC0]).inp.rd.st = .active
    ∧ (reading [0xBF, 0xC0]).inp.rd.wf 64
    ∧ Written (reading [0xBF, 0xC0]).inp.ibuf 0 (granBits .byte / 8 * (reading [0xBF, 0xC0]).inp.rd.unitsToFetch)
    ∧ ((reading [0xBF, 0xC0]).inp.rd.ahead (reading [0xBF, 0xC0]).inp.ibuf).length = 16 := by decide +kernel
theorem witness_BrRemainReportsWhatIsLeft :
    (given 0 0 0 []).inp.rd.st ≠ .active ∧ (reading [1]).inp.rd.st = .active := by decide
theorem witness_BucketsPartitionTheRunLengths : 33554558 ≤ longestRun tiny 0 ∧ 1 ≤ longestRun tiny 5 := by decide +kernel
theorem witness_CodewordsOfATypeArePrefixFree : configLegal tiny = true ∧ 33554558 ≤ longestRun tiny 0
    ∧ codeword tiny 0 1 <+: codeword tiny 0 1 := by decide +kernel
theorem witness_CbQueryReportsABucket : configLegal tiny = true := by decide +kernel
theorem witness_RleEncrunAppendsOneCodeword : configLegal tiny = true
    ∧ (given 0 0 0 []).out.wr.st ≠ .active ∧ (writing 0 0 0 0).out.wr.st = .active ∧ (writing 0 0 0 0).argl0 = 0
    ∧ longestRun tiny 0 < (writing 33554559 0 0 0).argl0 ∧ (writing 33554558 0 0 0).argl0 ≤ longestRun tiny 0
    ∧ (writing 33554558 0 0 0).out.wr.wf 64
    ∧ 0 + 1 * ((0 + (codeword tiny 0 (writing 33554558 0 0 0).argl0).length) / 8) ≤ 64 := by decide +kernel

/-- A codeword of 31 bits whose payload completes the first unit that does not fit, and one whose prefix does. -/
theorem witness_RleEncrunAppendsOneCodeword_overflow :
    (writing 127 63 0 0).out.wr.wf 64 ∧ (writing 127 64 7 0).out.wr.wf 64
    ∧ ends (fun t => (t.status.errcode, t.regs.errpos, t.out.obuf, t.out.wr.bits, t.out.wr.cnt)
        = (.bufferOverflow, 64, [(63, 0xFC)], 31, 23)) (exec (.rleEncrun 0) (writing 127 63 0 0)) = true
    ∧ ends (fun t => (t.status.errcode, t.regs.errpos, t.out.obuf, t.out.wr.bits, t.out.wr.cnt)
        = (.bufferOverflow, 64, [], 13, 13)) (exec (.rleEncrun 0) (writing 127 64 7 0)) = true := by decide +kernel
theorem witness_RleDecrunConsumesOneCodeword : configLegal tiny = true
    ∧ (given 0 0 0 []).inp.rd.st ≠ .active ∧ (readingWords [0, 0, 0, 0x89]).inp.rd.st = .active
    ∧ (readingWords [0, 0, 0, 0x89]).inp.rd.wf 64
    ∧ Written (readingWords [0, 0, 0, 0x89]).inp.ibuf 0 4
    ∧ codeword tiny 0 3 <+: (readingWords [0, 0, 0, 0x89]).inp.rd.ahead (readingWords [0, 0, 0, 0x89]).inp.ibuf := by
  decide +kernel

/-- No codeword is ahead of an empty input. -/
theorem witness_RleDecrunConsumesOneCodeword_end :
    (reading []).inp.rd.st = .active ∧ (reading []).inp.rd.wf 64
    ∧ (∀ len, 1 ≤ len → len ≤ longestRun tiny 0 → ¬ codeword tiny 0 len <+: (reading []).inp.rd.ahead (reading []).inp.ibuf)
    ∧ ((reading []).inp.rd.ahead (reading []).inp.ibuf).length < prefixBits tiny 0 := by
  refine ⟨by decide, by decide, fun len _ hlen hpre => ?_, by decide⟩
  have hnil : (reading []).inp.rd.ahead (reading []).inp.ibuf = [] := by decide +kernel
  rw [hnil, List.prefix_nil] at hpre
  exact codeword_ne_nil (legalCodebook (by decide +kernel)) hlen hpre

/-- A whole but unused pattern is ahead: in a codebook that lacks it no codeword begins so. -/
theorem witness_RleDecrunConsumesOneCodeword_corrupt : configLegal sparse = true
    ∧ ∀ i ≤ 6, ¬ natBits (prefixBits sparse i) (prefixPat sparse i) <+: natBits 8 0b01000000 ∧ prefixBits sparse i ≤ 8 := by
  decide +kernel
theorem witness_RleEncplaneWritesThePlane : configLegal tiny = true
    ∧ (given 56 0x00010008 50 row).argl0 + (given 56 0x00010008 50 row).planeWidth * (given 56 0x00010008 50 row).planeHeight ≤ 64
    ∧ Written (given 0 0x00010008 50 row).inp.ibuf 0 8
    ∧ 50 + 10 + 4 * (((planeString tiny 0 (pixelsAt (given 0 0x00010008 50 row).inp.ibuf 0 8)).length + 31) / 32) ≤ 64 := by
  decide +kernel
/-- The header does not fit at 55, and the one word does not fit after a header at 54. -/
theorem witness_RleEncplaneWritesThePlane_overflow :
    (given 0 0x00010008 64 []).argl2 ≤ 64 ∧ 64 < (given 0 0x00010008 55 []).argl2 + 10
    ∧ (given 0 0x00010008 54 row).argl2 + 10 ≤ 64
    ∧ 64 < 54 + 10 + 4 * (((planeString tiny 0 (pixelsAt (given 0 0x00010008 54 row).inp.ibuf 0 8)).length + 31) / 32)
    ∧ ends (fun t => (t.status.errcode, t.regs.errpos, t.out.obuf.map Prod.fst)
        = (.bufferOverflow, 64, [54, 55, 56, 57, 58, 59])) (exec (.rleEncplane 0) (given 0 0x00010008 54 row)) = true := by
  decide +kernel
theorem witness_RleDecplaneWritesThePixels : configLegal tiny = true
    ∧ 10 + 4 * 1 ≤ (given 0 14 56 rowBuffer).argl1 ∧ Written (given 0 14 56 rowBuffer).inp.ibuf 0 14
    ∧ bytesAt (given 0 14 56 rowBuffer).inp.ibuf 0 10 = headerBytes false.toNat 8 1 0 1
    ∧ (∀ v ∈ [3, 4, 1], 1 ≤ v ∧ v ≤ longestRun tiny 0)
    ∧ codewordString tiny 0 [3, 4, 1] <+: storedBits .word (bytesAt (given 0 14 56 rowBuffer).inp.ibuf 10 4)
    ∧ (expandCodewords tiny 0 false [3, 4, 1]).length = 8 * 1 ∧ (given 0 14 56 rowBuffer).argl2 + 8 * 1 ≤ 64
    ∧ 64 < (given 0 14 60 rowBuffer).argl2 + (expandCodewords tiny 0 false [3, 4, 1]).length
    ∧ ends (fun t => (t.status.errcode, t.regs.errpos, t.out.obuf, t.inp.rd.pos)
        = (.bufferOverflow, 64, [(60, 0), (61, 0), (62, 0), (63, 1)], 8)) (exec .rleDecplane (given 0 14 60 rowBuffer)) = true := by
  decide +kernel
theorem witness_RleDecplaneRejectsABadStream_header :
    (given 0 9 64 []).argl1 < 10 ∧ (given 0 9 64 []).argl2 ≤ 64 ∧ (given 0 9 64 []).argl0 + (given 0 9 64 []).argl1 ≤ 64
    ∧ 1 < (((given 0 10 0 [2, 0, 0, 0, 0, 0, 0, 0, 0, 0]).inp.ibuf.read 0).getD 0).toNat
    ∧ 5 < (((given 0 10 0 [1, 0, 0, 0, 0, 6, 0, 0, 0, 0]).inp.ibuf.read 5).getD 0).toNat
    ∧ 10 < 10 + 4 * littleEndian (bytesAt (given 0 10 0 [1, 0, 0, 0, 0, 5, 1, 0, 0, 0]).inp.ibuf 6 4) := by decide +kernel

/-- `rowBuffer` with one pixel less than its last codeword's: the codewords 3 and 4, then a run past the plane. -/
theorem witness_RleDecplaneRejectsABadStream_run :
    let s := given 0 14 57 ([0, 4] ++ rowBuffer.drop 2)
    bytesAt s.inp.ibuf 0 10 = headerBytes false.toNat 4 1 0 1
    ∧ storedBits .word (bytesAt s.inp.ibuf 10 4) = codewordString tiny 0 [3] ++ natBits 28 0x9000000
    ∧ codeword tiny 0 4 <+: natBits 28 0x9000000 ∧ (expandCodewords tiny 0 false [3]).length < 4 * 1
    ∧ 4 * 1 < (expandCodewords tiny 0 false ([3] ++ [4])).length ∧ s.argl2 + 3 ≤ 64
    ∧ ends (fun t => (t.status.errcode, t.regs.errpos, t.out.obuf, t.inp.rd.pos)
        = (.corruptStream, 84, [(57, 0), (58, 0), (59, 0)], 8)) (exec .rleDecplane s) = true := by decide +kernel

/-- A prefix whose payload is cut by the end of the words, no bit at all, and a pattern that is no prefix. -/
theorem witness_RleDecplaneRejectsABadStream_codeword :
    let s := given 0 14 0 [0, 20, 0, 1, 0, 0, 1, 0, 0, 0, 0x3F, 0, 0, 0]
    storedBits .word (bytesAt s.inp.ibuf 10 4) = codewordString tiny 0 (List.replicate 13 1) ++ natBits 6 0x3F
    ∧ natBits (prefixBits tiny 6) (prefixPat tiny 6) <+: natBits 6 0x3F
    ∧ (expandCodewords tiny 0 false (List.replicate 13 1)).length < 20 * 1
    ∧ ends (fun t => (t.status.errcode, t.regs.errpos, t.out.obuf.length) = (.unexpectedEof, 106, 13)) (exec .rleDecplane s)
        = true
    ∧ ends (fun t => (t.status.errcode, t.regs.errpos) = (.unexpectedEof, 80))
        (exec .rleDecplane (given 0 10 63 [0, 1, 0, 1, 0, 0, 0, 0, 0, 0])) = true
    ∧ (∀ i ≤ 6, ¬ natBits (prefixBits sparse i) (prefixPat sparse i) <+: natBits 32 0x40000000 ∧ prefixBits sparse i ≤ 32)
    ∧ ends (fun t => (t.status.errcode, t.regs.errpos) = (.corruptStream, 80))
        (exec .rleDecplane { given 0 14 63 [0, 1, 0, 1, 0, 0, 1, 0, 0, 0, 0, 0, 0, 0x40] with cfg := sparse }) = true := by
  decide +kernel
theorem witness_RleBestIsTheSmallestEncoding : configLegal tiny = true
    ∧ Written (given 0 0x00010008 50 row).inp.ibuf 0 8
    ∧ (∀ t ≤ 5, 50 + 10 + 4 * (((planeString tiny t (pixelsAt (given 0 0x00010008 50 row).inp.ibuf 0 8)).length + 31) / 32)
        ≤ 64)
    ∧ ends (fun t => (t.status.errcode, t.regs.errpos, t.out.obuf) = (.bufferOverflow, 55, []))
        (exec .rleBest (given 0 0x00010008 55 row)) = true := by decide +kernel
theorem witness_PlaneRoundTrip :
    let s := given 0 0x00010008 0 row
    let v := given 0 14 56 rowBuffer
    configLegal s.cfg = true ∧ s.status.err = false
    ∧ (∀ k < 8, s.inp.ibuf.read k = some 0 ∨ s.inp.ibuf.read k = some 1)
    ∧ ends (fun u => decide (u.status.err = false) && decide (v.argl1 = u.regs.res0.toNat)
        && decide (∀ k < v.argl1, v.inp.ibuf.read k = u.out.obuf.read k)) (exec (.rleEncplane 0) s) = true
    ∧ v.argl2 + 8 ≤ v.cfg.obufBytes := by decide +kernel
theorem witness_HufHistCountsTheSymbols :
    (given 48 16 0 []).argl0 + (given 48 16 0 []).argl1 ≤ 64 ∧ Written (given 0 16 0 abc).inp.ibuf 0 16
    ∧ 64 < (given 49 16 0 []).argl0 + (given 49 16 0 []).argl1 := by decide +kernel
theorem witness_HufHistrdReportsACount : (given 0 0 0 []).huf.histV = false ∧ counted.huf.histV = true
    ∧ 65535 < (given 65536 0 0 []).argl0 ∧ (given 65535 0 0 []).argl0 ≤ 65535 := by decide +kernel
theorem witness_HufTreeMergesTheSortedLeaves : (given 0 0 0 []).huf.histV = false ∧ counted.huf.histV = true
    ∧ counted.huf.wf := by decide +kernel
theorem witness_HufCodesTabulatesTheTreePaths : (given 0 0 0 []).huf.treeV = false ∧ treed.huf.treeV = true
    ∧ treed.huf.tree.isSome = true := by decide +kernel

/-- A tree with a leaf at depth `n`. -/
def comb : Nat → HuffTree
  | 0 => .leaf 0 .sent
  | n + 1 => .interior 1 (comb n) (.leaf 1 (.ord n))

theorem witness_HufCodesTabulatesTheTreePaths_too_long :
    ((comb 64).paths.map fun p => p.2.length).foldl max 0 ≤ 64
    ∧ 64 < ((comb 65).paths.map fun p => p.2.length).foldl max 0 := by decide +kernel
theorem witness_HufCanonSortsAndAssignsCodes : (given 0 0 0 []).huf.codesV = false ∧ coded.huf.codesV = true := by
  decide +kernel
theorem witness_HufTabrdReportsAnEntry : (given 0 0 0 []).huf.codesV = false ∧ canoned.huf.codesV = true
    ∧ canoned.huf.k = 4 ∧ (canoned.huf.ctab[3]?).isSome = true := by decide +kernel
theorem witness_CanonicalCodesArePrefixFree : ∀ p ∈ (comb 64).paths, p.2.length ≤ maxCodeLen := by decide +kernel
theorem witness_CheckedTableIsPrefixFree : tableOk canoned.huf.ctab = true := by decide +kernel
theorem witness_HufEncWritesTheStream :
    (given 0 16 47 abc).argl0 + (given 0 16 47 abc).argl1 ≤ 64 ∧ Written (given 0 16 47 abc).inp.ibuf 0 16
    ∧ longestCode (builtHuffman false (bytesAt (given 0 16 47 abc).inp.ibuf 0 16)).ctab ≤ maxCodeLen
    ∧ 47 + ((encodedString false (bytesAt (given 0 16 47 abc).inp.ibuf 0 16)).length + 7) / 8 ≤ 64
    ∧ 64 < 48 + ((encodedString false (bytesAt (given 0 16 48 abc).inp.ibuf 0 16)).length + 7) / 8
    ∧ ends (fun t => (t.status.errcode, t.regs.errpos, bytesAt t.out.obuf 48 16) = (.bufferOverflow, 64, abcStream.take 16))
        (exec (.hufEnc false) (given 0 16 48 abc)) = true := by decide +kernel
theorem witness_HufDecDecodesAValidStream :
    let f : StreamFlags := { longLen := false, longCount := false, trailing := false, wide := false }
    let before : List Entry := [⟨.ord 0x43, 1, 0⟩, ⟨.ord 0x41, 2, 0⟩]
    let after : List Entry := [⟨.ord 0x42, 3, 0⟩]
    let sent : Entry := ⟨.sent, 3, 0⟩
    let tb := assignCodes (before ++ sent :: after)
    let ys := ([1, 1, 1, 1, 3, 3, 3, 3, 0, 0, 0, 0, 0, 0, 0, 0].map fun i => tb[i]?.getD sent)
    Written (given 0 17 48 abcStream).inp.ibuf 0 17
    ∧ (∀ e ∈ before ++ sent :: after, e.len < 2 ^ fieldWidth f.longLen)
    ∧ (before ++ after).length ≤ 2 ^ fieldWidth f.longCount ∧ tableOk (before ++ sent :: after) = true
    ∧ (∀ e ∈ ys, e ∈ tb ∧ e.sym ≠ .sent)
    ∧ storedBits .byte (bytesAt (given 0 17 48 abcStream).inp.ibuf 0 17)
        = headerString f 0 tb ++ codeString ys ++ (symbolString tb .sent ++ [false])
    ∧ (given 0 17 48 abcStream).argl2 + (entryBytes f.wide ys).length ≤ 64
    ∧ (64 - (given 0 17 49 abcStream).argl2) / symbolWidth f.wide < ys.length
    ∧ ends (fun t => (t.status.errcode, t.regs.errpos, bytesAt t.out.obuf 49 15, t.inp.rd.pos)
        = (.bufferOverflow, 64, abc.take 15, 132)) (exec .hufDec (given 0 17 49 abcStream)) = true := by decide +kernel
theorem witness_HufDecDecodesAValidStream_empty :
    let f : StreamFlags := { longLen := false, longCount := false, trailing := true, wide := true }
    let sent : Entry := ⟨.sent, 0, 0⟩
    tableOk [sent] = true ∧ symbolString (assignCodes [sent]) .sent = []
    ∧ storedBits .byte [0x0C, 9, 0, 0, 0, 0, 0] = headerString f 9 (assignCodes [sent])
    ∧ ends (fun t => (t.status.errcode, t.regs.errpos, t.inp.rd.pos) = (.bufferOverflow, 64, 56))
        (exec .hufDec (given 0 7 64 [0x0C, 9, 0, 0, 0, 0, 0])) = true := by decide +kernel

/-- The error and the position of `HUF_DEC` over some bytes at IBUF address 0. -/
def decError (bs : List Byte) : Option (ErrorCode × Word) :=
  match exec .hufDec (given 0 (BitVec.ofNat 32 bs.length) 0 bs) with
  | .next t => some (t.status.errcode, t.regs.errpos)
  | .fault _ => none
  | .refused _ => none

/-- The header's errors, read off R234: no flags; reserved flags; a trailing flag alone; a cut trailing byte, count,
sentinel index and sentinel length; an index above the count; a cut symbol and a cut length; decreasing lengths. -/
theorem test_hufDec_header_errors :
    decError [] = some (.unexpectedEof, 0) ∧ decError [0x10] = some (.corruptStream, 0)
    ∧ decError [0x04] = some (.corruptStream, 0) ∧ decError [0x0C] = some (.unexpectedEof, 8)
    ∧ decError [0] = some (.unexpectedEof, 8) ∧ decError [0, 0] = some (.unexpectedEof, 16)
    ∧ decError [1, 0, 0, 0, 0, 0] = some (.unexpectedEof, 48)
    ∧ decError [0, 0, 0, 0, 0, 2, 1] = some (.corruptStream, 16) ∧ decError [0, 0, 0, 0, 0, 0, 1] = some (.unexpectedEof, 56)
    ∧ decError [0, 0, 0, 0, 0, 0, 1, 0x41] = some (.unexpectedEof, 64)
    ∧ decError [0, 0, 0, 0, 0, 0, 2, 0x41, 1] = some (.corruptStream, 72) := by decide +kernel

/-- The codes are 0 for the sentinel and 10: after four symbols the input ends, or the bits 11 are a dead end (R236). -/
theorem test_hufDec_payload_errors :
    decError [0, 0, 0, 0, 0, 0, 1, 0x41, 2, 0xAA] = some (.corruptStream, 80)
    ∧ decError [0, 0, 0, 0, 0, 0, 1, 0x41, 2, 0xAA, 0xC0] = some (.corruptStream, 81) := by decide +kernel
theorem witness_HufDecRejectsABadStream :
    let f : StreamFlags := { longLen := false, longCount := false, trailing := false, wide := false }
    let g : StreamFlags := { longLen := false, longCount := false, trailing := true, wide := true }
    let l : StreamFlags := { longLen := true, longCount := false, trailing := false, wide := false }
    let input := fun (bs : List Byte) => storedBits .byte (bytesAt (given 0 0 0 bs).inp.ibuf 0 bs.length)
    let front := flagBits f 0 ++ countBits f 1
    (given 0 0 64 []).argl1 = 0 ∧ (given 0 0 64 []).argl2 ≤ 64 ∧ natBits 8 0x10 <+: input [0x10]
    ∧ natBits 8 0x04 <+: input [0x04] ∧ (4).testBit 2 = true ∧ (4).testBit 3 = false
    ∧ input [0x0C] = natBits 8 g.value ∧ input [0] = flagBits f 0 ++ [] ∧ input [0, 0] = front ++ []
    ∧ input [1, 0, 0, 0, 0, 0] = flagBits l 0 ++ countBits l 1 ++ natBits 32 0 ++ []
    ∧ fieldWidth l.longCount + 0 ≠ fieldWidth l.longLen
    ∧ input [0, 0, 0, 0, 0, 2, 1] = front ++ natBits 32 2 ++ natBits 8 1 ++ []
    ∧ input [0, 0, 0, 0, 0, 0, 1, 0x41] = front ++ natBits 32 0 ++ natBits 8 1 ++ entryBits f [] ++ natBits 8 0x41
    ∧ input [0, 0, 0, 0, 0, 0, 2, 0x41, 1] = front ++ natBits 32 0 ++ natBits 8 2 ++ entryBits f [(0x41, 1)] ++ []
    ∧ ¬ ((([(0x41, 1)] : List (Nat × Nat)).map Prod.snd).insertIdx 0 2).Pairwise (· ≤ ·) := by decide +kernel
theorem witness_HufDecRejectsABadStream_payload :
    let f : StreamFlags := { longLen := false, longCount := false, trailing := false, wide := false }
    let tb := assignCodes [⟨.sent, 1, 0⟩, ⟨.ord 0x41, 2, 0⟩]
    let ys := List.replicate 4 (⟨.ord 0x41, 2, 2⟩ : Entry)
    let input := fun (bs : List Byte) => storedBits .byte (bytesAt (given 0 0 0 bs).inp.ibuf 0 bs.length)
    tableOk [⟨.sent, 1, 0⟩, ⟨.ord 0x41, 2, 0⟩] = true ∧ (∀ e ∈ ys, e ∈ tb ∧ e.sym ≠ .sent)
    ∧ input [0, 0, 0, 0, 0, 0, 1, 0x41, 2, 0xAA] = headerString f 0 tb ++ codeString ys ++ []
    ∧ input [0, 0, 0, 0, 0, 0, 1, 0x41, 2, 0xAA, 0xC0] = headerString f 0 tb ++ codeString ys ++ natBits 8 0xC0
    ∧ (∀ e ∈ tb, ¬ e.bits <+: [] ∧ ¬ e.bits <+: natBits 8 0xC0) ∧ (∃ e ∈ tb, (natBits 8 0xC0).take 1 <+: e.bits)
    ∧ (∀ e ∈ tb, ¬ (natBits 8 0xC0).take (1 + 1) <+: e.bits) ∧ (∃ e ∈ tb, ([] : List Bool).take 0 <+: e.bits) := by
  decide +kernel
theorem witness_HuffmanRoundTrip :
    let s := given 0 16 0 abc
    let v := given 0 17 48 abcStream
    s.status.err = false ∧ v.argl2 + s.argl1 ≤ v.cfg.obufBytes
    ∧ ends (fun u => decide (u.status.err = false) && decide (v.argl1 = u.regs.res0.toNat)
        && decide (∀ k < v.argl1, v.inp.ibuf.read k = u.out.obuf.read k)) (exec (.hufEnc false) s) = true := by
  decide +kernel
theorem witness_ChecksAreReportedInOrder :
    lacksState (given 0 0 0 []) (.bwWrite 33) = true ∧ lacksState (writing 0 0 0 0) (.bwWrite 33) = false
    ∧ badArgument (writing 0 0 0 0) (.bwWrite 33) = true ∧ badArgument (given 0 8 65 []) (.rleEncplane 5) = false
    ∧ outOfBounds (given 0 8 65 []) (.rleEncplane 5) = true ∧ outOfBounds (writing 33554559 0 0 0) (.rleEncrun 0) = false
    ∧ runTooLong (writing 33554559 0 0 0) (.rleEncrun 0) = true ∧ runTooLong (given 0 0 0 []) .nop = false
    ∧ (given 0 0 0 []).huf.wf ∧ (given 0 0 0 []).status.errcode = .noError := by decide +kernel
theorem witness_CompletionLeavesWhatTheRulesSay :
    ends (fun t => t.status.err) (exec (.bwWrite 8) (writing 1 64 0 0)) = true
    ∧ ends (fun t => t.status.err) (exec .bwFinish (given 0 0 0 [])) = true
    ∧ ends (fun t => !t.status.err) (exec .nop (given 0 0 0 [])) = true := by decide +kernel
theorem witness_OutputStaysInsideObuf :
    ends (fun t => decide (t.out.obuf.map Prod.fst = [63])) (exec .bwFinish (writing 0 63 2 3)) = true := by decide +kernel
theorem witness_EveryStepKeepsTheInvariant : (busy (given 0 16 0 abc) 0x26).wf
    ∧ ends (fun t => t.status.done) (step (busy (given 0 16 0 abc) 0x26)) = true := by decide +kernel

end Sys2Proof.Tests.Slice0
end

section
/-! PROOFS. The statements of the family 00_scope: which of the two agents moves at a step (spec/00_scope.md R5). -/

namespace Sys2Proof.Machine

/-! ## When the host moves -/

/-- A machine that runs no command leaves the step to the host (notes/assumptions/8.md). -/
theorem sequencerTurn_of_idle {s : State} (hidle : s.status.busy = false) : sequencerTurn s = false := by
  simp only [sequencerTurn, hidle, Bool.false_and]

/-- While the delay runs, the sequencer leaves the step to every access but `WAIT` (notes/assumptions/8.md, 9.md). -/
theorem sequencerTurn_of_delayed {s : State} {a : HostAction} {rest : List HostAction}
    (hp : s.env.pending = a :: rest) (hwait : a ≠ .wait) (hdelay : s.env.delay ≠ 0) : sequencerTurn s = false := by
  cases a with
  | wait => exact absurd rfl hwait
  | regWrite | regRead | bufWrite | bufRead | powerOn =>
    simp only [sequencerTurn, hp, hdelay, decide_false, Bool.and_false]

/-! ## What the host's turn does -/

theorem hostTurn_of_pending_cons {s : State} {a : HostAction} {rest : List HostAction} (hp : s.env.pending = a :: rest) :
    hostTurn s = hostAccess a { s with env := { s.env with pending := rest, delay := s.env.delay - 1 } } := by
  simp only [hostTurn, hp]

theorem hostTurn_of_pending_nil {s : State} (hp : s.env.pending = []) : hostTurn s = s := by
  simp only [hostTurn, hp]

/-- In a legal configuration a step that is not the sequencer's is the host's turn. -/
theorem step_of_hostTurn {s : State} (hcfg : configLegal s.cfg = true) (hturn : sequencerTurn s = false) :
    step s = .next (hostTurn s) := by
  simp only [step, hcfg, hturn, if_true, Bool.false_eq_true, if_false]

/-! ## The statement -/

/-- Settles O8: in each of its cases the turn is the host's, and the host's turn is its next access or rest. -/
theorem stepTakesTheNextHostAccess : Obligations.StepTakesTheNextHostAccess := by
  unfold Obligations.StepTakesTheNextHostAccess
  intro s hcfg
  constructor
  · intro a rest hp hcase
    have hturn : sequencerTurn s = false := by
      obtain hidle | ⟨hwait, hdelay⟩ := hcase
      · exact sequencerTurn_of_idle hidle
      · exact sequencerTurn_of_delayed hp hwait hdelay
    rw [step_of_hostTurn hcfg hturn, hostTurn_of_pending_cons hp]
  · intro hp hidle
    rw [step_of_hostTurn hcfg (sequencerTurn_of_idle hidle), hostTurn_of_pending_nil hp]

end Sys2Proof.Machine
end

section
/-! PROOFS. Outcomes of actions: `Yields` says what an outcome meets, `Keeps` that an action carries an invariant to its
end; both compose. The reader's actions keep its invariant and raise class X errors only (spec/10_state.md R37,
spec/41_bitstream.md R110 to R113). -/

namespace Sys2Proof.Machine

variable {σ α β : Type}

/-! ## Outcomes -/

/-- An outcome meets `Q` where the action answers, `E` where it raises an error, `F` where it stops at a fault. -/
def Yields (Q : α → σ → Prop) (E : ErrorCode → Nat → σ → Prop) (F : Fault → Prop) : EStateM.Result Stop σ α → Prop
  | .ok a t => Q a t
  | .error (.raised e pos) t => E e pos t
  | .error (.stuck f) _ => F f

variable {Q Q' : α → σ → Prop} {E E' : ErrorCode → Nat → σ → Prop} {F F' : Fault → Prop}

theorem Yields.imp {r : EStateM.Result Stop σ α} (h : Yields Q E F r) (hQ : ∀ a t, Q a t → Q' a t)
    (hE : ∀ e pos t, E e pos t → E' e pos t) (hF : ∀ f, F f → F' f) : Yields Q' E' F' r := by
  match r, h with
  | .ok a t, h => exact hQ a t h
  | .error (.raised e pos) t, h => exact hE e pos t h
  | .error (.stuck f) _, h => exact hF f h

theorem Yields.imp_ok {r : EStateM.Result Stop σ α} (h : Yields Q E F r) (hQ : ∀ a t, Q a t → Q' a t) :
    Yields Q' E F r := h.imp hQ (fun _ _ _ => id) fun _ => id

theorem Yields.and {r : EStateM.Result Stop σ α} (h : Yields Q E F r) (h' : Yields Q' E' F' r) :
    Yields (fun a t => Q a t ∧ Q' a t) (fun e pos t => E e pos t ∧ E' e pos t) (fun f => F f ∧ F' f) r := by
  match r, h, h' with
  | .ok _ _, h, h' => exact ⟨h, h'⟩
  | .error (.raised _ _) _, h, h' => exact ⟨h, h'⟩
  | .error (.stuck _) _, h, h' => exact ⟨h, h'⟩

/-- Every outcome meets what is always true. -/
theorem Yields.trivial (r : EStateM.Result Stop σ α) :
    Yields (fun _ _ => True) (fun _ _ _ => True) (fun _ => True) r := by
  match r with
  | .ok _ _ => exact True.intro
  | .error (.raised _ _) _ => exact True.intro
  | .error (.stuck _) _ => exact True.intro

theorem Yields.bind {R : β → σ → Prop} {x : Act σ α} {f : α → Act σ β} {s : σ} (hx : Yields Q E F (x s))
    (hf : ∀ a t, Q a t → Yields R E F (f a t)) : Yields R E F ((x >>= f) s) := by
  rw [Act.bind_apply]
  match x s, hx with
  | .ok a t, hx => exact hf a t hx
  | .error (.raised _ _) _, hx => exact hx
  | .error (.stuck _) _, hx => exact hx

theorem Yields.get_bind {f : σ → Act σ α} {s : σ} (h : Yields Q E F (f s s)) : Yields Q E F ((get >>= f) s) := h

theorem Yields.require {Q : Unit → σ → Prop} {p : Prop} [Decidable p] {e : ErrorCode} {pos : Nat} {s : σ}
    (ht : p → Q () s) (hf : ¬ p → E e pos s) : Yields Q E F ((require p e pos : Act σ Unit) s) := by
  by_cases h : p
  · rw [require_true h]
    exact ht h
  · rw [require_false h]
    exact hf h

/-- A check before an action. -/
theorem Yields.require_bind {p : Prop} [Decidable p] {e : ErrorCode} {pos : Nat} {s : σ} {f : Unit → Act σ α}
    (hf : ¬ p → E e pos s) (ht : p → Yields Q E F (f () s)) : Yields Q E F ((Machine.require p e pos >>= f) s) :=
  Yields.bind (Q := fun _ t => t = s ∧ p) (Yields.require (fun h => ⟨rfl, h⟩) hf) fun _ _ ⟨h, hp⟩ => h ▸ ht hp

theorem Yields.ibufByte {Q : Byte → σ → Prop} {ibuf : Memory} {a : Nat} {s : σ} (hok : ∀ b, Q b s)
    (hF : ibuf.read a = none → F (.unwrittenIbuf a)) : Yields Q E F ((Machine.ibufByte ibuf a : Act σ Byte) s) := by
  rw [ibufByte_apply]
  cases h : ibuf.read a with
  | some b => exact hok b
  | none => exact hF h

theorem Yields.ibufBytes {Q : List Byte → σ → Prop} {ibuf : Memory} {a n : Nat} {s : σ} (hok : Q (bytesAt ibuf a n) s)
    (hF : ∀ k < n, ibuf.read (a + k) = none → F (.unwrittenIbuf (a + k))) :
    Yields Q E F ((Machine.ibufBytes ibuf a n : Act σ (List Byte)) s) := by
  rcases ibufBytes_cases ibuf a n s with ⟨_, h⟩ | ⟨k, hk, _, hno, h⟩
  · rw [h]
    exact hok
  · rw [h]
    exact hF k hk hno

/-- From every state that meets `P` the action answers in one that meets `P`, raises an error as `E` says, or stops at a
fault as `F` says. -/
def Keeps (P : σ → Prop) (E : ErrorCode → Nat → σ → Prop) (F : Fault → Prop) (x : Act σ α) : Prop :=
  ∀ s, P s → Yields (fun _ => P) E F (x s)

variable {P : σ → Prop}

theorem Keeps.pure (a : α) : Keeps P E F (pure a : Act σ α) := fun _ h => h

theorem Keeps.get : Keeps P E F (get : Act σ σ) := fun _ h => h

theorem Keeps.bind {x : Act σ α} {f : α → Act σ β} (hx : Keeps P E F x) (hf : ∀ a, Keeps P E F (f a)) :
    Keeps P E F (x >>= f) := fun s h => (hx s h).bind fun a t ht => hf a t ht

theorem Keeps.require {p : Prop} [Decidable p] {e : ErrorCode} {pos : Nat} (hE : ∀ s, P s → E e pos s) :
    Keeps P E F (require p e pos : Act σ Unit) := fun s h => Yields.require (fun _ => h) fun _ => hE s h

theorem Keeps.raiseError {e : ErrorCode} {pos : Nat} (hE : ∀ s, P s → E e pos s) :
    Keeps P E F (raiseError e pos : Act σ α) := fun s h => hE s h

theorem Keeps.ite {p : Prop} [Decidable p] {x y : Act σ α} (hx : Keeps P E F x) (hy : Keeps P E F y) :
    Keeps P E F (if p then x else y) := by
  split
  · exact hx
  · exact hy

/-! ## The reader -/

/-- The fault of a command that reads inside IBUF: one of its bytes has not been written (spec/20_memory.md R75). -/
def InputFault (cap : Nat) (ibuf : Memory) (f : Fault) : Prop := ∃ a < cap, ibuf.read a = none ∧ f = .unwrittenIbuf a

/-- The action raises class X errors only and, if the reader's invariant holds (`w`), keeps it and reads inside IBUF. -/
abbrev KeepsReader (w : Prop) (cap : Nat) (ibuf : Memory) (x : Act Reader α) : Prop :=
  Keeps (fun r => w → r.wf cap) (fun e _ r => e.classX = true ∧ (w → r.wf cap)) (fun f => w → InputFault cap ibuf f) x

section
variable (w : Prop) (cap : Nat) (ibuf : Memory)

/-- A reader with input left has a whole unit left, inside IBUF. -/
theorem Reader.unit_inside {cap : Nat} {r : Reader} (h : r.wf cap) (hf : r.fetch < r.len) :
    r.base + r.fetch + granBits r.gran / 8 ≤ cap := by
  obtain ⟨_, _, _, _, hcap, hl, hfe⟩ := h
  have : granBits r.gran / 8 ≤ r.len - r.fetch :=
    Nat.le_of_dvd (by omega) (Nat.dvd_sub (Nat.dvd_of_mod_eq_zero hl) (Nat.dvd_of_mod_eq_zero hfe))
  omega

theorem refillUnits_keeps (n : Nat) : KeepsReader w cap ibuf (refillUnits ibuf n) := by
  induction n with
  | zero => exact Keeps.pure ()
  | succ n ih =>
    intro r h
    simp only [refillUnits, Act.bind_apply, Act.get_apply]
    split
    · rename_i hgo
      refine Yields.bind (Q := fun bs r' => bs = bytesAt ibuf (r.base + r.fetch) (granBits r.gran / 8) ∧ r' = r)
        (Yields.ibufBytes ⟨rfl, rfl⟩ fun k hk hno hw => ?_) fun bs r' ⟨hbs, hr⟩ => ?_
      · have := Reader.unit_inside (h hw) hgo.2
        exact ⟨_, by omega, hno, rfl⟩
      · subst hbs hr
        exact ih _ fun hw => (fetch_unit (h hw) hgo.1 hgo.2).wf
    · exact h

theorem refill_keeps : KeepsReader w cap ibuf (refill ibuf) := refillUnits_keeps w cap ibuf 4

theorem rdBits_keeps (n : Nat) : KeepsReader w cap ibuf (rdBits ibuf n) := by
  refine (refill_keeps w cap ibuf).bind fun _ r h => ?_
  refine Yields.require_bind (fun _ => ⟨rfl, h⟩) fun hn => ?_
  exact fun hw => (consume_buffered (h hw) hn ibuf).1

theorem rdPeek_keeps (n : Nat) : KeepsReader w cap ibuf (rdPeek ibuf n) :=
  (refill_keeps w cap ibuf).bind fun _ => Keeps.get.bind fun _ => Keeps.pure _

theorem scanBuckets_keeps (c : Config) (is : List Nat) : KeepsReader w cap ibuf (scanBuckets c ibuf is) := by
  induction is with
  | nil => exact Keeps.pure none
  | cons i is ih =>
    exact Keeps.get.bind fun r => Keeps.ite
      ((rdPeek_keeps w cap ibuf _).bind fun v => Keeps.ite (Keeps.pure _) ih) ih

theorem decCw_keeps (c : Config) (t : Nat) : KeepsReader w cap ibuf (decCw c t ibuf) := by
  refine (refill_keeps w cap ibuf).bind fun _ => (scanBuckets_keeps w cap ibuf c buckets).bind fun found =>
    Keeps.get.bind fun r => ?_
  cases found with
  | none => exact (Keeps.require fun _ h => ⟨rfl, h⟩).bind fun _ => Keeps.raiseError fun _ h => ⟨rfl, h⟩
  | some i =>
    exact (Keeps.require fun _ h => ⟨rfl, h⟩).bind fun _ => (rdBits_keeps w cap ibuf _).bind fun _ =>
      (rdBits_keeps w cap ibuf _).bind fun _ => Keeps.pure _

theorem rdEntries_keeps (sw lw n : Nat) : KeepsReader w cap ibuf (rdEntries ibuf sw lw n) := by
  induction n with
  | zero => exact Keeps.pure []
  | succ n ih =>
    exact (rdBits_keeps w cap ibuf sw).bind fun _ => (rdBits_keeps w cap ibuf lw).bind fun _ =>
      ih.bind fun _ => Keeps.pure _

theorem rdCount_keeps (f : StreamFlags) : KeepsReader w cap ibuf (rdCount ibuf f) :=
  Keeps.get.bind fun _ => Keeps.ite (Keeps.pure 0) ((rdBits_keeps w cap ibuf _).bind fun _ => Keeps.pure _)

/-- A trailing byte is answered only where the flags announce one (R234). -/
theorem rdTrailing_yields (f : StreamFlags) {r : Reader} (h : w → r.wf cap) :
    Yields (fun b r' => (b.isSome = true → f.trailing = true) ∧ (w → r'.wf cap))
      (fun e _ r' => e.classX = true ∧ (w → r'.wf cap)) (fun f => w → InputFault cap ibuf f) (rdTrailing ibuf f r) := by
  unfold rdTrailing
  by_cases ht : f.trailing = true
  · rw [if_pos ht]
    exact (rdBits_keeps w cap ibuf 8 r h).bind fun _ _ h' => ⟨fun _ => ht, h'⟩
  · rw [if_neg ht]
    exact ⟨(fun hn => nomatch hn), h⟩

/-- A parsed header meets the checks of R234: a trailing byte only in a wide stream, no length above `MAX_CODE_LEN`. -/
def Header.Checked (hd : Header) : Prop :=
  (hd.trailing.isSome = true → (StreamFlags.ofNat hd.flags).wide = true) ∧ ∀ e ∈ hd.table, e.len ≤ maxCodeLen

/-- The codes of a checked table keep its lengths, none of which is above `MAX_CODE_LEN` (R234). -/
theorem len_le_of_tableOk {es : List Entry} (h : tableOk es = true) : ∀ e ∈ assignCodes es, e.len ≤ maxCodeLen := by
  intro e he
  have hl := List.mem_map_of_mem (f := Entry.len) he
  rw [assignCodes_len] at hl
  exact ((tableOk_iff es).mp h).1 e.len hl

theorem rdHeader_yields (src : Nat) {r : Reader} (h : w → r.wf cap) :
    Yields (fun hd r' => hd.Checked ∧ (w → r'.wf cap)) (fun e _ r' => e.classX = true ∧ (w → r'.wf cap))
      (fun f => w → InputFault cap ibuf f) (rdHeader src ibuf r) := by
  refine (rdBits_keeps w cap ibuf 8 r h).bind fun v r1 h1 => Yields.require_bind (fun _ => ⟨rfl, h1⟩) fun hflags => ?_
  refine (rdTrailing_yields w cap ibuf _ h1).bind fun trailing r2 ⟨htr, h2⟩ => ?_
  refine (rdCount_keeps w cap ibuf _ r2 h2).bind fun cnt r3 h3 => ?_
  refine (rdBits_keeps w cap ibuf 32 r3 h3).bind fun si r4 h4 => ?_
  refine (rdBits_keeps w cap ibuf _ r4 h4).bind fun sl r5 h5 => Yields.require_bind (fun _ => ⟨rfl, h5⟩) fun _ => ?_
  refine (rdEntries_keeps w cap ibuf _ _ cnt r5 h5).bind fun es r6 h6 => ?_
  refine Yields.require_bind (fun _ => ⟨rfl, h6⟩) fun hok => ?_
  exact ⟨⟨fun hs => hflags.2 (htr hs), len_le_of_tableOk hok⟩, h6⟩

theorem descend_keeps (t : Trie) (p : Nat) : KeepsReader w cap ibuf (descend ibuf t p) := by
  induction t generalizing p with
  | missing => exact Keeps.raiseError fun _ h => ⟨rfl, h⟩
  | leaf s => exact Keeps.pure s
  | node l r ihl ihr =>
    exact Keeps.get.bind fun rd => (Keeps.require fun _ h => ⟨rfl, h⟩).bind fun _ =>
      (rdBits_keeps w cap ibuf 1).bind fun b => Keeps.ite (ihl _) (ihr _)

end

end Sys2Proof.Machine
end

section
/-! PROOFS. The writer's actions: what they leave of OBUF and, in a state that meets it, the writer's invariant
(spec/10_state.md R36, spec/41_bitstream.md R105 to R109); they raise class X errors only. -/

namespace Sys2Proof.Machine

variable {α : Type}

/-! ## The output port's invariant -/

/-- The writer's invariant, and OBUF in canonical form inside its capacity (spec/10_state.md R36, spec/20_memory.md
R60). -/
structure OutPort.Wf (cap : Nat) (o : OutPort) : Prop where
  writer : o.wr.wf cap
  canonical : o.obuf.wf = true
  below : Memory.Below cap o.obuf

/-- The port as a class X error leaves it: the writer IDLE (spec/60_exceptions.md R278). -/
def OutPort.idled (o : OutPort) : OutPort := { o with wr := { o.wr with st := .idle } }

theorem OutPort.Wf.idled {cap : Nat} {o : OutPort} (h : o.Wf cap) : o.idled.Wf cap := by
  obtain ⟨⟨hcnt, hacc, hin, hwhole, hbits, -⟩, hcan, hbelow⟩ := h
  exact ⟨⟨hcnt, hacc, hin, hwhole, hbits, fun h => absurd rfl h⟩, hcan, hbelow⟩

/-- A writer that meets its invariant and is not IDLE is ready for more bits. -/
theorem OutPort.Wf.ready {cap : Nat} {o : OutPort} (h : o.Wf cap) (hst : o.wr.st ≠ .idle) : o.wr.Ready cap := by
  obtain ⟨-, hacc, hin, hwhole, -, hlt⟩ := h.writer
  exact ⟨hlt hst, hacc, hin, hwhole⟩

/-- Initialising the writer inside OBUF sets up its invariant, whatever it was before (R105). -/
theorem OutPort.wf_init {cap base : Nat} {obuf : Memory} (g : Gran) (hb : base ≤ cap) (hcan : obuf.wf = true)
    (hbelow : Memory.Below cap obuf) :
    OutPort.Wf cap { wr := { st := .active, gran := g, base := base, acc := 0, cnt := 0, out := 0, bits := 0 }
                     obuf := obuf } :=
  ⟨⟨Nat.zero_le _, Nat.one_pos, hb, Nat.zero_mod _, Nat.zero_le _, fun _ => granBits_pos g⟩, hcan, hbelow⟩

/-- Appending bits keeps the invariant, while less than a unit is pending or the writer is IDLE. -/
theorem Emits.outPort_wf {cap e : Nat} {o o' : OutPort} {bs : List Bool} (he : Emits cap o o' bs e) (h : o.Wf cap)
    (hcnt : o'.wr.cnt ≤ 63) (hlt : o'.wr.st ≠ .idle → o'.wr.cnt < granBits o'.wr.gran) : o'.Wf cap := by
  obtain ⟨-, -, -, hwhole, hbits, -⟩ := h.writer
  have hle := he.le_cnt
  have hg := granBits_div o.wr.gran
  have hin := he.inside
  refine ⟨⟨hcnt, ?_, ?_, ?_, ?_, hlt⟩, he.wf h.canonical, he.below h.below⟩
  · rw [he.cnt_eq]
    exact he.acc_lt
  · rw [he.base_eq, he.out_eq]
    omega
  · rw [he.gran_eq, he.out_eq, Nat.add_mul_mod_self_left]
    exact hwhole
  · rw [he.bits_eq, he.out_eq, he.cnt_eq, Nat.mul_add, ← Nat.mul_assoc, hg]
    omega

/-- An action that only appends bits keeps the invariant; where it overflows OBUF the port is as an IDLE writer's. -/
theorem Writes.yields_wf {cap : Nat} {x : Act OutPort α} {bs : List Bool} {a : α} (hx : Writes cap x bs a) {o : OutPort}
    (h : o.Wf cap) (hst : o.wr.st ≠ .idle) :
    Yields (fun _ o' => o'.Wf cap) (fun _ _ o' => o'.idled.Wf cap) (fun _ => True) (x o) := by
  have hr := h.ready hst
  rcases hx o hr with ⟨o', hok, he⟩ | ⟨e, o', pre, herr, -, -, -, he, hc⟩
  · have hready := he.ready hr.whole rfl
    have hgl := granBits_le o'.wr.gran
    have hcl := hready.cnt_lt
    rw [hok]
    exact he.outPort_wf h (by omega) fun _ => hcl
  · rw [herr]
    exact Emits.outPort_wf (o := o.idled) (o' := o'.idled)
      ⟨by rw [OutPort.idled, he.wr_eq]; rfl, he.le_cnt, he.acc_lt, he.stream, he.inside, he.same, he.written, he.wf,
        he.below⟩ h.idled hc fun hne => absurd rfl hne

/-! ## What appending leaves of OBUF -/

/-- `o'` is `o` after more output: nothing below the next byte's address changed. -/
structure OutPort.Extends (o o' : OutPort) : Prop where
  st_eq : o'.wr.st = o.wr.st
  tip_le : o.wr.base + o.wr.out ≤ o'.wr.base + o'.wr.out
  same : ∀ a < o.wr.base + o.wr.out, o'.obuf.read a = o.obuf.read a

theorem OutPort.Extends.refl (o : OutPort) : o.Extends o := ⟨rfl, Nat.le_refl _, fun _ _ => rfl⟩

theorem OutPort.Extends.trans {o o' o'' : OutPort} (h : o.Extends o') (h' : o'.Extends o'') : o.Extends o'' :=
  ⟨h'.st_eq.trans h.st_eq, h.tip_le.trans h'.tip_le,
    fun a ha => (h'.same a (Nat.lt_of_lt_of_le ha h.tip_le)).trans (h.same a ha)⟩

/-- The outcome of an action that only adds output: an error is of class X, and there is no fault. -/
abbrev YieldsExtended (o : OutPort) : EStateM.Result Stop OutPort α → Prop :=
  Yields (fun _ o' => o.Extends o') (fun e _ o' => e.classX = true ∧ o.Extends o') (fun _ => False)

theorem YieldsExtended.of_extends {o o' : OutPort} {r : EStateM.Result Stop OutPort α} (h : o.Extends o')
    (hr : YieldsExtended o' r) : YieldsExtended o r :=
  hr.imp (fun _ _ => h.trans) (fun _ _ _ he => ⟨he.1, h.trans he.2⟩) fun _ => id

theorem emit_extends (cap : Nat) (u : DWord) (o : OutPort) : YieldsExtended o (emit cap u o) := by
  rw [emit_apply]
  split
  · refine ⟨rfl, Nat.add_le_add_left (Nat.le_add_right ..) _, fun a ha => ?_⟩
    exact Memory.writeList_sameOutside _ _ _ a (.inl ha)
  · exact ⟨rfl, .refl o⟩

theorem emitUnits_extends (cap n : Nat) (o : OutPort) : YieldsExtended o (emitUnits cap n o) := by
  induction n generalizing o with
  | zero => exact OutPort.Extends.refl o
  | succ n ih =>
    refine (emit_extends cap _ o).bind fun _ o1 h1 => ?_
    simp only [Act.bind_apply, Act.modify_apply]
    refine YieldsExtended.of_extends ?_ (ih _)
    exact h1.trans ⟨rfl, Nat.le_refl _, fun _ _ => rfl⟩

theorem wrBits_extends (cap : Nat) (v : Word) (n : Nat) (o : OutPort) : YieldsExtended o (wrBits cap v n o) := by
  simp only [wrBits, Act.bind_apply, Act.modify_apply, Act.get_apply]
  refine YieldsExtended.of_extends ?_ (emitUnits_extends cap _ _)
  exact ⟨rfl, Nat.le_refl _, fun _ _ => rfl⟩

/-- Ending the stream leaves the bytes below the next one alone, like appending (R108). -/
theorem wrFinish_same (cap : Nat) (o : OutPort) :
    Yields (fun _ o' => ∀ a < o.wr.base + o.wr.out, o'.obuf.read a = o.obuf.read a)
      (fun e _ o' => e.classX = true ∧ ∀ a < o.wr.base + o.wr.out, o'.obuf.read a = o.obuf.read a) (fun _ => False)
      (wrFinish cap o) := by
  unfold wrFinish
  simp only [Act.bind_apply, Act.get_apply]
  split
  · refine Yields.bind ((emit_extends cap _ o).imp (fun _ _ h => h.same) (fun _ _ _ h => ⟨h.1, h.2.same⟩)
      fun _ => id) ?_
    exact fun _ o1 h => h
  · exact fun _ _ => rfl

/-! ## Appending to an active writer -/

/-- The port while a command appends to an ACTIVE writer's stream: output goes to addresses from `d` up, below which
OBUF reads as `m`, and the invariant stands if it stood before (`w`). -/
structure Appending (w : Prop) (cap d : Nat) (m : Memory) (o : OutPort) : Prop where
  active : o.wr.st = .active
  tip : d ≤ o.wr.base + o.wr.out
  kept : ∀ a < d, o.obuf.read a = m.read a
  wf : w → o.Wf cap

/-- The port where such a command stops with an error, which is of class X. -/
structure AppendStopped (w : Prop) (cap d : Nat) (m : Memory) (e : ErrorCode) (o : OutPort) : Prop where
  classX : e.classX = true
  kept : ∀ a < d, o.obuf.read a = m.read a
  wf : w → o.idled.Wf cap

/-- The action carries `Appending` to its end. -/
abbrev KeepsAppending (w : Prop) (cap d : Nat) (m : Memory) (F : Fault → Prop) (x : Act OutPort α) : Prop :=
  Keeps (Appending w cap d m) (fun e _ => AppendStopped w cap d m e) F x

section
variable {w : Prop} {cap d : Nat} {m : Memory} {F : Fault → Prop}

theorem wrBits_keeps (v : Word) {n : Nat} (hn : w → n ≤ 32) : KeepsAppending w cap d m F (wrBits cap v n) := by
  intro o h
  have hwf : Yields (fun _ o' => w → o'.Wf cap) (fun _ _ o' => w → o'.idled.Wf cap) (fun _ => True)
      (wrBits cap v n o) := by
    by_cases hw : w
    · exact ((wrBits_writes cap v (hn hw)).yields_wf (h.wf hw) (by simp [h.active])).imp (fun _ _ h _ => h)
        (fun _ _ _ h _ => h) fun _ _ => trivial
    · exact (Yields.trivial _).imp (fun _ _ _ h => absurd h hw) (fun _ _ _ _ h => absurd h hw) fun _ _ => trivial
  refine ((wrBits_extends cap v n o).and hwf).imp ?_ ?_ fun _ hf => hf.1.elim
  · rintro _ o' ⟨he, ho⟩
    exact ⟨he.st_eq.trans h.active, h.tip.trans he.tip_le,
      fun a ha => (he.same a (Nat.lt_of_lt_of_le ha h.tip)).trans (h.kept a ha), ho⟩
  · rintro _ _ o' ⟨⟨hX, he⟩, ho⟩
    exact ⟨hX, fun a ha => (he.same a (Nat.lt_of_lt_of_le ha h.tip)).trans (h.kept a ha), ho⟩

theorem wrLong_keeps (v : DWord) {n : Nat} (hn : w → n ≤ 64) : KeepsAppending w cap d m F (wrLong cap v n) := by
  unfold wrLong
  split
  · exact (wrBits_keeps _ fun hw => by have := hn hw; omega).bind fun _ => wrBits_keeps _ fun _ => Nat.le_refl _
  · exact wrBits_keeps _ fun _ => by omega

/-- A run length up to `M_t` has a bucket, whose codeword is written (R144). -/
theorem encCw_keeps {c : Config} {t len : Nat} (hc : w → LegalCodebook c ∧ t ≤ 5) (hl : len ≤ longestRun c t) :
    KeepsAppending w c.obufBytes d m F (encCw c t len) := by
  obtain ⟨i, hi, hb⟩ := exists_bucketOf hl
  have hle (hw : w) : prefixBits c i + payloadBits c t i ≤ 32 := (hc hw).1.codewordBits_le t (hc hw).2 i hi
  unfold encCw
  simp only [hb]
  exact (wrBits_keeps _ fun hw => by have := hle hw; omega).bind fun _ =>
    (wrBits_keeps _ fun hw => by have := hle hw; omega).bind fun _ => Keeps.pure i

theorem encCws_keeps {c : Config} {t : Nat} (hc : w → LegalCodebook c ∧ t ≤ 5) {vs : List Nat}
    (hv : ∀ v ∈ vs, v ≤ longestRun c t) : KeepsAppending w c.obufBytes d m F (encCws c t vs) := by
  induction vs with
  | nil => exact Keeps.pure ()
  | cons v vs ih =>
    exact (encCw_keeps hc (hv v (List.mem_cons_self ..))).bind fun _ => ih fun x hx => hv x (List.mem_cons_of_mem _ hx)

theorem emitRun_keeps {c : Config} {t : Nat} (hc : w → LegalCodebook c ∧ t ≤ 5) (len : Nat) :
    KeepsAppending w c.obufBytes d m F (emitRun c t len) := encCws_keeps hc runCodewords_le

/-- The pixel scan reads its `n` bytes from address `a` and appends (R148, R153). -/
theorem encScan_keeps {c : Config} {t : Nat} (hc : w → LegalCodebook c ∧ t ≤ 5) {ibuf : Memory} {n a : Nat}
    (hF : ∀ x < a + n, ibuf.read x = none → F (.unwrittenIbuf x)) (cur : Bool) (run : Nat) :
    KeepsAppending w c.obufBytes d m F (encScan c t ibuf n a cur run) := by
  induction n generalizing a cur run with
  | zero => exact Keeps.ite (emitRun_keeps hc run) (Keeps.pure ())
  | succ n ih =>
    have ih := ih (a := a + 1) fun x hx => hF x (by omega)
    refine Keeps.bind (fun o h => Yields.ibufByte (fun _ => h) (hF a (by omega))) fun b => ?_
    exact Keeps.ite (ih _ _) ((emitRun_keeps hc run).bind fun _ => ih _ _)

theorem wrSymbol_keeps {es : List Entry} (h : w → ∀ e ∈ es, e.len ≤ maxCodeLen) (x : Sym) :
    KeepsAppending w cap d m F (wrSymbol cap es x) := by
  unfold wrSymbol
  cases hf : entryOf es x with
  | none => exact Keeps.pure ()
  | some e => exact wrLong_keeps _ fun hw => h hw e (entryOf_eq_some hf).1

theorem wrSymbols_keeps {es : List Entry} (h : w → ∀ e ∈ es, e.len ≤ maxCodeLen) (xs : List Nat) :
    KeepsAppending w cap d m F (wrSymbols cap es xs) := by
  induction xs with
  | nil => exact Keeps.pure ()
  | cons x xs ih => exact (wrSymbol_keeps h _).bind fun _ => ih

theorem wrEntries_keeps {sw lw : Nat} (hs : sw ≤ 32) (hl : lw ≤ 32) (es : List Entry) :
    KeepsAppending w cap d m F (wrEntries cap sw lw es) := by
  induction es with
  | nil => exact Keeps.pure ()
  | cons e es ih =>
    unfold wrEntries
    split
    · exact (wrBits_keeps _ fun _ => hs).bind fun _ => (wrBits_keeps _ fun _ => hl).bind fun _ => ih
    · exact (Keeps.pure ()).bind fun _ => ih

theorem wrHeader_keeps (h : Huffman) (b : Bool) : KeepsAppending w cap d m F (wrHeader cap h b) :=
  (wrBits_keeps _ fun _ => by decide).bind fun _ =>
    (Keeps.ite (wrBits_keeps _ fun _ => by decide) (Keeps.pure ())).bind fun _ =>
      (Keeps.ite (wrBits_keeps _ fun _ => fieldWidth_le _) (Keeps.pure ())).bind fun _ =>
        (wrBits_keeps _ fun _ => by decide).bind fun _ => (wrBits_keeps _ fun _ => fieldWidth_le _).bind fun _ =>
          wrEntries_keeps (fieldWidth_le _) (fieldWidth_le _) _

/-- Ending the stream (R108): the invariant stands with nothing pending. -/
theorem wrFinish_yields {o : OutPort} (h : Appending w cap d m o) :
    Yields (fun _ o' => (∀ a < d, o'.obuf.read a = m.read a) ∧ (w → o'.Wf cap))
      (fun e _ => AppendStopped w cap d m e) F (wrFinish cap o) := by
  have hwf : Yields (fun _ o' => w → o'.Wf cap) (fun _ _ o' => w → o'.idled.Wf cap) (fun _ => True)
      (wrFinish cap o) := by
    by_cases hw : w
    · have hwf := h.wf hw
      obtain ⟨-, -, -, hwhole, hbits, -⟩ := hwf.writer
      have hr := hwf.ready (by simp [h.active])
      have hlt := hr.cnt_lt
      have hg := granBits_div o.wr.gran
      rcases wrFinish_cases hr with ⟨obuf, hin, hok, -, -, -, hcan, hbelow⟩ | ⟨-, -, herr⟩
      · rw [hok]
        refine fun _ => ⟨⟨Nat.zero_le _, Nat.one_pos, Nat.add_assoc .. ▸ hin, ?_, ?_, fun _ => granBits_pos _⟩,
          hcan hwf.canonical, hbelow hwf.below⟩
        · show (o.wr.out + if o.wr.cnt = 0 then 0 else granBits o.wr.gran / 8) % (granBits o.wr.gran / 8) = 0
          split
          · exact hwhole
          · rw [Nat.add_mod_right]
            exact hwhole
        · show o.wr.bits ≤ 8 * (o.wr.out + if o.wr.cnt = 0 then 0 else granBits o.wr.gran / 8) + 0
          split <;> omega
      · rw [herr]
        exact fun _ => hwf.idled
    · exact (Yields.trivial _).imp (fun _ _ _ h => absurd h hw) (fun _ _ _ _ h => absurd h hw) fun _ _ => trivial
  refine ((wrFinish_same cap o).and hwf).imp ?_ ?_ fun _ hf => hf.1.elim
  · rintro _ o' ⟨hs, ho⟩
    exact ⟨fun a ha => (hs a (Nat.lt_of_lt_of_le ha h.tip)).trans (h.kept a ha), ho⟩
  · rintro _ _ o' ⟨⟨hX, hs⟩, ho⟩
    exact ⟨hX, fun a ha => (hs a (Nat.lt_of_lt_of_le ha h.tip)).trans (h.kept a ha), ho⟩

end

end Sys2Proof.Machine
end

section
/-! PROOFS. The Huffman unit's invariant (spec/10_state.md R35, R38, R40, R41) through each operation of its commands.
-/

namespace Sys2Proof.Machine

/-! ## Histogram and tree -/

/-- A symbol of an input is below 65536 (spec/43_huffman_build.md R190). -/
theorem inputSymbols_lt (wide : Bool) (bs : List Byte) : ∀ x ∈ inputSymbols wide bs, x < 65536 := by
  have hwide (bs : List Byte) : ∀ x ∈ wideSymbols bs, x < 65536 := by
    induction bs using wideSymbols.induct with
    | case1 a b bs ih =>
      intro x hx
      rcases List.mem_cons.mp hx with rfl | hx
      · have := a.isLt
        have := b.isLt
        omega
      · exact ih x hx
    | case2 bs hno =>
      intro x hx
      unfold wideSymbols at hx
      split at hx
      · exact absurd rfl (hno _ _ _)
      · simp at hx
  cases wide with
  | true => exact hwide bs
  | false =>
    intro x hx
    obtain ⟨b, _, rfl⟩ := List.mem_map.mp hx
    have := b.isLt
    omega

/-- The histogram's part of the invariant, which a class X error and a soft reset keep (spec/10_state.md R38). -/
theorem histogram_symbols_lt {wide : Bool} {bs : List Byte} :
    ∀ p ∈ histogram (inputSymbols wide bs), p.1 < 65536 := fun _ hp =>
  inputSymbols_lt wide bs _ ((mem_histogram _ _).mp (List.mem_map_of_mem hp))

/-- An insertion leaves no empty list. -/
theorem insertNode_ne_nil (l : List HuffTree) (z : HuffTree) : insertNode l z ≠ [] := by
  intro h
  have := insertNode_length l z
  rw [h] at this
  simp at this

theorem mergeSteps_ne_nil {n : Nat} {l : List HuffTree} (h : l ≠ []) : mergeSteps n l ≠ [] := by
  induction n generalizing l with
  | zero => exact h
  | succ n ih =>
    refine ih ?_
    unfold mergeStep
    split
    · exact insertNode_ne_nil _ _
    · exact h

/-- A histogram has a tree: the sentinel's leaf is always there (spec/43_huffman_build.md R193). -/
theorem buildTree_isSome (h : List (Nat × Nat)) : (buildTree h).isSome = true := by
  have hne : initialNodes h ≠ [] := by
    intro he
    have := (initialNodes_sorted h).2.length_eq
    rw [he] at this
    simp [leaves] at this
  rw [buildTree, Option.isSome_iff_ne_none, ne_eq, List.head?_eq_none_iff]
  exact mergeSteps_ne_nil hne

/-! ## The invariant -/

/-- With every flag clear the invariant speaks of the counts only. -/
theorem Huffman.reset_wf {hist : List (Nat × Nat)} {nsym : Nat} (hh : histWf hist = true)
    (hs : ∀ p ∈ hist, p.1 < 65536) : (Huffman.reset hist nsym).wf :=
  ⟨nofun, nofun, nofun, fun _ => rfl, nofun, nofun, fun _ _ => rfl, nofun, hh, hs, nofun⟩

/-- A class X error or a soft reset keeps the invariant. -/
theorem Huffman.wf.reset {h : Huffman} (hw : h.wf) : (Huffman.reset h.hist h.nsym).wf := by
  obtain ⟨-, -, -, -, -, -, -, -, hh, hs, -⟩ := hw
  exact Huffman.reset_wf hh hs

/-- `HUF_HIST` sets up the invariant (R191). -/
theorem histHuffman_wf (wide : Bool) (bs : List Byte) : (histHuffman wide bs).wf := by
  refine ⟨nofun, nofun, ?_, ?_, nofun, nofun, fun _ _ => rfl,
    nofun, histogram_wf _, histogram_symbols_lt, fun _ => histogram_sum _⟩
  · intro ht
    exact (Bool.and_eq_true_iff.mp (show (wide && decide (bs.length % 2 = 1)) = true from ht)).1
  · intro ht
    show (if hasTrailing wide bs = true then bs.getLastD 0 else 0) = 0
    rw [if_neg (by rw [show hasTrailing wide bs = false from ht]; exact Bool.false_ne_true)]

/-- `HUF_TREE` keeps the invariant (R196). -/
theorem treeHuffman_wf {h : Huffman} (hw : h.wf) (hv : h.histV = true) : (treeHuffman h).wf := by
  obtain ⟨-, -, hwide, htrail, -, -, -, -, hh, hs, hsum⟩ := hw
  exact ⟨fun _ => hv, nofun, hwide, htrail, fun _ => buildTree_isSome _, nofun,
    nofun, nofun, hh, hs, hsum⟩

/-- `HUF_CODES` keeps the invariant (R201). -/
theorem codesHuffman_wf {h : Huffman} {tb : List Entry} (hw : h.wf) (hl : longestCode tb ≤ maxCodeLen) :
    (codesHuffman tb h).wf := by
  obtain ⟨htree, -, hwide, htrail, hsome, -, -, -, hh, hs, hsum⟩ := hw
  exact ⟨htree, nofun, hwide, htrail, hsome, fun _ => rfl, fun _ => nofun,
    fun _ => (longestCode_le tb maxCodeLen).mp hl, hh, hs, hsum⟩

/-- `HUF_CANON` keeps the invariant (R203). -/
theorem canonHuffman_wf {h : Huffman} (hw : h.wf) (hv : h.codesV = true) : (canonHuffman h).wf := by
  obtain ⟨htree, -, hwide, htrail, hsome, hlen, -, hmax, hh, hs, hsum⟩ := hw
  have hperm := canonicalise_perm h.ctab
  refine ⟨htree, fun _ => hv, hwide, htrail, hsome, fun _ => ?_, fun _ hc => absurd (hv.symm.trans hc) (by decide),
    fun _ e he => ?_, hh, hs, hsum⟩
  · have := hperm.length_eq
    simp only [List.length_map] at this
    exact this.trans (hlen hv)
  · obtain ⟨f, hf, hfe⟩ := List.mem_map.mp (hperm.mem_iff.mp (List.mem_map_of_mem he))
    rw [← (Prod.mk.inj hfe).2]
    exact hmax hv f hf

/-- `HUF_DEC` keeps the invariant: the parsed table has passed the checks of R234 (R238). -/
theorem decodedHuffman_wf {hd : Header} {h : Huffman} (hw : h.wf) (hc : hd.Checked) : (decodedHuffman hd h).wf := by
  obtain ⟨-, -, -, -, -, -, -, -, hh, hs, -⟩ := hw
  refine ⟨nofun, fun _ => rfl, hc.1, ?_, nofun, fun _ => rfl, fun _ => nofun,
    fun _ => hc.2, hh, hs, nofun⟩
  intro hn
  show hd.trailing.getD 0 = 0
  rw [Option.not_isSome_iff_eq_none.mp (Bool.eq_false_iff.mp hn), Option.getD_none]

end Sys2Proof.Machine
end

section
/-! PROOFS. What a command can do, said once for all 21 of them: `During` holds of every state its rule passes through,
`Raised` of the state in which it stops with an error, and `Completes` of the outcome (spec/60_exceptions.md R274 to
R278). -/

namespace Sys2Proof.Machine

variable {α β : Type}

/-! ## The states a command passes through -/

/-- The units meet their invariants, in a legal codebook (spec/10_state.md R36 to R42). -/
structure UnitsWf (s : State) : Prop where
  codebook : LegalCodebook s.cfg
  port : s.out.Wf s.cfg.obufBytes
  reader : s.inp.rd.wf s.cfg.ibufBytes
  huffman : s.huf.wf

/-- `t` is a state the rule of a command accepted in `s` passes through, where `K` are OBUF addresses that the command
does not write: nothing but the units and OBUF has changed, and each invariant stands if it stood in `s`. -/
structure During (s : State) (K : Nat → Prop) (t : State) : Prop where
  frame : BodyFrame s t
  kept : ∀ a, K a → t.out.obuf.read a = s.out.obuf.read a
  reader : s.inp.rd.wf s.cfg.ibufBytes → t.inp.rd.wf s.cfg.ibufBytes
  port : UnitsWf s → t.out.Wf s.cfg.obufBytes
  huffman : UnitsWf s → t.huf.wf

/-- `t` is a state in which that rule stops with a class X error: as `During`, but for what the error clears
(spec/60_exceptions.md R278). -/
structure Stopped (s : State) (K : Nat → Prop) (t : State) : Prop where
  frame : BodyFrame s t
  kept : ∀ a, K a → t.out.obuf.read a = s.out.obuf.read a
  reader : s.inp.rd.wf s.cfg.ibufBytes → t.inp.rd.wf s.cfg.ibufBytes
  port : UnitsWf s → t.out.idled.Wf s.cfg.obufBytes
  huffman : UnitsWf s → (Huffman.reset t.huf.hist t.huf.nsym).wf

/-- The command accepted in `s` raises `e` at `pos` in the state `t`: a class C error at position 0 with nothing
changed, or a class X error while the rule runs (spec/60_exceptions.md R275 to R278). -/
inductive Raised (s : State) (K : Nat → Prop) (e : ErrorCode) (pos : Nat) (t : State) : Prop
  | check (hC : e.classC) (hpos : pos = 0) (hsame : t = s)
  | execution (hX : e.classX = true) (h : Stopped s K t)

/-- The fault of a command accepted in `s` whose reader meets its invariant is an unwritten byte of IBUF. -/
def Stuck (s : State) (f : Fault) : Prop :=
  s.inp.rd.wf s.cfg.ibufBytes → InputFault s.cfg.ibufBytes s.inp.ibuf f

/-- The outcome of a command's rule run in a state that `s` led to. -/
abbrev YieldsDuring (s : State) (K : Nat → Prop) : EStateM.Result Stop State α → Prop :=
  Yields (fun _ => During s K) (Raised s K) (Stuck s)

/-- An action that a command's rule can run in any state it passes through. -/
abbrev KeepsDuring (s : State) (K : Nat → Prop) : Act State α → Prop :=
  Keeps (During s K) (Raised s K) (Stuck s)

section
variable {s t : State} {K : Nat → Prop} {E : ErrorCode → Nat → State → Prop} {F : Fault → Prop}

theorem During.refl (s : State) (K : Nat → Prop) : During s K s :=
  ⟨.refl s, fun _ _ => rfl, id, UnitsWf.port, UnitsWf.huffman⟩

theorem During.stopped (h : During s K t) : Stopped s K t :=
  ⟨h.frame, h.kept, h.reader, fun hw => (h.port hw).idled, fun hw => (h.huffman hw).reset⟩

theorem During.raised (h : During s K t) {e : ErrorCode} (hX : e.classX = true) (pos : Nat) : Raised s K e pos t :=
  .execution hX h.stopped

theorem BodyFrame.cfg_eq (h : BodyFrame s t) : t.cfg = s.cfg := by rw [h]

theorem BodyFrame.ibuf_eq (h : BodyFrame s t) : t.inp.ibuf = s.inp.ibuf := by rw [h]

/-! ## Checks before a command changes anything (spec/60_exceptions.md R277) -/

/-- Checks that read the state, as `requireWriter` and its like do. -/
theorem Yields.check_bind {Q : α → State → Prop} {c : Act State Unit} {f : Unit → Act State α} {p : Prop} [Decidable p]
    {e : ErrorCode} (hc : c s = if p then .ok () s else .error (.raised e 0) s) (hC : e.classC)
    (hok : p → Yields Q (Raised s K) F (f () s)) : Yields Q (Raised s K) F ((c >>= f) s) := by
  rw [Act.bind_apply, hc]
  by_cases hp : p
  · rw [if_pos hp]
    exact hok hp
  · rw [if_neg hp]
    exact .check hC rfl rfl

theorem requireWriter_apply (s : State) :
    requireWriter s = if s.out.wr.st = .active then .ok () s else .error (.raised .sequenceError 0) s :=
  require_apply ..

theorem requireReader_apply (s : State) :
    requireReader s = if s.inp.rd.st = .active then .ok () s else .error (.raised .sequenceError 0) s :=
  require_apply ..

theorem requireHist_apply (s : State) :
    requireHist s = if s.huf.histV = true then .ok () s else .error (.raised .sequenceError 0) s := require_apply ..

theorem requireCodes_apply (s : State) :
    requireCodes s = if s.huf.codesV = true then .ok () s else .error (.raised .sequenceError 0) s := require_apply ..

theorem ErrorCode.classC_illegalArgument : ErrorCode.classC .illegalArgument := .inr (.inr (.inl rfl))

theorem ErrorCode.classC_sequenceError : ErrorCode.classC .sequenceError := .inr (.inr (.inr (.inl rfl)))

theorem ErrorCode.classC_bufferBounds : ErrorCode.classC .bufferBounds := .inr (.inr (.inr (.inr rfl)))

/-! ## One unit changes -/

theorem During.withReader (h : During s K t) {r : Reader}
    (hr : s.inp.rd.wf s.cfg.ibufBytes → r.wf s.cfg.ibufBytes) :
    During s K { t with inp := { t.inp with rd := r } } :=
  ⟨h.frame.trans _ _ _ rfl, h.kept, hr, h.port, h.huffman⟩

theorem Stopped.withReader (h : Stopped s K t) {r : Reader}
    (hr : s.inp.rd.wf s.cfg.ibufBytes → r.wf s.cfg.ibufBytes) :
    Stopped s K { t with inp := { t.inp with rd := r } } :=
  ⟨h.frame.trans _ _ _ rfl, h.kept, hr, h.port, h.huffman⟩

theorem During.withHuffman (h : During s K t) {g : Huffman} (hg : UnitsWf s → g.wf) : During s K { t with huf := g } :=
  ⟨h.frame.trans _ _ _ rfl, h.kept, h.reader, h.port, hg⟩

theorem During.withOut (h : During s K t) {o : OutPort} (hk : ∀ a, K a → o.obuf.read a = s.out.obuf.read a)
    (ho : UnitsWf s → o.Wf s.cfg.obufBytes) : During s K { t with out := o } :=
  ⟨h.frame.trans _ _ _ rfl, hk, h.reader, ho, h.huffman⟩

/-- Bytes stored inside OBUF above every address to be kept. -/
theorem During.withBytes (h : During s K t) {a : Nat} {bs : List Byte} (hK : ∀ x, K x → x < a)
    (hin : a + bs.length ≤ s.cfg.obufBytes) :
    During s K { t with out := { t.out with obuf := t.out.obuf.writeList a bs } } := by
  refine h.withOut (fun x hx => ?_) fun hw => ?_
  · exact (Memory.writeList_sameOutside _ _ _ x (.inl (hK x hx))).trans (h.kept x hx)
  · obtain ⟨hwr, hcan, hbelow⟩ := h.port hw
    exact ⟨hwr, Memory.wf_writeList hcan a bs, hbelow.writeList hin⟩

theorem During.storeBytes_yields (h : During s K t) {a : Nat} {bs : List Byte} (hK : ∀ x, K x → x < a)
    (hin : a + bs.length ≤ s.cfg.obufBytes) : YieldsDuring s K (storeBytes a bs t) := h.withBytes hK hin

/-- The writer initialised inside OBUF. -/
theorem During.withWriter (h : During s K t) {base : Nat} (g : Gran) (hb : base ≤ s.cfg.obufBytes) :
    During s K { t with out := { t.out with wr :=
      { st := .active, gran := g, base := base, acc := 0, cnt := 0, out := 0, bits := 0 } } } :=
  h.withOut h.kept fun hw => OutPort.wf_init g hb (h.port hw).canonical (h.port hw).below

/-! ## Actions of a rule -/

theorem Yields.onReader {Q : α → State → Prop} {x : Memory → Act Reader α}
    (h : Yields (fun a r => Q a { t with inp := { t.inp with rd := r } })
      (fun e pos r => E e pos { t with inp := { t.inp with rd := r } }) F (x t.inp.ibuf t.inp.rd)) :
    Yields Q E F (Machine.onReader x t) := by
  rw [onReader_apply]
  match x t.inp.ibuf t.inp.rd, h with
  | .ok _ _, h => exact h
  | .error (.raised _ _) _, h => exact h
  | .error (.stuck _) _, h => exact h

theorem Yields.onOut {Q : α → State → Prop} {x : Act OutPort α}
    (h : Yields (fun a o => Q a { t with out := o }) (fun e pos o => E e pos { t with out := o }) F (x t.out)) :
    Yields Q E F (Machine.onOut x t) := by
  rw [onOut_apply]
  match x t.out, h with
  | .ok _ _, h => exact h
  | .error (.raised _ _) _, h => exact h
  | .error (.stuck _) _, h => exact h

/-- A reader action, whose answers meet `A`. -/
theorem During.onReader_yields (h : During s K t) {A : α → Prop} {x : Memory → Act Reader α}
    (hx : Yields (fun a r => A a ∧ (s.inp.rd.wf s.cfg.ibufBytes → r.wf s.cfg.ibufBytes))
      (fun e _ r => e.classX = true ∧ (s.inp.rd.wf s.cfg.ibufBytes → r.wf s.cfg.ibufBytes)) (Stuck s)
      (x s.inp.ibuf t.inp.rd)) :
    Yields (fun a u => A a ∧ During s K u) (Raised s K) (Stuck s) (onReader x t) := by
  refine Yields.onReader ?_
  rw [h.frame.ibuf_eq]
  exact hx.imp (fun _ _ hr => ⟨hr.1, h.withReader hr.2⟩) (fun _ _ _ hr => .execution hr.1 (h.stopped.withReader hr.2))
    fun _ => id

theorem onReader_keeps {x : Memory → Act Reader α}
    (hx : KeepsReader (s.inp.rd.wf s.cfg.ibufBytes) s.cfg.ibufBytes s.inp.ibuf (x s.inp.ibuf)) :
    KeepsDuring s K (onReader x) := fun t h =>
  (h.onReader_yields (A := fun _ => True) ((hx t.inp.rd h.reader).imp_ok fun _ _ hr => ⟨trivial, hr⟩)).imp_ok
    fun _ _ hr => hr.2

theorem putBytes_keeps {a : Nat} (bs : List Byte) (hK : ∀ x, K x → x < a) :
    KeepsDuring s K (putBytes a bs) := by
  intro t h
  rw [putBytes_apply]
  split
  · rename_i hin
    rw [h.frame.cfg_eq] at hin
    exact h.withBytes hK hin
  · exact h.raised rfl a

theorem putPixels_keeps (p : Bool) {n a : Nat} (hK : ∀ x, K x → x < a) :
    KeepsDuring s K (putPixels p n a) := by
  induction n generalizing a with
  | zero => exact Keeps.pure ()
  | succ n ih => exact (putBytes_keeps _ hK).bind fun _ => ih fun x hx => Nat.lt_succ_of_lt (hK x hx)

theorem decRuns_keeps {t n dst fuel out : Nat} {cur : Bool} (hK : ∀ x, K x → x < dst) :
    KeepsDuring s K (decRuns t n dst fuel out cur) := by
  induction fuel generalizing out cur with
  | zero => exact Keeps.pure ()
  | succ fuel ih =>
    refine Keeps.ite (Keeps.get.bind fun u => (onReader_keeps (decCw_keeps _ _ _ _ _)).bind fun v => ?_) (Keeps.pure ())
    exact (Keeps.require fun _ h => h.raised rfl _).bind fun _ =>
      (putPixels_keeps _ fun x hx => Nat.lt_add_right _ (hK x hx)).bind fun _ => ih

/-- The walk goes on after the bytes it writes, which lie from `o` up (R236). -/
theorem walkSymbols_yields {trie : Trie} {wide : Bool} {fuel o : Nat} (hK : ∀ x, K x → x < o) (h : During s K t) :
    Yields (fun o' u => o ≤ o' ∧ During s K u) (Raised s K) (Stuck s) (walkSymbols trie wide fuel o t) := by
  induction fuel generalizing o t with
  | zero => exact ⟨Nat.le_refl o, h⟩
  | succ fuel ih =>
    refine (onReader_keeps (descend_keeps _ _ _ _ _) t h).bind fun x u hu => ?_
    cases x with
    | sent => exact ⟨Nat.le_refl o, hu⟩
    | ord v =>
      refine (putBytes_keeps _ hK u hu).bind fun _ u' hu' => ?_
      exact (ih (fun x hx => Nat.lt_add_right _ (hK x hx)) hu').imp_ok
        fun _ _ ho => ⟨(Nat.le_add_right ..).trans ho.1, ho.2⟩

theorem walk_yields {dst : Nat} {trie : Trie} {wide : Bool} {trailing : Option Byte} (hK : ∀ x, K x → x < dst)
    (h : During s K t) : YieldsDuring s K (walk dst trie wide trailing t) := by
  refine (walkSymbols_yields hK h).bind fun o u ⟨ho, hu⟩ => ?_
  cases trailing with
  | none => exact hu
  | some b => exact (putBytes_keeps _ (fun x hx => Nat.lt_of_lt_of_le (hK x hx) ho) u hu).bind fun _ _ h => h

/-! ## Appending output -/

/-- A rule's state while it appends to an ACTIVE writer's stream, at addresses from `d` up. -/
structure Writing (s : State) (d : Nat) (t : State) : Prop where
  during : During s (· < d) t
  active : t.out.wr.st = .active
  tip : d ≤ t.out.wr.base + t.out.wr.out

theorem Writing.appending {d : Nat} (h : Writing s d t) :
    Appending (UnitsWf s) s.cfg.obufBytes d s.out.obuf t.out :=
  ⟨h.active, h.tip, h.during.kept, h.during.port⟩

/-- A command that goes on with the stream appends from the next byte's address up. -/
theorem Writing.start (hst : s.out.wr.st = .active) : Writing s (s.out.wr.base + s.out.wr.out) s :=
  ⟨.refl s _, hst, Nat.le_refl _⟩

theorem During.appendStopped {d : Nat} (h : During s (· < d) t) {e : ErrorCode} {pos : Nat} {o : OutPort}
    (ho : AppendStopped (UnitsWf s) s.cfg.obufBytes d s.out.obuf e o) :
    Raised s (· < d) e pos { t with out := o } :=
  .execution ho.classX ⟨h.frame.trans _ _ _ rfl, ho.kept, h.reader, ho.wf, h.stopped.huffman⟩

theorem onOut_keeps {d : Nat} {x : Act OutPort α}
    (hx : KeepsAppending (UnitsWf s) s.cfg.obufBytes d s.out.obuf (Stuck s) x) :
    Keeps (Writing s d) (Raised s (· < d)) (Stuck s) (onOut x) := fun _ h =>
  Yields.onOut ((hx _ h.appending).imp
    (fun _ _ ho => ⟨h.during.withOut ho.kept ho.wf, ho.active, ho.tip⟩)
    (fun _ _ _ ho => h.during.appendStopped ho) fun _ => id)

/-- Initialising the writer starts a stream (R105). -/
theorem During.wrInit_yields {d base : Nat} (h : During s (· < d) t) (g : Gran) (hd : d ≤ base)
    (hb : base ≤ s.cfg.obufBytes) :
    Yields (fun _ => Writing s d) (Raised s (· < d)) (Stuck s) (onOut (wrInit base g) t) :=
  ⟨h.withWriter g hb, rfl, hd⟩

/-- Ending the stream (R108). -/
theorem Writing.finish_yields {d : Nat} (h : Writing s d t) :
    YieldsDuring s (· < d) (onOut (wrFinish s.cfg.obufBytes) t) :=
  Yields.onOut ((wrFinish_yields (F := Stuck s) h.appending).imp (fun _ _ ho => h.during.withOut ho.1 ho.2)
    (fun _ _ _ ho => h.during.appendStopped ho) fun _ => id)

/-- A writer action that is two, one after the other. -/
theorem onOut_bind (x : Act OutPort α) (f : α → Act OutPort β) :
    onOut (x >>= f) = (onOut x >>= fun a => onOut (f a)) := by
  funext u
  simp only [onOut_apply, Act.bind_apply]
  cases x u.out <;> rfl

/-- The stream of `HUF_ENC` from a table whose lengths are at most `MAX_CODE_LEN` (R237). -/
theorem wrStream_yields {dst : Nat} (h : During s (· < dst) t) (hb : dst ≤ s.cfg.obufBytes) (g : Huffman) (w : Bool)
    (xs : List Nat) (hl : UnitsWf s → ∀ e ∈ g.ctab, e.len ≤ maxCodeLen) :
    YieldsDuring s (· < dst) (onOut (wrStream s.cfg.obufBytes dst g w xs) t) := by
  rw [wrStream_eq]
  simp only [onOut_bind]
  refine (h.wrInit_yields .byte (Nat.le_refl _) hb).bind fun _ _ h1 => ?_
  refine (onOut_keeps (wrHeader_keeps g w) _ h1).bind fun _ _ h2 => ?_
  refine (onOut_keeps (wrSymbols_keeps hl xs) _ h2).bind fun _ _ h3 => ?_
  exact (onOut_keeps (wrSymbol_keeps hl .sent) _ h3).bind fun _ _ h4 => h4.finish_yields

/-! ## The table builder -/

/-- Counting the symbols of an IBUF range (R191). -/
theorem histBody_yields {w : Bool} {src n : Nat} (h : During s K t) (hin : src + n ≤ s.cfg.ibufBytes) :
    Yields (fun _ u => u.huf.histV = true ∧ During s K u) (Raised s K) (Stuck s) (histBody w src n t) := by
  refine Yields.get_bind ?_
  refine Yields.bind (Q := fun _ => During s K) (Yields.ibufBytes h fun k hk hno _ => ?_) fun bs u hu => ?_
  · rw [h.frame.ibuf_eq] at hno
    exact ⟨src + k, by omega, hno, rfl⟩
  · exact ⟨rfl, hu.withHuffman fun _ => histHuffman_wf w bs⟩

/-- Building the tree of a histogram; without one nothing has changed (R196). -/
theorem treeBody_yields (h : During s K t) (hv : t.huf.histV = true ∨ t = s) :
    Yields (fun _ u => (u.huf.treeV = true ∧ u.huf.tree.isSome = true) ∧ During s K u) (Raised s K) (Stuck s)
      (treeBody t) := by
  by_cases hh : t.huf.histV = true
  · rw [treeBody, Act.bind_apply, requireHist_apply, if_pos hh]
    exact ⟨⟨rfl, buildTree_isSome _⟩, h.withHuffman fun hw => treeHuffman_wf (h.huffman hw) hh⟩
  · obtain rfl := hv.resolve_left hh
    rw [treeBody, Act.bind_apply, requireHist_apply, if_neg hh]
    exact .check ErrorCode.classC_sequenceError rfl rfl

/-- Tabulating the codes of a tree; without one nothing has changed (R201). -/
theorem codesBody_yields (h : During s K t) (hv : (t.huf.treeV = true ∧ t.huf.tree.isSome = true) ∨ t = s) :
    Yields (fun _ u => u.huf.codesV = true ∧ During s K u) (Raised s K) (Stuck s) (codesBody t) := by
  have hfail (hno : ¬ (t.huf.treeV = true ∧ t.huf.tree.isSome = true)) : Raised s K .sequenceError 0 t :=
    .check ErrorCode.classC_sequenceError rfl (hv.resolve_left hno)
  refine Yields.require_bind (fun hno => hfail fun hh => hno hh.1) fun hh => ?_
  cases htree : t.huf.tree with
  | none => exact hfail fun hh => by simp [htree] at hh
  | some tree =>
    refine Yields.require_bind (fun _ => h.raised rfl 0) fun hl => ?_
    exact ⟨rfl, h.withHuffman fun hw => codesHuffman_wf (h.huffman hw) hl⟩

/-- Bringing a table into canonical form; without one nothing has changed (R203). -/
theorem canonBody_yields (h : During s K t) (hv : t.huf.codesV = true ∨ t = s) :
    Yields (fun _ u => u.huf.codesV = true ∧ During s K u) (Raised s K) (Stuck s) (canonBody t) := by
  by_cases hh : t.huf.codesV = true
  · rw [canonBody, Act.bind_apply, requireCodes_apply, if_pos hh]
    exact ⟨hh, h.withHuffman fun hw => canonHuffman_wf (h.huffman hw) hh⟩
  · obtain rfl := hv.resolve_left hh
    rw [canonBody, Act.bind_apply, requireCodes_apply, if_neg hh]
    exact .check ErrorCode.classC_sequenceError rfl rfl

end

end Sys2Proof.Machine
end

section
/-! PROOFS. Each command's outcome, and with it what every completion leaves (spec/60_exceptions.md R274 to R279). -/

namespace Sys2Proof.Machine

/-! ## The commands -/

/-- Everything a command accepted in `s` can come to, where `K` are OBUF addresses it does not write: completion
without error, completion with one, or a fault. -/
def Completes (s : State) (K : Nat → Prop) (o : Result) : Prop :=
  (∃ r t, During s K t ∧ o = .next (completeOk r t))
  ∨ (∃ e pos t, Raised s K e pos t ∧ o = .next (takeError e pos t))
  ∨ ∃ f, Stuck s f ∧ o = .fault f

theorem Completes.of_yields {s : State} {K : Nat → Prop} {body : Act State Results} (h : YieldsDuring s K (body s)) :
    Completes s K (complete body s) := by
  rcases complete_cases body s with ⟨r, t, hb, hc⟩ | ⟨e, pos, t, hb, hc⟩ | ⟨f, t, hb, hc⟩ <;> rw [hb] at h
  · exact .inl ⟨r, t, h, hc⟩
  · exact .inr (.inl ⟨e, pos, t, h, hc⟩)
  · exact .inr (.inr ⟨f, h, hc⟩)

section
variable (s : State) {K : Nat → Prop}

theorem execNop_completes : Completes s K (execNop s) := .of_yields (During.refl s K)

theorem execBwInit_completes (g : Gran) : Completes s K (execBwInit g s) := by
  refine .of_yields (Yields.check_bind (requireObuf_apply _ s) ErrorCode.classC_bufferBounds fun hb => ?_)
  exact (During.refl s K).withWriter g hb

theorem execBwWrite_completes (n : Nat) : Completes s (· < s.out.wr.base + s.out.wr.out) (execBwWrite n s) := by
  refine .of_yields (Yields.check_bind (requireWriter_apply s) ErrorCode.classC_sequenceError fun hst => ?_)
  refine Yields.check_bind (require_apply ..) ErrorCode.classC_illegalArgument fun hn => ?_
  exact (onOut_keeps (wrBits_keeps _ fun _ => hn) s (Writing.start hst)).bind fun _ _ h => h.during

theorem execBwFinish_completes : Completes s (· < s.out.wr.base + s.out.wr.out) (execBwFinish s) := by
  refine .of_yields (Yields.check_bind (requireWriter_apply s) ErrorCode.classC_sequenceError fun hst => ?_)
  exact (Writing.start hst).finish_yields.bind fun _ _ h => h

/-- An initialised reader meets its invariant (R113, spec/10_state.md R37). -/
theorem Reader.wf_init {cap base len : Nat} {g : Gran} (hin : base + len ≤ cap) (hg : g = .word → len % 4 = 0) :
    Reader.wf cap { st := .active, gran := g, base := base, len := len, fetch := 0, win := 0, cnt := 0, pos := 0 } := by
  refine ⟨Nat.zero_le _, Nat.zero_mod _, rfl, Nat.zero_le _, hin, ?_, Nat.zero_mod _⟩
  show len % (granBits g / 8) = 0
  cases g with
  | byte => exact Nat.mod_one len
  | word => exact hg rfl

/-- Initialising the reader over a checked range of IBUF (R113). -/
theorem During.rdInit_yields {s t : State} (h : During s K t) {base len : Nat} {g : Gran}
    (hin : base + len ≤ s.cfg.ibufBytes) (hg : g = .word → len % 4 = 0) :
    YieldsDuring s K (onReader (fun _ => rdInit base len g) t) :=
  h.withReader fun _ => Reader.wf_init hin hg

theorem execBrInit_completes (g : Gran) : Completes s K (execBrInit g s) := by
  refine .of_yields (Yields.check_bind (require_apply ..) ErrorCode.classC_illegalArgument fun hg => ?_)
  refine Yields.check_bind (requireIbuf_apply _ _ s) ErrorCode.classC_bufferBounds fun hin => ?_
  exact ((During.refl s K).rdInit_yields hin hg).bind fun _ _ h => h

theorem execBrRead_completes (n : Nat) : Completes s K (execBrRead n s) := by
  refine .of_yields (Yields.check_bind (requireReader_apply s) ErrorCode.classC_sequenceError fun _ => ?_)
  refine Yields.check_bind (require_apply ..) ErrorCode.classC_illegalArgument fun _ => ?_
  exact (onReader_keeps (rdBits_keeps _ _ _ n) s (.refl s K)).bind fun _ _ h => h

theorem execBrRemain_completes : Completes s K (execBrRemain s) :=
  .of_yields (Yields.check_bind (requireReader_apply s) ErrorCode.classC_sequenceError fun _ => During.refl s K)

theorem execCbQuery_completes (t b : Nat) : Completes s K (execCbQuery t b s) :=
  .of_yields (Yields.check_bind (require_apply ..) ErrorCode.classC_illegalArgument fun _ => During.refl s K)

theorem execRleEncrun_completes (t : Nat) : Completes s (· < s.out.wr.base + s.out.wr.out) (execRleEncrun t s) := by
  refine .of_yields (Yields.check_bind (requireWriter_apply s) ErrorCode.classC_sequenceError fun hst => ?_)
  refine Yields.check_bind (require_apply ..) ErrorCode.classC_illegalArgument fun ht => ?_
  refine Yields.check_bind (require_apply ..) (.inl rfl) fun hl => ?_
  exact (onOut_keeps (encCw_keeps (fun hw => ⟨hw.codebook, ht.1⟩) hl) s (Writing.start hst)).bind fun _ _ h => h.during

theorem execRleDecrun_completes (t : Nat) : Completes s K (execRleDecrun t s) := by
  refine .of_yields (Yields.check_bind (requireReader_apply s) ErrorCode.classC_sequenceError fun _ => ?_)
  refine Yields.check_bind (require_apply ..) ErrorCode.classC_illegalArgument fun _ => ?_
  exact (onReader_keeps (decCw_keeps _ _ _ s.cfg t) s (.refl s K)).bind fun _ _ h => h

/-- The bytes of a checked range of IBUF, read before anything changes. -/
theorem ibufBytes_bind {a n : Nat} {f : List Byte → Act State Results} (hin : a + n ≤ s.cfg.ibufBytes)
    (hf : ∀ bs, YieldsDuring s K (f bs s)) : YieldsDuring s K ((ibufBytes s.inp.ibuf a n >>= f) s) :=
  Yields.bind (Q := fun _ t => t = s) (Yields.ibufBytes rfl fun k hk hno _ => ⟨a + k, by omega, hno, rfl⟩)
    fun bs _ ht => ht ▸ hf bs

theorem ibufByte_bind {a : Nat} {f : Byte → Act State Results} (hin : a < s.cfg.ibufBytes)
    (hf : ∀ b, YieldsDuring s K (f b s)) : YieldsDuring s K ((ibufByte s.inp.ibuf a >>= f) s) :=
  Yields.bind (Q := fun _ t => t = s) (Yields.ibufByte (fun _ => rfl) fun hno _ => ⟨a, hin, hno, rfl⟩)
    fun b _ ht => ht ▸ hf b

theorem planeHeader_length (first : Bool) (width height t : Nat) : (planeHeader first width height t).length = 6 := rfl

/-- What `RLE_ENCPLANE` does once its operands are checked and the first pixel is read (R153). -/
def planeOutput (t : Nat) (first : Byte) : Act State Results := do
  storeBytes s.argl2 (planeHeader (pixelOf first) s.planeWidth s.planeHeight t)
  onOut (wrInit (s.argl2 + rleHeaderBytes) .word)
  onOut (encScan s.cfg t s.inp.ibuf (s.planeWidth * s.planeHeight) s.argl0 (pixelOf first) 0)
  let len ← onOut (wrFinish s.cfg.obufBytes)
  storeBytes (s.argl2 + 6) (littleEndianBytes (len / 4) 4)
  return { res0 := some (rleHeaderBytes + len), res1 := some (len / 4), res2 := some t }

/-- The plane's header and words are written from the output address up (R153). -/
theorem planeOutput_yields {t : Nat} (ht : t ≤ 5) (hin : s.argl0 + s.planeWidth * s.planeHeight ≤ s.cfg.ibufBytes)
    (hroom : s.argl2 + 10 ≤ s.cfg.obufBytes) (first : Byte) :
    YieldsDuring s (· < s.argl2) (planeOutput s t first s) := by
  refine ((During.refl s _).storeBytes_yields (fun _ hx => hx) (by rw [planeHeader_length]; omega)).bind
    fun _ _ h0 => ?_
  refine (h0.wrInit_yields (base := s.argl2 + rleHeaderBytes) .word (Nat.le_add_right ..) hroom).bind
    fun _ _ h1 => ?_
  refine Yields.bind (onOut_keeps (encScan_keeps (fun hw => ⟨hw.codebook, ht⟩)
    (fun x hx hno _ => ⟨x, by omega, hno, rfl⟩) _ _) _ h1) fun _ _ h2 => ?_
  refine h2.finish_yields.bind fun len _ h3 => ?_
  exact (h3.storeBytes_yields (fun _ hx => Nat.lt_add_right 6 hx) (by rw [littleEndianBytes_length]; omega)).bind
    fun _ _ h => h

/-- The body of `RLE_ENCPLANE` writes from the output address up (R153). -/
theorem encPlane_yields {t : Nat} (ht : t ≤ 5) : YieldsDuring s (· < s.argl2) (encPlane t s) := by
  refine Yields.get_bind (Yields.check_bind (requireIbuf_apply _ _ s) ErrorCode.classC_bufferBounds fun hin => ?_)
  refine Yields.check_bind (requireObuf_apply _ s) ErrorCode.classC_bufferBounds fun _ => ?_
  refine Yields.require_bind (fun _ => (During.refl s _).raised rfl _) fun hroom => ?_
  split
  · exact ibufByte_bind s (by omega) fun first => planeOutput_yields s ht hin hroom first
  · exact planeOutput_yields s ht hin hroom 0

theorem execRleEncplane_completes (t : Nat) : Completes s (· < s.argl2) (execRleEncplane t s) :=
  .of_yields (Yields.check_bind (require_apply ..) ErrorCode.classC_illegalArgument fun ht => encPlane_yields s ht)

/-- The least type whose encoding is smallest is one of the six (R155). -/
theorem bestType_le (c : Config) (ps : List Bool) : bestType c ps ≤ 5 := by
  unfold bestType
  refine List.foldlRecOn (motive := (· ≤ 5)) types _ (by decide : (0 : Nat) ≤ 5) fun best hb t ht => ?_
  split
  · exact mem_types.mp ht
  · exact hb

theorem execRleBest_completes : Completes s (· < s.argl2) (execRleBest s) := by
  refine .of_yields (Yields.check_bind (requireIbuf_apply _ _ s) ErrorCode.classC_bufferBounds fun hin => ?_)
  refine Yields.check_bind (requireObuf_apply _ s) ErrorCode.classC_bufferBounds fun _ => ?_
  exact ibufBytes_bind s hin fun bs => encPlane_yields s (bestType_le _ _)

theorem execRleDecplane_completes : Completes s (· < s.argl2) (execRleDecplane s) := by
  have hX {p : Prop} [Decidable p] {e : ErrorCode} {pos : Nat} (he : e.classX = true) {f : Unit → Act State Results}
      (hf : p → YieldsDuring s (· < s.argl2) (f () s)) :
      YieldsDuring s (· < s.argl2) ((require p e pos >>= f) s) :=
    Yields.require_bind (fun _ => (During.refl s _).raised he pos) hf
  refine .of_yields (Yields.check_bind (requireIbuf_apply _ _ s) ErrorCode.classC_bufferBounds fun hin => ?_)
  refine Yields.check_bind (requireObuf_apply _ s) ErrorCode.classC_bufferBounds fun _ => hX rfl fun hlen => ?_
  rw [rleHeaderBytes] at hlen
  refine ibufByte_bind s (by omega) fun first => ibufBytes_bind s (by omega) fun width =>
    ibufBytes_bind s (by omega) fun height => ibufByte_bind s (by omega) fun t =>
      ibufBytes_bind s (by omega) fun wc => hX rfl fun _ => hX rfl fun _ => hX rfl fun hwc => ?_
  rw [rleHeaderBytes] at hwc
  refine ((During.refl s _).rdInit_yields (by rw [rleHeaderBytes]; omega) fun _ => Nat.mul_mod_right ..).bind
    fun _ _ h => ?_
  exact (decRuns_keeps (fun _ hx => hx) _ h).bind fun _ _ h => h

theorem execHufHist_completes (w : Bool) : Completes s K (execHufHist w s) := by
  refine .of_yields (Yields.check_bind (requireIbuf_apply _ _ s) ErrorCode.classC_bufferBounds fun hin => ?_)
  exact (histBody_yields (.refl s K) hin).imp_ok fun _ _ h => h.2

theorem execHufHistrd_completes : Completes s K (execHufHistrd s) := by
  refine .of_yields (Yields.check_bind (requireHist_apply s) ErrorCode.classC_sequenceError fun _ => ?_)
  exact Yields.check_bind (require_apply ..) ErrorCode.classC_illegalArgument fun _ => During.refl s K

theorem execHufTree_completes : Completes s K (execHufTree s) :=
  .of_yields ((treeBody_yields (.refl s K) (.inr rfl)).imp_ok fun _ _ h => h.2)

theorem execHufCodes_completes : Completes s K (execHufCodes s) :=
  .of_yields ((codesBody_yields (.refl s K) (.inr rfl)).imp_ok fun _ _ h => h.2)

theorem execHufCanon_completes : Completes s K (execHufCanon s) :=
  .of_yields ((canonBody_yields (.refl s K) (.inr rfl)).imp_ok fun _ _ h => h.2)

theorem execHufTabrd_completes : Completes s K (execHufTabrd s) := by
  refine .of_yields (Yields.check_bind (requireCodes_apply s) ErrorCode.classC_sequenceError fun _ => ?_)
  refine Yields.check_bind (require_apply ..) ErrorCode.classC_illegalArgument fun _ => ?_
  cases s.huf.ctab[s.argl0]? with
  | none => exact .check ErrorCode.classC_illegalArgument rfl rfl
  | some e => exact During.refl s K

theorem execHufEnc_completes (w : Bool) : Completes s (· < s.argl2) (execHufEnc w s) := by
  refine .of_yields (Yields.check_bind (requireIbuf_apply _ _ s) ErrorCode.classC_bufferBounds fun hin => ?_)
  refine Yields.check_bind (requireObuf_apply _ s) ErrorCode.classC_bufferBounds fun hb => ?_
  refine (histBody_yields (.refl s _) hin).bind fun _ _ ⟨hhist, h1⟩ => ?_
  refine (treeBody_yields h1 (.inl hhist)).bind fun _ _ ⟨htree, h2⟩ => ?_
  refine (codesBody_yields h2 (.inl htree)).bind fun _ _ ⟨hcodes, h3⟩ => ?_
  refine (canonBody_yields h3 (.inl hcodes)).bind fun _ t ⟨hcanon, h4⟩ => Yields.get_bind ?_
  refine Yields.bind (Q := fun _ u => u = t) (Yields.ibufBytes rfl fun k hk hno _ => ⟨_, by omega, hno, rfl⟩)
    fun bs u hu => ?_
  subst hu
  refine (wrStream_yields h4 hb u.huf w _ fun hw => ?_).bind fun _ _ h => h
  obtain ⟨-, -, -, -, -, -, -, hmax, -⟩ := h4.huffman hw
  exact hmax hcanon

theorem execHufDec_completes : Completes s (· < s.argl2) (execHufDec s) := by
  refine .of_yields (Yields.check_bind (requireIbuf_apply _ _ s) ErrorCode.classC_bufferBounds fun hin => ?_)
  refine Yields.check_bind (requireObuf_apply _ s) ErrorCode.classC_bufferBounds fun _ => ?_
  refine ((During.refl s _).rdInit_yields (g := .byte) hin (fun hg => nomatch hg)).bind fun _ _ h => ?_
  refine (h.onReader_yields (rdHeader_yields _ _ _ _ h.reader)).bind fun hd t ⟨hc, ht⟩ => ?_
  refine (walk_yields (fun _ hx => hx) ht).bind fun _ u hu => ?_
  exact hu.withHuffman fun hw => decodedHuffman_wf (hu.huffman hw) hc

end

end Sys2Proof.Machine
end

section
/-! PROOFS. What every completion leaves (spec/60_exceptions.md R274 to R279), read off the one account of what a
command can come to. -/

namespace Sys2Proof.Machine

/-! ## Every command -/

/-- The OBUF addresses the rule of `i`, accepted in `s`, does not write: those below its output address, and all of them
for a command with no output (spec/20_memory.md R62). -/
def keepsByte (s : State) (i : Instr) (a : Nat) : Prop :=
  match i with
  | .bwWrite _ | .bwFinish | .rleEncrun _ => a < s.out.wr.base + s.out.wr.out
  | .rleEncplane _ | .rleDecplane | .rleBest | .hufEnc _ | .hufDec => a < s.argl2
  | _ => True

theorem exec_completes (i : Instr) (s : State) : Completes s (keepsByte s i) (exec i s) := by
  cases i with
  | nop => exact execNop_completes s
  | bwInit g => exact execBwInit_completes s g
  | bwWrite n => exact execBwWrite_completes s n
  | bwFinish => exact execBwFinish_completes s
  | brInit g => exact execBrInit_completes s g
  | brRead n => exact execBrRead_completes s n
  | brRemain => exact execBrRemain_completes s
  | cbQuery t b => exact execCbQuery_completes s t b
  | rleEncrun t => exact execRleEncrun_completes s t
  | rleDecrun t => exact execRleDecrun_completes s t
  | rleEncplane t => exact execRleEncplane_completes s t
  | rleDecplane => exact execRleDecplane_completes s
  | rleBest => exact execRleBest_completes s
  | hufHist w => exact execHufHist_completes s w
  | hufHistrd => exact execHufHistrd_completes s
  | hufTree => exact execHufTree_completes s
  | hufCodes => exact execHufCodes_completes s
  | hufCanon => exact execHufCanon_completes s
  | hufTabrd => exact execHufTabrd_completes s
  | hufEnc w => exact execHufEnc_completes s w
  | hufDec => exact execHufDec_completes s

/-- The sequencer's step is a command's, a word that is no command included (spec/30_encoding.md R85). -/
theorem runCommand_completes (s : State) : ∃ K, Completes s K (runCommand s) := by
  rcases runCommand_cases s with ⟨i, _, hr⟩ | hr <;> rw [hr]
  · exact ⟨_, exec_completes i s⟩
  · exact ⟨fun _ => True, .inr (.inl ⟨_, _, s, .check (.inr (.inl rfl)) rfl rfl, rfl⟩)⟩

/-! ## What a completion leaves -/

theorem ErrorCode.classC.classX_eq_false {e : ErrorCode} (h : e.classC) : e.classX = false := by
  rcases h with rfl | rfl | rfl | rfl | rfl <;> rfl

theorem ErrorCode.classC.ne_noError {e : ErrorCode} (h : e.classC) : e ≠ .noError := by
  rintro rfl
  rcases h with h | h | h | h | h <;> cases h

theorem ErrorCode.ne_noError_of_classX {e : ErrorCode} (h : e.classX = true) : e ≠ .noError := by
  rintro rfl
  cases h

/-- A state a command's rule passes through, field by field. -/
theorem BodyFrame.exists_eq {s t : State} (h : BodyFrame s t) :
    ∃ o r g, t = { s with out := o, inp := { s.inp with rd := r }, huf := g } := ⟨_, _, _, h⟩

theorem BodyFrame.untouched_completeOk {s t : State} (h : BodyFrame s t) (r : Results) :
    Untouched s (completeOk r t) := by
  obtain ⟨o, rd, g, rfl⟩ := h.exists_eq
  exact ⟨rfl, rfl, rfl, rfl, rfl, rfl, rfl, rfl, rfl, rfl⟩

theorem BodyFrame.untouched_takeError {s t : State} (h : BodyFrame s t) (e : ErrorCode) (pos : Nat) :
    Untouched s (takeError e pos t) := by
  obtain ⟨o, rd, g, rfl⟩ := h.exists_eq
  simp [Untouched]

/-- `STATUS` and the registers after an error, from any state the rule passed through (R274). -/
theorem BodyFrame.takeError_fields {s t : State} (h : BodyFrame s t) (e : ErrorCode) (pos : Nat) :
    (takeError e pos t).status = s.status.failed e
      ∧ (takeError e pos t).regs = { s.regs with errpos := BitVec.ofNat 32 pos, errcmd := s.latch.cmd } := by
  obtain ⟨o, rd, g, rfl⟩ := h.exists_eq
  exact ⟨takeError_status .., takeError_regs ..⟩

/-- Settles O56: a command completes in a state its rule passed through, or with a class C error in the state it was
accepted in, or with a class X error in a state its rule passed through. -/
theorem completionLeavesWhatTheRulesSay : Obligations.CompletionLeavesWhatTheRulesSay := by
  unfold Obligations.CompletionLeavesWhatTheRulesSay
  intro i s t hnext
  rcases exec_completes i s with ⟨r, u, hu, ho⟩ | ⟨e, pos, u, hraised, ho⟩ | ⟨f, -, ho⟩ <;> rw [ho] at hnext <;>
    cases hnext
  · obtain ⟨o, rd, g, rfl⟩ := hu.frame.exists_eq
    exact ⟨hu.frame.untouched_completeOk r, .inl ⟨rfl, rfl, rfl⟩⟩
  · cases hraised with
    | check hC hpos hsame =>
      subst hpos hsame
      obtain ⟨hst, hregs⟩ := (BodyFrame.refl u).takeError_fields e 0
      exact ⟨(BodyFrame.refl u).untouched_takeError e 0, .inr ⟨e, 0, hC.ne_noError, hst, hregs,
        fun _ => takeError_classC hC.classX_eq_false u, fun hno => absurd hC hno⟩⟩
    | execution hX h =>
      obtain ⟨hst, hregs⟩ := h.frame.takeError_fields e pos
      refine ⟨h.frame.untouched_takeError e pos, .inr ⟨e, pos, ErrorCode.ne_noError_of_classX hX, hst, hregs,
        fun hC => ?_, fun _ => ?_⟩⟩
      · exact absurd hX (by simp [hC.classX_eq_false])
      · rw [takeError_classX hX]
        exact ⟨rfl, rfl, rfl⟩

end Sys2Proof.Machine
end

section
/-! PROOFS. The soft reset (spec/10_state.md R46, spec/70_reset_and_hazards.md R301): what the aborted command would
have written, and what it would not. -/

namespace Sys2Proof.Machine

/-! ## The rehearsal of an aborted command (notes/assumptions/5.md) -/

/-- Over IBUF as it is held no command faults, if the reader meets its invariant. -/
theorem rehearsal_not_stuck {s : State} (hrd : s.inp.rd.wf s.cfg.ibufBytes) (f : Fault) : ¬ Stuck s.rehearsal f := by
  intro hstuck
  obtain ⟨a, ha, hno, -⟩ := hstuck hrd
  rw [State.rehearsal_inp, State.read_heldIbuf, if_pos (show a < s.cfg.ibufBytes from ha)] at hno
  cases hno

theorem rehearsal_completes {s : State} (hrd : s.inp.rd.wf s.cfg.ibufBytes) :
    ∃ t, runCommand s.rehearsal = .next t := by
  obtain ⟨K, ⟨r, t, -, h⟩ | ⟨e, pos, t, -, h⟩ | ⟨f, hf, -⟩⟩ := runCommand_completes s.rehearsal
  · exact ⟨_, h⟩
  · exact ⟨_, h⟩
  · exact absurd hf (rehearsal_not_stuck hrd f)

/-- A completion leaves the OBUF bytes its command does not write. -/
theorem Completes.read_obuf {s t : State} {K : Nat → Prop} (h : Completes s K (.next t)) {a : Nat} (ha : K a) :
    t.out.obuf.read a = s.out.obuf.read a := by
  rcases h with ⟨r, u, hu, ho⟩ | ⟨e, pos, u, hraised, ho⟩ | ⟨f, -, ho⟩ <;> cases ho
  · exact hu.kept a ha
  · rw [takeError_obuf]
    cases hraised with
    | check _ _ hsame => rw [hsame]
    | execution _ hu => exact hu.kept a ha

/-- The aborted command would not have written the bytes its rule does not write. -/
theorem not_mem_wouldWrite {s : State} {i : Instr} (hi : decode s.latch.cmd = .ok i) {a : Nat}
    (ha : keepsByte s.rehearsal i a) : a ∉ wouldWrite s := by
  rw [mem_wouldWrite]
  rintro ⟨t, hrun, hsome⟩
  have hexec : exec i s.rehearsal = .next t := by
    rw [← hrun, runCommand, State.rehearsal_latch, hi]
  have hc := exec_completes i s.rehearsal
  rw [hexec] at hc
  rw [hc.read_obuf ha] at hsome
  cases hsome

/-- Aborting a command leaves the OBUF bytes its rule does not write. -/
theorem abortCommand_read_kept {s : State} (hb : s.status.busy = true) {i : Instr} (hi : decode s.latch.cmd = .ok i)
    {a : Nat} (ha : keepsByte s.rehearsal i a) : (abortCommand s).out.obuf.read a = s.out.obuf.read a := by
  rw [abortCommand_read_obuf hb, if_neg (not_mem_wouldWrite hi ha)]

/-- Aborting a command that writes no byte leaves OBUF as it is. -/
theorem abortCommand_obuf_kept {s : State} (hb : s.status.busy = true) {i : Instr} (hi : decode s.latch.cmd = .ok i)
    (ha : ∀ a, keepsByte s.rehearsal i a) : (abortCommand s).out.obuf = s.out.obuf := by
  have hnone : wouldWrite s = [] := List.eq_nil_iff_forall_not_mem.mpr fun a => not_mem_wouldWrite hi (ha a)
  rw [abortCommand_obuf_busy s hb, hnone]
  rfl

/-- Where the rehearsal completes, the abort frees exactly the bytes it wrote. -/
theorem abortCommand_read_rehearsal {s t : State} (hb : s.status.busy = true) (hrun : runCommand s.rehearsal = .next t)
    (a : Nat) : (abortCommand s).out.obuf.read a
      = if (t.out.obuf.read a).isSome = true then some (Config.freeObufByte s.env.draws a) else s.out.obuf.read a := by
  have hmem : a ∈ wouldWrite s ↔ (t.out.obuf.read a).isSome = true := by
    rw [mem_wouldWrite, hrun]
    exact ⟨fun ⟨_, h, h'⟩ => by cases h; exact h', fun h => ⟨t, rfl, h⟩⟩
  simp only [abortCommand_read_obuf hb, hmem]

/-! ## The statement -/

theorem hostAccess_softReset {v : Word} (hv : v.getLsbD 0 = true) (s : State) :
    hostAccess (.regWrite 0x04 v) s = resetUnits (abortCommand s) := by
  show writeCtrl v s = _
  rw [writeCtrl, if_pos hv]
  rfl

/-- Settles O22: the aborted command's rule is run over IBUF as it is held, and what it would not write stays. -/
theorem softResetPutsStateAtItsResetValues : Obligations.SoftResetPutsStateAtItsResetValues := by
  unfold Obligations.SoftResetPutsStateAtItsResetValues
  intro s v hv
  refine ⟨(abortCommand s).out.obuf, (abortCommand s).env.draws, ?_, fun hidle => ?_, fun hb =>
    ⟨?_, rehearsal_completes, fun t hrun a => ⟨fun hno => ?_, fun hsome => ?_⟩, fun a ha => ?_, fun i hi =>
      ⟨fun h1 h2 h3 h4 h5 h6 => abortCommand_obuf_kept hb hi fun a => ?_, fun hout a ha => ?_, fun hout a ha => ?_⟩⟩⟩
  · rw [hostAccess_softReset hv]
    unfold abortCommand
    split <;> rfl
  · rw [abortCommand_idle s hidle]
    exact ⟨rfl, rfl⟩
  · rw [abortCommand_env_busy s hb]
  · rw [abortCommand_read_rehearsal hb hrun, hno]
    rfl
  · rw [abortCommand_read_rehearsal hb hrun, if_pos hsome]
  · rw [State.rehearsal_inp, State.read_heldIbuf, if_pos ha]
  · cases i with
    | bwWrite n => exact absurd rfl (h1 n 0).1
    | rleEncrun t => exact absurd rfl (h1 0 t).2.1
    | rleEncplane t => exact absurd rfl (h1 0 t).2.2
    | bwFinish => exact absurd rfl h2
    | rleDecplane => exact absurd rfl h3
    | rleBest => exact absurd rfl h4
    | hufEnc w => exact absurd rfl (h5 w)
    | hufDec => exact absurd rfl h6
    | nop | bwInit | brInit | brRead | brRemain | cbQuery | rleDecrun | hufHist | hufHistrd | hufTree | hufCodes
      | hufCanon | hufTabrd => trivial
  · refine abortCommand_read_kept hb hi ?_
    rcases hout with ⟨_, rfl⟩ | rfl | rfl | ⟨_, rfl⟩ | rfl <;> exact ha
  · refine abortCommand_read_kept hb hi ?_
    rcases hout with ⟨_, rfl⟩ | rfl | ⟨_, rfl⟩ <;> exact ha

end Sys2Proof.Machine
end

section
/-! PROOFS. The machine's invariant (spec/10_state.md R23, R35 to R42, spec/20_memory.md R60): every completion and
every host access keeps it. -/

namespace Sys2Proof.Machine

/-! ## Completions -/

theorem UnitsWf.of_wf {s : State} (hw : s.wf) (hcfg : configLegal s.cfg = true) : UnitsWf s := by
  obtain ⟨⟨-, hobuf, -, hbelow⟩, hwr, hrd, hhuf, -, -⟩ := hw
  exact ⟨legalCodebook hcfg, ⟨hwr, hobuf, hbelow⟩, hrd, hhuf⟩

/-- A completion without error keeps `ERR` and clears `BUSY` (R274). -/
theorem Status.wf.completed {st : Status} (h : st.wf) : st.completed.wf := ⟨h.1, nofun⟩

/-- A completion with an error sets `ERR` with its code and clears `BUSY` (R274). -/
theorem Status.failed_wf (st : Status) {e : ErrorCode} (he : e ≠ .noError) : (st.failed e).wf :=
  ⟨⟨fun h => absurd h he, nofun⟩, nofun⟩

/-- A completion keeps the invariant, and the parameters. -/
theorem Completes.wf {s t : State} {K : Nat → Prop} (h : Completes s K (.next t)) (hw : s.wf)
    (hcfg : configLegal s.cfg = true) : t.wf ∧ t.cfg = s.cfg := by
  have hunits := UnitsWf.of_wf hw hcfg
  obtain ⟨⟨hican, hocan, hibelow, hobelow⟩, hwr, hrd, hhuf, hst, henv⟩ := hw
  rcases h with ⟨r, u, hu, ho⟩ | ⟨e, pos, u, hraised, ho⟩ | ⟨f, -, ho⟩ <;> cases ho
  · obtain ⟨o, rd, g, rfl⟩ := hu.frame.exists_eq
    obtain ⟨hwr', hcan', hbelow'⟩ := hu.port hunits
    exact ⟨⟨⟨hican, hcan', hibelow, hbelow'⟩, hwr', hu.reader hrd, hu.huffman hunits, hst.completed, henv⟩, rfl⟩
  · cases hraised with
    | check hC hpos hsame =>
      subst hpos hsame
      rw [takeError_classC hC.classX_eq_false]
      exact ⟨⟨⟨hican, hocan, hibelow, hobelow⟩, hwr, hrd, hhuf, Status.failed_wf _ hC.ne_noError, henv⟩, rfl⟩
    | execution hX hu =>
      obtain ⟨o, rd, g, rfl⟩ := hu.frame.exists_eq
      obtain ⟨hwr', hcan', hbelow'⟩ := hu.port hunits
      rw [takeError_classX hX]
      exact ⟨⟨⟨hican, hcan', hibelow, hbelow'⟩, hwr', hu.reader hrd, hu.huffman hunits,
        Status.failed_wf _ (ErrorCode.ne_noError_of_classX hX), henv⟩, rfl⟩

theorem runCommand_wf {s t : State} (hw : s.wf) (hcfg : configLegal s.cfg = true) (h : runCommand s = .next t) :
    t.wf ∧ t.cfg = s.cfg := by
  obtain ⟨K, hK⟩ := runCommand_completes s
  rw [h] at hK
  exact hK.wf hw hcfg

/-! ## Resets -/

/-- IBUF as it is held has an entry at each of its addresses and no other. -/
theorem State.heldIbuf_below (s : State) : Memory.Below s.cfg.ibufBytes s.heldIbuf := by
  intro p hp
  have hread := (Memory.isSome_read s.heldIbuf p.1).mpr (List.mem_map_of_mem hp)
  rw [State.read_heldIbuf] at hread
  by_contra hge
  rw [if_neg hge] at hread
  cases hread

theorem State.rehearsal_wf {s : State} (hw : s.wf) : s.rehearsal.wf := by
  obtain ⟨-, hwr, hrd, hhuf, hst, henv⟩ := hw
  exact ⟨⟨Memory.wf_heldFrom .., rfl, s.heldIbuf_below, nofun⟩, hwr, hrd, hhuf, hst, henv⟩

/-- An aborted command would write inside OBUF only (spec/20_memory.md R60). -/
theorem wouldWrite_lt {s : State} (hw : s.wf) (hcfg : configLegal s.cfg = true) :
    ∀ a ∈ wouldWrite s, a < s.cfg.obufBytes := by
  intro a ha
  obtain ⟨t, hrun, hsome⟩ := (mem_wouldWrite s a).mp ha
  obtain ⟨⟨⟨-, -, -, hbelow⟩, -⟩, hc⟩ := runCommand_wf (State.rehearsal_wf hw) hcfg hrun
  obtain ⟨p, hp, rfl⟩ := List.mem_map.mp ((Memory.isSome_read _ a).mp hsome)
  have := hbelow p hp
  rwa [hc] at this

theorem abortCommand_wf {s : State} (hw : s.wf) (hcfg : configLegal s.cfg = true) : (abortCommand s).wf := by
  cases hb : s.status.busy with
  | false => rwa [abortCommand_idle s hb]
  | true =>
    have hlt := wouldWrite_lt hw hcfg
    obtain ⟨⟨hican, hocan, hibelow, hobelow⟩, hwr, hrd, hhuf, hst, henv⟩ := hw
    rw [abortCommand, if_pos hb]
    exact ⟨⟨hican, Memory.wf_spoilBytes hocan _ _, hibelow, Memory.Below.spoilBytes hobelow _ hlt⟩, hwr, hrd, hhuf, hst,
      Nat.lt_succ_of_lt henv.1, Nat.lt_succ_of_lt henv.2⟩

theorem Writer.reset_wf (cap : Nat) : Writer.reset.wf cap :=
  ⟨Nat.zero_le _, Nat.one_pos, Nat.zero_le _, rfl, Nat.le_refl _, fun h => absurd rfl h⟩

theorem Reader.reset_wf (cap : Nat) : Reader.reset.wf cap :=
  ⟨Nat.zero_le _, rfl, rfl, Nat.le_refl _, Nat.zero_le _, rfl, rfl⟩

theorem Status.reset_wf : Status.reset.wf := ⟨⟨fun _ => rfl, fun _ => rfl⟩, fun _ => rfl⟩

theorem resetUnits_wf {s : State} (hw : s.wf) : (resetUnits s).wf := by
  obtain ⟨hbuf, -, -, hhuf, -, henv⟩ := hw
  exact ⟨hbuf, Writer.reset_wf _, Reader.reset_wf _, hhuf.reset, Status.reset_wf, henv⟩

/-- A power-on reset sets up the invariant, whatever the state before (R300). -/
theorem powerOnReset_wf (s : State) : (powerOnReset s).wf :=
  ⟨⟨rfl, rfl, nofun, nofun⟩, Writer.reset_wf _, Reader.reset_wf _, Huffman.reset_wf rfl nofun, Status.reset_wf,
    Nat.lt_succ_self _, Nat.lt_succ_self _⟩

/-! ## Host accesses -/

/-- A state whose registers, latch and host fields alone differ meets the same invariant. -/
theorem State.wf.withRegs {s : State} (hw : s.wf) (regs : Regs) : State.wf { s with regs := regs } := hw

theorem State.wf.status {s : State} (hw : s.wf) : s.status.wf := by
  obtain ⟨-, -, -, -, hst, -⟩ := hw
  exact hst

theorem State.wf.env {s : State} (hw : s.wf) : s.env.wf := by
  obtain ⟨-, -, -, -, -, henv⟩ := hw
  exact henv

theorem State.wf.withStatus {s : State} (hw : s.wf) {st : Status} (hst : st.wf) : State.wf { s with status := st } := by
  obtain ⟨hbuf, hwr, hrd, hhuf, -, henv⟩ := hw
  exact ⟨hbuf, hwr, hrd, hhuf, hst, henv⟩

theorem State.wf.withEnv {s : State} (hw : s.wf) {e : Env} (he : e.wf) : State.wf { s with env := e } := by
  obtain ⟨hbuf, hwr, hrd, hhuf, hst, -⟩ := hw
  exact ⟨hbuf, hwr, hrd, hhuf, hst, he⟩

theorem reply_wf {s : State} (hw : s.wf) (r : HostReply) : (reply r s).wf := hw.withEnv hw.env

theorem lockViolation_wf {s : State} (hw : s.wf) : (lockViolation s).wf := hw.withStatus hw.status

/-- Clearing W1C bits keeps `STATUS`: `ERRCODE` is cleared with `ERR` (R23, R280). -/
theorem writeStatus_wf {s : State} (hw : s.wf) (v : Word) : (writeStatus v s).wf := by
  unfold writeStatus
  split
  · exact hw.withStatus ⟨⟨fun _ => rfl, fun _ => rfl⟩, fun _ => rfl⟩
  · exact hw.withStatus hw.status

/-- A command is accepted only while no error stands (R272). -/
theorem writeCmd_wf {s : State} (hw : s.wf) (c : Word) : (writeCmd c s).wf := by
  unfold writeCmd
  split
  · exact hw.withStatus hw.status
  · rename_i hno
    have herr : s.status.err = false := by
      simp only [Bool.or_eq_true, not_or, Bool.not_eq_true] at hno
      exact hno.2
    exact (hw.withStatus (st := { s.status with busy := true }) ⟨hw.status.1, fun _ => herr⟩).withEnv
      (e := { s.env with delay := Config.completionDelay s.env.draws, draws := s.env.draws + 1 })
      ⟨Nat.lt_succ_of_lt hw.env.1, Nat.lt_succ_of_lt hw.env.2⟩

theorem writeCtrl_wf {s : State} (hw : s.wf) (hcfg : configLegal s.cfg = true) (v : Word) : (writeCtrl v s).wf := by
  unfold writeCtrl
  split
  · exact resetUnits_wf (abortCommand_wf hw hcfg)
  · exact hw

theorem writeReg_wf {s : State} (hw : s.wf) (hcfg : configLegal s.cfg = true) (o : BitVec 8) (v : Word) :
    (writeReg o v s).wf := by
  unfold writeReg
  split
  · exact writeCtrl_wf hw hcfg v
  · exact writeStatus_wf hw v
  · exact writeCmd_wf hw v
  · exact hw.withRegs _
  · exact hw.withRegs _
  · exact hw.withRegs _
  · exact hw

/-- A byte is stored inside its buffer or not at all (spec/20_memory.md R60). -/
theorem writeBuffer_wf {s : State} (hw : s.wf) (b : Buffer) (a : Nat) (v : Byte) : (writeBuffer b a v s).wf := by
  unfold writeBuffer
  split
  · exact lockViolation_wf hw
  · split
    · rename_i ha
      obtain ⟨⟨hican, hocan, hibelow, hobelow⟩, hrest⟩ := hw
      cases b with
      | ibuf => exact ⟨⟨Memory.wf_write hican a v, hocan, Memory.Below.write hibelow ha v, hobelow⟩, hrest⟩
      | obuf => exact ⟨⟨hican, Memory.wf_write hocan a v, hibelow, Memory.Below.write hobelow ha v⟩, hrest⟩
    · exact hw

theorem hostAccess_wf {s : State} (hw : s.wf) (hcfg : configLegal s.cfg = true) (a : HostAction) :
    (hostAccess a s).wf := by
  cases a with
  | regWrite o v => exact writeReg_wf hw hcfg o v
  | regRead o => exact reply_wf hw _
  | bufWrite b x v => exact writeBuffer_wf hw b x v
  | bufRead b x =>
    refine reply_wf ?_ _
    split
    · exact lockViolation_wf hw
    · exact hw
  | wait => exact hw
  | powerOn => exact powerOnReset_wf s

theorem writeReg_cfg (o : BitVec 8) (v : Word) (s : State) : (writeReg o v s).cfg = s.cfg := by
  unfold writeReg
  split
  · unfold writeCtrl
    split
    · exact (resetUnits_cfg _).trans (abortCommand_cfg s)
    · rfl
  · unfold writeStatus
    split <;> rfl
  · unfold writeCmd
    split <;> rfl
  · rfl
  · rfl
  · rfl
  · rfl

/-- No host access changes the parameters (spec/00_scope.md R9). -/
theorem hostAccess_cfg (a : HostAction) (s : State) : (hostAccess a s).cfg = s.cfg := by
  cases a with
  | regWrite o v => exact writeReg_cfg o v s
  | regRead o => rfl
  | bufWrite b x v =>
    show (writeBuffer b x v s).cfg = s.cfg
    unfold writeBuffer
    split
    · rfl
    · split
      · cases b <;> rfl
      · rfl
  | bufRead b x =>
    show (reply _ (if s.status.busy then lockViolation s else s)).cfg = s.cfg
    split <;> rfl
  | wait => rfl
  | powerOn => rfl

/-! ## The statement -/

/-- Settles O59: the sequencer's step keeps the invariant because every completion does, the host's because every access
does. -/
theorem everyStepKeepsTheInvariant : Obligations.EveryStepKeepsTheInvariant := by
  unfold Obligations.EveryStepKeepsTheInvariant
  intro s t hw hstep
  obtain ⟨hcfg, ⟨-, hrun⟩ | ⟨-, rfl⟩⟩ := step_cases hstep
  · exact runCommand_wf hw hcfg hrun
  · rcases hostTurn_cases s with ⟨-, h⟩ | ⟨a, rest, -, h⟩ <;> rw [h]
    · exact ⟨hw, rfl⟩
    · have hw' := hw.withEnv (e := { s.env with pending := rest, delay := s.env.delay - 1 }) hw.env
      exact ⟨hostAccess_wf hw' hcfg a, hostAccess_cfg a _⟩

/-- Settles O60: REFCFG is legal, and after reset every part meets its invariant
(notes/assumptions/1.md, 6.md, 18.md). -/
theorem resetStateMeetsTheInvariant : Obligations.ResetStateMeetsTheInvariant := by
  unfold Obligations.ResetStateMeetsTheInvariant
  exact ⟨⟨⟨rfl, rfl, nofun, nofun⟩, Writer.reset_wf _, Reader.reset_wf _, Huffman.reset_wf rfl nofun, Status.reset_wf,
    Nat.one_pos, Nat.one_pos⟩, by decide +kernel⟩

end Sys2Proof.Machine
end

section
/-! PROOFS. The host's view of the registers (spec/10_state.md R20 to R35, R46): where each stands, what it reads,
what a write to it does. -/

namespace Sys2Proof.Machine

/-! ## The register map (spec/10_state.md R20) -/

/-- A register is found at its own offset only. -/
theorem eq_offset_of_regAt {o : BitVec 8} {r : Reg} (h : regAt o = some r) : o = r.offset := by
  refine BitVec.eq_of_toNat_eq ?_
  unfold regAt at h
  split at h <;> cases h <;> assumption

theorem Reg.offset_aligned (r : Reg) : r.offset.toNat % 4 = 0 ∧ r.offset ≠ 0x1C ∧ r.offset.toNat < 0x54 := by
  cases r <;> decide

/-- No register stands at a misaligned offset, at `0x1C` or from `0x54` up. -/
theorem regAt_eq_none {o : BitVec 8} (h : o.toNat % 4 ≠ 0 ∨ o = 0x1C ∨ 0x54 ≤ o.toNat) : regAt o = none := by
  by_contra hsome
  obtain ⟨r, hr⟩ := Option.ne_none_iff_exists'.mp hsome
  obtain rfl := eq_offset_of_regAt hr
  obtain ⟨halign, hgap, hend⟩ := r.offset_aligned
  rcases h with h | h | h
  · exact h halign
  · exact hgap h
  · omega

/-! ## Reads -/

/-- Settles O17: each offset is looked up in the register map. -/
theorem registerReadsReturnTheirState : Obligations.RegisterReadsReturnTheirState := by
  unfold Obligations.RegisterReadsReturnTheirState
  intro s
  refine ⟨rfl, rfl, rfl, rfl, rfl, rfl, rfl, rfl, rfl, rfl, rfl, rfl, rfl, rfl, rfl, fun o ho => ?_, fun o => rfl⟩
  rw [readReg, regAt_eq_none ho]

/-- Every register but `ID` reads 0 after reset (R46). -/
theorem Reg.value_reset {r : Reg} (h : r ≠ .id) : r.value State.reset = 0 := by
  cases r with
  | id => exact absurd rfl h
  | ctrl | status | cmd | arg0 | arg1 | arg2 | res0 | res1 | res2 | res3 | errpos | errcmd | wstat | wptr | wbits
    | rstat | rpos | hstat | hleaves => rfl

/-- Settles O24: an offset other than 0 has a register other than `ID`, or none. -/
theorem resetRegistersReadTheirResetValues : Obligations.ResetRegistersReadTheirResetValues := by
  unfold Obligations.ResetRegistersReadTheirResetValues
  refine ⟨rfl, fun o ho => ?_, rfl, rfl, rfl⟩
  unfold readReg
  split
  · rename_i r hr
    refine Reg.value_reset ?_
    rintro rfl
    exact ho (eq_offset_of_regAt hr)
  · rfl

/-! ## Packed registers -/

/-- Eight low bits and a field from bit 8 up. -/
theorem packed_toNat {low field : Word} (hl : low.toNat < 2 ^ 8) (hf : field.toNat < 2 ^ 24) :
    (low ||| field <<< 8).toNat = 2 ^ 8 * field.toNat + low.toNat := by
  rw [BitVec.or_comm, BitVec.toNat_or, BitVec.toNat_shiftLeft, Nat.shiftLeft_eq, Nat.mod_eq_of_lt (by omega),
    Nat.mul_comm, Nat.two_pow_add_eq_or_of_lt hl]

theorem packed_div {low field : Word} (hl : low.toNat < 2 ^ 8) (hf : field.toNat < 2 ^ 24) :
    (low ||| field <<< 8).toNat / 2 ^ 8 = field.toNat := by
  rw [packed_toNat hl hf]
  omega

theorem packed_mod {low field : Word} (hl : low.toNat < 2 ^ 8) (hf : field.toNat < 2 ^ 24) :
    (low ||| field <<< 8).toNat % 2 ^ 8 = low.toNat := by
  rw [packed_toNat hl hf]
  omega

theorem packed_getLsbD {low field : Word} {i : Nat} (hi : i < 8) : (low ||| field <<< 8).getLsbD i = low.getLsbD i := by
  simp [BitVec.getLsbD_shiftLeft, hi]

theorem bitAt_getLsbD (b : Bool) {k i : Nat} (hi : i < 32) : (bitAt b k).getLsbD i = (decide (i = k) && b) := by
  cases b with
  | false => simp [bitAt]
  | true =>
    rw [bitAt, BitVec.getLsbD_shiftLeft, Bool.eq_iff_iff]
    simp only [hi, decide_true, Bool.true_and, Bool.toNat_true, BitVec.getLsbD_one, Nat.ofNat_pos, Bool.and_eq_true,
      Bool.not_eq_eq_eq_not, Bool.not_true, decide_eq_false_iff_not, not_lt, decide_eq_true_eq, Bool.and_true]
    omega

/-- The flags of `STATUS` (R23). -/
def Status.flags (s : Status) : Word :=
  bitAt s.busy 0 ||| bitAt s.done 1 ||| bitAt s.err 2 ||| bitAt s.rej 3 ||| bitAt s.lockv 4

theorem Status.word_eq (s : Status) : s.word = s.flags ||| BitVec.ofNat 32 s.errcode.number <<< 8 := rfl

theorem Status.flags_lt (s : Status) : s.flags.toNat < 2 ^ 8 := by
  have h : ∀ a b c d e : Bool, (bitAt a 0 ||| bitAt b 1 ||| bitAt c 2 ||| bitAt d 3 ||| bitAt e 4).toNat < 2 ^ 8 := by
    decide
  exact h ..

theorem ErrorCode.number_toNat (e : ErrorCode) : (BitVec.ofNat 32 e.number).toNat = e.number := by cases e <;> rfl

theorem ErrorCode.number_le (e : ErrorCode) : e.number ≤ 9 := by cases e <;> decide

theorem Status.word_div (s : Status) : s.word.toNat / 2 ^ 8 = s.errcode.number := by
  have hle := s.errcode.number_le
  have hnum := s.errcode.number_toNat
  rw [Status.word_eq, packed_div s.flags_lt (by omega), hnum]

/-- The flags of `HSTAT` (R34). -/
def Huffman.flags (h : Huffman) : Word :=
  bitAt h.histV 0 ||| bitAt h.treeV 1 ||| bitAt h.codesV 2 ||| bitAt h.canonV 3 ||| bitAt h.wide 4 ||| bitAt h.trailp 5

theorem Huffman.statWord_eq (h : Huffman) : h.statWord = h.flags ||| h.trailb.setWidth 32 <<< 8 := rfl

theorem Huffman.flags_lt (h : Huffman) : h.flags.toNat < 2 ^ 8 := by
  have h' : ∀ a b c d e f : Bool,
      (bitAt a 0 ||| bitAt b 1 ||| bitAt c 2 ||| bitAt d 3 ||| bitAt e 4 ||| bitAt f 5).toNat < 2 ^ 8 := by decide
  exact h' ..

theorem Huffman.statWord_div (h : Huffman) : h.statWord.toNat / 2 ^ 8 = h.trailb.toNat := by
  have hlt := h.trailb.isLt
  have hset : (h.trailb.setWidth 32).toNat = h.trailb.toNat := by
    rw [BitVec.toNat_setWidth]
    omega
  rw [Huffman.statWord_eq, packed_div h.flags_lt (by omega), hset]

/-- The state and granularity bits of `WSTAT` (R29). -/
def Writer.stateBits (w : Writer) : Word := BitVec.ofNat 32 w.st.number ||| bitAt (Gran.flag w.gran) 2

theorem Writer.statWord_eq (w : Writer) : w.statWord = w.stateBits ||| (BitVec.ofNat 6 w.cnt).setWidth 32 <<< 8 := rfl

theorem Writer.stateBits_toNat (w : Writer) :
    w.stateBits.toNat = w.st.number + (if w.gran = .word then 4 else 0) := by
  unfold Writer.stateBits
  cases w.st <;> cases w.gran <;> rfl

theorem Writer.stateBits_lt (w : Writer) : w.stateBits.toNat < 2 ^ 8 := by
  unfold Writer.stateBits
  cases w.st <;> cases w.gran <;> decide

/-- A count the invariant of R36 bounds fits its six bits. -/
theorem Writer.cnt_toNat {w : Writer} (h : w.cnt ≤ 63) : ((BitVec.ofNat 6 w.cnt).setWidth 32).toNat = w.cnt := by
  rw [BitVec.toNat_setWidth, BitVec.toNat_ofNat]
  omega

theorem Writer.statWord_mod {w : Writer} (h : w.cnt ≤ 63) :
    w.statWord.toNat % 2 ^ 8 = w.st.number + (if w.gran = .word then 4 else 0) := by
  have hcnt := Writer.cnt_toNat h
  rw [Writer.statWord_eq, packed_mod w.stateBits_lt (by omega), w.stateBits_toNat]

theorem Writer.statWord_div {w : Writer} (h : w.cnt ≤ 63) : w.statWord.toNat / 2 ^ 8 = w.cnt := by
  have hcnt := Writer.cnt_toNat h
  rw [Writer.statWord_eq, packed_div w.stateBits_lt (by omega), hcnt]

/-- The state and granularity bits of `RSTAT` (R32). -/
def Reader.stateBits (r : Reader) : Word := BitVec.ofNat 32 r.st.number ||| bitAt (Gran.flag r.gran) 2

theorem Reader.statWord_eq (r : Reader) : r.statWord = r.stateBits ||| (BitVec.ofNat 7 r.cnt).setWidth 32 <<< 8 := rfl

theorem Reader.stateBits_toNat (r : Reader) :
    r.stateBits.toNat = r.st.number + (if r.gran = .word then 4 else 0) := by
  unfold Reader.stateBits
  cases r.st <;> cases r.gran <;> rfl

theorem Reader.stateBits_lt (r : Reader) : r.stateBits.toNat < 2 ^ 8 := by
  unfold Reader.stateBits
  cases r.st <;> cases r.gran <;> decide

/-- A count the invariant of R37 bounds fits its seven bits. -/
theorem Reader.cnt_toNat {r : Reader} (h : r.cnt ≤ 64) : ((BitVec.ofNat 7 r.cnt).setWidth 32).toNat = r.cnt := by
  rw [BitVec.toNat_setWidth, BitVec.toNat_ofNat]
  omega

theorem Reader.statWord_mod {r : Reader} (h : r.cnt ≤ 64) :
    r.statWord.toNat % 2 ^ 8 = r.st.number + (if r.gran = .word then 4 else 0) := by
  have hcnt := Reader.cnt_toNat h
  rw [Reader.statWord_eq, packed_mod r.stateBits_lt (by omega), r.stateBits_toNat]

theorem Reader.statWord_div {r : Reader} (h : r.cnt ≤ 64) : r.statWord.toNat / 2 ^ 8 = r.cnt := by
  have hcnt := Reader.cnt_toNat h
  rw [Reader.statWord_eq, packed_div r.stateBits_lt (by omega), hcnt]

/-- Settles O18: each register is its low byte and the field from bit 8 up. -/
theorem statusRegistersShowTheirFields : Obligations.StatusRegistersShowTheirFields := by
  unfold Obligations.StatusRegistersShowTheirFields
  intro s hw hr
  refine ⟨fun i hi => bitAt_getLsbD _ hi, fun i hi => ?_, s.status.word_div.trans ?_, (Writer.statWord_mod hw).trans ?_,
    Writer.statWord_div hw, (Reader.statWord_mod hr).trans ?_, Reader.statWord_div hr, fun i hi => ?_,
    s.huf.statWord_div⟩
  · show s.status.word.getLsbD i = _
    rw [Status.word_eq, packed_getLsbD hi]
    simp only [Status.flags, BitVec.getLsbD_or, bitAt_getLsbD _ (show i < 32 by omega)]
  · cases s.status.errcode <;> rfl
  · cases s.out.wr.st <;> rfl
  · cases s.inp.rd.st <;> rfl
  · show s.huf.statWord.getLsbD i = _
    rw [Huffman.statWord_eq, packed_getLsbD hi]
    simp only [Huffman.flags, BitVec.getLsbD_or, bitAt_getLsbD _ (show i < 32 by omega)]

/-! ## Writes -/

/-- Settles O15: the three plain bits are cleared one by one, and `ERR` with `ERRCODE` (R280). -/
theorem statusWriteClearsTheBitsWrittenOne : Obligations.StatusWriteClearsTheBitsWrittenOne := by
  unfold Obligations.StatusWriteClearsTheBitsWrittenOne
  intro s v
  show writeStatus v s = _
  unfold writeStatus
  cases hv : v.getLsbD 2 with
  | true => simp only [if_true, Bool.not_true, Bool.and_false]; rfl
  | false => simp only [Bool.false_eq_true, if_false, Bool.not_false, Bool.and_true]

/-- Only six registers take a write (R20). -/
theorem writeReg_readOnly {o : BitVec 8} (v : Word) (s : State) (h1 : o ≠ 0x04) (h2 : o ≠ 0x08) (h3 : o ≠ 0x0C)
    (h4 : o ≠ 0x10) (h5 : o ≠ 0x14) (h6 : o ≠ 0x18) : writeReg o v s = s := by
  unfold writeReg
  split
  case h_7 => rfl
  all_goals
    rename_i hr
    have ho := eq_offset_of_regAt hr
    contradiction

/-- Settles O16: the register map leads every other offset to a register that takes no write, or to none. -/
theorem registerWritesReachOnlyTheirRegister : Obligations.RegisterWritesReachOnlyTheirRegister := by
  unfold Obligations.RegisterWritesReachOnlyTheirRegister
  intro s v
  refine ⟨fun hv => ?_, rfl, rfl, rfl, fun o h1 h2 h3 h4 h5 h6 => writeReg_readOnly v s h1 h2 h3 h4 h5 h6⟩
  show writeCtrl v s = _
  rw [writeCtrl, if_neg (by rw [hv]; exact Bool.false_ne_true)]

/-- Settles O23: the new generation is a draw not taken before (notes/assumptions/18.md). -/
theorem powerOnResetPutsStateAtItsResetValues : Obligations.PowerOnResetPutsStateAtItsResetValues := by
  unfold Obligations.PowerOnResetPutsStateAtItsResetValues
  exact fun s => ⟨rfl, fun henv => ⟨Nat.ne_of_gt henv.1, Nat.ne_of_gt henv.2⟩⟩

end Sys2Proof.Machine
end

section
/-! PROOFS. One command run over two contents of OBUF (spec/20_memory.md R61, R62): `Blind` says of an action that its
two runs end alike, whatever relation `Q` of the two contents its stores keep. That no outcome depends on OBUF, that
output stays inside it, and that a command without output leaves it alone are three such relations. -/

namespace Sys2Proof.Machine

variable {σ α β : Type}

/-! ## Two runs side by side -/

/-- Two outcomes with the same answer or the same stop, in related states. -/
def Alike (R : σ → σ → Prop) : EStateM.Result Stop σ α → EStateM.Result Stop σ α → Prop
  | .ok a t, .ok b u => a = b ∧ R t u
  | .error e t, .error f u => e = f ∧ R t u
  | _, _ => False

theorem Alike.cases {R : σ → σ → Prop} {x y : EStateM.Result Stop σ α} (h : Alike R x y) :
    (∃ a t u, x = .ok a t ∧ y = .ok a u ∧ R t u) ∨ ∃ e t u, x = .error e t ∧ y = .error e u ∧ R t u := by
  match x, y, h with
  | .ok a t, .ok _ u, ⟨rfl, h⟩ => exact .inl ⟨a, t, u, rfl, rfl, h⟩
  | .error e t, .error _ u, ⟨rfl, h⟩ => exact .inr ⟨e, t, u, rfl, rfl, h⟩

/-- From related states the action ends alike. -/
def Blind (R : σ → σ → Prop) (x : Act σ α) : Prop := ∀ t u, R t u → Alike R (x t) (x u)

section
variable {R : σ → σ → Prop}

theorem Blind.pure (a : α) : Blind R (pure a : Act σ α) := fun _ _ h => ⟨rfl, h⟩

theorem Blind.raiseError (e : ErrorCode) (pos : Nat) : Blind R (raiseError e pos : Act σ α) := fun _ _ h => ⟨rfl, h⟩

theorem Blind.modify {f : σ → σ} (hf : ∀ t u, R t u → R (f t) (f u)) : Blind R (modify f : Act σ Unit) :=
  fun t u h => ⟨rfl, hf t u h⟩

theorem Blind.bind {x : Act σ α} {f : α → Act σ β} (hx : Blind R x) (hf : ∀ a, Blind R (f a)) : Blind R (x >>= f) := by
  intro t u h
  rw [Act.bind_apply, Act.bind_apply]
  rcases (hx t u h).cases with ⟨a, t', u', ht, hu, h'⟩ | ⟨e, t', u', ht, hu, h'⟩ <;> rw [ht, hu]
  · exact hf a t' u' h'
  · exact ⟨rfl, h'⟩

theorem Blind.ite {p : Prop} [Decidable p] {x y : Act σ α} (hx : Blind R x) (hy : Blind R y) :
    Blind R (if p then x else y) := by
  split
  · exact hx
  · exact hy

/-- An action that first reads the state, and makes the same of related states. -/
theorem Blind.get_bind {f : σ → Act σ α} (hf : ∀ t u, R t u → f u = f t ∧ Blind R (f t)) : Blind R (get >>= f) := by
  intro t u h
  obtain ⟨hsame, hblind⟩ := hf t u h
  show Alike R (f t t) (f u u)
  rw [hsame]
  exact hblind t u h

/-- What follows a check may use it. -/
theorem Blind.require_bind {p : Prop} [Decidable p] {e : ErrorCode} {pos : Nat} {f : Unit → Act σ α}
    (hf : p → Blind R (f ())) : Blind R (require p e pos >>= f) := by
  by_cases hp : p
  · intro t u h
    rw [Act.bind_apply, Act.bind_apply, require_true hp, require_true hp]
    exact hf hp t u h
  · intro t u h
    rw [Act.bind_apply, Act.bind_apply, require_false hp, require_false hp]
    exact ⟨rfl, h⟩

theorem Blind.require (p : Prop) [Decidable p] (e : ErrorCode) (pos : Nat) :
    Blind R (require p e pos : Act σ Unit) := Blind.ite (Blind.pure ()) (Blind.raiseError e pos)

theorem Blind.ibufByte (ibuf : Memory) (a : Nat) : Blind R (ibufByte ibuf a : Act σ Byte) := by
  intro t u h
  rw [ibufByte_apply, ibufByte_apply]
  cases ibuf.read a <;> exact ⟨rfl, h⟩

theorem Blind.ibufBytes (ibuf : Memory) (a n : Nat) : Blind R (ibufBytes ibuf a n : Act σ (List Byte)) := by
  induction n generalizing a with
  | zero => exact Blind.pure []
  | succ n ih => exact (Blind.ibufByte ibuf a).bind fun _ => (ih (a + 1)).bind fun _ => Blind.pure _

end

/-! ## The writer over two contents of OBUF -/

/-- Storing the same bytes inside a buffer of `cap` bytes keeps the relation of its two contents. -/
def Storable (cap : Nat) (Q : Memory → Memory → Prop) : Prop :=
  ∀ m m' a bs, a + bs.length ≤ cap → Q m m' → Q (m.writeList a bs) (m'.writeList a bs)

/-- The same writer over two contents of OBUF. -/
def PortTwin (Q : Memory → Memory → Prop) (o p : OutPort) : Prop := ∃ m, p = { o with obuf := m } ∧ Q o.obuf m

section
variable {Q : Memory → Memory → Prop} {cap : Nat}

theorem PortTwin.get_bind {f : OutPort → Act OutPort α} (hsame : ∀ o m, f { o with obuf := m } = f o)
    (hf : ∀ o, Blind (PortTwin Q) (f o)) : Blind (PortTwin Q) (get >>= f) :=
  Blind.get_bind fun o _ ⟨m, hp, _⟩ => ⟨hp ▸ hsame o m, hf o⟩

/-- A change of the writer that does not look at OBUF. -/
theorem PortTwin.modify {f : OutPort → OutPort} (hf : ∀ o m, f { o with obuf := m } = { wr := (f o).wr, obuf := m }) :
    Blind (PortTwin Q) (modify f) := by
  refine Blind.modify ?_
  rintro o _ ⟨m, rfl, hm⟩
  have ho : (f o).obuf = o.obuf := by rw [show f o = _ from hf o o.obuf]
  exact ⟨m, hf o m, ho ▸ hm⟩

theorem wrInit_blind (base : Nat) (g : Gran) : Blind (PortTwin Q) (wrInit base g) :=
  PortTwin.modify fun _ _ => rfl

variable (hQ : Storable cap Q)
include hQ

theorem emit_blind (u : DWord) : Blind (PortTwin Q) (emit cap u) := by
  rintro o _ ⟨m, rfl, hm⟩
  rw [emit_apply, emit_apply]
  by_cases hfit : o.wr.base + o.wr.out + granBits o.wr.gran / 8 ≤ cap
  · rw [if_pos hfit, if_pos hfit]
    exact ⟨rfl, _, rfl, hQ _ _ _ _ (by rwa [unitBytes_length]) hm⟩
  · rw [if_neg hfit, if_neg hfit]
    exact ⟨rfl, _, rfl, hm⟩

theorem emitUnits_blind (n : Nat) : Blind (PortTwin Q) (emitUnits cap n) := by
  induction n with
  | zero => exact Blind.pure ()
  | succ n ih =>
    exact PortTwin.get_bind (fun _ _ => rfl) fun o => (emit_blind hQ _).bind fun _ =>
      (PortTwin.modify fun _ _ => rfl).bind fun _ => ih

theorem wrBits_blind (v : Word) (n : Nat) : Blind (PortTwin Q) (wrBits cap v n) :=
  (PortTwin.modify fun _ _ => rfl).bind fun _ => PortTwin.get_bind (fun _ _ => rfl) fun _ => emitUnits_blind hQ _

theorem wrFinish_blind : Blind (PortTwin Q) (wrFinish cap) := by
  have hend : Blind (PortTwin Q) (do
      modify fun o : OutPort => { o with wr := { o.wr with st := .finished } }
      let o ← get
      return o.wr.out : Act OutPort Nat) :=
    (PortTwin.modify fun _ _ => rfl).bind fun _ => PortTwin.get_bind (fun _ _ => rfl) fun _ => Blind.pure _
  refine PortTwin.get_bind (fun _ _ => rfl) fun o => Blind.ite ?_ hend
  exact (emit_blind hQ _).bind fun _ => (PortTwin.modify fun _ _ => rfl).bind fun _ => hend

theorem wrLong_blind (v : DWord) (n : Nat) : Blind (PortTwin Q) (wrLong cap v n) :=
  Blind.ite ((wrBits_blind hQ _ _).bind fun _ => wrBits_blind hQ _ _) (wrBits_blind hQ _ _)

theorem wrSymbol_blind (es : List Entry) (x : Sym) : Blind (PortTwin Q) (wrSymbol cap es x) := by
  unfold wrSymbol
  cases entryOf es x with
  | none => exact Blind.pure ()
  | some e => exact wrLong_blind hQ _ _

theorem wrSymbols_blind (es : List Entry) (xs : List Nat) : Blind (PortTwin Q) (wrSymbols cap es xs) := by
  induction xs with
  | nil => exact Blind.pure ()
  | cons x xs ih => exact (wrSymbol_blind hQ es _).bind fun _ => ih

theorem wrEntries_blind (sw lw : Nat) (es : List Entry) : Blind (PortTwin Q) (wrEntries cap sw lw es) := by
  induction es with
  | nil => exact Blind.pure ()
  | cons e es ih =>
    exact Blind.ite ((wrBits_blind hQ _ _).bind fun _ => (wrBits_blind hQ _ _).bind fun _ => ih)
      ((Blind.pure ()).bind fun _ => ih)

theorem wrHeader_blind (h : Huffman) (w : Bool) : Blind (PortTwin Q) (wrHeader cap h w) :=
  (wrBits_blind hQ _ _).bind fun _ => (Blind.ite (wrBits_blind hQ _ _) (Blind.pure ())).bind fun _ =>
    (Blind.ite (wrBits_blind hQ _ _) (Blind.pure ())).bind fun _ => (wrBits_blind hQ _ _).bind fun _ =>
      (wrBits_blind hQ _ _).bind fun _ => wrEntries_blind hQ _ _ _

theorem wrStream_blind (dst : Nat) (h : Huffman) (w : Bool) (xs : List Nat) :
    Blind (PortTwin Q) (wrStream cap dst h w xs) := by
  rw [wrStream_eq]
  exact (wrInit_blind dst .byte).bind fun _ => (wrHeader_blind hQ h w).bind fun _ =>
    (wrSymbols_blind hQ _ xs).bind fun _ => (wrSymbol_blind hQ _ _).bind fun _ => wrFinish_blind hQ

end

section
variable {Q : Memory → Memory → Prop} {c : Config} (hQ : Storable c.obufBytes Q)
include hQ

theorem encCw_blind (t len : Nat) : Blind (PortTwin Q) (encCw c t len) := by
  unfold encCw
  cases bucketOf c t len with
  | none => exact Blind.raiseError _ _
  | some i => exact (wrBits_blind hQ _ _).bind fun _ => (wrBits_blind hQ _ _).bind fun _ => Blind.pure i

theorem encCws_blind (t : Nat) (vs : List Nat) : Blind (PortTwin Q) (encCws c t vs) := by
  induction vs with
  | nil => exact Blind.pure ()
  | cons v vs ih => exact (encCw_blind hQ t v).bind fun _ => ih

theorem emitRun_blind (t len : Nat) : Blind (PortTwin Q) (emitRun c t len) := encCws_blind hQ t _

theorem encScan_blind (t : Nat) (ibuf : Memory) (n a : Nat) (cur : Bool) (run : Nat) :
    Blind (PortTwin Q) (encScan c t ibuf n a cur run) := by
  induction n generalizing a cur run with
  | zero => exact Blind.ite (emitRun_blind hQ t run) (Blind.pure ())
  | succ n ih =>
    exact (Blind.ibufByte ibuf a).bind fun b => Blind.ite (ih _ _ _) ((emitRun_blind hQ t run).bind fun _ => ih _ _ _)

end

/-! ## The whole state over two contents of OBUF -/

/-- The same machine, of parameters `c`, over two contents of OBUF. -/
def Twin (c : Config) (Q : Memory → Memory → Prop) (t u : State) : Prop :=
  t.cfg = c ∧ ∃ m, u = { t with out := { t.out with obuf := m } } ∧ Q t.out.obuf m

section
variable {c : Config} {Q : Memory → Memory → Prop}

theorem Twin.get_bind {f : State → Act State α} (hsame : ∀ t m, f { t with out := { t.out with obuf := m } } = f t)
    (hf : ∀ t, t.cfg = c → Blind (Twin c Q) (f t)) : Blind (Twin c Q) (get >>= f) :=
  Blind.get_bind fun t _ ⟨hc, m, hu, _⟩ => ⟨hu ▸ hsame t m, hf t hc⟩

theorem onOut_blind {x : Act OutPort α} (hx : Blind (PortTwin Q) x) : Blind (Twin c Q) (onOut x) := by
  rintro t _ ⟨hc, m, rfl, hm⟩
  rw [onOut_apply, onOut_apply]
  rcases (hx t.out { t.out with obuf := m } ⟨m, rfl, hm⟩).cases with
    ⟨a, o, _, ht, hu, m', rfl, hm'⟩ | ⟨e, o, _, ht, hu, m', rfl, hm'⟩ <;> rw [ht, hu] <;>
    exact ⟨rfl, hc, m', rfl, hm'⟩

theorem onReader_blind (x : Memory → Act Reader α) : Blind (Twin c Q) (onReader x) := by
  rintro t _ ⟨hc, m, rfl, hm⟩
  rw [onReader_apply, onReader_apply]
  cases x t.inp.ibuf t.inp.rd <;> exact ⟨rfl, hc, m, rfl, hm⟩

theorem onHuf_blind (f : Huffman → Huffman) : Blind (Twin c Q) (onHuf f) := by
  rintro t _ ⟨hc, m, rfl, hm⟩
  exact ⟨rfl, hc, m, rfl, hm⟩

theorem requireIbuf_blind (a n : Nat) : Blind (Twin c Q) (requireIbuf a n) :=
  Twin.get_bind (fun _ _ => rfl) fun _ _ => Blind.require _ _ _

theorem requireObuf_blind (a : Nat) : Blind (Twin c Q) (requireObuf a) :=
  Twin.get_bind (fun _ _ => rfl) fun _ _ => Blind.require _ _ _

theorem requireWriter_blind : Blind (Twin c Q) requireWriter :=
  Twin.get_bind (fun _ _ => rfl) fun _ _ => Blind.require _ _ _

theorem requireReader_blind : Blind (Twin c Q) requireReader :=
  Twin.get_bind (fun _ _ => rfl) fun _ _ => Blind.require _ _ _

theorem requireHist_blind : Blind (Twin c Q) requireHist :=
  Twin.get_bind (fun _ _ => rfl) fun _ _ => Blind.require _ _ _

theorem requireCodes_blind : Blind (Twin c Q) requireCodes :=
  Twin.get_bind (fun _ _ => rfl) fun _ _ => Blind.require _ _ _

theorem histBody_blind (w : Bool) (src n : Nat) : Blind (Twin c Q) (histBody w src n) :=
  Twin.get_bind (fun _ _ => rfl) fun _ _ => (Blind.ibufBytes _ _ _).bind fun _ => (onHuf_blind _).bind fun _ =>
    Twin.get_bind (fun _ _ => rfl) fun _ _ => Blind.pure _

theorem treeBody_blind : Blind (Twin c Q) treeBody :=
  requireHist_blind.bind fun _ => (onHuf_blind _).bind fun _ =>
    Twin.get_bind (fun _ _ => rfl) fun _ _ => Blind.pure _

theorem codesBody_blind : Blind (Twin c Q) codesBody := by
  refine Twin.get_bind (fun _ _ => rfl) fun t _ => (Blind.require _ _ _).bind fun _ => ?_
  cases t.huf.tree with
  | none => exact Blind.raiseError _ _
  | some tree => exact (Blind.require _ _ _).bind fun _ => (onHuf_blind _).bind fun _ => Blind.pure _

theorem canonBody_blind : Blind (Twin c Q) canonBody :=
  requireCodes_blind.bind fun _ => (onHuf_blind _).bind fun _ =>
    Twin.get_bind (fun _ _ => rfl) fun _ _ => Blind.pure _

variable (hQ : Storable c.obufBytes Q)
include hQ

theorem storeBytes_blind {a : Nat} {bs : List Byte} (hin : a + bs.length ≤ c.obufBytes) :
    Blind (Twin c Q) (storeBytes a bs) := by
  rintro t _ ⟨hc, m, rfl, hm⟩
  exact ⟨rfl, hc, _, rfl, hQ _ _ _ _ hin hm⟩

theorem putBytes_blind (a : Nat) (bs : List Byte) : Blind (Twin c Q) (putBytes a bs) := by
  rintro t _ ⟨hc, m, rfl, hm⟩
  rw [putBytes_apply, putBytes_apply]
  by_cases hin : a + bs.length ≤ t.cfg.obufBytes
  · rw [if_pos hin, if_pos hin]
    exact ⟨rfl, hc, _, rfl, hQ _ _ _ _ (hc ▸ hin) hm⟩
  · rw [if_neg hin, if_neg hin]
    exact ⟨rfl, hc, m, rfl, hm⟩

theorem putPixels_blind (p : Bool) (n a : Nat) : Blind (Twin c Q) (putPixels p n a) := by
  induction n generalizing a with
  | zero => exact Blind.pure ()
  | succ n ih => exact (putBytes_blind hQ a _).bind fun _ => ih _

theorem decRuns_blind (t n dst fuel out : Nat) (cur : Bool) : Blind (Twin c Q) (decRuns t n dst fuel out cur) := by
  induction fuel generalizing out cur with
  | zero => exact Blind.pure ()
  | succ fuel ih =>
    refine Blind.ite (Twin.get_bind (fun _ _ => rfl) fun s _ => (onReader_blind _).bind fun v => ?_) (Blind.pure ())
    exact (Blind.require _ _ _).bind fun _ => (putPixels_blind hQ _ _ _).bind fun _ => ih _ _

theorem walkSymbols_blind (trie : Trie) (wide : Bool) (fuel o : Nat) :
    Blind (Twin c Q) (walkSymbols trie wide fuel o) := by
  induction fuel generalizing o with
  | zero => exact Blind.pure o
  | succ fuel ih =>
    refine Twin.get_bind (fun _ _ => rfl) fun s _ => (onReader_blind _).bind fun x => ?_
    cases x with
    | sent => exact Blind.pure o
    | ord v => exact (putBytes_blind hQ o _).bind fun _ => ih _

theorem walk_blind (dst : Nat) (trie : Trie) (wide : Bool) (trailing : Option Byte) :
    Blind (Twin c Q) (walk dst trie wide trailing) := by
  refine Twin.get_bind (fun _ _ => rfl) fun s _ => (walkSymbols_blind hQ trie wide _ dst).bind fun o => ?_
  cases trailing with
  | none => exact Blind.pure _
  | some b => exact (putBytes_blind hQ o _).bind fun _ => Blind.pure _

theorem planeOutput_blind {t : State} (hc : t.cfg = c) (hroom : t.argl2 + 10 ≤ c.obufBytes) (k : Nat) (first : Byte) :
    Blind (Twin c Q) (planeOutput t k first) := by
  subst hc
  exact (storeBytes_blind hQ (by rw [planeHeader_length]; omega)).bind fun _ =>
    (onOut_blind (wrInit_blind _ _)).bind fun _ => (onOut_blind (encScan_blind hQ _ _ _ _ _ _)).bind fun _ =>
      (onOut_blind (wrFinish_blind hQ)).bind fun _ =>
        (storeBytes_blind hQ (by rw [littleEndianBytes_length]; omega)).bind fun _ => Blind.pure _

theorem encPlane_blind (k : Nat) : Blind (Twin c Q) (encPlane k) := by
  refine Twin.get_bind (fun _ _ => rfl) fun t hc => (requireIbuf_blind _ _).bind fun _ =>
    (requireObuf_blind _).bind fun _ => Blind.require_bind fun hroom => Blind.ite ?_ ?_
  · exact (Blind.ibufByte _ _).bind fun first => planeOutput_blind hQ hc (hc ▸ hroom) k first
  · exact (Blind.pure 0).bind fun first => planeOutput_blind hQ hc (hc ▸ hroom) k first

end

/-! ## Every command over two contents of OBUF -/

/-- Two completions, or the same fault, of one machine over two contents of OBUF. -/
def TwinResults (Q : Memory → Memory → Prop) : Result → Result → Prop
  | .next t, .next u => u = { t with out := { t.out with obuf := u.out.obuf } } ∧ Q t.out.obuf u.out.obuf
  | .fault f, .fault g => f = g
  | _, _ => False

theorem Twin.completeOk {c : Config} {Q : Memory → Memory → Prop} {t u : State} (h : Twin c Q t u) (r : Results) :
    TwinResults Q (.next (completeOk r t)) (.next (completeOk r u)) := by
  obtain ⟨-, m, rfl, hm⟩ := h
  exact ⟨rfl, hm⟩

theorem Twin.takeError {c : Config} {Q : Memory → Memory → Prop} {t u : State} (h : Twin c Q t u) (e : ErrorCode)
    (pos : Nat) : TwinResults Q (.next (takeError e pos t)) (.next (takeError e pos u)) := by
  obtain ⟨-, m, rfl, hm⟩ := h
  cases he : e.classX with
  | false => simpa only [TwinResults, Machine.takeError, he] using ⟨rfl, hm⟩
  | true =>
    rw [takeError_classX he, takeError_classX he]
    exact ⟨rfl, hm⟩

/-- A rule that ends alike completes alike. -/
theorem complete_twin {c : Config} {Q : Memory → Memory → Prop} {body : Act State Results}
    (hb : Blind (Twin c Q) body) {s u : State} (hs : Twin c Q s u) :
    TwinResults Q (complete body s) (complete body u) := by
  rcases (hb s u hs).cases with ⟨r, t, t', hbs, hbu, h⟩ | ⟨e, t, t', hbs, hbu, h⟩
  · rw [complete_ok hbs, complete_ok hbu]
    exact h.completeOk r
  · cases e with
    | raised e pos =>
      rw [complete_raised hbs, complete_raised hbu]
      exact h.takeError e pos
    | stuck f =>
      rw [complete_stuck hbs, complete_stuck hbu]
      exact Eq.refl f

/-- The commands that write OBUF (spec/20_memory.md R64). -/
def hasOutput : Instr → Prop
  | .bwWrite _ | .bwFinish | .rleEncrun _ | .rleEncplane _ | .rleDecplane | .rleBest | .hufEnc _ | .hufDec => True
  | _ => False

/-- Over two contents of OBUF every command completes alike, and keeps every relation of the two contents that its
stores keep; a command without output makes none (spec/20_memory.md R62, R64). -/
theorem exec_twin (i : Instr) (s : State) (m : Memory) {Q : Memory → Memory → Prop} (hm : Q s.out.obuf m)
    (hst : hasOutput i → Storable s.cfg.obufBytes Q) :
    TwinResults Q (exec i s) (exec i { s with out := { s.out with obuf := m } }) := by
  have hs : Twin s.cfg Q s { s with out := { s.out with obuf := m } } := ⟨rfl, m, rfl, hm⟩
  cases i with
  | nop => exact complete_twin (Blind.pure _) hs
  | bwInit g =>
    exact complete_twin ((requireObuf_blind _).bind fun _ => (onOut_blind (wrInit_blind _ g)).bind fun _ =>
      Blind.pure _) hs
  | bwWrite n =>
    exact complete_twin (requireWriter_blind.bind fun _ => (Blind.require _ _ _).bind fun _ =>
      (onOut_blind (wrBits_blind (hst trivial) _ n)).bind fun _ => Blind.pure _) hs
  | bwFinish =>
    exact complete_twin (requireWriter_blind.bind fun _ => (onOut_blind (wrFinish_blind (hst trivial))).bind fun _ =>
      Twin.get_bind (fun _ _ => rfl) fun _ _ => Blind.pure _) hs
  | brInit g =>
    exact complete_twin ((Blind.require _ _ _).bind fun _ => (requireIbuf_blind _ _).bind fun _ =>
      (onReader_blind _).bind fun _ => Blind.pure _) hs
  | brRead n =>
    exact complete_twin (requireReader_blind.bind fun _ => (Blind.require _ _ _).bind fun _ =>
      (onReader_blind _).bind fun _ => Blind.pure _) hs
  | brRemain => exact complete_twin (requireReader_blind.bind fun _ => Blind.pure _) hs
  | cbQuery t b => exact complete_twin ((Blind.require _ _ _).bind fun _ => Blind.pure _) hs
  | rleEncrun t =>
    exact complete_twin (requireWriter_blind.bind fun _ => (Blind.require _ _ _).bind fun _ =>
      (Blind.require _ _ _).bind fun _ => (onOut_blind (encCw_blind (hst trivial) t _)).bind fun _ => Blind.pure _) hs
  | rleDecrun t =>
    exact complete_twin (requireReader_blind.bind fun _ => (Blind.require _ _ _).bind fun _ =>
      (onReader_blind _).bind fun _ => Blind.pure _) hs
  | rleEncplane t =>
    exact complete_twin ((Blind.require _ _ _).bind fun _ => encPlane_blind (hst trivial) t) hs
  | rleDecplane =>
    exact complete_twin ((requireIbuf_blind _ _).bind fun _ => (requireObuf_blind _).bind fun _ =>
      (Blind.require _ _ _).bind fun _ => (Blind.ibufByte _ _).bind fun _ => (Blind.ibufBytes _ _ _).bind fun _ =>
        (Blind.ibufBytes _ _ _).bind fun _ => (Blind.ibufByte _ _).bind fun _ => (Blind.ibufBytes _ _ _).bind fun _ =>
          (Blind.require _ _ _).bind fun _ => (Blind.require _ _ _).bind fun _ => (Blind.require _ _ _).bind fun _ =>
            (onReader_blind _).bind fun _ => (decRuns_blind (hst trivial) _ _ _ _ _ _).bind fun _ =>
              Twin.get_bind (fun _ _ => rfl) fun _ _ => Blind.pure _) hs
  | rleBest =>
    exact complete_twin ((requireIbuf_blind _ _).bind fun _ => (requireObuf_blind _).bind fun _ =>
      (Blind.ibufBytes _ _ _).bind fun _ => encPlane_blind (hst trivial) _) hs
  | hufHist w => exact complete_twin ((requireIbuf_blind _ _).bind fun _ => histBody_blind w _ _) hs
  | hufHistrd =>
    exact complete_twin (requireHist_blind.bind fun _ => (Blind.require _ _ _).bind fun _ => Blind.pure _) hs
  | hufTree => exact complete_twin treeBody_blind hs
  | hufCodes => exact complete_twin codesBody_blind hs
  | hufCanon => exact complete_twin canonBody_blind hs
  | hufTabrd =>
    refine complete_twin (requireCodes_blind.bind fun _ => (Blind.require _ _ _).bind fun _ => ?_) hs
    cases s.huf.ctab[s.argl0]? with
    | none => exact Blind.raiseError _ _
    | some e => exact Blind.pure _
  | hufEnc w =>
    exact complete_twin ((requireIbuf_blind _ _).bind fun _ => (requireObuf_blind _).bind fun _ =>
      (histBody_blind w _ _).bind fun _ => treeBody_blind.bind fun _ => codesBody_blind.bind fun _ =>
        canonBody_blind.bind fun _ => Twin.get_bind (fun _ _ => rfl) fun _ _ => (Blind.ibufBytes _ _ _).bind fun _ =>
          (onOut_blind (wrStream_blind (hst trivial) _ _ w _)).bind fun _ => Blind.pure _) hs
  | hufDec =>
    exact complete_twin ((requireIbuf_blind _ _).bind fun _ => (requireObuf_blind _).bind fun _ =>
      (onReader_blind _).bind fun _ => (onReader_blind _).bind fun _ => (walk_blind (hst trivial) _ _ _ _).bind fun _ =>
        (onHuf_blind _).bind fun _ => Twin.get_bind (fun _ _ => rfl) fun _ _ => Blind.pure _) hs

/-! ## The statements -/

/-- Each byte either keeps its own value in both contents, `m` and `n` before, or is the same in both. -/
def KeptOrSame (m n m' n' : Memory) : Prop := ∀ a, (m'.read a = m.read a ∧ n'.read a = n.read a) ∨ n'.read a = m'.read a

/-- A store makes the bytes it reaches the same in both contents and leaves the others. -/
theorem keptOrSame_storable (cap : Nat) (m n : Memory) : Storable cap (KeptOrSame m n) := by
  intro m' n' x bs _ h a
  rw [Memory.read_writeList, Memory.read_writeList]
  split
  · exact .inr rfl
  · exact h a

/-- Settles O58: every store makes its bytes the same over both contents of OBUF, and no rule reads OBUF. -/
theorem outcomeIsIndependentOfObuf : Obligations.OutcomeIsIndependentOfObuf := by
  unfold Obligations.OutcomeIsIndependentOfObuf
  intro i s m
  exact exec_twin i s m (Q := KeptOrSame s.out.obuf m) (fun _ => .inl ⟨rfl, rfl⟩) fun _ => keptOrSame_storable _ _ _

/-- What a completion leaves in OBUF meets each `P` that held before and that the command's stores keep. -/
theorem exec_obuf {i : Instr} {s t : State} (h : exec i s = .next t) {P : Memory → Prop} (hs : P s.out.obuf)
    (hst : hasOutput i → ∀ m a bs, a + bs.length ≤ s.cfg.obufBytes → P m → P (m.writeList a bs)) : P t.out.obuf := by
  have htwin := exec_twin i s s.out.obuf (Q := fun m _ => P m) hs fun ho m _ => hst ho m
  rw [h] at htwin
  exact htwin.2

/-- A command without output leaves OBUF alone (spec/20_memory.md R64). -/
theorem exec_obuf_of_no_output {i : Instr} {s t : State} (h : exec i s = .next t) (hno : ¬ hasOutput i) :
    t.out.obuf = s.out.obuf := exec_obuf h (P := (· = s.out.obuf)) rfl fun ho => absurd ho hno

/-- Settles O57: every store lies inside OBUF, and a command without output makes none. -/
theorem outputStaysInsideObuf : Obligations.OutputStaysInsideObuf := by
  unfold Obligations.OutputStaysInsideObuf
  intro i s t h
  refine ⟨fun a ha => ?_, fun hi => exec_obuf_of_no_output h ?_, ?_, ?_⟩
  · refine exec_obuf h (P := fun m => m.read a = s.out.obuf.read a) rfl fun _ m x bs hin hm => ?_
    rw [Memory.writeList_sameOutside m x bs a (.inr (by omega)), hm]
  · simp only [List.mem_cons, List.not_mem_nil, or_false] at hi
    rcases hi with rfl | rfl | rfl | rfl | rfl | rfl | rfl | rfl | rfl | rfl | rfl | rfl | rfl <;> exact id
  · rintro n rfl
    exact exec_obuf_of_no_output h id
  · rintro x y (rfl | rfl) <;> exact exec_obuf_of_no_output h id

end Sys2Proof.Machine
end

section
/-! PROOFS. Where a step stops (notes/assumptions/2.md, 3.md), and the host's accesses to the two buffers
(spec/20_memory.md R60 to R66). -/

namespace Sys2Proof.Machine

/-! ## Where a step stops -/

theorem runCommand_ne_refused (s : State) (r : Refusal) : runCommand s ≠ .refused r := by
  obtain ⟨K, ⟨_, _, _, h⟩ | ⟨_, _, _, _, h⟩ | ⟨_, _, h⟩⟩ := runCommand_completes s <;> rw [h] <;> exact nofun

/-- A step refuses an illegal configuration and nothing else (notes/assumptions/2.md). -/
theorem step_refused_iff {s : State} {r : Refusal} :
    step s = .refused r ↔ r = .illegalConfiguration ∧ configLegal s.cfg = false := by
  unfold step
  cases configLegal s.cfg with
  | false => simp [eq_comm]
  | true =>
    cases sequencerTurn s with
    | false => simp
    | true => simpa using runCommand_ne_refused s r

/-- A step that faults is the sequencer's. -/
theorem runCommand_of_step_fault {s : State} {f : Fault} (h : step s = .fault f) :
    sequencerTurn s = true ∧ runCommand s = .fault f := by
  unfold step at h
  split at h
  · split at h
    · exact ⟨by assumption, h⟩
    · cases h
  · cases h

theorem busy_of_sequencerTurn {s : State} (h : sequencerTurn s = true) : s.status.busy = true :=
  (Bool.and_eq_true_iff.mp h).1

/-- A fault of the command names an unwritten byte inside IBUF, if the reader meets its invariant (R61, R65). -/
theorem inputFault_of_runCommand_fault {s : State} (hrd : s.inp.rd.wf s.cfg.ibufBytes) {f : Fault}
    (h : runCommand s = .fault f) : InputFault s.cfg.ibufBytes s.inp.ibuf f := by
  obtain ⟨K, ⟨_, _, _, ho⟩ | ⟨_, _, _, _, ho⟩ | ⟨g, hstuck, ho⟩⟩ := runCommand_completes s <;> rw [h] at ho <;>
    cases ho
  exact hstuck hrd

/-- Settles O10: only `step` itself refuses, and only a command faults, at a byte it reads. -/
theorem stepStopsOnlyOnAnUnwrittenByteOrAnIllegalConfiguration :
    Obligations.StepStopsOnlyOnAnUnwrittenByteOrAnIllegalConfiguration := by
  unfold Obligations.StepStopsOnlyOnAnUnwrittenByteOrAnIllegalConfiguration
  refine fun s => ⟨fun r => step_refused_iff, fun f hrd hstep => ?_⟩
  obtain ⟨hturn, hrun⟩ := runCommand_of_step_fault hstep
  obtain ⟨a, hin, hno, rfl⟩ := inputFault_of_runCommand_fault hrd hrun
  exact ⟨busy_of_sequencerTurn hturn, a, rfl, hin, hno⟩

/-! ## Host accesses while a command runs -/

theorem writeBuffer_busy {s : State} (h : s.status.busy = true) (b : Buffer) (a : Nat) (v : Byte) :
    writeBuffer b a v s = lockViolation s := by
  rw [writeBuffer, if_pos h]

theorem readBuffer_busy {s : State} (h : s.status.busy = true) (b : Buffer) (a : Nat) : readBuffer b a s = 0 := by
  rw [readBuffer, if_pos h]

/-- Settles O19: the lock stands before the bounds and the buffer (R66). -/
theorem busyLocksBothBuffers : Obligations.BusyLocksBothBuffers := by
  unfold Obligations.BusyLocksBothBuffers
  refine fun s b a v hb => ⟨writeBuffer_busy hb b a v, ?_⟩
  rw [hostAccess, readBuffer_busy hb, if_pos hb]
  rfl

/-! ## Host accesses to idle buffers -/

theorem writeBuffer_inside {s : State} (h : s.status.busy = false) {b : Buffer} {a : Nat} (ha : a < b.capacity s)
    (v : Byte) : writeBuffer b a v s = b.store s a v := by
  rw [writeBuffer, if_neg (by simp [h]), if_pos ha]

theorem writeBuffer_outside {s : State} (h : s.status.busy = false) {b : Buffer} {a : Nat} (ha : b.capacity s ≤ a)
    (v : Byte) : writeBuffer b a v s = s := by
  rw [writeBuffer, if_neg (by simp [h]), if_neg (Nat.not_lt.mpr ha)]

theorem readBuffer_idle {s : State} (h : s.status.busy = false) (b : Buffer) (a : Nat) :
    readBuffer b a s = if a < b.capacity s then b.byteAt s a else 0 := by
  rw [readBuffer, if_neg (by simp [h])]

theorem Buffer.capacity_store (b b' : Buffer) (s : State) (a : Nat) (v : Byte) :
    b'.capacity (b.store s a v) = b'.capacity s := by
  cases b <;> cases b' <;> rfl

theorem Buffer.status_store (b : Buffer) (s : State) (a : Nat) (v : Byte) : (b.store s a v).status = s.status := by
  cases b <;> rfl

theorem Buffer.byteAt_store_same (b : Buffer) (s : State) (a : Nat) (v : Byte) : b.byteAt (b.store s a v) a = v := by
  cases b <;> simp [Buffer.byteAt, Buffer.store]

/-- A store changes no other byte of its buffer, and none of the other (R60). -/
theorem Buffer.byteAt_store_other {b b' : Buffer} {a x : Nat} (h : b' ≠ b ∨ x ≠ a) (s : State) (v : Byte) :
    b'.byteAt (b.store s a v) x = b'.byteAt s x := by
  have hother (m : Memory) (hx : x ≠ a) : (m.write a v).read x = m.read x := Memory.read_write_other m v hx
  cases b with
  | ibuf =>
    cases b' with
    | ibuf => simp only [Buffer.byteAt, Buffer.store, hother _ (h.resolve_left (· rfl))]
    | obuf => rfl
  | obuf =>
    cases b' with
    | ibuf => rfl
    | obuf => simp only [Buffer.byteAt, Buffer.store, hother _ (h.resolve_left (· rfl))]

/-- After a store an idle buffer reads the byte it then holds, inside its capacity. -/
theorem readBuffer_store {s : State} (hidle : s.status.busy = false) (b b' : Buffer) (a x : Nat) (v : Byte) :
    readBuffer b' x (b.store s a v) = if x < b'.capacity s then b'.byteAt (b.store s a v) x else 0 := by
  rw [readBuffer_idle (by rwa [Buffer.status_store]), Buffer.capacity_store]

/-- Settles O20: inside the buffer the access is a store of one byte, outside it is nothing. -/
theorem idleBufferAccessReachesOneByte : Obligations.IdleBufferAccessReachesOneByte := by
  unfold Obligations.IdleBufferAccessReachesOneByte
  intro s b a v hidle
  refine ⟨fun ha => ⟨b.store s a v, writeBuffer_inside hidle ha v, ?_, fun b' x hne => ?_, ?_⟩, fun ha =>
    ⟨writeBuffer_outside hidle ha v, ?_⟩, ?_⟩
  · rw [readBuffer_store hidle, if_pos ha, Buffer.byteAt_store_same]
  · rw [readBuffer_store hidle, readBuffer_idle hidle, Buffer.byteAt_store_other hne]
  · cases b <;> rfl
  · rw [readBuffer_idle hidle, if_neg (Nat.not_lt.mpr ha)]
  · rw [hostAccess, if_neg (by simp [hidle])]
    rfl

end Sys2Proof.Machine
end

section
/-! PROOFS. Commands over input with an unwritten byte (spec/20_memory.md R75, notes/assumptions/3.md): `StopsAt` says
of an action that it stops at that byte, `FirstUnwritten` of a byte that it is the lowest unwritten one from an address
up. -/

namespace Sys2Proof.Machine

variable {σ α β : Type}

/-! ## Failing -/

/-- From the state `s` the action stops early, for a reason that meets `P`. -/
def Fails (P : Stop → Prop) (x : Act σ α) (s : σ) : Prop := ∃ e t, P e ∧ x s = .error e t

/-- From the state `s` the action stops at the IBUF byte `a`, which nothing has written. -/
abbrev StopsAt (a : Nat) (x : Act σ α) (s : σ) : Prop := Fails (· = .stuck (.unwrittenIbuf a)) x s

section
variable {P : Stop → Prop} {x : Act σ α} {s t : σ}

theorem Fails.bind (h : Fails P x s) (f : α → Act σ β) : Fails P (x >>= f) s := by
  obtain ⟨e, t, he, ht⟩ := h
  exact ⟨e, t, he, by rw [Act.bind_apply, ht]⟩

/-- What follows an action that answers. -/
theorem Fails.after {f : α → Act σ β} {v : α} (h : x s = .ok v t) (hf : Fails P (f v) t) : Fails P (x >>= f) s := by
  rwa [Fails, Act.bind_apply, h]

theorem Fails.onReader {x : Memory → Act Reader α} {s : State} (h : Fails P (x s.inp.ibuf) s.inp.rd) :
    Fails P (onReader x) s := by
  obtain ⟨e, r, he, hr⟩ := h
  exact ⟨e, _, he, by rw [onReader_apply, hr]⟩

theorem Fails.onOut {x : Act OutPort α} {s : State} (h : Fails P x s.out) : Fails P (onOut x) s := by
  obtain ⟨e, o, he, ho⟩ := h
  exact ⟨e, _, he, by rw [onOut_apply, ho]⟩

theorem StopsAt.complete {a : Nat} {body : Act State Results} {s : State} (h : StopsAt a body s) :
    complete body s = .fault (.unwrittenIbuf a) := by
  obtain ⟨_, t, rfl, ht⟩ := h
  exact complete_stuck ht

theorem Ends.imp {R R' : σ → Prop} {F : Fault → Prop} {r : EStateM.Result Stop σ α} (h : Ends R F r)
    (hR : ∀ t, R t → R' t) : Ends R' F r := by
  match r, h with
  | .ok _ t, h => exact hR t h
  | .error (.raised _ _) t, h => exact hR t h
  | .error (.stuck _) _, h => exact h

theorem Ends.after {R : σ → Prop} {F : Fault → Prop} {f : α → Act σ β} {v : α} (h : x s = .ok v t)
    (hf : Ends R F (f v t)) : Ends R F ((x >>= f) s) := by
  rwa [Act.bind_apply, h]

end

/-! ## The lowest unwritten byte -/

/-- Of the bytes of a buffer from `b` up, `a` is the lowest that nothing has written. -/
structure Memory.FirstUnwritten (m : Memory) (b a : Nat) : Prop where
  le : b ≤ a
  unwritten : m.read a = none
  written : Written m b (a - b)

section
variable {m : Memory} {a b n : Nat}

theorem Memory.FirstUnwritten.written_of_le (h : m.FirstUnwritten b a) (hn : b + n ≤ a) : Written m b n :=
  fun i hi => h.written i (by omega)

theorem Memory.FirstUnwritten.skip (h : m.FirstUnwritten b a) (hn : b + n ≤ a) : m.FirstUnwritten (b + n) a := by
  refine ⟨hn, h.unwritten, fun i hi => ?_⟩
  have hbyte := h.written (n + i) (by omega)
  rwa [← Nat.add_assoc] at hbyte

theorem ibufBytes_stopsAt (h : m.FirstUnwritten b a) (ha : a < b + n) (s : σ) :
    StopsAt a (ibufBytes m b n : Act σ (List Byte)) s := by
  have hle := h.le
  have hb : b + (a - b) = a := by omega
  have hstuck := ibufBytes_unwritten (σ := σ) (n := n) (by omega) h.written (by rw [hb]; exact h.unwritten) s
  rw [hb] at hstuck
  exact ⟨_, s, rfl, hstuck⟩

/-- Reading a range stops at its unwritten byte, or answers and goes on below that byte. -/
theorem ibufBytes_bind_stopsAt (h : m.FirstUnwritten b a) {f : List Byte → Act σ α} {s : σ}
    (hf : m.FirstUnwritten (b + n) a → StopsAt a (f (bytesAt m b n)) s) : StopsAt a (ibufBytes m b n >>= f) s := by
  rcases Nat.lt_or_ge a (b + n) with ha | ha
  · exact (ibufBytes_stopsAt h ha s).bind f
  · exact .after (ibufBytes_written (h.written_of_le ha) s) (hf (h.skip ha))

theorem ibufByte_stopsAt (h : m.read a = none) (s : σ) : StopsAt a (ibufByte m a : Act σ Byte) s :=
  ⟨_, s, rfl, ibufByte_unwritten h s⟩

theorem ibufByte_of_written (h : Written m b 1) (s : σ) :
    (ibufByte m b : Act σ Byte) s = .ok ((m.read b).getD 0) s := by
  obtain ⟨v, hv⟩ := Option.isSome_iff_exists.mp (h 0 Nat.one_pos)
  rw [Nat.add_zero] at hv
  rw [ibufByte_written hv, hv, Option.getD_some]

theorem ibufByte_bind_stopsAt (h : m.FirstUnwritten b a) {f : Byte → Act σ α} {s : σ}
    (hf : m.FirstUnwritten (b + 1) a → StopsAt a (f ((m.read b).getD 0)) s) : StopsAt a (ibufByte m b >>= f) s := by
  rcases Nat.lt_or_ge a (b + 1) with ha | ha
  · obtain rfl : a = b := Nat.le_antisymm (Nat.le_of_lt_succ ha) h.le
    exact (ibufByte_stopsAt h.unwritten s).bind f
  · exact .after (ibufByte_of_written (h.written_of_le ha) s) (hf (h.skip ha))

end

/-! ## The reader -/

section
variable {cap a : Nat} {ibuf : Memory} {r : Reader}

theorem Reader.UpTo.of_first (hw : r.wf cap) (h : ibuf.FirstUnwritten (r.base + r.fetch) a) : r.UpTo cap a ibuf :=
  ⟨hw, h.unwritten, h.le, h.written⟩

/-- A refill that would fetch the byte `a` stops there (R110). -/
theorem refill_stopsAt (h : r.UpTo cap a ibuf)
    (ha : a < r.base + r.fetch + granBits r.gran / 8 * r.unitsToFetch) : StopsAt a (refill ibuf) r := by
  rcases refill_cases (ibuf := ibuf) h.wf with ⟨hw, _⟩ | ⟨k, r', _, hw, hno, hr⟩
  · have hin := h.inside hw
    omega
  · rw [h.first hw hno] at hr
    exact ⟨_, r', rfl, hr⟩

theorem rdBits_stopsAt (h : r.UpTo cap a ibuf)
    (ha : a < r.base + r.fetch + granBits r.gran / 8 * r.unitsToFetch) (n : Nat) : StopsAt a (rdBits ibuf n) r :=
  (refill_stopsAt h ha).bind _

theorem decCw_stopsAt (h : r.UpTo cap a ibuf) (ha : a < r.base + r.fetch + granBits r.gran / 8 * r.unitsToFetch)
    (c : Config) (t : Nat) : StopsAt a (decCw c t ibuf) r :=
  (refill_stopsAt h ha).bind _

/-- A reader with enough bits buffered, or none left to fetch, reads without fetching (R110, R111). -/
theorem rdBits_idle {n : Nat} (hd : 32 ≤ r.cnt ∨ r.fetch = r.len) (hn : n ≤ r.cnt) :
    rdBits ibuf n r = .ok (r.top n) { r with win := r.win <<< n, cnt := r.cnt - n, pos := r.pos + n } := by
  simp only [rdBits, Act.bind_apply, refill_idle hd, Act.get_apply, require_true hn, Act.set_apply, Act.pure_apply]

/-- The bucket whose pattern is ahead is the one the scan finds (R145). -/
theorem find_bucket {c : Config} (hc : LegalCodebook c) {i : Nat} (hi : i ≤ 6) {bs : List Bool}
    (h : natBits (prefixBits c i) (prefixPat c i) <+: bs) :
    buckets.find? (fun j => decide (natBits (prefixBits c j) (prefixPat c j) <+: bs)) = some i := by
  cases hf : buckets.find? (fun j => decide (natBits (prefixBits c j) (prefixPat c j) <+: bs)) with
  | none => exact absurd h (by simpa using List.find?_eq_none.mp hf i (mem_buckets.mpr hi))
  | some j =>
    have hj := mem_buckets.mp (List.mem_of_find?_eq_some hf)
    rw [bucket_unique hc hj hi (by simpa using List.find?_some hf) h]

/-- Where the refill before the payload would fetch the byte `a`, the decoding of the codeword stops there (R145). -/
theorem decCw_payload_stopsAt {c : Config} (hc : LegalCodebook c) {t i : Nat} (hi : i ≤ 6) (h : r.UpTo cap a ibuf)
    (hnext : r.base + r.fetch + granBits r.gran / 8 * r.unitsToFetch ≤ a)
    (hpre : natBits (prefixBits c i) (prefixPat c i) <+: r.ahead ibuf)
    (hcw : codewordBits c t i ≤ r.cnt + granBits r.gran * r.unitsToFetch)
    (ha : a < r.base + r.fetch + granBits r.gran / 8 * r.unitsToFetch + granBits r.gran / 8 *
      Reader.unitsToFetch { r with
        cnt := r.cnt + granBits r.gran * r.unitsToFetch - prefixBits c i
        fetch := r.fetch + granBits r.gran / 8 * r.unitsToFetch }) :
    StopsAt a (decCw c t ibuf) r := by
  rcases refill_cases (ibuf := ibuf) h.wf with ⟨_, r1, hrefill, hfe, hd⟩ | ⟨k, _, hk, hw, hno, _⟩
  · have hscan := scanBuckets_eq hc (ibuf := ibuf) hfe.wf hd (is := buckets) fun j hj => mem_buckets.mp hj
    rw [hfe.ahead, find_bucket hc hi hpre] at hscan
    have hwf := hfe.wf
    obtain ⟨w, rfl⟩ : ∃ w, r1 = { r with
        win := w
        cnt := r.cnt + granBits r.gran * r.unitsToFetch
        fetch := r.fetch + granBits r.gran / 8 * r.unitsToFetch } := ⟨r1.win, hfe.eq⟩
    have hp : prefixBits c i ≤ r.cnt + granBits r.gran * r.unitsToFetch := (Nat.le_add_right ..).trans hcw
    have hup := h.mono (consume_buffered hwf hp ibuf).1 rfl (Nat.le_add_right ..) (Nat.add_assoc .. ▸ hnext)
    refine .after hrefill (.after hscan (.after (Act.get_apply _) (.after (require_true hcw ..)
      (.after (rdBits_idle hd hp) (Fails.bind (rdBits_stopsAt hup ?_ _) _)))))
    rwa [← Nat.add_assoc]
  · have := h.first hw hno
    omega

end

/-! ## Commands that read a whole range -/

section
variable {s : State} {a : Nat}

theorem requireIbuf_ok {b n : Nat} (h : b + n ≤ s.cfg.ibufBytes) : requireIbuf b n s = .ok () s := by
  rw [requireIbuf_apply, if_pos h]

theorem requireObuf_ok {b : Nat} (h : b ≤ s.cfg.obufBytes) : requireObuf b s = .ok () s := by
  rw [requireObuf_apply, if_pos h]

theorem requireReader_ok (h : s.inp.rd.st = .active) : requireReader s = .ok () s := by
  rw [requireReader_apply, if_pos h]

theorem histBody_stopsAt {b n : Nat} (h : s.inp.ibuf.FirstUnwritten b a) (ha : a < b + n) (w : Bool) :
    StopsAt a (histBody w b n) s :=
  .after (Act.get_apply s) ((ibufBytes_stopsAt h ha s).bind _)

theorem execHufHist_unwritten (h : s.inp.ibuf.FirstUnwritten s.argl0 a) (ha : a < s.argl0 + s.argl1)
    (hin : s.argl0 + s.argl1 ≤ s.cfg.ibufBytes) (w : Bool) : execHufHist w s = .fault (.unwrittenIbuf a) :=
  StopsAt.complete (.after (requireIbuf_ok hin) (histBody_stopsAt h ha w))

theorem execHufEnc_unwritten (h : s.inp.ibuf.FirstUnwritten s.argl0 a) (ha : a < s.argl0 + s.argl1)
    (hin : s.argl0 + s.argl1 ≤ s.cfg.ibufBytes) (hout : s.argl2 ≤ s.cfg.obufBytes) (w : Bool) :
    execHufEnc w s = .fault (.unwrittenIbuf a) :=
  StopsAt.complete (.after (requireIbuf_ok hin) (.after (requireObuf_ok hout) ((histBody_stopsAt h ha w).bind _)))

theorem execRleBest_unwritten (h : s.inp.ibuf.FirstUnwritten s.argl0 a)
    (ha : a < s.argl0 + s.planeWidth * s.planeHeight) (hin : s.argl0 + s.planeWidth * s.planeHeight ≤ s.cfg.ibufBytes)
    (hout : s.argl2 ≤ s.cfg.obufBytes) : execRleBest s = .fault (.unwrittenIbuf a) :=
  StopsAt.complete (.after (requireIbuf_ok hin) (.after (requireObuf_ok hout) ((ibufBytes_stopsAt h ha s).bind _)))

end

/-! ## Decoders -/

/-- The reader as `rd_init` leaves it (R113). -/
def Reader.started (base len : Nat) (g : Gran) : Reader where
  st := .active
  gran := g
  base := base
  len := len
  fetch := 0
  win := 0
  cnt := 0
  pos := 0

theorem onReader_rdInit (s : State) (base len : Nat) (g : Gran) :
    onReader (fun _ => rdInit base len g) s
      = .ok () { s with inp := { s.inp with rd := Reader.started base len g } } := rfl

theorem Reader.started_upTo {cap a base len : Nat} {g : Gran} {ibuf : Memory} (h : ibuf.FirstUnwritten base a)
    (hin : base + len ≤ cap) (hg : g = .word → len % 4 = 0) : (Reader.started base len g).UpTo cap a ibuf :=
  .of_first (Reader.wf_init hin hg) h

/-- In byte mode the first refill fetches four bytes, or all there are (R110). -/
theorem Reader.unitsToFetch_started_byte (base len : Nat) :
    (Reader.started base len .byte).unitsToFetch = min 4 len := by
  simp [Reader.unitsToFetch, Reader.started, granBits]

theorem KeepsBelow.onHuf (cap a : Nat) (f : Huffman → Huffman) : KeepsBelow cap a (onHuf f) :=
  fun _ _ h => ⟨rfl, rfl, h⟩

/-- A rule that goes on with an action that keeps the reader below `a`. -/
theorem KeepsBelow.ends {cap a : Nat} {x : Act State Results} (hx : KeepsBelow cap a x) {t : State}
    (hc : LegalCodebook t.cfg) (h : t.InputBelow cap a) :
    Ends (fun u => u.inp.rd.base = t.inp.rd.base ∧ u.InputBelow cap a) (· = .unwrittenIbuf a) (x t) :=
  (hx t hc h).imp fun _ hu => hu.2

section
variable {s : State} {a : Nat}

theorem execHufDec_unwritten_flags (h : s.inp.ibuf.FirstUnwritten s.argl0 a) (ha : a < s.argl0 + s.argl1)
    (hin : s.argl0 + s.argl1 ≤ s.cfg.ibufBytes) (hout : s.argl2 ≤ s.cfg.obufBytes) (h4 : a < s.argl0 + 4) :
    execHufDec s = .fault (.unwrittenIbuf a) := by
  have hup := Reader.started_upTo (g := .byte) h hin nofun
  have hfetch : a < s.argl0 + 0 + 8 / 8 * (Reader.started s.argl0 s.argl1 .byte).unitsToFetch := by
    rw [Reader.unitsToFetch_started_byte]
    omega
  have hrd : StopsAt a (onReader (rdHeader s.argl0))
      { s with inp := { s.inp with rd := Reader.started s.argl0 s.argl1 .byte } } :=
    Fails.onReader (Fails.bind (rdBits_stopsAt hup hfetch 8) _)
  exact StopsAt.complete (.after (requireIbuf_ok hin) (.after (requireObuf_ok hout)
    (.after (onReader_rdInit s _ _ _) (hrd.bind _))))

theorem execHufDec_fetchesOnlyBelow (hc : LegalCodebook s.cfg) (h : s.inp.ibuf.FirstUnwritten s.argl0 a)
    (hin : s.argl0 + s.argl1 ≤ s.cfg.ibufBytes) (hout : s.argl2 ≤ s.cfg.obufBytes) :
    FetchesOnlyBelow s.argl0 a (execHufDec s) := by
  refine complete_fetchesOnlyBelow (.after (requireIbuf_ok hin) (.after (requireObuf_ok hout)
    (.after (onReader_rdInit ..) (KeepsBelow.ends ?_ hc (Reader.started_upTo h hin nofun)))))
  exact (KeepsBelow.onReader fun ibuf => rdHeader_below _ _ _ ibuf).bind fun hd =>
    (walk_below _ _ _ _ _ _).bind fun _ => (KeepsBelow.onHuf _ _ _).bind fun _ =>
      KeepsBelow.get_bind fun _ _ => KeepsBelow.pure _ _ _

theorem execRleDecplane_unwritten_header (h : s.inp.ibuf.FirstUnwritten s.argl0 a)
    (hin : s.argl0 + s.argl1 ≤ s.cfg.ibufBytes) (hout : s.argl2 ≤ s.cfg.obufBytes) (hlen : 10 ≤ s.argl1)
    (h10 : a < s.argl0 + 10) : execRleDecplane s = .fault (.unwrittenIbuf a) := by
  refine StopsAt.complete (.after (requireIbuf_ok hin) (.after (requireObuf_ok hout)
    (.after (require_true hlen ..) ?_)))
  refine ibufByte_bind_stopsAt h fun h1 => ibufBytes_bind_stopsAt h1 fun h3 => ibufBytes_bind_stopsAt h3 fun h5 =>
    ibufByte_bind_stopsAt h5 fun h6 => ibufBytes_bind_stopsAt h6 fun hend => ?_
  have := hend.le
  omega

theorem execRleDecplane_fetchesOnlyBelow (hc : LegalCodebook s.cfg) (h : s.inp.ibuf.FirstUnwritten s.argl0 a)
    (hin : s.argl0 + s.argl1 ≤ s.cfg.ibufBytes) (hout : s.argl2 ≤ s.cfg.obufBytes) (h10 : s.argl0 + 10 ≤ a)
    (hfirst : ((s.inp.ibuf.read s.argl0).getD 0).toNat ≤ 1) (ht : ((s.inp.ibuf.read (s.argl0 + 5)).getD 0).toNat ≤ 5)
    (hwc : 10 + 4 * littleEndian (bytesAt s.inp.ibuf (s.argl0 + 6) 4) ≤ s.argl1) :
    FetchesOnlyBelow (s.argl0 + 10) a (execRleDecplane s) := by
  have hbytes (i n : Nat) (hn : i + n ≤ 10) : Written s.inp.ibuf (s.argl0 + i) n :=
    (h.skip (n := i) (by omega)).written_of_le (by omega)
  have hreader := Reader.started_upTo (cap := s.cfg.ibufBytes) (g := .word) (h.skip h10)
    (len := 4 * littleEndian (bytesAt s.inp.ibuf (s.argl0 + 6) 4)) (by omega) fun _ => Nat.mul_mod_right ..
  refine complete_fetchesOnlyBelow (.after (requireIbuf_ok hin) (.after (requireObuf_ok hout)
    (.after (require_true (show rleHeaderBytes ≤ s.argl1 by rw [rleHeaderBytes]; omega) ..)
    (.after (ibufByte_of_written (hbytes 0 1 (by decide)) s) (.after (ibufBytes_written (hbytes 1 2 (by decide)) s)
    (.after (ibufBytes_written (hbytes 3 2 (by decide)) s) (.after (ibufByte_of_written (hbytes 5 1 (by decide)) s)
    (.after (ibufBytes_written (hbytes 6 4 (by decide)) s) (.after (require_true hfirst ..)
    (.after (require_true ht ..) (.after (require_true hwc ..)
    (.after (onReader_rdInit ..) (KeepsBelow.ends ?_ hc hreader)))))))))))))
  exact (decRuns_below ht _ _ _).bind fun _ => KeepsBelow.get_bind fun _ _ => KeepsBelow.pure _ _ _

theorem execBrRead_unwritten (hst : s.inp.rd.st = .active) {cap : Nat} (h : s.InputBelow cap a) {n : Nat} (hn : n ≤ 32)
    (ha : a < s.inp.rd.base + s.inp.rd.fetch + granBits s.inp.rd.gran / 8 * s.inp.rd.unitsToFetch) :
    execBrRead n s = .fault (.unwrittenIbuf a) :=
  StopsAt.complete (.after (requireReader_ok hst) (.after (require_true hn ..)
    (Fails.bind (Fails.onReader (rdBits_stopsAt h ha n)) _)))

theorem execBrRead_fetchesOnlyBelow (hc : LegalCodebook s.cfg) (hst : s.inp.rd.st = .active) {cap : Nat}
    (h : s.InputBelow cap a) {n : Nat} (hn : n ≤ 32) : FetchesOnlyBelow s.inp.rd.base a (execBrRead n s) := by
  refine complete_fetchesOnlyBelow (.after (requireReader_ok hst) (.after (require_true hn ..)
    (KeepsBelow.ends ?_ hc h)))
  exact (KeepsBelow.onReader fun ibuf => rdBits_below _ _ ibuf hn).bind fun _ => KeepsBelow.pure _ _ _

/-- Where the codeword's decoding stops, `RLE_DECRUN` does. -/
theorem execRleDecrun_unwritten (hst : s.inp.rd.st = .active) {t : Nat} (ht : t ≤ 5)
    (h : StopsAt a (decCw s.cfg t s.inp.ibuf) s.inp.rd) : execRleDecrun t s = .fault (.unwrittenIbuf a) :=
  StopsAt.complete (.after (requireReader_ok hst) (.after (require_true ht ..)
    (Fails.bind (Fails.onReader (x := decCw s.cfg t) h) _)))

theorem execRleDecrun_fetchesOnlyBelow (hc : LegalCodebook s.cfg) (hst : s.inp.rd.st = .active) {cap : Nat}
    (h : s.InputBelow cap a) {t : Nat} (ht : t ≤ 5) : FetchesOnlyBelow s.inp.rd.base a (execRleDecrun t s) := by
  refine complete_fetchesOnlyBelow (.after (requireReader_ok hst) (.after (require_true ht ..)
    (KeepsBelow.ends ?_ hc h)))
  exact (KeepsBelow.onReader fun ibuf => decCw_below hc ht _ _ ibuf).bind fun _ => KeepsBelow.pure _ _ _

end

/-! ## The pixel scan of `RLE_ENCPLANE` -/

/-- Write runs in order (R146). -/
def encRuns (c : Config) (t : Nat) : List Nat → Act OutPort Unit
  | [] => pure ()
  | r :: rs => do
    emitRun c t r
    encRuns c t rs

theorem encRuns_writes {c : Config} (hc : LegalCodebook c) {t : Nat} (ht : t ≤ 5) (rs : List Nat) :
    Writes c.obufBytes (encRuns c t rs) (runsString c t rs) () := by
  induction rs with
  | nil => exact Writes.pure _ ()
  | cons r rs ih =>
    have hbind := (emitRun_writes hc ht r).bind (f := fun _ => encRuns c t rs) ih
    simpa only [runsString, List.map_cons, List.flatten_cons, encRuns] using hbind

theorem runsFrom_ne_nil {cur : Bool} {run : Nat} (h : 0 < run) (ps : List Bool) : runsFrom cur run ps ≠ [] := by
  induction ps generalizing cur run with
  | nil => simp [runsFrom, h]
  | cons p ps ih =>
    rw [runsFrom]
    split
    · exact ih (Nat.succ_pos run)
    · exact List.cons_ne_nil _ _

/-- Up to an unwritten pixel the scan writes the runs that ended before it, then it stops (R148, R153). -/
theorem encScan_eq_of_unwritten (c : Config) (t : Nat) {ibuf : Memory} {n b a : Nat} (h : ibuf.FirstUnwritten b a)
    (ha : a < b + n) (cur : Bool) (run : Nat) :
    encScan c t ibuf n b cur run
      = (encRuns c t (runsFrom cur run (pixelsAt ibuf b (a - b))).dropLast >>= fun _ =>
          throw (.stuck (.unwrittenIbuf a))) := by
  induction n generalizing b cur run with
  | zero => exact absurd ha (Nat.not_lt.mpr h.le)
  | succ n ih =>
    funext o
    rcases Nat.lt_or_eq_of_le h.le with hlt | rfl
    · have hsucc : a - b = (a - (b + 1)) + 1 := by omega
      have hnext : a < b + 1 + n := by omega
      have ih := ih (h.skip hlt) hnext
      rw [encScan, Act.bind_apply, ibufByte_of_written (h.written_of_le hlt), hsucc, pixelsAt_succ, runsFrom]
      dsimp only
      split
      · rw [ih]
      · rw [List.dropLast_cons_of_ne_nil (runsFrom_ne_nil Nat.one_pos _), encRuns, ih, bind_assoc]
    · have hnone : (runsFrom cur run []).dropLast = [] := by
        rw [runsFrom]
        split <;> rfl
      rw [Nat.sub_self, show pixelsAt ibuf b 0 = [] from rfl, hnone, encScan, Act.bind_apply,
        ibufByte_unwritten h.unwritten]
      rfl

/-- Why the encoding of a plane stops early: at the unwritten byte `a`, or with an error where `overflow` holds. -/
def UnwrittenOr (a : Nat) (overflow : Prop) (e : Stop) : Prop :=
  e = .stuck (.unwrittenIbuf a) ∨ overflow ∧ ∃ code pos, e = .raised code pos

/-- Over pixels of which the one at `a` is the first unwritten, the scan stops there, or raises an overflow because the
runs that ended before it do not fit OBUF. -/
theorem encScan_unwritten {c : Config} (hc : LegalCodebook c) {t : Nat} (ht : t ≤ 5) {ibuf : Memory} {n b a : Nat}
    (h : ibuf.FirstUnwritten b a) (ha : a < b + n) (cur : Bool) (run : Nat) {o : OutPort}
    (ho : o.wr.Ready c.obufBytes) {bits : List Bool}
    (hbits : bits = runsString c t (runsFrom cur run (pixelsAt ibuf b (a - b))).dropLast) :
    Fails (UnwrittenOr a (c.obufBytes < o.wr.base + o.wr.out
        + granBits o.wr.gran / 8 * ((o.wr.cnt + bits.length) / granBits o.wr.gran)))
      (encScan c t ibuf n b cur run) o := by
  rw [encScan_eq_of_unwritten c t h ha]
  have hruns := encRuns_writes hc ht (runsFrom cur run (pixelsAt ibuf b (a - b))).dropLast
  rw [← hbits] at hruns
  rcases hruns o ho with ⟨o', hok, _⟩ | ⟨e, o', _, herr, hlt, hcap, _⟩
  · exact .after hok ⟨_, o', .inl rfl, rfl⟩
  · have hover := Nat.lt_of_lt_of_le hcap (Nat.add_le_add_left (Nat.mul_le_mul_left _ hlt) _)
    exact Fails.bind ⟨_, o', .inr ⟨hover, _, _, rfl⟩, herr⟩ _

/-! ## `RLE_ENCPLANE` -/

section
variable {s : State} {a : Nat}

/-- The bits of the runs of a plane that ended before the byte `a` (R148). -/
def State.bitsBefore (s : State) (t a : Nat) : List Bool :=
  ((planeRuns (pixelsAt s.inp.ibuf s.argl0 (a - s.argl0))).dropLast.map (runString s.cfg t)).flatten

/-- Those bits are the ones the scan writes from the first pixel on. -/
theorem State.bitsBefore_eq (t : Nat) (h : s.argl0 < a) : s.bitsBefore t a
    = runsString s.cfg t (runsFrom (pixelOf ((s.inp.ibuf.read s.argl0).getD 0)) 0
        (pixelsAt s.inp.ibuf s.argl0 (a - s.argl0))).dropLast := by
  obtain ⟨k, hk⟩ := Nat.exists_eq_add_of_lt h
  rw [State.bitsBefore, show a - s.argl0 = k + 1 by omega, pixelsAt_succ]
  rfl

/-- The plane's whole words that end before the byte `a` do not fit OBUF, or its header does not. -/
def State.OverflowsBefore (s : State) (t a : Nat) : Prop :=
  s.cfg.obufBytes < s.argl2 + 10 + 4 * ((s.bitsBefore t a).length / 32)

theorem planeOutput_unwritten (hc : LegalCodebook s.cfg) {t : Nat} (ht : t ≤ 5)
    (h : s.inp.ibuf.FirstUnwritten s.argl0 a) (hlt : s.argl0 < a) (ha : a < s.argl0 + s.planeWidth * s.planeHeight)
    (hroom : s.argl2 + 10 ≤ s.cfg.obufBytes) :
    Fails (UnwrittenOr a (s.OverflowsBefore t a)) (planeOutput s t ((s.inp.ibuf.read s.argl0).getD 0)) s := by
  have hscan := encScan_unwritten hc ht h ha (pixelOf ((s.inp.ibuf.read s.argl0).getD 0)) 0 (o := {
      wr := { st := .active, gran := .word, base := s.argl2 + 10, acc := 0, cnt := 0, out := 0, bits := 0 }
      obuf := s.out.obuf.writeList s.argl2
        (planeHeader (pixelOf ((s.inp.ibuf.read s.argl0).getD 0)) s.planeWidth s.planeHeight t) })
    ⟨granBits_pos .word, Nat.one_pos, hroom, rfl⟩ (State.bitsBefore_eq t hlt)
  simp only [Nat.zero_add, Nat.add_zero] at hscan
  exact .after (storeBytes_apply ..) (.after rfl (Fails.bind (Fails.onOut hscan) _))

/-- With its range inside IBUF and a pixel unwritten, the encoding stops at that pixel, or raises an error because what
comes before does not fit OBUF. -/
theorem encPlane_unwritten (hc : LegalCodebook s.cfg) {t : Nat} (ht : t ≤ 5)
    (h : s.inp.ibuf.FirstUnwritten s.argl0 a) (ha : a < s.argl0 + s.planeWidth * s.planeHeight)
    (hin : s.argl0 + s.planeWidth * s.planeHeight ≤ s.cfg.ibufBytes) :
    Fails (UnwrittenOr a (s.OverflowsBefore t a)) (encPlane t) s := by
  have hle := h.le
  refine .after (Act.get_apply s) (.after (requireIbuf_ok hin) ?_)
  by_cases hroom : s.argl2 + 10 ≤ s.cfg.obufBytes
  · refine .after (requireObuf_ok (by omega)) (.after (require_true hroom ..) ?_)
    dsimp only
    rw [if_pos (by omega)]
    rcases Nat.lt_or_eq_of_le hle with hlt | rfl
    · exact .after (ibufByte_of_written (h.written_of_le hlt) s) (planeOutput_unwritten hc ht h hlt ha hroom)
    · exact Fails.bind ⟨_, s, .inl rfl, ibufByte_unwritten h.unwritten s⟩ _
  · have hover : s.OverflowsBefore t a := Nat.lt_of_lt_of_le (Nat.not_le.mp hroom) (Nat.le_add_right ..)
    by_cases hout : s.argl2 ≤ s.cfg.obufBytes
    · exact .after (requireObuf_ok hout) (Fails.bind ⟨_, s, .inr ⟨hover, _, _, rfl⟩, require_false hroom ..⟩ _)
    · exact Fails.bind ⟨_, s, .inr ⟨hover, _, _, rfl⟩, by rw [requireObuf_apply, if_neg hout]⟩ _

/-- `RLE_ENCPLANE` stops at its first unwritten pixel or completes with an error. -/
theorem execRleEncplane_unwritten (hc : LegalCodebook s.cfg) {t : Nat} (ht : t ≤ 5)
    (h : s.inp.ibuf.FirstUnwritten s.argl0 a) (ha : a < s.argl0 + s.planeWidth * s.planeHeight)
    (hin : s.argl0 + s.planeWidth * s.planeHeight ≤ s.cfg.ibufBytes) :
    execRleEncplane t s = .fault (.unwrittenIbuf a)
    ∨ s.OverflowsBefore t a ∧ ∃ u, execRleEncplane t s = .next u := by
  have hbody : Fails (UnwrittenOr a (s.OverflowsBefore t a))
      (require (t ≤ 5) .illegalArgument 0 >>= fun _ => encPlane t) s :=
    .after (require_true ht ..) (encPlane_unwritten hc ht h ha hin)
  obtain ⟨_, u, rfl | ⟨hover, _, _, rfl⟩, hu⟩ := hbody
  · exact .inl (complete_stuck hu)
  · exact .inr ⟨hover, _, complete_raised hu⟩

end

/-! ## The statement -/

/-- Settles O11: each command's input is read from its lowest address up, so the first unwritten byte it asks for stops
it. -/
theorem unwrittenInputByteStopsTheCommand : Obligations.UnwrittenInputByteStopsTheCommand := by
  unfold Obligations.UnwrittenInputByteStopsTheCommand
  intro s a hlegal hno
  have hc := legalCodebook hlegal
  refine ⟨fun hle hw => ?_, fun hst hwf hle hw => ?_⟩
  · have h : s.inp.ibuf.FirstUnwritten s.argl0 a := ⟨hle, hno, hw⟩
    refine ⟨fun ha hin => ⟨execHufHist_unwritten h ha hin, fun hout => ⟨execHufEnc_unwritten h ha hin hout,
      execHufDec_unwritten_flags h ha hin hout, execHufDec_fetchesOnlyBelow hc h hin hout,
      execRleDecplane_unwritten_header h hin hout, execRleDecplane_fetchesOnlyBelow hc h hin hout⟩⟩,
      fun ha hin => ⟨execRleBest_unwritten h ha hin, fun t ht => ?_⟩⟩
    rcases execRleEncplane_unwritten hc ht h ha hin with hstop | ⟨hover, u, hnext⟩
    · exact ⟨fun f hf => Host.Outcome.fault.inj (hf.symm.trans hstop), fun _ => hstop⟩
    · exact ⟨fun f hf => (nomatch hf.symm.trans hnext), fun hfits => absurd hover (Nat.not_lt.mpr hfits)⟩
  · have h : s.InputBelow s.cfg.ibufBytes a := ⟨hwf, hno, hle, hw⟩
    refine ⟨fun n hn => ⟨execBrRead_fetchesOnlyBelow hc hst h hn, execBrRead_unwritten hst h hn⟩, fun t ht =>
      ⟨execRleDecrun_fetchesOnlyBelow hc hst h ht, fun ha => ?_, fun i hi hnext hpre hcw ha => ?_⟩⟩
    · exact execRleDecrun_unwritten hst ht (decCw_stopsAt h ha _ _)
    · exact execRleDecrun_unwritten hst ht (decCw_payload_stopsAt hc hi h hnext hpre hcw ha)

end Sys2Proof.Machine
end

section
/-! PROOFS. The bits of a command word (spec/30_encoding.md R80, R81): what `assembleWord` puts at each field's place,
and what a mask keeps of a word. -/

namespace Sys2Proof

/-! ## The fields of an assembled word -/

/-- Each value fits the bits of its place in the command word (R80). -/
structure FieldsFit (op n t b g w : Nat) : Prop where
  op : op < 256
  n : n < 64
  t : t < 8
  b : b < 8
  g : g < 2
  w : w < 2

theorem ofNat_shiftLeft (n k : Nat) : (BitVec.ofNat 32 (n <<< k) : Word) = BitVec.ofNat 32 n <<< k :=
  BitVec.eq_of_toNat_eq (by simp [Nat.shiftLeft_eq])

/-- R89's formula over the naturals is the one over words. -/
theorem ofNat_lor_eq_assembleWord (op n t b g w : Nat) :
    BitVec.ofNat 32 (op ||| n <<< 8 ||| t <<< 14 ||| b <<< 17 ||| g <<< 20 ||| w <<< 21)
      = assembleWord op n t b g w := by
  simp only [BitVec.ofNat_or, ofNat_shiftLeft, assembleWord]

theorem lor_shiftLeft_eq_add {a k : Nat} (h : a < 2 ^ k) (b : Nat) : a ||| b <<< k = a + 2 ^ k * b := by
  rw [Nat.or_comm, ← Nat.shiftLeft_add_eq_or_of_lt h, Nat.shiftLeft_eq, Nat.add_comm, Nat.mul_comm]

theorem field_eq (c : Word) (lo width : Nat) : field c lo width = c.toNat / 2 ^ lo % 2 ^ width := by
  simp only [field, BitVec.extractLsb'_toNat, Nat.shiftRight_eq_div_pow]

theorem field_lt (c : Word) (lo width : Nat) : field c lo width < 2 ^ width := (c.extractLsb' lo width).isLt

/-- Fields that fit do not overlap, so the `|` of R89 adds them. -/
theorem FieldsFit.toNat_assembleWord {op n t b g w : Nat} (h : FieldsFit op n t b g w) :
    (assembleWord op n t b g w).toNat = op + 2 ^ 8 * n + 2 ^ 14 * t + 2 ^ 17 * b + 2 ^ 20 * g + 2 ^ 21 * w := by
  obtain ⟨hop, hn, ht, hb, hg, hw⟩ := h
  rw [← ofNat_lor_eq_assembleWord]
  simp (disch := omega) only [lor_shiftLeft_eq_add, BitVec.toNat_ofNat, Nat.mod_eq_of_lt]

/-- Each field is read back from its place. -/
theorem FieldsFit.field_assembleWord {op n t b g w : Nat} (h : FieldsFit op n t b g w) :
    field (assembleWord op n t b g w) 0 8 = op ∧ field (assembleWord op n t b g w) 8 6 = n
      ∧ field (assembleWord op n t b g w) 14 3 = t ∧ field (assembleWord op n t b g w) 17 3 = b
      ∧ field (assembleWord op n t b g w) 20 1 = g ∧ field (assembleWord op n t b g w) 21 1 = w := by
  simp only [field_eq, h.toNat_assembleWord]
  obtain ⟨hop, hn, ht, hb, hg, hw⟩ := h
  omega

/-! ## One-bit fields -/

theorem field_one (c : Word) (lo : Nat) : field c lo 1 = (c.getLsbD lo).toNat := by
  rw [field_eq, ← BitVec.testBit_toNat, Nat.toNat_testBit, pow_one]

theorem granBit_fieldG (c : Word) : granBit (fieldG c) = field c 20 1 := by
  rw [field_one, fieldG]
  cases c.getLsbD 20 <;> rfl

theorem toNat_fieldW (c : Word) : (fieldW c).toNat = field c 21 1 := (field_one c 21).symm

theorem granBit_lt (g : Gran) : granBit g < 2 := by cases g <;> decide

theorem granBit_injective : ∀ {g g' : Gran}, granBit g = granBit g' → g = g'
  | .byte, .byte, _ => rfl
  | .word, .word, _ => rfl

theorem toNat_bool_injective : ∀ {w w' : Bool}, w.toNat = w'.toNat → w = w' := by decide

/-! ## What a mask keeps -/

/-- A run of ones at a field's place keeps that field. -/
theorem and_ones_shiftLeft (c : Word) {lo width : Nat} (h : lo + width ≤ 32) :
    c &&& BitVec.ofNat 32 (2 ^ width - 1) <<< lo = BitVec.ofNat 32 (field c lo width) <<< lo := by
  refine BitVec.eq_of_getLsbD_eq fun i hi => ?_
  rw [BitVec.getLsbD_and, BitVec.getLsbD_shiftLeft, BitVec.getLsbD_shiftLeft]
  by_cases hlo : i < lo
  · simp only [hlo, decide_true, Bool.not_true, Bool.and_false, Bool.false_and]
  · have hat : lo + (i - lo) = i := by omega
    have hin : i - lo < 32 := by omega
    rw [BitVec.getLsbD_ofNat, BitVec.getLsbD_ofNat, Nat.testBit_two_pow_sub_one, field, BitVec.testBit_toNat,
      BitVec.getLsbD_extractLsb', hat]
    simp only [hi, hlo, hin, decide_true, decide_false, Bool.not_false, Bool.true_and]
    exact Bool.and_comm _ _

/-- The ones `OpRow.mask` clears at a field's place keep the field in a row that uses it. -/
theorem and_ones_of_used (c : Word) (uses : Bool) {lo width ones : Nat} (h : lo + width ≤ 32)
    (hones : ones = 2 ^ width - 1) :
    c &&& BitVec.ofNat 32 (if uses then ones else 0) <<< lo
      = BitVec.ofNat 32 (if uses then field c lo width else 0) <<< lo := by
  cases uses with
  | true => exact hones ▸ and_ones_shiftLeft c h
  | false => simp

/-- The word with the row's opcode and, of `c`, the fields the row uses. -/
def OpRow.respell (r : OpRow) (c : Word) : Word :=
  assembleWord r.op (if r.usesN then field c 8 6 else 0) (if r.usesT then field c 14 3 else 0)
    (if r.usesB then field c 17 3 else 0) (if r.usesG then field c 20 1 else 0) (if r.usesW then field c 21 1 else 0)

/-- A word that matches a row (R84) holds the row's opcode, the fields the row uses, and 0 elsewhere. -/
theorem OpRow.respell_of_match {r : OpRow} {c : Word} (h : c &&& r.mask = BitVec.ofNat 32 r.op) : r.respell c = c := by
  have hused : c &&& ~~~ r.mask = BitVec.ofNat 32 (if r.usesN then field c 8 6 else 0) <<< 8
      ||| BitVec.ofNat 32 (if r.usesT then field c 14 3 else 0) <<< 14
      ||| BitVec.ofNat 32 (if r.usesB then field c 17 3 else 0) <<< 17
      ||| BitVec.ofNat 32 (if r.usesG then field c 20 1 else 0) <<< 20
      ||| BitVec.ofNat 32 (if r.usesW then field c 21 1 else 0) <<< 21 := by
    rw [← and_ones_of_used (ones := 63) c r.usesN (by decide) rfl,
      ← and_ones_of_used (ones := 7) c r.usesT (by decide) rfl,
      ← and_ones_of_used (ones := 7) c r.usesB (by decide) rfl,
      ← and_ones_of_used (ones := 1) c r.usesG (by decide) rfl,
      ← and_ones_of_used (ones := 1) c r.usesW (by decide) rfl]
    simp only [OpRow.mask, assembleWord, BitVec.not_not, BitVec.zero_or, BitVec.and_or_distrib_left]
  calc r.respell c = BitVec.ofNat 32 r.op ||| (c &&& ~~~ r.mask) := by
        simp only [OpRow.respell, assembleWord, hused, BitVec.or_assoc]
    _ = c &&& (r.mask ||| ~~~ r.mask) := by rw [← h, ← BitVec.and_or_distrib_left]
    _ = c := by rw [BitVec.or_not_self, BitVec.and_allOnes]

theorem ite_field_lt (c : Word) (uses : Bool) (lo width : Nat) :
    (if uses then field c lo width else 0) < 2 ^ width := by
  cases uses with
  | true => exact field_lt c lo width
  | false => exact Nat.two_pow_pos width

/-- The fields a row uses fit. -/
theorem OpRow.fieldsFit_respell {r : OpRow} (hop : r.op < 256) (c : Word) :
    FieldsFit r.op (if r.usesN then field c 8 6 else 0) (if r.usesT then field c 14 3 else 0)
      (if r.usesB then field c 17 3 else 0) (if r.usesG then field c 20 1 else 0)
      (if r.usesW then field c 21 1 else 0) :=
  ⟨hop, ite_field_lt .., ite_field_lt .., ite_field_lt .., ite_field_lt .., ite_field_lt ..⟩

end Sys2Proof
end

section
/-! PROOFS. The rows of the opcode table (spec/30_encoding.md R83, R84) and the decoder: a word decodes to a command
exactly when it matches the command's row and holds its fields. -/

namespace Sys2Proof

open Machine

/-! ## The table -/

theorem OpRow.op_lt {r : OpRow} (hr : r ∈ opTable) : r.op < 256 := (by decide : ∀ r ∈ opTable, r.op < 256) r hr

theorem OpRow.eq_of_op_eq {r r' : OpRow} (hr : r ∈ opTable) (hr' : r' ∈ opTable) (h : r.op = r'.op) : r = r' :=
  (by decide : ∀ r ∈ opTable, ∀ r' ∈ opTable, r.op = r'.op → r = r') r hr r' hr' h

theorem OpRow.eq_of_mnemonic_eq {r r' : OpRow} (hr : r ∈ opTable) (hr' : r' ∈ opTable) (h : r.mnemonic = r'.mnemonic) :
    r = r' :=
  (by decide : ∀ r ∈ opTable, ∀ r' ∈ opTable, r.mnemonic = r'.mnemonic → r = r') r hr r' hr' h

/-- A word that matches a row of the table has the row's opcode. -/
theorem OpRow.op_of_match {r : OpRow} (hr : r ∈ opTable) {c : Word} (h : c &&& r.mask = BitVec.ofNat 32 r.op) :
    field c 0 8 = r.op := by
  rw [← respell_of_match h]
  exact (fieldsFit_respell (op_lt hr) c).field_assembleWord.1

/-- The row of a command: the rows stand in the order of the constructors. -/
def Instr.row (i : Instr) : OpRow := opTable[i.ctorIdx]'(by cases i <;> exact of_decide_eq_true rfl)

theorem Instr.row_mem (i : Instr) : i.row ∈ opTable := List.getElem_mem _

theorem Instr.row_mnemonic (i : Instr) : i.row.mnemonic = instrMnemonic i := by cases i <;> rfl

/-- Every row is some command's. -/
theorem exists_row_eq {r : OpRow} (hr : r ∈ opTable) : ∃ i : Instr, i.row = r := by
  have htable : opTable = [Instr.nop, .bwInit .byte, .bwWrite 0, .bwFinish, .brInit .byte, .brRead 0, .brRemain,
    .cbQuery 0 0, .rleEncrun 0, .rleDecrun 0, .rleEncplane 0, .rleDecplane, .rleBest, .hufHist false, .hufHistrd,
    .hufTree, .hufCodes, .hufCanon, .hufTabrd, .hufEnc false, .hufDec].map Instr.row := rfl
  rw [htable] at hr
  obtain ⟨i, -, hi⟩ := List.mem_map.mp hr
  exact ⟨i, hi⟩

/-! ## Commands of a row -/

/-- The command of the same row with its fields read from `c` (R81). -/
def Instr.readFrom (c : Word) : Instr → Instr
  | .bwInit _ => .bwInit (fieldG c)
  | .bwWrite _ => .bwWrite (field c 8 6)
  | .brInit _ => .brInit (fieldG c)
  | .brRead _ => .brRead (field c 8 6)
  | .cbQuery _ _ => .cbQuery (field c 14 3) (field c 17 3)
  | .rleEncrun _ => .rleEncrun (field c 14 3)
  | .rleDecrun _ => .rleDecrun (field c 14 3)
  | .rleEncplane _ => .rleEncplane (field c 14 3)
  | .hufHist _ => .hufHist (fieldW c)
  | .hufEnc _ => .hufEnc (fieldW c)
  | i => i

theorem Instr.row_readFrom (c : Word) (i : Instr) : (i.readFrom c).row = i.row := by cases i <;> rfl

theorem Instr.wellFormed_readFrom (c : Word) (i : Instr) : (i.readFrom c).wellFormed = true := by
  cases i with
  | bwWrite | brRead => exact decide_eq_true (field_lt c 8 6)
  | cbQuery => exact Bool.and_eq_true_iff.mpr ⟨decide_eq_true (field_lt c 14 3), decide_eq_true (field_lt c 17 3)⟩
  | rleEncrun | rleDecrun | rleEncplane => exact decide_eq_true (field_lt c 14 3)
  | _ => rfl

/-- The word of the command read from `c` is `c` with the row's opcode and without the fields the row does not use. -/
theorem Instr.encode_readFrom (c : Word) (i : Instr) : encode (i.readFrom c) = i.row.respell c := by
  cases i with
  | bwInit | brInit => exact congrArg (assembleWord _ 0 0 0 · 0) (granBit_fieldG c)
  | hufHist | hufEnc => exact congrArg (assembleWord _ 0 0 0 0 ·) (toNat_fieldW c)
  | _ => rfl

/-! ## The decoder -/

theorem matchRow_eq_ok_iff {c mask mtch : Word} {i j : Instr} :
    matchRow c mask mtch i = .ok j ↔ c &&& mask = mtch ∧ i = j := by
  unfold matchRow
  by_cases hm : c &&& mask = mtch
  · simp [hm]
  · rw [if_neg hm]
    split <;> simp [hm]

/-- The `OP` byte of a command's row picks that row. -/
theorem decode_eq_matchRow {c : Word} {i : Instr} (hop : field c 0 8 = i.row.op) :
    decode c = matchRow c i.row.mask (BitVec.ofNat 32 i.row.op) (i.readFrom c) := by
  cases i <;> simp only [decode, hop, Instr.row, Instr.ctorIdx, opTable, List.getElem_cons_succ,
    List.getElem_cons_zero] <;> rfl

/-- A word that decodes to a command has the `OP` byte of its row. -/
theorem op_of_decode_eq_ok {c : Word} {i : Instr} (h : decode c = .ok i) : field c 0 8 = i.row.op := by
  unfold decode at h
  split at h
  case h_22 => cases h
  all_goals
    rename_i hop
    obtain ⟨-, rfl⟩ := matchRow_eq_ok_iff.mp h
    exact hop

/-- R84: a word spells a command when it matches the command's row and holds the command's fields. -/
theorem decode_eq_ok_iff {c : Word} {i : Instr} :
    decode c = .ok i ↔ c &&& i.row.mask = BitVec.ofNat 32 i.row.op ∧ i.readFrom c = i := by
  constructor
  · intro h
    rwa [decode_eq_matchRow (op_of_decode_eq_ok h), matchRow_eq_ok_iff] at h
  · intro h
    rwa [decode_eq_matchRow (OpRow.op_of_match i.row_mem h.1), matchRow_eq_ok_iff]

/-- A word that matches a row of the table decodes to a command of that row. -/
theorem exists_decode_of_match {c : Word} {r : OpRow} (hr : r ∈ opTable) (h : c &&& r.mask = BitVec.ofNat 32 r.op) :
    ∃ i, decode c = .ok i ∧ instrMnemonic i = r.mnemonic := by
  obtain ⟨i, rfl⟩ := exists_row_eq hr
  refine ⟨i.readFrom c, ?_, by rw [← Instr.row_mnemonic, Instr.row_readFrom]⟩
  rw [decode_eq_matchRow (OpRow.op_of_match hr h), matchRow_eq_ok_iff]
  exact ⟨h, rfl⟩

end Sys2Proof
end

section
/-! PROOFS. Command lines (spec/30_encoding.md R89): which lines the assembler accepts, the word it answers, and that
the encoder's word of a command is the word of the command's own line. -/

namespace Sys2Proof

open Machine

/-! ## Accepted lines -/

/-- A written field is one the command uses and fits below `bound`. -/
def FieldOk (uses : Bool) (bound : Nat) (o : Option Nat) : Prop := ∀ v, o = some v → uses = true ∧ v < bound

theorem FieldOk.omitted {uses : Bool} {bound : Nat} : FieldOk uses bound none := fun _ h => nomatch h

theorem FieldOk.written {uses : Bool} {bound v : Nat} (huses : uses = true) (hv : v < bound) :
    FieldOk uses bound (some v) := fun _ h => Option.some.inj h ▸ ⟨huses, hv⟩

theorem FieldOk.getD_lt {uses : Bool} {bound : Nat} {o : Option Nat} (h : FieldOk uses bound o) (hpos : 0 < bound) :
    o.getD 0 < bound := by
  cases o with
  | none => exact hpos
  | some v => exact (h v rfl).2

/-- A field the row does not use is omitted, and so 0. -/
theorem FieldOk.ite_getD {uses : Bool} {bound : Nat} {o : Option Nat} (h : FieldOk uses bound o) :
    (if uses then o.getD 0 else 0) = o.getD 0 := by
  cases o with
  | none => exact ite_self 0
  | some v => exact if_pos (h v rfl).1

theorem FieldOk.not_unused {uses : Bool} {bound : Nat} {o : Option Nat} (h : FieldOk uses bound o) :
    ¬ (o ≠ none ∧ uses = false) := by
  rintro ⟨hwritten, hunused⟩
  obtain ⟨v, rfl⟩ := Option.ne_none_iff_exists'.mp hwritten
  exact Bool.false_ne_true (hunused.symm.trans (h v rfl).1)

/-- The line's written fields are all used by the row and fit their bits (R89). -/
structure OpRow.Accepts (r : OpRow) (l : AsmLine) : Prop where
  n : FieldOk r.usesN 64 l.n
  t : FieldOk r.usesT 8 l.t
  b : FieldOk r.usesB 8 l.b
  g : FieldOk r.usesG 2 l.g
  w : FieldOk r.usesW 2 l.w

/-- The word of a line with opcode `op`, an omitted field being 0 (R89). -/
def AsmLine.word (l : AsmLine) (op : Nat) : Word :=
  assembleWord op (l.n.getD 0) (l.t.getD 0) (l.b.getD 0) (l.g.getD 0) (l.w.getD 0)

theorem OpRow.Accepts.fieldsFit {r : OpRow} {l : AsmLine} (h : r.Accepts l) (hr : r ∈ opTable) :
    FieldsFit r.op (l.n.getD 0) (l.t.getD 0) (l.b.getD 0) (l.g.getD 0) (l.w.getD 0) :=
  ⟨OpRow.op_lt hr, h.n.getD_lt (by decide), h.t.getD_lt (by decide), h.b.getD_lt (by decide), h.g.getD_lt (by decide),
    h.w.getD_lt (by decide)⟩

/-- The word of an accepted line holds nothing but the row's opcode and the fields the row uses. -/
theorem OpRow.Accepts.respell_word {r : OpRow} {l : AsmLine} (h : r.Accepts l) (hr : r ∈ opTable) :
    r.respell (l.word r.op) = l.word r.op := by
  obtain ⟨-, hn, ht, hb, hg, hw⟩ := (h.fieldsFit hr).field_assembleWord
  simp only [OpRow.respell, AsmLine.word, hn, ht, hb, hg, hw, h.n.ite_getD, h.t.ite_getD, h.b.ite_getD, h.g.ite_getD,
    h.w.ite_getD]

/-! ## The line of a command -/

theorem Instr.accepts_asmLine {i : Instr} (hi : i.wellFormed = true) : i.row.Accepts (asmLine i) := by
  cases i with
  | bwInit g | brInit g => exact ⟨.omitted, .omitted, .omitted, .written rfl (granBit_lt g), .omitted⟩
  | bwWrite | brRead => exact ⟨.written rfl (of_decide_eq_true hi), .omitted, .omitted, .omitted, .omitted⟩
  | cbQuery =>
    obtain ⟨ht, hb⟩ := Bool.and_eq_true_iff.mp hi
    exact ⟨.omitted, .written rfl (of_decide_eq_true ht), .written rfl (of_decide_eq_true hb), .omitted, .omitted⟩
  | rleEncrun | rleDecrun | rleEncplane =>
    exact ⟨.omitted, .written rfl (of_decide_eq_true hi), .omitted, .omitted, .omitted⟩
  | hufHist w | hufEnc w => exact ⟨.omitted, .omitted, .omitted, .omitted, .written rfl w.toNat_lt⟩
  | _ => exact ⟨.omitted, .omitted, .omitted, .omitted, .omitted⟩

/-- The encoder's word of a command is the word of the command's line. -/
theorem Instr.word_asmLine (i : Instr) : (asmLine i).word i.row.op = encode i := by
  cases i with
  | bwInit g | brInit g => cases g <;> rfl
  | _ => rfl

/-! ## The assembler -/

theorem asmField_eq_some_iff {uses : Bool} {bits : Nat} {o : Option Nat} {v : Nat} :
    asmField uses bits o = some v ↔ FieldOk uses (2 ^ bits) o ∧ o.getD 0 = v := by
  cases o with
  | none => simp [asmField, FieldOk]
  | some x => simp [asmField, FieldOk]

/-- The assembler's search of the table finds the row with the line's mnemonic. -/
theorem find?_mnemonic {r : OpRow} (hr : r ∈ opTable) :
    opTable.find? (fun r' => r'.mnemonic == r.mnemonic) = some r :=
  (by decide : ∀ r ∈ opTable, opTable.find? (fun r' => r'.mnemonic == r.mnemonic) = some r) r hr

/-- For a mnemonic of the table, the assembler answers the line's word when the row accepts the line, and nothing
else. -/
theorem assemble_eq_some_iff {l : AsmLine} {r : OpRow} (hr : r ∈ opTable) (hm : r.mnemonic = l.mnemonic) {c : Word} :
    assemble l = some c ↔ r.Accepts l ∧ l.word r.op = c := by
  have hfind := find?_mnemonic hr
  rw [hm] at hfind
  unfold assemble
  rw [hfind]
  dsimp only
  constructor
  · intro h
    split at h
    · rename_i n t b g w hn ht hb hg hw
      rw [asmField_eq_some_iff] at hn ht hb hg hw
      rcases hn, ht, hb, hg, hw with ⟨⟨hn, rfl⟩, ⟨ht, rfl⟩, ⟨hb, rfl⟩, ⟨hg, rfl⟩, ⟨hw, rfl⟩⟩
      exact ⟨⟨hn, ht, hb, hg, hw⟩, Option.some.inj h⟩
    · cases h
  · rintro ⟨h, rfl⟩
    rw [asmField_eq_some_iff.mpr ⟨h.n, rfl⟩, asmField_eq_some_iff.mpr ⟨h.t, rfl⟩, asmField_eq_some_iff.mpr ⟨h.b, rfl⟩,
      asmField_eq_some_iff.mpr ⟨h.g, rfl⟩, asmField_eq_some_iff.mpr ⟨h.w, rfl⟩]
    rfl

/-- The assembler refuses a line that no row of its mnemonic accepts. -/
theorem assemble_eq_none {l : AsmLine} (h : ∀ r ∈ opTable, r.mnemonic = l.mnemonic → ¬ r.Accepts l) :
    assemble l = none := by
  by_cases hrow : ∃ r ∈ opTable, r.mnemonic = l.mnemonic
  · obtain ⟨r, hr, hm⟩ := hrow
    exact Option.eq_none_iff_forall_ne_some.mpr fun c hc => h r hr hm ((assemble_eq_some_iff hr hm).mp hc).1
  · have hfind : opTable.find? (fun r => r.mnemonic == l.mnemonic) = none :=
      List.find?_eq_none.mpr fun r hr hm => hrow ⟨r, hr, eq_of_beq hm⟩
    rw [assemble, hfind]

end Sys2Proof
end

section
/-! PROOFS. The statements of the family 30_encoding: decoder and encoder are inverse, words and rows of the opcode
table agree, and the assembler's lines decode to their commands (spec/30_encoding.md R80 to R89). -/

namespace Sys2Proof

open Machine

/-! ## Decoding an encoded command -/

/-- Each command's word matches a row of its mnemonic (`Sys2Proof/Laws/PerInstr.lean`). -/
theorem encodedRow (i : Instr) : Laws.EncodedRow.Statement i := by
  cases i with
  | nop => exact Laws.EncodedRow.nop
  | bwInit g => exact Laws.EncodedRow.bwInit g
  | bwWrite n => exact Laws.EncodedRow.bwWrite n
  | bwFinish => exact Laws.EncodedRow.bwFinish
  | brInit g => exact Laws.EncodedRow.brInit g
  | brRead n => exact Laws.EncodedRow.brRead n
  | brRemain => exact Laws.EncodedRow.brRemain
  | cbQuery t b => exact Laws.EncodedRow.cbQuery t b
  | rleEncrun t => exact Laws.EncodedRow.rleEncrun t
  | rleDecrun t => exact Laws.EncodedRow.rleDecrun t
  | rleEncplane t => exact Laws.EncodedRow.rleEncplane t
  | rleDecplane => exact Laws.EncodedRow.rleDecplane
  | rleBest => exact Laws.EncodedRow.rleBest
  | hufHist w => exact Laws.EncodedRow.hufHist w
  | hufHistrd => exact Laws.EncodedRow.hufHistrd
  | hufTree => exact Laws.EncodedRow.hufTree
  | hufCodes => exact Laws.EncodedRow.hufCodes
  | hufCanon => exact Laws.EncodedRow.hufCanon
  | hufTabrd => exact Laws.EncodedRow.hufTabrd
  | hufEnc w => exact Laws.EncodedRow.hufEnc w
  | hufDec => exact Laws.EncodedRow.hufDec

theorem Instr.encode_matches {i : Instr} (hi : i.wellFormed = true) :
    encode i &&& i.row.mask = BitVec.ofNat 32 i.row.op := by
  obtain ⟨r, hr, hm, hmatch⟩ := encodedRow i hi
  obtain rfl : r = i.row := OpRow.eq_of_mnemonic_eq hr i.row_mem (hm.trans i.row_mnemonic.symm)
  exact hmatch

/-- A well-formed command's fields are read back from its word (R81). -/
theorem Instr.readFrom_encode {i : Instr} (hi : i.wellFormed = true) : i.readFrom (encode i) = i := by
  obtain ⟨-, hn, ht, hb, hg, hw⟩ := ((accepts_asmLine hi).fieldsFit i.row_mem).field_assembleWord
  change field ((asmLine i).word i.row.op) _ _ = _ at hn ht hb hg hw
  rw [word_asmLine] at hn ht hb hg hw
  cases i with
  | bwInit g => exact congrArg bwInit (granBit_injective ((granBit_fieldG _).trans hg))
  | brInit g => exact congrArg brInit (granBit_injective ((granBit_fieldG _).trans hg))
  | bwWrite n => exact congrArg bwWrite hn
  | brRead n => exact congrArg brRead hn
  | cbQuery t b => exact congrArg₂ cbQuery ht hb
  | rleEncrun t => exact congrArg rleEncrun ht
  | rleDecrun t => exact congrArg rleDecrun ht
  | rleEncplane t => exact congrArg rleEncplane ht
  | hufHist w => exact congrArg hufHist (toNat_bool_injective ((toNat_fieldW _).trans hw))
  | hufEnc w => exact congrArg hufEnc (toNat_bool_injective ((toNat_fieldW _).trans hw))
  | _ => rfl

/-- Settles O1: the word matches the command's row, and its fields are the command's. -/
theorem decodeReadsBackEveryEncodedCommand : Obligations.DecodeReadsBackEveryEncodedCommand := by
  unfold Obligations.DecodeReadsBackEveryEncodedCommand
  exact fun i hi => decode_eq_ok_iff.mpr ⟨i.encode_matches hi, i.readFrom_encode hi⟩

/-! ## Encoding a decoded word -/

/-- Settles O2: the command's fields are those of the word, and a word that matches its row holds nothing else. -/
theorem decodedWordIsTheEncodingOfItsCommand : Obligations.DecodedWordIsTheEncodingOfItsCommand := by
  unfold Obligations.DecodedWordIsTheEncodingOfItsCommand
  intro c i h
  obtain ⟨hmatch, hfields⟩ := decode_eq_ok_iff.mp h
  have hwf := i.wellFormed_readFrom c
  have hword := (i.encode_readFrom c).trans (OpRow.respell_of_match hmatch)
  rw [hfields] at hwf hword
  exact ⟨hwf, hword⟩

/-! ## Words and rows -/

/-- Settles O3: a decoded word matches its command's row, every row is some command's, and the `OP` byte tells the rows
apart. -/
theorem wordSpellsTheCommandWhoseRowItMatches : Obligations.WordSpellsTheCommandWhoseRowItMatches := by
  unfold Obligations.WordSpellsTheCommandWhoseRowItMatches
  refine ⟨by decide, fun c m => ⟨?_, ?_⟩, fun c r hr r' hr' h h' => ?_⟩
  · rintro ⟨i, hi, rfl⟩
    exact ⟨i.row, i.row_mem, i.row_mnemonic, (decode_eq_ok_iff.mp hi).1⟩
  · rintro ⟨r, hr, rfl, h⟩
    exact exists_decode_of_match hr h
  · exact OpRow.eq_of_op_eq hr hr' ((OpRow.op_of_match hr h).symm.trans (OpRow.op_of_match hr' h'))

/-! ## Lines -/

/-- The word of an accepted line decodes to a command of the line's row. -/
theorem OpRow.Accepts.decode_word {r : OpRow} {l : AsmLine} (h : r.Accepts l) (hr : r ∈ opTable) :
    ∃ i, decode (l.word r.op) = .ok i ∧ instrMnemonic i = r.mnemonic := by
  obtain ⟨i, rfl⟩ := exists_row_eq hr
  have hword : encode (i.readFrom (l.word i.row.op)) = l.word i.row.op :=
    (i.encode_readFrom _).trans (h.respell_word hr)
  have hmatch := Instr.encode_matches (i.wellFormed_readFrom (l.word i.row.op))
  rw [hword, Instr.row_readFrom] at hmatch
  exact exists_decode_of_match hr hmatch

/-- Settles O5: the assembler answers a line's word exactly when the row of its mnemonic accepts the line. -/
theorem assembledLineDecodesToItsCommand : Obligations.AssembledLineDecodesToItsCommand := by
  unfold Obligations.AssembledLineDecodesToItsCommand
  refine ⟨fun i hi => ?_, fun l r hr hm hn ht hb hg hw => ?_, fun l hno => ?_, fun l v hv hwide => ?_,
    fun l v hv hwide => ?_, fun l v hv hwide => ?_, fun l v hv hwide => ?_, fun l v hv hwide => ?_, fun l hunused => ?_⟩
  · have hmnemonic : i.row.mnemonic = (asmLine i).mnemonic := by cases i <;> rfl
    exact (assemble_eq_some_iff i.row_mem hmnemonic).mpr ⟨i.accepts_asmLine hi, i.word_asmLine⟩
  · have haccepts : r.Accepts l := ⟨hn, ht, hb, hg, hw⟩
    dsimp only
    rw [ofNat_lor_eq_assembleWord, ← hm]
    exact ⟨(assemble_eq_some_iff hr hm).mpr ⟨haccepts, rfl⟩, haccepts.decode_word hr⟩
  · exact assemble_eq_none fun r hr hm => absurd hm (hno r hr)
  · exact assemble_eq_none fun r _ _ haccepts => Nat.not_lt.mpr hwide (haccepts.n v hv).2
  · exact assemble_eq_none fun r _ _ haccepts => Nat.not_lt.mpr hwide (haccepts.t v hv).2
  · exact assemble_eq_none fun r _ _ haccepts => Nat.not_lt.mpr hwide (haccepts.b v hv).2
  · exact assemble_eq_none fun r _ _ haccepts => Nat.not_lt.mpr hwide (haccepts.g v hv).2
  · exact assemble_eq_none fun r _ _ haccepts => Nat.not_lt.mpr hwide (haccepts.w v hv).2
  · refine assemble_eq_none fun r hr hm haccepts => ?_
    obtain h | h | h | h | h := hunused r hr hm
    · exact haccepts.n.not_unused h
    · exact haccepts.t.not_unused h
    · exact haccepts.b.not_unused h
    · exact haccepts.g.not_unused h
    · exact haccepts.w.not_unused h

/-! ## Words written out from the encoding -/

/-- Settles O4: each word by running the decoder on it. -/
theorem sampleWordsDecodeAsTheEncodingSays : Obligations.SampleWordsDecodeAsTheEncodingSays := by
  unfold Obligations.SampleWordsDecodeAsTheEncodingSays
  decide

end Sys2Proof
end

section
/-! PROOFS. The sequencer's step of an accepted word that is no command (spec/30_encoding.md R85). -/

namespace Sys2Proof.Machine

/-! ## The sequencer's turn -/

/-- A busy sequencer moves when the host has nothing to do before completion, waits for it, or the delay has passed
(notes/assumptions/8.md, 9.md). -/
theorem sequencerTurn_of_busy {s : State} (hbusy : s.status.busy = true)
    (hturn : s.env.pending = [] ∨ (∃ rest, s.env.pending = .wait :: rest) ∨ s.env.delay = 0) :
    sequencerTurn s = true := by
  unfold sequencerTurn
  rw [hbusy, Bool.true_and]
  obtain hp | ⟨rest, hp⟩ | hdelay := hturn
  · rw [hp]
  · rw [hp]
  · split
    · rfl
    · rfl
    · exact decide_eq_true hdelay

/-- In a legal configuration a step at the sequencer's turn is the sequencer's. -/
theorem step_of_sequencerTurn {s : State} (hcfg : configLegal s.cfg = true) (hturn : sequencerTurn s = true) :
    step s = runCommand s := by
  rw [step, if_pos hcfg, if_pos hturn]

/-! ## The statement -/

/-- Settles O7: a word that matches no row decodes to no command, and `ILLEGAL_COMMAND` is a class C error. -/
theorem illegalWordRaisesIllegalCommand : Obligations.IllegalWordRaisesIllegalCommand := by
  unfold Obligations.IllegalWordRaisesIllegalCommand
  intro s hcfg hbusy hturn hno
  rw [step_of_sequencerTurn hcfg (sequencerTurn_of_busy hbusy hturn)]
  obtain ⟨i, hi, -⟩ | hrun := runCommand_cases s
  · exact absurd (decode_eq_ok_iff.mp hi).1 (hno i.row i.row_mem)
  · rw [hrun, takeError_classC rfl]

end Sys2Proof.Machine
end

section
/-! PROOFS. How a command's body runs, one action at a time: its checks, then what it does to one unit
(spec/60_exceptions.md R274, R277, R278). -/

namespace Sys2Proof.Machine

variable {α : Type} {s t : State}

/-! ## One action of a body -/

/-- An action that answers hands its answer and its state to the rest of the body. -/
theorem complete_bind_ok {x : Act State α} {f : α → Act State Results} {a : α} (h : x s = .ok a t) :
    complete (x >>= f) s = complete (f a) t := by
  rw [complete, complete, Act.bind_apply, h]

/-- A check that fails ends the command with a class C error, the state otherwise as it was (R277, R278). -/
theorem complete_bind_failedCheck {x : Act State α} {f : α → Act State Results} {e : ErrorCode}
    (h : x s = .error (.raised e 0) s) (he : e.classX = false) : complete (x >>= f) s = .next (failedCheck e s) := by
  rw [complete_raised (by rw [Act.bind_apply, h]), takeError_classC he]

/-- An action that raises a class X error ends the command in the state where it arose (R278). -/
theorem complete_bind_failedExecution {x : Act State α} {f : α → Act State Results} {e : ErrorCode} {pos : Nat}
    (h : x s = .error (.raised e pos) t) (he : e.classX = true) :
    complete (x >>= f) s = .next (failedExecution e pos t) := by
  rw [complete_raised (by rw [Act.bind_apply, h]), takeError_classX he]

theorem complete_pure (r : Results) (s : State) : complete (pure r) s = .next (completeOk r s) := rfl

/-- A completion that names no result register writes `STATUS` only (R274). -/
theorem completeOk_no_results (s : State) : completeOk {} s = { s with status := s.status.completed } := rfl

theorem onOut_ok {x : Act OutPort α} {a : α} {o : OutPort} (h : x s.out = .ok a o) :
    onOut x s = .ok a { s with out := o } := by rw [onOut_apply, h]

theorem onOut_error {x : Act OutPort α} {e : Stop} {o : OutPort} (h : x s.out = .error e o) :
    onOut x s = .error e { s with out := o } := by rw [onOut_apply, h]

theorem onReader_ok {x : Memory → Act Reader α} {a : α} {r : Reader} (h : x s.inp.ibuf s.inp.rd = .ok a r) :
    onReader x s = .ok a { s with inp := { s.inp with rd := r } } := by rw [onReader_apply, h]

theorem onReader_error {x : Memory → Act Reader α} {e : Stop} {r : Reader} (h : x s.inp.ibuf s.inp.rd = .error e r) :
    onReader x s = .error e { s with inp := { s.inp with rd := r } } := by rw [onReader_apply, h]

/-! ## The checks -/

theorem requireWriter_ok (h : s.out.wr.st = .active) : requireWriter s = .ok () s := by
  rw [requireWriter_apply, if_pos h]

theorem requireWriter_fails (h : s.out.wr.st ≠ .active) : requireWriter s = .error (.raised .sequenceError 0) s := by
  rw [requireWriter_apply, if_neg h]

theorem requireReader_fails (h : s.inp.rd.st ≠ .active) : requireReader s = .error (.raised .sequenceError 0) s := by
  rw [requireReader_apply, if_neg h]

theorem requireObuf_fails {a : Nat} (h : s.cfg.obufBytes < a) :
    requireObuf a s = .error (.raised .bufferBounds 0) s := by
  rw [requireObuf_apply, if_neg (Nat.not_le.mpr h)]

theorem requireIbuf_fails {a n : Nat} (h : s.cfg.ibufBytes < a + n) :
    requireIbuf a n s = .error (.raised .bufferBounds 0) s := by
  rw [requireIbuf_apply, if_neg (Nat.not_le.mpr h)]

/-! ## The command that does nothing -/

/-- Settles O25: `NOP` names no result register. -/
theorem nopOnlyCompletes : Obligations.NopOnlyCompletes := by
  unfold Obligations.NopOnlyCompletes
  intro s
  rw [exec, execNop, complete_pure, completeOk_no_results]

end Sys2Proof.Machine
end

section
/-! PROOFS. The writer's commands (spec/41_bitstream.md R115 to R117): `BW_INIT`, `BW_WRITE`, `BW_FINISH`. -/

namespace Sys2Proof.Machine

/-! ## Which units fit -/

section
variable {cap n : Nat}

/-- An ACTIVE writer that meets its invariant is ready for more bits (spec/10_state.md R36). -/
theorem Writer.wf.ready {w : Writer} (h : w.wf cap) (hst : w.st = .active) : w.Ready cap := by
  obtain ⟨-, hacc, hin, hwhole, -, hlt⟩ := h
  exact ⟨hlt (by simp [hst]), hacc, hin, hwhole⟩

/-- Emission leaves `W_BITS` as it stands, whether the units fit or not (R107). -/
theorem emitUnits_keeps_bits (b n : Nat) :
    Keeps (fun o => o.wr.bits = b) (fun _ _ o => o.wr.bits = b) (fun _ => False) (emitUnits cap n) := by
  induction n with
  | zero => exact .pure ()
  | succ n ih =>
    refine .bind .get fun _ => .bind (fun o h => ?_) fun _ => .bind (fun _ h => h) fun _ => ih
    rw [emit_apply]
    split
    · exact h
    · exact h

/-- `wr_bits(v, n)` counts all `n` bits in `W_BITS`, whether their units fit or not: they are appended before the first
unit is emitted (R106). -/
theorem wrBits_bits (v : Word) (n : Nat) (o : OutPort) :
    Yields (fun _ o' => o'.wr.bits = o.wr.bits + n) (fun _ _ o' => o'.wr.bits = o.wr.bits + n) (fun _ => False)
      (wrBits cap v n o) := emitUnits_keeps_bits _ _ _ rfl

/-- How many of `units` completed units fit between the stream's end and the end of OBUF. -/
def OutPort.fitting (cap units : Nat) (o : OutPort) : Nat :=
  min units ((cap - (o.wr.base + o.wr.out)) / (granBits o.wr.gran / 8))

theorem OutPort.fitting_eq_of_fits {o : OutPort} {units : Nat}
    (h : o.wr.base + o.wr.out + granBits o.wr.gran / 8 * units ≤ cap) : o.fitting cap units = units := by
  refine Nat.min_eq_left ((Nat.le_div_iff_mul_le (granBytes_pos _)).mpr ?_)
  rw [Nat.mul_comm]
  omega

/-- The units before the first that does not fit are those that fit. -/
theorem OutPort.fitting_eq_of_overflow {o : OutPort} {units e : Nat} (he : e < units)
    (h : o.wr.base + o.wr.out + granBits o.wr.gran / 8 * e ≤ cap)
    (h' : cap < o.wr.base + o.wr.out + granBits o.wr.gran / 8 * (e + 1)) : o.fitting cap units = e := by
  have hdiv : (cap - (o.wr.base + o.wr.out)) / (granBits o.wr.gran / 8) = e :=
    Nat.div_eq_of_lt_le (by rw [Nat.mul_comm]; omega) (by rw [Nat.mul_comm]; omega)
  rw [OutPort.fitting, hdiv, Nat.min_eq_right (Nat.le_of_lt he)]

/-- `wr_bits(v, n)` appends all `n` bits and emits the completed units that fit; it raises `BUFFER_OVERFLOW` at the
first that does not (R106, R107). -/
theorem wrBits_fitting {v : Word} (hn : n ≤ 32) {o : OutPort} (h : o.wr.Ready cap) {units : Nat}
    (hunits : units = (o.wr.cnt + n) / granBits o.wr.gran) :
    ∃ o', Emits cap o o' (natBits n v.toNat) (o.fitting cap units)
      ∧ (o.fitting cap units = units → wrBits cap v n o = .ok () o')
      ∧ (o.fitting cap units < units → wrBits cap v n o = .error (.raised .bufferOverflow
          (o.wr.base + o.wr.out + granBits o.wr.gran / 8 * o.fitting cap units)) o') := by
  have hbits := wrBits_bits (cap := cap) v n o
  have hwrites := wrBits_writes cap v hn o h
  rw [natBits_length, ← hunits] at hwrites
  obtain ⟨o', hok, he⟩ | ⟨e, o', pre, herr, hlt, hover, hpre, he, -⟩ := hwrites
  · rw [OutPort.fitting_eq_of_fits he.inside]
    exact ⟨o', he, fun _ => hok, fun h => absurd h (Nat.lt_irrefl _)⟩
  · rw [OutPort.fitting_eq_of_overflow hlt he.inside hover]
    rw [herr] at hbits
    have hlen : pre.length = (natBits n v.toNat).length := by
      rw [natBits_length]
      exact Nat.add_left_cancel (he.bits_eq.symm.trans hbits)
    rw [hpre.eq_of_length hlen] at he
    exact ⟨o', he, fun h => absurd h (Nat.ne_of_lt hlt), fun _ => herr⟩

/-- The port after bits were appended, but for the accumulator and OBUF. -/
theorem Emits.exists_eq {e : Nat} {o o' : OutPort} {bs : List Bool} (h : Emits cap o o' bs e) :
    ∃ acc obuf, o' = {
      wr := { o.wr with
        acc := acc
        cnt := o.wr.cnt + bs.length - granBits o.wr.gran * e
        out := o.wr.out + granBits o.wr.gran / 8 * e
        bits := o.wr.bits + bs.length }
      obuf := obuf } := ⟨o'.wr.acc, o'.obuf, by rw [← h.wr_eq]⟩

end

/-! ## The statements -/

/-- Settles O26: one check, and the writer starts afresh whatever its state was. -/
theorem bwInitInitialisesTheWriter : Obligations.BwInitInitialisesTheWriter := by
  unfold Obligations.BwInitInitialisesTheWriter
  intro g s
  rw [exec, execBwInit]
  refine ⟨fun hin => ?_, fun hout => complete_bind_failedCheck (requireObuf_fails hout) rfl⟩
  rw [complete_bind_ok (requireObuf_ok hin), complete_bind_ok (onOut_ok (wrInit_apply ..)), complete_pure,
    completeOk_no_results]

/-- `BW_WRITE` past its checks (R116). -/
theorem exec_bwWrite_of_checks {n : Nat} {s : State} (hst : s.out.wr.st = .active) (hn : n ≤ 32) :
    exec (.bwWrite n) s = complete (do onOut (wrBits s.cfg.obufBytes s.latch.arg0 n); return {}) s := by
  rw [exec, execBwWrite, complete_bind_ok (requireWriter_ok hst)]
  exact complete_bind_ok (require_true hn ..)

/-- Settles O27: the two checks in order, then `wr_bits`, which appends all bits whether or not their units fit. -/
theorem bwWriteAppendsBitsToTheStream : Obligations.BwWriteAppendsBitsToTheStream := by
  unfold Obligations.BwWriteAppendsBitsToTheStream
  intro n s
  refine ⟨fun hst => ?_, fun hst hn => ?_, fun hst hn hwf => ?_⟩
  · exact complete_bind_failedCheck (requireWriter_fails hst) rfl
  · rw [exec, execBwWrite, complete_bind_ok (requireWriter_ok hst)]
    exact complete_bind_failedCheck (require_false (Nat.not_le.mpr hn) ..) rfl
  · rw [exec_bwWrite_of_checks hst hn]
    obtain ⟨o, he, hok, herr⟩ := wrBits_fitting (v := s.latch.arg0) hn (hwf.ready hst) rfl
    have hacc := he.acc_lt
    obtain ⟨acc, obuf, ho⟩ := he.exists_eq
    rw [natBits_length] at hacc ho
    subst ho
    refine ⟨acc, obuf, he.stream, hacc, he.same, fun hall => ?_, fun hsome => ?_⟩
    · rw [complete_bind_ok (onOut_ok (hok hall)), complete_pure, completeOk_no_results]
      rfl
    · exact complete_bind_failedExecution (onOut_error (herr hsome)) rfl

/-- Settles O28: one check, then `wr_finish`, which ends the stream or leaves everything as it was. -/
theorem bwFinishPadsAndEndsTheStream : Obligations.BwFinishPadsAndEndsTheStream := by
  unfold Obligations.BwFinishPadsAndEndsTheStream
  intro s
  rw [exec, execBwFinish]
  refine ⟨fun hst => complete_bind_failedCheck (requireWriter_fails hst) rfl, fun hst hwf => ?_⟩
  rw [complete_bind_ok (requireWriter_ok hst)]
  intro m pad
  obtain ⟨obuf, hin, hok, hstored, hsame, -⟩ | ⟨hpending, hout, herr⟩ := wrFinish_cases (hwf.ready hst)
  · refine ⟨fun _ => ⟨obuf, ?_, hstored, hsame⟩, fun hout => absurd hin (Nat.not_le.mpr hout)⟩
    rw [complete_bind_ok (onOut_ok hok)]
    rfl
  · have hpad : pad = m := if_neg (Nat.ne_of_gt hpending)
    rw [hpad]
    refine ⟨fun hin => absurd hin (Nat.not_le.mpr hout), fun _ => ?_⟩
    exact complete_bind_failedExecution (onOut_error herr) rfl

end Sys2Proof.Machine
end

section
/-! PROOFS. The reader's commands (spec/41_bitstream.md R118 to R120): `BR_INIT`, `BR_READ`, `BR_REMAIN`. -/

namespace Sys2Proof.Machine

/-! ## A read whose refill finds its bytes written -/

/-- The reader after units were fetched, but for the window. -/
theorem Fetches.exists_eq {cap k : Nat} {ibuf : Memory} {r r' : Reader} (h : Fetches cap ibuf r r' k) :
    ∃ win, r' = { r with
      win := win
      cnt := r.cnt + 8 * (granBits r.gran / 8 * k)
      fetch := r.fetch + granBits r.gran / 8 * k } := by
  refine ⟨r'.win, ?_⟩
  rw [← Nat.mul_assoc, granBits_div]
  exact h.eq

/-- Where the bytes its refill fetches are written, `rd_bits(n)` consumes the next `n` bits or, with fewer left, raises
`UNEXPECTED_EOF` after the refill (R110, R111). -/
theorem rdBits_written {cap n : Nat} {ibuf : Memory} {r : Reader} (h : r.wf cap) (hn : n ≤ 32)
    (hw : Written ibuf (r.base + r.fetch) (granBits r.gran / 8 * r.unitsToFetch)) :
    ∃ r1, Fetches cap ibuf r r1 r.unitsToFetch
      ∧ ((n ≤ (r.ahead ibuf).length ∧ n ≤ r1.cnt
          ∧ rdBits ibuf n r = .ok (bitsNat ((r.ahead ibuf).take n))
              { r1 with win := r1.win <<< n, cnt := r1.cnt - n, pos := r1.pos + n })
        ∨ ((r.ahead ibuf).length < n
          ∧ rdBits ibuf n r = .error (.raised .unexpectedEof r.bitAddress) r1)) := by
  obtain ⟨-, hr⟩ | ⟨k, -, hk, -, hno, -⟩ := rdBits_cases (ibuf := ibuf) h hn
  · exact hr
  · have hsome := hw k hk
    rw [hno] at hsome
    exact nomatch hsome

/-! ## The statements -/

/-- Settles O29: the two checks in order, then the reader starts afresh. -/
theorem brInitInitialisesTheReader : Obligations.BrInitInitialisesTheReader := by
  unfold Obligations.BrInitInitialisesTheReader
  intro g s
  rw [exec, execBrInit]
  refine ⟨fun hlen hin => ?_, fun hg hlen => ?_, fun hlen hout => ?_⟩
  · rw [complete_bind_ok (require_true hlen ..), complete_bind_ok (requireIbuf_ok hin),
      complete_bind_ok (onReader_ok (rdInit_apply ..)), complete_pure, completeOk_no_results]
  · exact complete_bind_failedCheck (require_false (fun h => hlen (h hg)) ..) rfl
  · rw [complete_bind_ok (require_true hlen ..), complete_bind_failedCheck (requireIbuf_fails hout) rfl]

/-- `BR_READ` past its checks (R119). -/
theorem exec_brRead_of_checks {n : Nat} {s : State} (hst : s.inp.rd.st = .active) (hn : n ≤ 32) :
    exec (.brRead n) s
      = complete (do let v ← onReader (fun ibuf => rdBits ibuf n); return { res0 := some v }) s := by
  rw [exec, execBrRead, complete_bind_ok (requireReader_ok hst)]
  exact complete_bind_ok (require_true hn ..)

/-- Settles O30: the two checks in order, then the refill, which leaves the same bits ahead, and the read from the
window. -/
theorem brReadConsumesTheNextBits : Obligations.BrReadConsumesTheNextBits := by
  unfold Obligations.BrReadConsumesTheNextBits
  intro n s
  refine ⟨fun hst => ?_, fun hst hn => ?_, fun hst hn hwf => ?_⟩
  · exact complete_bind_failedCheck (requireReader_fails hst) rfl
  · rw [exec, execBrRead, complete_bind_ok (requireReader_ok hst)]
    exact complete_bind_failedCheck (require_false (Nat.not_le.mpr hn) ..) rfl
  · rw [exec_brRead_of_checks hst hn]
    intro m ahead hw
    obtain ⟨r, hfetched, hread⟩ := rdBits_written hwf hn hw
    obtain ⟨win, rfl⟩ := hfetched.exists_eq
    obtain ⟨hlen, hbuffered, hok⟩ | ⟨hlen, herr⟩ := hread
    · obtain ⟨hwf', hahead⟩ := consume_buffered hfetched.wf hbuffered s.inp.ibuf
      rw [hfetched.ahead] at hahead
      refine ⟨fun _ => ⟨win <<< n, ?_, hahead, hwf'⟩, fun hlt => absurd hlen (Nat.not_le.mpr hlt)⟩
      rw [complete_bind_ok (onReader_ok hok)]
      rfl
    · refine ⟨fun hle => absurd hle (Nat.not_le.mpr hlen), fun _ => ⟨win, ?_, hfetched.ahead, hfetched.wf⟩⟩
      exact complete_bind_failedExecution (onReader_error herr) rfl

/-- Settles O31: one check, and no action on the reader. -/
theorem brRemainReportsWhatIsLeft : Obligations.BrRemainReportsWhatIsLeft := by
  unfold Obligations.BrRemainReportsWhatIsLeft
  intro s
  rw [exec, execBrRemain]
  refine ⟨fun hst => complete_bind_failedCheck (requireReader_fails hst) rfl, fun hst => ?_⟩
  rw [complete_bind_ok (requireReader_ok hst), complete_pure]
  rfl

end Sys2Proof.Machine
end

section
/-! PROOFS. The codebook of a legal configuration (spec/42_rle.md R141 to R144) and `CB_QUERY` (R150): buckets partition
the run lengths, and no codeword of a type begins another. -/

namespace Sys2Proof.Machine

variable {c : Config} {t : Nat}

/-! ## Buckets -/

/-- The largest length of a bucket is in it. -/
theorem bucketOf_maxRun {i : Nat} (hi : i ≤ 6) : bucketOf c t (maxRun c t i) = some i := by
  have hsize := maxRun_eq c t i
  have hpos := Nat.two_pow_pos (payloadBits c t i)
  exact bucketOf_of_range hi (by omega) (Nat.le_refl _)

/-- The next length is in the next bucket. -/
theorem bucketOf_maxRun_succ {i : Nat} (hi : i ≤ 5) : bucketOf c t (maxRun c t i + 1) = some (i + 1) :=
  bucketOf_of_range (by omega) (Nat.le_refl _) (maxRun_lt_succ c t i)

/-- Settles O32: the bucket of a length is the one whose range holds it, and a range determines the bucket. -/
theorem bucketsPartitionTheRunLengths : Obligations.BucketsPartitionTheRunLengths := by
  unfold Obligations.BucketsPartitionTheRunLengths
  intro c t
  refine ⟨rfl, fun _ => rfl, maxRun_eq c t, seven_le_longestRun c t, fun len h1 hM => ?_, fun i hi =>
    ⟨bucketOf_maxRun (by omega), bucketOf_maxRun_succ hi⟩⟩
  obtain ⟨i, hi, hb⟩ := exists_bucketOf hM
  obtain ⟨hmin, hmax⟩ := minRun_le_of_bucketOf h1 hb
  refine ⟨i, hi, hb, hmin, hmax, fun j hj hminj hmaxj => ?_⟩
  exact Option.some.inj ((bucketOf_of_range hj hminj hmaxj).symm.trans hb)

/-! ## Codewords -/

/-- A codeword begins with the pattern of its bucket (R144). -/
theorem pattern_prefix_codeword {len i : Nat} (hb : bucketOf c t len = some i) :
    natBits (prefixBits c i) (prefixPat c i) <+: codeword c t len := by
  rw [codeword_eq hb]
  exact List.prefix_append ..

/-- A codeword is at most 32 bits long (R141). -/
theorem codeword_length_le (hc : LegalCodebook c) (ht : t ≤ 5) {len : Nat} (hM : len ≤ longestRun c t) :
    (codeword c t len).length ≤ 32 := by
  obtain ⟨i, hi, hb⟩ := exists_bucketOf hM
  rw [codeword_length hb]
  exact hc.codewordBits_le t ht i hi

/-- Within a bucket the payload tells the lengths apart (R144). -/
theorem eq_of_codeword_eq {a b i : Nat} (ha : 1 ≤ a) (hb : 1 ≤ b) (hba : bucketOf c t a = some i)
    (hbb : bucketOf c t b = some i) (h : codeword c t a = codeword c t b) : a = b := by
  rw [codeword_eq hba, codeword_eq hbb, List.append_cancel_left_eq] at h
  have hpay := natBits_injective h
  rw [Nat.mod_eq_of_lt (payload_lt ha hba), Nat.mod_eq_of_lt (payload_lt hb hbb)] at hpay
  have hmina := (minRun_le_of_bucketOf ha hba).1
  have hminb := (minRun_le_of_bucketOf hb hbb).1
  omega

/-- A codeword that begins another is that other: their buckets agree, because no pattern begins another, and then so do
their sizes. -/
theorem eq_of_codeword_prefix (hc : LegalCodebook c) {a b : Nat} (ha : 1 ≤ a) (haM : a ≤ longestRun c t) (hb : 1 ≤ b)
    (hbM : b ≤ longestRun c t) (h : codeword c t a <+: codeword c t b) : a = b := by
  obtain ⟨i, hi, hba⟩ := exists_bucketOf haM
  obtain ⟨j, hj, hbb⟩ := exists_bucketOf hbM
  obtain rfl := bucket_unique hc hi hj ((pattern_prefix_codeword hba).trans h)
    (pattern_prefix_codeword hbb)
  exact eq_of_codeword_eq ha hb hba hbb
    (h.eq_of_length ((codeword_length hba).trans (codeword_length hbb).symm))

/-- Settles O33. -/
theorem codewordsOfATypeArePrefixFree : Obligations.CodewordsOfATypeArePrefixFree := by
  unfold Obligations.CodewordsOfATypeArePrefixFree
  intro c t a b hlegal ht ha haM hb hbM hpre
  have hc := legalCodebook hlegal
  exact ⟨eq_of_codeword_prefix hc ha haM hb hbM hpre, codeword_length_le hc ht haM⟩

/-! ## `CB_QUERY` -/

/-- A byte with a field above it: the sum is the bits of both. -/
theorem ofNat_add_mul_256 {low high : Nat} (h : low < 256) :
    BitVec.ofNat 32 (low + high * 256) = BitVec.ofNat 32 low ||| BitVec.ofNat 32 high <<< 8 := by
  have hor : low + high * 256 = low ||| high <<< 8 := by
    rw [Nat.shiftLeft_eq, Nat.or_comm, Nat.mul_comm, ← Nat.two_pow_add_eq_or_of_lt (i := 8) h, Nat.add_comm]
  rw [hor, BitVec.ofNat_or, ofNat_shiftLeft]

/-- Settles O36: one check, and no action on any unit. -/
theorem cbQueryReportsABucket : Obligations.CbQueryReportsABucket := by
  unfold Obligations.CbQueryReportsABucket
  intro t b s
  rw [exec, execCbQuery]
  refine ⟨fun ht hb hlegal => ?_, fun hbad => complete_bind_failedCheck (require_false (by omega) ..) rfl⟩
  have hbits := (legalCodebook hlegal).prefixBits_le b hb
  rw [complete_bind_ok (require_true ⟨ht, hb⟩ ..), complete_pure, ← ofNat_add_mul_256 (by omega)]
  rfl

end Sys2Proof.Machine
end

section
/-! PROOFS. Runs and planes as codeword values (spec/42_rle.md R143, R146, R148). -/

namespace Sys2Proof.Machine

variable {c : Config} {t : Nat}

/-! ## One run -/

/-- A run is continuation codewords and a remainder below `M_t` (R143, R146). -/
theorem exists_runCodewords_eq {fuel len : Nat} (h : 1 ≤ len) (hf : len ≤ fuel) :
    ∃ q r, runCodewords c t fuel len = List.replicate q (longestRun c t) ++ [r] ∧ 1 ≤ r ∧ r < longestRun c t
      ∧ len = q * (longestRun c t - 1) + r := by
  have hM := seven_le_longestRun c t
  induction fuel generalizing len with
  | zero => omega
  | succ fuel ih =>
    rw [runCodewords]
    split
    · rename_i hlong
      obtain ⟨q, r, hcws, hr, hrM, hlen⟩ := ih (len := len - (longestRun c t - 1)) (by omega) (by omega)
      refine ⟨q + 1, r, by rw [hcws, List.replicate_succ, List.cons_append], hr, hrM, ?_⟩
      rw [Nat.add_one_mul]
      omega
    · rename_i hshort
      exact ⟨0, len, rfl, h, Nat.not_le.mp hshort, by omega⟩

/-- The remainder fixes how many continuation codewords there are (R146). -/
theorem continuations_eq {m q r len : Nat} (hr : 1 ≤ r) (hrm : r < m) (hlen : len = q * (m - 1) + r) :
    q = if len < m then 0 else (len - 1) / (m - 1) := by
  split
  · rename_i hshort
    by_contra hq
    have hone := Nat.le_mul_of_pos_left (m - 1) (Nat.pos_of_ne_zero hq)
    omega
  · have hpred : len - 1 = r - 1 + (m - 1) * q := by rw [Nat.mul_comm]; omega
    rw [hpred, Nat.add_mul_div_left _ _ (by omega), Nat.div_eq_of_lt (by omega), Nat.zero_add]

/-- Settles O34. -/
theorem runIsContinuationCodewordsAndARemainder : Obligations.RunIsContinuationCodewordsAndARemainder := by
  unfold Obligations.RunIsContinuationCodewordsAndARemainder
  intro c t len cur h
  obtain ⟨q, r, hcws, hr, hrM, hlen⟩ := exists_runCodewords_eq (c := c) (t := t) h (Nat.le_refl len)
  have hexpand := expandCodewords_runCodewords (c := c) (t := t) h (Nat.le_refl len) cur
  refine ⟨q, r, hcws, hr, hrM, hlen, continuations_eq hr hrM hlen, ?_, hexpand⟩
  have hnil := hexpand []
  rwa [List.append_nil, expandCodewords, List.append_nil] at hnil

/-! ## The runs of a plane -/

/-- The runs add up to the current run and the pixels (R148). -/
theorem runsFrom_sum (cur : Bool) (run : Nat) (ps : List Bool) : (runsFrom cur run ps).sum = run + ps.length := by
  induction ps generalizing cur run with
  | nil =>
    rw [runsFrom]
    split
    · rfl
    · simp only [List.sum_nil, List.length_nil]
      omega
  | cons p ps ih =>
    rw [runsFrom, List.length_cons]
    split
    · rw [ih]
      omega
    · rw [List.sum_cons, ih]
      omega

/-- No run is empty, when the current one is not or the next pixel continues it (R148). -/
theorem one_le_of_mem_runsFrom {cur : Bool} {run : Nat} {ps : List Bool}
    (h : 1 ≤ run ∨ ps.head? = some cur ∨ ps = []) : ∀ r ∈ runsFrom cur run ps, 1 ≤ r := by
  induction ps generalizing cur run with
  | nil =>
    rw [runsFrom]
    split
    · rename_i hrun
      intro r hr
      rwa [List.mem_singleton.mp hr]
    · exact fun r hr => absurd hr List.not_mem_nil
  | cons p ps ih =>
    rw [runsFrom]
    split
    · exact ih (.inl (Nat.succ_pos run))
    · rename_i hne
      intro r hr
      obtain rfl | hr := List.mem_cons.mp hr
      · obtain hrun | hhead | hnil := h
        · exact hrun
        · exact absurd (Option.some.inj hhead) hne
        · exact nomatch hnil
      · exact ih (.inl (Nat.le_refl 1)) r hr

/-- A plane begins with its first symbol (R148). -/
theorem head?_firstSymbol (ps : List Bool) : ps.head? = some (firstSymbol ps) ∨ ps = [] := by
  cases ps with
  | nil => exact .inr rfl
  | cons p ps => exact .inl rfl

/-- The runs of a plane are not empty (R148). -/
theorem one_le_of_mem_planeRuns (ps : List Bool) : ∀ r ∈ planeRuns ps, 1 ≤ r :=
  one_le_of_mem_runsFrom (.inr (head?_firstSymbol ps))

/-- The codeword values of a plane (R148). -/
def planeCodewords (c : Config) (t : Nat) (ps : List Bool) : List Nat :=
  ((planeRuns ps).map fun r => runCodewords c t r r).flatten

/-- The codewords of a plane stand for its pixels (R143, R148). -/
theorem expandCodewords_planeCodewords (c : Config) (t : Nat) (ps : List Bool) :
    expandCodewords c t (firstSymbol ps) (planeCodewords c t ps) = ps :=
  expandCodewords_runsFrom c t (firstSymbol ps) 0 ps (.inr (head?_firstSymbol ps))

/-- The stream of a plane is the codewords of its values (R148, R153). -/
theorem planeString_eq_codewordString (c : Config) (t : Nat) (ps : List Bool) :
    planeString c t ps = codewordString c t (planeCodewords c t ps) := by
  rw [planeString, planeCodewords, codewordString, List.map_flatten, List.flatten_flatten, List.map_map, List.map_map]
  rfl

/-- Every codeword value of a plane is a run length of the type (R146). -/
theorem planeCodewords_range {ps : List Bool} : ∀ v ∈ planeCodewords c t ps, 1 ≤ v ∧ v ≤ longestRun c t := by
  intro v hv
  obtain ⟨vs, hvs, hmem⟩ := List.mem_flatten.mp hv
  obtain ⟨r, hr, rfl⟩ := List.mem_map.mp hvs
  exact ⟨one_le_runCodewords (one_le_of_mem_planeRuns ps r hr) v hmem, runCodewords_le v hmem⟩

/-- Settles O35. -/
theorem planeCodewordsStandForItsPixels : Obligations.PlaneCodewordsStandForItsPixels := by
  unfold Obligations.PlaneCodewordsStandForItsPixels
  intro c t ps
  have hsum := runsFrom_sum (firstSymbol ps) 0 ps
  rw [Nat.zero_add] at hsum
  exact ⟨one_le_of_mem_planeRuns ps, hsum, expandCodewords_planeCodewords c t ps⟩

end Sys2Proof.Machine
end

section
/-! PROOFS. `RLE_ENCRUN` (spec/42_rle.md R144, R151): a codeword is two bit writes, of which either may meet the end of
OBUF. -/

namespace Sys2Proof.Machine

/-! ## Which units of a codeword fit -/

/-- Units completed in two writes: those of the first, then those its pending bits complete with the second. -/
theorem completedUnits_add {g : Nat} (hg : 0 < g) (a b : Nat) : (a + b) / g = a / g + (a - g * (a / g) + b) / g := by
  have hle := Nat.mul_div_le a g
  conv_lhs => rw [show a + b = a - g * (a / g) + b + g * (a / g) by omega]
  rw [Nat.add_mul_div_left _ _ hg, Nat.add_comm]

/-- What fits after some units were emitted is what fitted less those. -/
theorem Emits.fitting_add {cap e : Nat} {o o' : OutPort} {bs : List Bool} (h : Emits cap o o' bs e) (units : Nat) :
    o.fitting cap (e + units) = e + o'.fitting cap units := by
  have hm := granBytes_pos o.wr.gran
  have hin := h.inside
  have hroom : (cap - (o.wr.base + o.wr.out)) / (granBits o.wr.gran / 8)
      = e + (cap - (o'.wr.base + o'.wr.out)) / (granBits o.wr.gran / 8) := by
    rw [h.base_eq, h.out_eq, Nat.add_comm e, ← Nat.add_mul_div_left _ _ hm]
    congr 1
    omega
  rw [OutPort.fitting, OutPort.fitting, h.gran_eq, hroom, Nat.add_min_add_left]

section
variable {c : Config} {t len i : Nat}

/-- `enc_cw` is its two writes, pattern and payload (R144). -/
theorem encCw_apply (hb : bucketOf c t len = some i) (o : OutPort) :
    encCw c t len o = (do
      wrBits c.obufBytes (BitVec.ofNat 32 (prefixPat c i)) (prefixBits c i)
      wrBits c.obufBytes (BitVec.ofNat 32 (len - minRun c t i)) (payloadBits c t i)
      return i : Act OutPort Nat) o := by
  rw [encCw, hb]

theorem codeword_take_prefixBits (hb : bucketOf c t len = some i) :
    (codeword c t len).take (prefixBits c i) = natBits (prefixBits c i) (prefixPat c i) := by
  rw [codeword_eq hb, List.take_left' (natBits_length ..)]

/-- `enc_cw` emits the completed units that fit. Where one does not, the error is at its address, and the writer has
taken the pattern, or the whole codeword if the pattern completes only units that fit (R107, R144). -/
theorem encCw_fitting (hc : LegalCodebook c) (ht : t ≤ 5) (hb : bucketOf c t len = some i) {o : OutPort}
    (h : o.wr.Ready c.obufBytes) {units taken : Nat}
    (hunits : units = (o.wr.cnt + (codeword c t len).length) / granBits o.wr.gran)
    (htaken : taken = if o.fitting c.obufBytes units < (o.wr.cnt + prefixBits c i) / granBits o.wr.gran
      then prefixBits c i else (codeword c t len).length) :
    ∃ o', Emits c.obufBytes o o' ((codeword c t len).take taken) (o.fitting c.obufBytes units)
      ∧ (o.fitting c.obufBytes units = units → taken = (codeword c t len).length ∧ encCw c t len o = .ok i o')
      ∧ (o.fitting c.obufBytes units < units → encCw c t len o = .error (.raised .bufferOverflow
          (o.wr.base + o.wr.out + granBits o.wr.gran / 8 * o.fitting c.obufBytes units)) o') := by
  have hsize := hc.codewordBits_le t ht i (bucketOf_eq_some.mp hb).1
  rw [codewordBits] at hsize
  have hp : prefixBits c i ≤ 32 := by omega
  have hq : payloadBits c t i ≤ 32 := by omega
  obtain ⟨o1, he1, hok1, herr1⟩ := wrBits_fitting (v := BitVec.ofNat 32 (prefixPat c i)) hp h rfl
  rw [natBits_ofNat hp] at he1
  have hsplit := completedUnits_add (granBits_pos o.wr.gran) (o.wr.cnt + prefixBits c i) (payloadBits c t i)
  rw [Nat.add_assoc, ← codewordBits, ← codeword_length hb, ← hunits] at hsplit
  generalize hfirst : (o.wr.cnt + prefixBits c i) / granBits o.wr.gran = first at *
  generalize hsecond : (o.wr.cnt + prefixBits c i - granBits o.wr.gran * first + payloadBits c t i)
    / granBits o.wr.gran = second at *
  by_cases hall : o.fitting c.obufBytes first = first
  · rw [hall] at he1
    have hfit := he1.fitting_add (cap := c.obufBytes) second
    rw [← hsplit] at hfit
    obtain ⟨o2, he2, hok2, herr2⟩ := wrBits_fitting (v := BitVec.ofNat 32 (len - minRun c t i)) hq
      (he1.ready h.whole (by rw [natBits_length, hfirst])) (units := second)
      (by rw [he1.gran_eq, he1.cnt_eq, natBits_length, hsecond])
    rw [natBits_ofNat hq] at he2
    have hwhole : taken = (codeword c t len).length := by rw [htaken, if_neg (by omega)]
    have hrun : encCw c t len o = (do
        wrBits c.obufBytes (BitVec.ofNat 32 (len - minRun c t i)) (payloadBits c t i)
        return i : Act OutPort Nat) o1 := by
      rw [encCw_apply hb, Act.bind_apply, hok1 hall]
    refine ⟨o2, ?_, fun hall => ⟨hwhole, ?_⟩, fun hover => ?_⟩
    · rw [hwhole, List.take_length, codeword_eq hb, hfit]
      exact he1.trans he2
    · rw [hrun, Act.bind_apply, hok2 (by omega)]
      rfl
    · rw [hrun, Act.bind_apply, herr2 (by omega), he1.base_eq, he1.out_eq, he1.gran_eq, hfit, Nat.mul_add]
      simp only [Nat.add_assoc]
  · have hsome : o.fitting c.obufBytes first < first := Nat.lt_of_le_of_ne (Nat.min_le_left ..) hall
    have hsame : o.fitting c.obufBytes units = o.fitting c.obufBytes first := by
      simp only [OutPort.fitting] at hsome ⊢
      omega
    rw [← hsame] at he1 hsome herr1
    have hprefix : taken = prefixBits c i := by rw [htaken, if_pos hsome]
    refine ⟨o1, ?_, fun hfit => absurd hsome (by omega), fun _ => ?_⟩
    · rwa [hprefix, codeword_take_prefixBits hb]
    · rw [encCw_apply hb, Act.bind_apply, herr1 hsome]

theorem codeword_taken_length (hb : bucketOf c t len = some i) {p : Prop} [Decidable p] :
    ((codeword c t len).take (if p then prefixBits c i else (codeword c t len).length)).length
      = if p then prefixBits c i else (codeword c t len).length := by
  have hlen := codeword_length hb
  rw [codewordBits] at hlen
  rw [List.length_take]
  split <;> omega

end

/-! ## The command -/

/-- `RLE_ENCRUN` past its checks (R151). -/
theorem exec_rleEncrun_of_checks {t : Nat} {s : State} (hst : s.out.wr.st = .active) (ht : t ≤ 5) (h0 : s.argl0 ≠ 0)
    (hM : s.argl0 ≤ longestRun s.cfg t) :
    exec (.rleEncrun t) s = complete (do
      let i ← onOut (encCw s.cfg t s.argl0)
      return { res0 := some i, res1 := some (codewordBits s.cfg t i) }) s := by
  rw [exec, execRleEncrun, complete_bind_ok (requireWriter_ok hst), complete_bind_ok (require_true ⟨ht, h0⟩ ..)]
  exact complete_bind_ok (require_true hM ..)

/-- Settles O37: the three checks in order, then `enc_cw`. -/
theorem rleEncrunAppendsOneCodeword : Obligations.RleEncrunAppendsOneCodeword := by
  unfold Obligations.RleEncrunAppendsOneCodeword
  intro t s hlegal
  refine ⟨fun hst => ?_, fun hst hbad => ?_, fun hst ht hlong => ?_, fun hst ht h0 hM hwf => ?_⟩
  · exact complete_bind_failedCheck (requireWriter_fails hst) rfl
  · rw [exec, execRleEncrun, complete_bind_ok (requireWriter_ok hst)]
    exact complete_bind_failedCheck (require_false (by omega) ..) rfl
  · rw [exec, execRleEncrun, complete_bind_ok (requireWriter_ok hst),
      complete_bind_ok (require_true ⟨ht, by omega⟩ ..)]
    exact complete_bind_failedCheck (require_false (Nat.not_le.mpr hlong) ..) rfl
  · intro g n units emitted
    obtain ⟨i, hi, hb⟩ := exists_bucketOf hM
    obtain ⟨hmin, hmax⟩ := minRun_le_of_bucketOf (Nat.pos_of_ne_zero h0) hb
    obtain ⟨o, he, hok, herr⟩ := encCw_fitting (legalCodebook hlegal) ht hb (hwf.ready hst) rfl rfl
    have hacc := he.acc_lt
    obtain ⟨acc, obuf, ho⟩ := he.exists_eq
    rw [codeword_taken_length hb] at hacc ho
    subst ho
    refine ⟨i, acc, obuf, hi, hmin, hmax, he.stream, hacc, he.same, fun hall => ?_, fun hsome => ?_⟩
    · obtain ⟨hwhole, hok⟩ := hok hall
      refine ⟨hwhole, ?_⟩
      rw [exec_rleEncrun_of_checks hst ht h0 hM, complete_bind_ok (onOut_ok hok), complete_pure, ← codeword_length hb]
      rfl
    · rw [exec_rleEncrun_of_checks hst ht h0 hM]
      exact complete_bind_failedExecution (onOut_error (herr hsome)) rfl

end Sys2Proof.Machine
end

section
/-! PROOFS. `RLE_ENCPLANE` and `RLE_BEST` (spec/42_rle.md R147 to R149, R153, R155): a word stream from its start to its
end, the header before it, and the choice of the type. -/

namespace Sys2Proof.Machine

/-! ## One action of a body -/

theorem Act.bind_ok {σ α β : Type} {x : Act σ α} {f : α → Act σ β} {a : α} {s t : σ} (h : x s = .ok a t) :
    (x >>= f) s = f a t := by rw [Act.bind_apply, h]

theorem Act.bind_error {σ α β : Type} {x : Act σ α} {f : α → Act σ β} {e : Stop} {s t : σ} (h : x s = .error e t) :
    (x >>= f) s = .error e t := by rw [Act.bind_apply, h]

/-! ## Ranges of written bytes -/

theorem Written.copy {m m' : Memory} {a a' n : Nat} (h : Written m a n)
    (he : ∀ k < n, m'.read (a' + k) = m.read (a + k)) : Written m' a' n :=
  fun k hk => (congrArg Option.isSome (he k hk)).trans (h k hk)

theorem Written.append {m : Memory} {a n k : Nat} (h : Written m a n) (h' : Written m (a + n) k) :
    Written m a (n + k) := by
  intro i hi
  by_cases hlt : i < n
  · exact h i hlt
  · have hrest := h' (i - n) (by omega)
    rwa [show a + n + (i - n) = a + i by omega] at hrest

/-! ## A word stream from `wr_init` to `wr_finish` -/

/-- The port as `wr_init` leaves it (R105). -/
def OutPort.started (base : Nat) (g : Gran) (obuf : Memory) : OutPort where
  wr := { st := .active, gran := g, base := base, acc := 0, cnt := 0, out := 0, bits := 0 }
  obuf := obuf

@[simp] theorem OutPort.started_wr (base : Nat) (g : Gran) (obuf : Memory) : (OutPort.started base g obuf).wr
    = { st := .active, gran := g, base := base, acc := 0, cnt := 0, out := 0, bits := 0 } := rfl

@[simp] theorem OutPort.started_obuf (base : Nat) (g : Gran) (obuf : Memory) :
    (OutPort.started base g obuf).obuf = obuf := rfl

@[simp] theorem granBits_word : granBits .word = 32 := rfl

section
variable {cap base : Nat} {obuf : Memory} {bits : List Bool} {x : Act OutPort Unit}

theorem OutPort.started_ready (g : Gran) (h : base ≤ cap) : (OutPort.started base g obuf).wr.Ready cap :=
  ⟨granBits_pos g, Nat.one_pos, h, Nat.zero_mod _⟩

theorem OutPort.started_stream (g : Gran) : (OutPort.started base g obuf).stream = [] := by
  cases g <;> rfl

/-- The writer after bits were appended to a fresh word stream and `e` words emitted, but for the accumulator. -/
theorem Emits.started_wr {p : OutPort} {e : Nat} (h : Emits cap (OutPort.started base .word obuf) p bits e) :
    p.wr = { st := .active, gran := .word, base := base, acc := p.wr.acc, cnt := bits.length - 32 * e, out := 4 * e,
             bits := bits.length } := by
  rw [h.wr_eq]
  simp

theorem Emits.started_stream {p : OutPort} {e : Nat} (h : Emits cap (OutPort.started base .word obuf) p bits e) :
    p.stream = bits := by
  rw [h.stream, OutPort.started_stream, List.nil_append]

/-- The words written so far are the first bits of the stream. -/
theorem Emits.words_eq_take {p : OutPort} {e : Nat} (h : Emits cap (OutPort.started base .word obuf) p bits e) :
    storedBits .word (bytesAt p.obuf base (4 * e)) = bits.take (32 * e) := by
  have hlen := storedBits_length .word (bs := bytesAt p.obuf base (4 * e))
    (by rw [bytesAt_length]; exact Nat.mul_mod_right ..)
  rw [bytesAt_length, ← Nat.mul_assoc] at hlen
  have hstream := h.started_stream
  rw [OutPort.stream, h.started_wr] at hstream
  rw [← hstream]
  exact (List.take_left' hlen).symm

/-- Where bits end a fresh word stream, `wr_finish` pads them to a word, or has no room for it (R108). -/
theorem Emits.finish_cases {o : OutPort} (h : Emits cap (OutPort.started base .word obuf) o bits (bits.length / 32))
    {wc : Nat} (hwc : wc = (bits.length + 31) / 32) :
    (∃ obuf', base + 4 * wc ≤ cap ∧ wrFinish cap o = .ok (4 * wc) {
          wr := { st := .finished, gran := .word, base := base, acc := 0, cnt := 0, out := 4 * wc, bits := bits.length }
          obuf := obuf' }
      ∧ storedBits .word (bytesAt obuf' base (4 * wc)) = bits ++ List.replicate (32 * wc - bits.length) false
      ∧ Written obuf' base (4 * wc) ∧ SameOutside obuf obuf' base (4 * wc))
    ∨ cap < base + 4 * (bits.length / 32 + 1) ∧ bits.length / 32 < wc
      ∧ wrFinish cap o = .error (.raised .bufferOverflow (base + 4 * (bits.length / 32))) o := by
  have hready := h.ready rfl (by simp)
  have hsame := h.same
  have hwrit := h.written
  simp only [OutPort.started_wr, OutPort.started_obuf, granBits_word, Nat.reduceDiv, Nat.add_zero] at hsame hwrit
  have hpad : 4 * (bits.length / 32) + (if bits.length - 32 * (bits.length / 32) = 0 then 0 else 4) = 4 * wc := by
    split <;> omega
  have hfin := wrFinish_cases hready
  rw [h.started_stream, h.started_wr] at hfin
  simp only [granBits_word, Nat.reduceDiv] at hfin
  obtain ⟨obuf', hin, hok, hstored, hsame', hwrit', -⟩ | ⟨hpos, hover, herr⟩ := hfin
  · rw [hpad] at hok hstored
    refine .inl ⟨obuf', by omega, hok, ?_, ?_, ?_⟩
    · rw [hstored]
      congr 2
      split <;> omega
    · rw [← hpad]
      exact (hwrit.copy fun k hk => hsame' _ (by omega)).append hwrit'
    · rw [← hpad]
      exact hsame.trans hsame'
  · exact .inr ⟨by omega, by omega, herr⟩

/-- Bits whose words all fit are written whole (R106, R108). -/
theorem Writes.stream_fits (hx : Writes cap x bits ()) {wc : Nat} (hwc : wc = (bits.length + 31) / 32)
    (hfit : base + 4 * wc ≤ cap) :
    ∃ o obuf', x (OutPort.started base .word obuf) = .ok () o
      ∧ wrFinish cap o = .ok (4 * wc) {
          wr := { st := .finished, gran := .word, base := base, acc := 0, cnt := 0, out := 4 * wc, bits := bits.length }
          obuf := obuf' }
      ∧ storedBits .word (bytesAt obuf' base (4 * wc)) = bits ++ List.replicate (32 * wc - bits.length) false
      ∧ Written obuf' base (4 * wc) ∧ SameOutside obuf obuf' base (4 * wc) := by
  obtain ⟨o, hok, he⟩ := hx.fits (OutPort.started_ready (base := base) (obuf := obuf) .word (by omega)) (by
    simp only [OutPort.started_wr, granBits_word, Nat.zero_add]
    omega)
  simp only [OutPort.started_wr, granBits_word, Nat.zero_add] at he
  obtain ⟨obuf', -, hfin⟩ | ⟨hover, hlt, -⟩ := he.finish_cases hwc
  · exact ⟨o, obuf', hok, hfin⟩
  · omega

/-- Bits of which a word does not fit: the scan of the bits or the end of the stream overflows at the first such word,
and the port holds the words before it (R107, R108). -/
theorem Writes.stream_overflows (hx : Writes cap x bits ()) {wc : Nat} (hwc : wc = (bits.length + 31) / 32)
    (hbase : base ≤ cap) (hover : cap < base + 4 * wc) :
    ∃ p pre, pre <+: bits ∧ Emits cap (OutPort.started base .word obuf) p pre ((cap - base) / 4) ∧ p.wr.cnt ≤ 63
      ∧ (x (OutPort.started base .word obuf)
            = .error (.raised .bufferOverflow (base + 4 * ((cap - base) / 4))) p
        ∨ x (OutPort.started base .word obuf) = .ok () p
          ∧ wrFinish cap p = .error (.raised .bufferOverflow (base + 4 * ((cap - base) / 4))) p) := by
  have hruns := hx _ (OutPort.started_ready (obuf := obuf) .word hbase)
  simp only [OutPort.started_wr, granBits_word, Nat.zero_add, Nat.add_zero, Nat.reduceDiv] at hruns
  obtain ⟨o, hok, he⟩ | ⟨e, p, pre, herr, -, hcap, hpre, he, hcnt⟩ := hruns
  · have hin := he.inside
    simp only [OutPort.started_wr, granBits_word, Nat.add_zero, Nat.reduceDiv] at hin
    obtain ⟨obuf', hfit, -⟩ | ⟨hcap, hlt, herr⟩ := he.finish_cases hwc
    · exact absurd hfit (Nat.not_le.mpr hover)
    · have hwords : (cap - base) / 4 = bits.length / 32 := by omega
      rw [hwords]
      refine ⟨o, bits, List.prefix_rfl, he, ?_, .inr ⟨hok, herr⟩⟩
      rw [he.started_wr]
      show bits.length - 32 * (bits.length / 32) ≤ 63
      omega
  · have hin := he.inside
    simp only [OutPort.started_wr, granBits_word, Nat.add_zero, Nat.reduceDiv] at hin
    have hwords : (cap - base) / 4 = e := by omega
    rw [hwords]
    exact ⟨p, pre, hpre, he, hcnt, .inl herr⟩

end

/-! ## The header -/

theorem pixelByte_eq (p : Bool) : pixelByte p = BitVec.ofNat 8 p.toNat := by cases p <;> rfl

/-- The header is the six bytes written first and the word count (R149). -/
theorem headerBytes_eq (first : Bool) (width height t words : Nat) :
    headerBytes first.toNat width height t words
      = planeHeader first width height t ++ littleEndianBytes words 4 := by
  rw [planeHeader, pixelByte_eq]
  rfl

theorem headerBytes_take (first : Bool) (width height t words : Nat) :
    (headerBytes first.toNat width height t words).take 6 = planeHeader first width height t := by
  rw [headerBytes_eq]
  exact List.take_left' (planeHeader_length ..)

section
variable {s : State} {t : Nat}

/-- The pixels `RLE_ENCPLANE` reads (R147, R153). -/
abbrev State.plane (s : State) : List Bool := pixelsAt s.inp.ibuf s.argl0 (s.planeWidth * s.planeHeight)

theorem State.firstSymbol_plane {b : Byte} (hpos : 0 < s.planeWidth * s.planeHeight)
    (hb : s.inp.ibuf.read s.argl0 = some b) : firstSymbol s.plane = pixelOf b := by
  rw [State.plane, ← Nat.succ_pred_eq_of_pos hpos, Nat.succ_eq_add_one, pixelsAt_succ, hb]
  rfl

/-- OBUF after the first six header bytes (R153). -/
def State.withHeader (s : State) (t : Nat) : Memory :=
  s.out.obuf.writeList s.argl2 (planeHeader (firstSymbol s.plane) s.planeWidth s.planeHeight t)

theorem State.withHeader_bytes (s : State) (t : Nat) : bytesAt (s.withHeader t) s.argl2 6
    = planeHeader (firstSymbol s.plane) s.planeWidth s.planeHeight t := bytesAt_writeList ..

theorem State.withHeader_written (s : State) (t : Nat) : Written (s.withHeader t) s.argl2 6 :=
  Memory.writeList_written s.out.obuf s.argl2 _

theorem State.withHeader_sameOutside (s : State) (t : Nat) : SameOutside s.out.obuf (s.withHeader t) s.argl2 6 :=
  Memory.writeList_sameOutside s.out.obuf s.argl2 _

/-! ## The body of `RLE_ENCPLANE` -/

/-- The words of the plane, from the started stream on (R153). -/
def planeWordsOutput (s : State) (t : Nat) : Act State Results := do
  onOut (encScan s.cfg t s.inp.ibuf (s.planeWidth * s.planeHeight) s.argl0 (firstSymbol s.plane) 0)
  let len ← onOut (wrFinish s.cfg.obufBytes)
  storeBytes (s.argl2 + 6) (littleEndianBytes (len / 4) 4)
  return { res0 := some (rleHeaderBytes + len), res1 := some (len / 4), res2 := some t }

/-- Once the first pixel is read, the body writes six header bytes and starts the stream (R153). -/
theorem planeOutput_eq {b : Byte} (hb : pixelOf b = firstSymbol s.plane) : planeOutput s t b s
    = planeWordsOutput s t { s with out := OutPort.started (s.argl2 + 10) .word (s.withHeader t) } := by
  rw [planeOutput, hb]
  rfl

/-- Over a written plane whose ranges and header fit, the body writes six header bytes, starts the stream and writes the
words (R153). -/
theorem encPlane_eq (hin : s.argl0 + s.planeWidth * s.planeHeight ≤ s.cfg.ibufBytes)
    (hroom : s.argl2 + 10 ≤ s.cfg.obufBytes) (hw : Written s.inp.ibuf s.argl0 (s.planeWidth * s.planeHeight)) :
    encPlane t s = planeWordsOutput s t { s with out := OutPort.started (s.argl2 + 10) .word (s.withHeader t) } := by
  refine (Act.bind_ok (Act.get_apply s)).trans ((Act.bind_ok (requireIbuf_ok hin)).trans
    ((Act.bind_ok (requireObuf_ok (by omega))).trans ((Act.bind_ok (require_true hroom ..)).trans ?_)))
  split
  · rename_i hpos
    obtain ⟨b, hb⟩ := Option.isSome_iff_exists.mp (hw 0 hpos)
    exact (Act.bind_ok (ibufByte_written hb s)).trans (planeOutput_eq (State.firstSymbol_plane hpos hb).symm)
  · rename_i hzero
    refine (Act.bind_ok (Act.pure_apply 0 s)).trans (planeOutput_eq ?_)
    rw [State.plane, Nat.eq_zero_of_not_pos hzero]
    rfl

/-- The words of the plane are written from the stream's start (R148, R153). -/
theorem planeScan_writes (hc : LegalCodebook s.cfg) (ht : t ≤ 5)
    (hw : Written s.inp.ibuf s.argl0 (s.planeWidth * s.planeHeight)) :
    Writes s.cfg.obufBytes
      (encScan s.cfg t s.inp.ibuf (s.planeWidth * s.planeHeight) s.argl0 (firstSymbol s.plane) 0)
      (planeString s.cfg t s.plane) () :=
  encScan_writes hc ht hw (firstSymbol s.plane) 0

/-- OBUF after a plane of `wc` words was written whole (R149, R153). -/
structure PlaneStored (s : State) (t wc : Nat) (obuf : Memory) : Prop where
  header : bytesAt obuf s.argl2 10
    = headerBytes (s.plane.headD false).toNat s.planeWidth s.planeHeight t wc
  words : storedBits .word (bytesAt obuf (s.argl2 + 10) (4 * wc))
    = planeString s.cfg t s.plane ++ List.replicate (32 * wc - (planeString s.cfg t s.plane).length) false
  written : Written obuf s.argl2 (10 + 4 * wc)
  same : SameOutside s.out.obuf obuf s.argl2 (10 + 4 * wc)

/-- The word count completes the header (R153). -/
theorem PlaneStored.of_words {wc : Nat} {obuf : Memory}
    (hwords : storedBits .word (bytesAt obuf (s.argl2 + 10) (4 * wc))
      = planeString s.cfg t s.plane ++ List.replicate (32 * wc - (planeString s.cfg t s.plane).length) false)
    (hwrit : Written obuf (s.argl2 + 10) (4 * wc)) (hsame : SameOutside (s.withHeader t) obuf (s.argl2 + 10) (4 * wc)) :
    PlaneStored s t wc (obuf.writeList (s.argl2 + 6) (littleEndianBytes wc 4)) := by
  have hcount := Memory.writeList_sameOutside obuf (s.argl2 + 6) (littleEndianBytes wc 4)
  have hcountw := Memory.writeList_written obuf (s.argl2 + 6) (littleEndianBytes wc 4)
  have hcountb := bytesAt_writeList obuf (s.argl2 + 6) (littleEndianBytes wc 4)
  rw [littleEndianBytes_length] at hcount hcountw hcountb
  generalize obuf.writeList (s.argl2 + 6) (littleEndianBytes wc 4) = final at *
  have hsix : ∀ k < 6, final.read (s.argl2 + k) = (s.withHeader t).read (s.argl2 + k) := fun k hk =>
    (hcount _ (by omega)).trans (hsame _ (by omega))
  have htail : ∀ k < 4 * wc, final.read (s.argl2 + 10 + k) = obuf.read (s.argl2 + 10 + k) := fun k hk =>
    hcount _ (by omega)
  constructor
  · rw [show (10 : Nat) = 6 + 4 from rfl, bytesAt_add, bytesAt_congr hsix, s.withHeader_bytes, hcountb, headerBytes_eq]
    rfl
  · rw [bytesAt_congr htail, hwords]
  · exact (((s.withHeader_written t).copy hsix).append hcountw).append (hwrit.copy htail)
  · intro x hx
    rw [hcount x (by omega), hsame x (by omega), s.withHeader_sameOutside t x (by omega)]

/-- A plane that fits is written whole (R153). -/
theorem planeWordsOutput_fits (hc : LegalCodebook s.cfg) (ht : t ≤ 5)
    (hw : Written s.inp.ibuf s.argl0 (s.planeWidth * s.planeHeight)) {wc : Nat}
    (hwc : wc = ((planeString s.cfg t s.plane).length + 31) / 32) (hfit : s.argl2 + 10 + 4 * wc ≤ s.cfg.obufBytes) :
    ∃ obuf, planeWordsOutput s t { s with out := OutPort.started (s.argl2 + 10) .word (s.withHeader t) }
        = .ok { res0 := some (10 + 4 * wc), res1 := some wc, res2 := some t } { s with out := {
            wr := { st := .finished, gran := .word, base := s.argl2 + 10, acc := 0, cnt := 0, out := 4 * wc,
                    bits := (planeString s.cfg t s.plane).length }
            obuf := obuf } }
      ∧ PlaneStored s t wc obuf := by
  obtain ⟨o, obuf, hscan, hfin, hwords, hwrit, hsame⟩ :=
    (planeScan_writes hc ht hw).stream_fits (obuf := s.withHeader t) hwc hfit
  refine ⟨_, ?_, .of_words hwords hwrit hsame⟩
  rw [planeWordsOutput, Act.bind_ok (onOut_ok hscan), Act.bind_ok (onOut_ok hfin), Act.bind_ok (storeBytes_apply ..),
    Nat.mul_div_cancel_left wc (by decide)]
  rfl

/-- A plane of which a word does not fit is an overflow at that word, with the words before it written (R107, R153). -/
theorem planeWordsOutput_overflows (hc : LegalCodebook s.cfg) (ht : t ≤ 5)
    (hw : Written s.inp.ibuf s.argl0 (s.planeWidth * s.planeHeight)) (hroom : s.argl2 + 10 ≤ s.cfg.obufBytes)
    (hover : s.cfg.obufBytes < s.argl2 + 10 + 4 * (((planeString s.cfg t s.plane).length + 31) / 32)) :
    ∃ p pre, planeWordsOutput s t { s with out := OutPort.started (s.argl2 + 10) .word (s.withHeader t) }
        = .error (.raised .bufferOverflow (s.argl2 + 10 + 4 * ((s.cfg.obufBytes - (s.argl2 + 10)) / 4)))
          { s with out := p }
      ∧ pre <+: planeString s.cfg t s.plane ∧ p.wr.cnt ≤ 63
      ∧ Emits s.cfg.obufBytes (OutPort.started (s.argl2 + 10) .word (s.withHeader t)) p pre
          ((s.cfg.obufBytes - (s.argl2 + 10)) / 4) := by
  obtain ⟨p, pre, hpre, he, hcnt, herr | ⟨hok, herr⟩⟩ :=
    (planeScan_writes hc ht hw).stream_overflows (obuf := s.withHeader t) rfl hroom hover
  · refine ⟨p, pre, ?_, hpre, hcnt, he⟩
    rw [planeWordsOutput, Act.bind_error (onOut_error herr)]
  · refine ⟨p, pre, ?_, hpre, hcnt, he⟩
    rw [planeWordsOutput, Act.bind_ok (onOut_ok hok), Act.bind_error (onOut_error herr)]

/-! ## What the encoding of a plane leaves -/

/-- A header that does not fit is the first error (R153). -/
theorem encPlane_no_room (hin : s.argl0 + s.planeWidth * s.planeHeight ≤ s.cfg.ibufBytes)
    (hout : s.argl2 ≤ s.cfg.obufBytes) (hover : s.cfg.obufBytes < s.argl2 + 10) :
    complete (encPlane t) s = .next (failedExecution .bufferOverflow s.argl2 s) := by
  rw [encPlane, complete_bind_ok (Act.get_apply s), complete_bind_ok (requireIbuf_ok hin),
    complete_bind_ok (requireObuf_ok hout)]
  exact complete_bind_failedExecution (require_false (Nat.not_le.mpr hover) ..) rfl

/-- The encoding of a written plane that does not fit OBUF (R65, R107, R153, R278). -/
theorem planeOverflows (hc : LegalCodebook s.cfg) (ht : t ≤ 5)
    (hin : s.argl0 + s.planeWidth * s.planeHeight ≤ s.cfg.ibufBytes)
    (hw : Written s.inp.ibuf s.argl0 (s.planeWidth * s.planeHeight)) (hout : s.argl2 ≤ s.cfg.obufBytes) :
    PlaneOverflows t s (complete (encPlane t) s) := by
  refine ⟨encPlane_no_room hin hout, fun hroom hover => ?_⟩
  obtain ⟨p, pre, herr, hpre, hcnt, he⟩ := planeWordsOutput_overflows hc ht hw hroom hover
  have hbits : p.wr.bits = pre.length := by rw [he.started_wr]
  have htake : pre = (planeString s.cfg t s.plane).take p.wr.bits := by
    rw [hbits]
    exact List.prefix_iff_eq_take.mp hpre
  have hsame := he.same
  have hwrit := he.written
  have hle := he.le_cnt
  simp only [OutPort.started_wr, OutPort.started_obuf, granBits_word, Nat.reduceDiv, Nat.add_zero, Nat.zero_add]
    at hsame hwrit hle
  have hsix : ∀ k < 6, p.obuf.read (s.argl2 + k) = (s.withHeader t).read (s.argl2 + k) := fun k hk =>
    hsame _ (by omega)
  refine ⟨p, ?_, he.gran_eq, he.base_eq, by rw [he.started_wr], hcnt, hbits ▸ hpre.length_le,
    he.started_stream.trans htake, ?_, (s.withHeader_written t).copy hsix, ?_, hwrit, fun x hx => ?_⟩
  · rw [complete_raised ((encPlane_eq hin hroom hw).trans herr), takeError_classX rfl]
  · rw [bytesAt_congr hsix, s.withHeader_bytes, ← headerBytes_take]
    rfl
  · rw [he.words_eq_take, htake, List.take_take, hbits, Nat.min_eq_left hle]
  · rw [hsame x (by omega), s.withHeader_sameOutside t x (by omega)]

/-- The encoding of a written plane that fits OBUF (R153). -/
theorem encPlane_completes (hc : LegalCodebook s.cfg) (ht : t ≤ 5)
    (hin : s.argl0 + s.planeWidth * s.planeHeight ≤ s.cfg.ibufBytes)
    (hw : Written s.inp.ibuf s.argl0 (s.planeWidth * s.planeHeight)) {wc : Nat}
    (hwc : wc = ((planeString s.cfg t s.plane).length + 31) / 32) (hfit : s.argl2 + 10 + 4 * wc ≤ s.cfg.obufBytes) :
    ∃ obuf, complete (encPlane t) s = .next { s with
        status := s.status.completed
        regs := { s.regs with
          res0 := BitVec.ofNat 32 (10 + 4 * wc), res1 := BitVec.ofNat 32 wc, res2 := BitVec.ofNat 32 t }
        out := {
          wr := { st := .finished, gran := .word, base := s.argl2 + 10, acc := 0, cnt := 0, out := 4 * wc,
                  bits := (planeString s.cfg t s.plane).length }
          obuf := obuf } }
      ∧ PlaneStored s t wc obuf := by
  obtain ⟨obuf, hok, hstored⟩ := planeWordsOutput_fits hc ht hw hwc hfit
  refine ⟨obuf, ?_, hstored⟩
  rw [complete_ok ((encPlane_eq hin (by omega) hw).trans hok)]
  rfl

/-- `RLE_ENCPLANE` past its argument check (R153). -/
theorem exec_rleEncplane_of_check (ht : t ≤ 5) : exec (.rleEncplane t) s = complete (encPlane t) s := by
  rw [exec, execRleEncplane]
  exact complete_bind_ok (require_true ht ..)

end

/-- Settles O39. -/
theorem rleEncplaneWritesThePlane : Obligations.RleEncplaneWritesThePlane := by
  unfold Obligations.RleEncplaneWritesThePlane
  intro t s hlegal ht hin
  have hc := legalCodebook hlegal
  rw [exec_rleEncplane_of_check ht]
  refine ⟨encPlane_no_room hin, fun hw => ⟨planeOverflows hc ht hin hw, fun hfit => ?_⟩⟩
  obtain ⟨obuf, hnext, hheader, hwords, hwrit, hsame⟩ := encPlane_completes hc ht hin hw rfl hfit
  exact ⟨obuf, hnext, hheader, hwords, hwrit, hsame⟩

/-! ## The smallest encoding -/

/-- The words of a type's encoding are those of its stream (R155). -/
theorem planeWords_eq (c : Config) (ps : List Bool) (t : Nat) :
    planeWords c ps t = ((planeString c t ps).length + 31) / 32 := by
  rw [planeWords, planeString, List.length_flatten, List.map_map]
  congr 3
  exact List.map_congr_left fun r _ => runString_length.symm

/-- Scanning the numbers below `n` for a smaller value keeps the least number of least value. -/
theorem foldl_least (f : Nat → Nat) (n : Nat) :
    let best := (List.range n).foldl (fun best t => if f t < f best then t else best) 0
    best ≤ n ∧ (∀ t < n, f best ≤ f t) ∧ ∀ t < best, f best < f t := by
  induction n with
  | zero => exact ⟨Nat.le_refl 0, fun t h => absurd h (Nat.not_lt_zero t), fun t h => absurd h (Nat.not_lt_zero t)⟩
  | succ n ih =>
    intro best
    obtain ⟨hle, hleast, hfirst⟩ := ih
    have hstep : best = if f n < f ((List.range n).foldl (fun best t => if f t < f best then t else best) 0) then n
        else (List.range n).foldl (fun best t => if f t < f best then t else best) 0 := by
      show (List.range (n + 1)).foldl _ 0 = _
      rw [List.range_succ, List.foldl_append]
      rfl
    generalize (List.range n).foldl (fun best t => if f t < f best then t else best) 0 = old at *
    rw [hstep]
    split
    · rename_i hlt
      refine ⟨Nat.le_succ n, fun t ht => ?_, fun t ht => Nat.lt_of_lt_of_le hlt (hleast t ht)⟩
      obtain hlt' | rfl := Nat.lt_or_eq_of_le (Nat.lt_succ_iff.mp ht)
      · exact Nat.le_of_lt (Nat.lt_of_lt_of_le hlt (hleast t hlt'))
      · exact Nat.le_refl _
    · rename_i hge
      refine ⟨by omega, fun t ht => ?_, hfirst⟩
      obtain hlt' | rfl := Nat.lt_or_eq_of_le (Nat.lt_succ_iff.mp ht)
      · exact hleast t hlt'
      · exact Nat.not_lt.mp hge

/-- `t*` is the least type of least size (R155). -/
theorem bestType_least (c : Config) (ps : List Bool) :
    (∀ t ≤ 5, planeWords c ps (bestType c ps) ≤ planeWords c ps t)
    ∧ ∀ t < bestType c ps, planeWords c ps (bestType c ps) < planeWords c ps t := by
  obtain ⟨-, hleast, hfirst⟩ := foldl_least (planeWords c ps) 6
  exact ⟨fun t ht => hleast t (Nat.lt_succ_iff.mpr ht), hfirst⟩

/-- `RLE_BEST` over a written plane runs the encoding of `t*` (R155). -/
theorem exec_rleBest_eq {s : State} (hin : s.argl0 + s.planeWidth * s.planeHeight ≤ s.cfg.ibufBytes)
    (hw : Written s.inp.ibuf s.argl0 (s.planeWidth * s.planeHeight)) (hout : s.argl2 ≤ s.cfg.obufBytes) :
    exec .rleBest s = complete (encPlane (bestType s.cfg s.plane)) s := by
  rw [exec, execRleBest, complete_bind_ok (requireIbuf_ok hin), complete_bind_ok (requireObuf_ok hout)]
  exact complete_bind_ok (ibufBytes_written hw s)

/-- Settles O42. -/
theorem rleBestIsTheSmallestEncoding : Obligations.RleBestIsTheSmallestEncoding := by
  unfold Obligations.RleBestIsTheSmallestEncoding
  intro s hlegal hin hw ps words
  have hc := legalCodebook hlegal
  have hbest := bestType_le s.cfg ps
  have hwords : ∀ t, planeWords s.cfg ps t = words t := planeWords_eq s.cfg ps
  obtain ⟨hleast, hfirst⟩ := bestType_least s.cfg ps
  simp only [hwords] at hleast hfirst
  have hsame (hout : s.argl2 ≤ s.cfg.obufBytes) : exec .rleBest s = exec (.rleEncplane (bestType s.cfg ps)) s := by
    rw [exec_rleBest_eq hin hw hout, exec_rleEncplane_of_check hbest]
  refine ⟨bestType s.cfg ps, hbest, hleast, hfirst, fun hfit => ?_, fun hout => ?_, hsame⟩
  · obtain ⟨obuf, hnext, -⟩ := encPlane_completes hc hbest hin hw rfl hfit
    rw [hsame (by omega), exec_rleEncplane_of_check hbest]
    exact ⟨_, hnext, hnext, rfl, rfl, rfl⟩
  · rw [exec_rleBest_eq hin hw hout]
    exact planeOverflows hc hbest hin hw hout

end Sys2Proof.Machine
end

section
/-! PROOFS. `RLE_DECRUN` (spec/42_rle.md R145, R152): the codeword the input begins with, or the error that says why
there is none. -/

namespace Sys2Proof.Machine

variable {c : Config} {t : Nat} {s : State}

/-- With no codeword ahead, either a bucket's pattern is ahead or bits are missing for one, or the bits ahead begin with
no pattern (R145); the error that tells the two apart is of class X. -/
theorem classX_of_no_codeword {bs : List Bool} {e : ErrorCode}
    (hcut : ((∃ i ≤ 6, natBits (prefixBits c i) (prefixPat c i) <+: bs) ∨ ∃ i ≤ 6, bs.length < prefixBits c i) →
      e = .unexpectedEof)
    (hunused : (∀ i ≤ 6, ¬ natBits (prefixBits c i) (prefixPat c i) <+: bs ∧ prefixBits c i ≤ bs.length) →
      e = .corruptStream) : e.classX = true := by
  by_cases h : (∃ i ≤ 6, natBits (prefixBits c i) (prefixPat c i) <+: bs) ∨ ∃ i ≤ 6, bs.length < prefixBits c i
  · rw [hcut h]
    rfl
  · rw [hunused fun i hi => ⟨fun hp => h (.inl ⟨i, hi, hp⟩), Nat.not_lt.mp fun hl => h (.inr ⟨i, hi, hl⟩)⟩]
    rfl

/-- `RLE_DECRUN` past its checks (R152). -/
theorem exec_rleDecrun_of_checks (hst : s.inp.rd.st = .active) (ht : t ≤ 5) :
    exec (.rleDecrun t) s = complete (do
      let (v, i) ← onReader (decCw s.cfg t)
      return { res0 := some v, res1 := some i, res2 := some (if v = longestRun s.cfg t then 1 else 0) }) s := by
  rw [exec, execRleDecrun, complete_bind_ok (requireReader_ok hst)]
  exact complete_bind_ok (require_true ht ..)

/-- Settles O38: the two checks in order, then `dec_cw`. -/
theorem rleDecrunConsumesOneCodeword : Obligations.RleDecrunConsumesOneCodeword := by
  unfold Obligations.RleDecrunConsumesOneCodeword
  intro t s hlegal
  have hc := legalCodebook hlegal
  refine ⟨fun hst => ?_, fun hst ht => ?_, fun hst ht hwf hfed => ⟨fun len h1 hM hpre => ?_, fun hno => ?_⟩⟩
  · exact complete_bind_failedCheck (requireReader_fails hst) rfl
  · rw [exec, execRleDecrun, complete_bind_ok (requireReader_ok hst)]
    exact complete_bind_failedCheck (require_false (Nat.not_le.mpr ht) ..) rfl
  · obtain ⟨i, -, hb⟩ := exists_bucketOf hM
    obtain ⟨r, hread, hr⟩ := decCw_reads hc s.cfg.ibufBytes ht h1 hb s.inp.ibuf s.inp.rd hwf hfed hpre
    refine ⟨i, r, hb, ?_, hr.ahead, hr.pos_eq, hr.st_eq.trans hst, hr.gran_eq, hr.base_eq, hr.len_eq, hr.wf⟩
    have hflag : BitVec.ofNat 32 (if len = longestRun s.cfg t then 1 else 0)
        = if len = longestRun s.cfg t then (1 : Word) else 0 := by split <;> rfl
    rw [exec_rleDecrun_of_checks hst ht, complete_bind_ok (onReader_ok hread), complete_pure, ← hflag]
    rfl
  · obtain ⟨v, _, _, h1, hM, -, hpre, -⟩ | ⟨e, r, -, hread, hr, hcut, hunused⟩ := decCw_cases hc ht hwf hfed
    · exact absurd hpre (hno v h1 hM)
    · refine ⟨e, r, ?_, hcut, hunused, hr.ahead, hr.pos_eq, hr.gran_eq, hr.base_eq, hr.len_eq, hr.wf⟩
      rw [exec_rleDecrun_of_checks hst ht]
      exact complete_bind_failedExecution (onReader_error hread) (classX_of_no_codeword hcut hunused)

end Sys2Proof.Machine
end

section
/-! PROOFS. `RLE_DECPLANE` (spec/42_rle.md R143, R145, R149, R154): its header, the codewords whose pixels it writes,
and the errors it finds. -/

namespace Sys2Proof.Machine

variable {s : State}

/-! ## The header -/

/-- What `RLE_DECPLANE` does once the header is read: its checks, then the codeword loop (R154). -/
def planeInput (s : State) (first t : Byte) (n wc : Nat) : Act State Results := do
  require (first.toNat ≤ 1) .corruptStream (8 * s.argl0)
  require (t.toNat ≤ 5) .corruptStream (8 * (s.argl0 + 5))
  require (rleHeaderBytes + 4 * wc ≤ s.argl1) .unexpectedEof (8 * (s.argl0 + s.argl1))
  onReader (fun _ => rdInit (s.argl0 + rleHeaderBytes) (4 * wc) .word)
  decRuns t.toNat n s.argl2 n 0 (pixelOf first)
  let u ← get
  return { res0 := some n, res1 := some u.inp.rd.pos, res2 := some t.toNat }

/-- The checks of a header's fields, in their order (R154). -/
theorem planeInput_rejects (s : State) (first t : Byte) (n wc : Nat) :
    (1 < first.toNat →
      complete (planeInput s first t n wc) s = .next (failedExecution .corruptStream (8 * s.argl0) s))
    ∧ (first.toNat ≤ 1 → 5 < t.toNat →
      complete (planeInput s first t n wc) s = .next (failedExecution .corruptStream (8 * (s.argl0 + 5)) s))
    ∧ (first.toNat ≤ 1 → t.toNat ≤ 5 → s.argl1 < 10 + 4 * wc →
      complete (planeInput s first t n wc) s
        = .next (failedExecution .unexpectedEof (8 * (s.argl0 + s.argl1)) s)) := by
  rw [planeInput]
  refine ⟨fun hfirst => ?_, fun hfirst ht => ?_, fun hfirst ht hwc => ?_⟩
  · exact complete_bind_failedExecution (require_false (Nat.not_le.mpr hfirst) ..) rfl
  · rw [complete_bind_ok (require_true hfirst ..)]
    exact complete_bind_failedExecution (require_false (Nat.not_le.mpr ht) ..) rfl
  · rw [complete_bind_ok (require_true hfirst ..), complete_bind_ok (require_true ht ..)]
    exact complete_bind_failedExecution (require_false (Nat.not_le.mpr hwc) ..) rfl

/-- A range that holds no whole header is the first error (R154). -/
theorem exec_rleDecplane_short (hin : s.argl0 + s.argl1 ≤ s.cfg.ibufBytes) (hout : s.argl2 ≤ s.cfg.obufBytes)
    (hlen : s.argl1 < 10) :
    exec .rleDecplane s = .next (failedExecution .unexpectedEof (8 * (s.argl0 + s.argl1)) s) := by
  rw [exec, execRleDecplane]
  dsimp only
  rw [complete_bind_ok (requireIbuf_ok hin), complete_bind_ok (requireObuf_ok hout)]
  exact complete_bind_failedExecution (require_false (Nat.not_le.mpr hlen) ..) rfl

theorem Written.mono {m : Memory} {a n k : Nat} (h : Written m a n) (hk : k ≤ n) : Written m a k :=
  fun i hi => h i (by omega)

theorem Written.sub {m : Memory} {a n k l : Nat} (h : Written m a n) (hl : k + l ≤ n) : Written m (a + k) l := by
  intro i hi
  rw [Nat.add_assoc]
  exact h (k + i) (by omega)

/-- `RLE_DECPLANE` over a written header is its checks and the loop with the header's fields (R149, R154). -/
theorem exec_rleDecplane_eq (hin : s.argl0 + s.argl1 ≤ s.cfg.ibufBytes) (hout : s.argl2 ≤ s.cfg.obufBytes)
    (hlen : 10 ≤ s.argl1) (hw : Written s.inp.ibuf s.argl0 10) :
    exec .rleDecplane s = complete (planeInput s ((s.inp.ibuf.read s.argl0).getD 0)
      ((s.inp.ibuf.read (s.argl0 + 5)).getD 0)
      (littleEndian (bytesAt s.inp.ibuf (s.argl0 + 1) 2) * littleEndian (bytesAt s.inp.ibuf (s.argl0 + 3) 2))
      (littleEndian (bytesAt s.inp.ibuf (s.argl0 + 6) 4))) s := by
  rw [exec, execRleDecplane]
  dsimp only
  rw [complete_bind_ok (requireIbuf_ok hin), complete_bind_ok (requireObuf_ok hout)]
  refine (complete_bind_ok (require_true hlen ..)).trans ?_
  rw [complete_bind_ok (ibufByte_of_written (hw.mono (by decide)) s),
    complete_bind_ok (ibufBytes_written (hw.sub (by decide)) s),
    complete_bind_ok (ibufBytes_written (hw.sub (by decide)) s),
    complete_bind_ok (ibufByte_of_written (hw.sub (by decide)) s),
    complete_bind_ok (ibufBytes_written (hw.sub (by decide)) s)]
  rfl

/-- IBUF holds an RLE header and its words in the range of the command (R149, R154). -/
structure PlaneGiven (s : State) (first : Bool) (width height t wc : Nat) : Prop where
  width_lt : width < 2 ^ 16
  height_lt : height < 2 ^ 16
  t_le : t ≤ 5
  wc_lt : wc < 2 ^ 32
  len : 10 + 4 * wc ≤ s.argl1
  inside : s.argl0 + s.argl1 ≤ s.cfg.ibufBytes
  written : Written s.inp.ibuf s.argl0 (10 + 4 * wc)
  header : bytesAt s.inp.ibuf s.argl0 10 = headerBytes first.toNat width height t wc

/-- The fields of a header, each at its place (R149). -/
theorem header_fields {m : Memory} {a first width height t words : Nat}
    (h : bytesAt m a 10 = headerBytes first width height t words) :
    (m.read a).getD 0 = BitVec.ofNat 8 first ∧ bytesAt m (a + 1) 2 = littleEndianBytes width 2
    ∧ bytesAt m (a + 3) 2 = littleEndianBytes height 2 ∧ (m.read (a + 5)).getD 0 = BitVec.ofNat 8 t
    ∧ bytesAt m (a + 6) 4 = littleEndianBytes words 4 := by
  have hone (k : Nat) : bytesAt m k 1 = [(m.read k).getD 0] := rfl
  rw [show (10 : Nat) = 1 + 2 + 2 + 1 + 4 from rfl, bytesAt_add, bytesAt_add, bytesAt_add, bytesAt_add,
    headerBytes] at h
  obtain ⟨h, hwords⟩ := List.append_inj' h (by simp)
  obtain ⟨h, ht⟩ := List.append_inj' h (by simp)
  obtain ⟨h, hheight⟩ := List.append_inj' h (by simp)
  obtain ⟨hfirst, hwidth⟩ := List.append_inj' h (by simp)
  rw [hone] at hfirst ht
  exact ⟨List.singleton_inj.mp hfirst, hwidth, hheight, List.singleton_inj.mp ht, hwords⟩

/-- The codeword loop of `RLE_DECPLANE` with its results (R154). -/
def planePixels (t n dst : Nat) (first : Bool) : Act State Results := do
  decRuns t n dst n 0 first
  let u ← get
  return { res0 := some n, res1 := some u.inp.rd.pos, res2 := some t }

/-- The state when the loop begins: the reader over the words (R154). -/
def State.overWords (s : State) (wc : Nat) : State :=
  { s with inp := { s.inp with rd := Reader.started (s.argl0 + 10) (4 * wc) .word } }

theorem PlaneGiven.exec_eq {first : Bool} {width height t wc : Nat} (h : PlaneGiven s first width height t wc)
    (hout : s.argl2 ≤ s.cfg.obufBytes) :
    exec .rleDecplane s = complete (planePixels t (width * height) s.argl2 first) (s.overWords wc) := by
  obtain ⟨hfirst, hwidth, hheight, ht, hwords⟩ := header_fields h.header
  have hwidth' := h.width_lt
  have hheight' := h.height_lt
  have ht' := h.t_le
  have hwc' := h.wc_lt
  have hlen := h.len
  rw [exec_rleDecplane_eq h.inside hout (by omega) (h.written.mono (by omega)), hfirst, hwidth, hheight, ht,
    hwords]
  simp only [littleEndian_littleEndianBytes]
  rw [Nat.mod_eq_of_lt (a := width) (by omega), Nat.mod_eq_of_lt (a := height) (by omega),
    Nat.mod_eq_of_lt (a := wc) (by omega), planeInput]
  have htype : (BitVec.ofNat 8 t).toNat = t := by
    rw [BitVec.toNat_ofNat]
    exact Nat.mod_eq_of_lt (by omega)
  have hsymbol : (BitVec.ofNat 8 first.toNat).toNat ≤ 1 ∧ pixelOf (BitVec.ofNat 8 first.toNat) = first := by
    cases first <;> decide
  rw [complete_bind_ok (require_true hsymbol.1 ..), complete_bind_ok (require_true (by rwa [htype]) ..)]
  refine (complete_bind_ok (require_true hlen ..)).trans ((complete_bind_ok (onReader_rdInit ..)).trans ?_)
  rw [hsymbol.2, htype]
  rfl

end Sys2Proof.Machine
end

section
/-! PROOFS. The codeword loop of `RLE_DECPLANE` over a given plane (spec/42_rle.md R143, R145, R154): completion, the
end of OBUF, and the errors of the stream. -/

namespace Sys2Proof.Machine

variable {s : State} {first : Bool} {width height t wc : Nat} {vs : List Nat}

/-! ## The state of the loop -/

/-- The state after the loop wrote bytes, its reader at `r` (R154). -/
def State.afterPixels (s : State) (r : Reader) (bs : List Byte) : State :=
  { s with
    inp := { s.inp with rd := r }
    out := { s.out with obuf := s.out.obuf.writeList s.argl2 bs } }

@[simp] theorem State.afterPixels_cfg (s : State) (r : Reader) (bs : List Byte) :
    (s.afterPixels r bs).cfg = s.cfg := rfl

/-- Bytes written after those already there (R154). -/
theorem State.afterPixels_append (s : State) (r : Reader) (bs cs : List Byte) :
    { s.afterPixels r bs with
      out := { (s.afterPixels r bs).out with
        obuf := (s.afterPixels r bs).out.obuf.writeList (s.argl2 + bs.length) cs } } = s.afterPixels r (bs ++ cs) := by
  simp only [State.afterPixels, Memory.writeList_append]

/-- A buffer after bytes were written to a range. -/
theorem Memory.writeList_range (m : Memory) (a : Nat) {bs : List Byte} {n : Nat} (h : bs.length = n) :
    Written (m.writeList a bs) a n ∧ bytesAt (m.writeList a bs) a n = bs ∧ SameOutside m (m.writeList a bs) a n := by
  subst h
  exact ⟨m.writeList_written a bs, bytesAt_writeList m a bs, m.writeList_sameOutside a bs⟩

theorem Consumes.pos_started {cap base len k : Nat} {g : Gran} {ibuf : Memory} {r : Reader}
    (h : Consumes cap ibuf (Reader.started base len g) r k) : r.pos = k := h.pos_eq.trans (Nat.zero_add k)

theorem Consumes.bitAddress_started {cap base len k : Nat} {g : Gran} {ibuf : Memory} {r : Reader}
    (h : Consumes cap ibuf (Reader.started base len g) r k) : r.bitAddress = 8 * base + k := by
  rw [Reader.bitAddress, h.base_eq, h.pos_started]
  rfl

theorem complete_planePixels_ok {u : State} {n : Nat} (h : decRuns t n s.argl2 n 0 first (s.overWords wc) = .ok () u) :
    complete (planePixels t n s.argl2 first) (s.overWords wc)
      = .next (completeOk { res0 := some n, res1 := some u.inp.rd.pos, res2 := some t } u) := by
  rw [planePixels, complete_bind_ok h]
  rfl

theorem complete_planePixels_error {u : State} {e : ErrorCode} {n pos : Nat} (he : e.classX = true)
    (h : decRuns t n s.argl2 n 0 first (s.overWords wc) = .error (.raised e pos) u) :
    complete (planePixels t n s.argl2 first) (s.overWords wc) = .next (failedExecution e pos u) :=
  complete_bind_failedExecution h he

/-! ## Codewords whose pixels fit -/

theorem PlaneGiven.reader_wf (h : PlaneGiven s first width height t wc) :
    (Reader.started (s.argl0 + 10) (4 * wc) .word).wf s.cfg.ibufBytes := by
  have hlen := h.len
  have hin := h.inside
  exact Reader.wf_init (by omega) fun _ => Nat.mul_mod_right ..

theorem PlaneGiven.reader_fed (h : PlaneGiven s first width height t wc) :
    (Reader.started (s.argl0 + 10) (4 * wc) .word).Fed s.inp.ibuf := h.written.sub (Nat.le_refl _)

/-- The loop passes codewords whose pixels fit plane and OBUF, and writes those pixels (R154). -/
theorem PlaneGiven.decRuns_skips (h : PlaneGiven s first width height t wc) (hc : LegalCodebook s.cfg) {n : Nat}
    (hv : ∀ v ∈ vs, 1 ≤ v ∧ v ≤ longestRun s.cfg t) (hn : (expandCodewords s.cfg t first vs).length ≤ n)
    (hroom : s.argl2 + (expandCodewords s.cfg t first vs).length ≤ s.cfg.obufBytes) {rest : List Bool}
    (ha : storedBits .word (bytesAt s.inp.ibuf (s.argl0 + 10) (4 * wc)) = codewordString s.cfg t vs ++ rest) :
    ∃ r, (∀ fuel, decRuns t n s.argl2 (vs.length + fuel) 0 first (s.overWords wc)
          = decRuns t n s.argl2 fuel (expandCodewords s.cfg t first vs).length (vs.foldl (nextSymbol s.cfg t) first)
            (s.afterPixels r ((expandCodewords s.cfg t first vs).map pixelByte)))
      ∧ Consumes s.cfg.ibufBytes s.inp.ibuf (Reader.started (s.argl0 + 10) (4 * wc) .word) r
          (codewordString s.cfg t vs).length
      ∧ r.ahead s.inp.ibuf = rest ∧ r.Fed s.inp.ibuf := by
  obtain ⟨r, hrun, hr, hahead⟩ := decRuns_skip (s := s.overWords wc) (n := n) (dst := s.argl2) (out := 0) hc h.t_le hv
    (by rwa [Nat.zero_add]) hroom h.reader_wf h.reader_fed ha
  refine ⟨r, fun fuel => ?_, hr, hahead, hr.fed h.reader_fed⟩
  have hfuel := hrun fuel
  rw [Nat.zero_add] at hfuel
  exact hfuel

/-- The codewords that fill the plane end the loop (R154). -/
theorem PlaneGiven.decRuns_fills (h : PlaneGiven s first width height t wc) (hc : LegalCodebook s.cfg) {n : Nat}
    (hv : ∀ v ∈ vs, 1 ≤ v ∧ v ≤ longestRun s.cfg t) (hn : (expandCodewords s.cfg t first vs).length = n)
    (hroom : s.argl2 + n ≤ s.cfg.obufBytes)
    (hpre : codewordString s.cfg t vs <+: storedBits .word (bytesAt s.inp.ibuf (s.argl0 + 10) (4 * wc))) :
    ∃ r, decRuns t n s.argl2 n 0 first (s.overWords wc)
        = .ok () (s.afterPixels r ((expandCodewords s.cfg t first vs).map pixelByte))
      ∧ Consumes s.cfg.ibufBytes s.inp.ibuf (Reader.started (s.argl0 + 10) (4 * wc) .word) r
          (codewordString s.cfg t vs).length := by
  obtain ⟨rest, hrest⟩ := hpre
  have hfuel := length_le_expandCodewords (c := s.cfg) (t := t) (fun v hmem => (hv v hmem).1) first
  obtain ⟨r, hrun, hr, -⟩ := decRuns_reads (s := s.overWords wc) (dst := s.argl2) (out := 0) hc h.t_le hv (hn ▸ hfuel)
    (by rwa [Nat.zero_add]) hroom h.reader_wf h.reader_fed hrest.symm
  exact ⟨r, hrun, hr⟩

/-- One more codeword adds its pixels (R143). -/
theorem expandCodewords_snoc (c : Config) (t : Nat) (cur : Bool) (vs : List Nat) (v : Nat) :
    expandCodewords c t cur (vs ++ [v]) = expandCodewords c t cur vs
      ++ List.replicate (codewordPixels c t v) (vs.foldl (nextSymbol c t) cur) := by
  rw [expandCodewords_append, expandCodewords_cons, expandCodewords, List.append_nil]

theorem codewordString_snoc (c : Config) (t : Nat) (vs : List Nat) (v : Nat) :
    codewordString c t (vs ++ [v]) = codewordString c t vs ++ codeword c t v := by
  simp [codewordString]

/-- With pixels still to come the loop has a turn left: every codeword stands for a pixel (R154). -/
theorem exists_fuel {c : Config} {cur : Bool} {n : Nat} (hv : ∀ v ∈ vs, 1 ≤ v)
    (hn : (expandCodewords c t cur vs).length < n) : ∃ fuel, vs.length + (fuel + 1) = n := by
  have hle := length_le_expandCodewords (c := c) (t := t) hv cur
  exact ⟨n - vs.length - 1, by omega⟩

/-- The loop reads one more codeword after those whose pixels fit, with pixels still to come (R154): what is left is to
check that codeword's run and write its pixels. -/
theorem PlaneGiven.decRuns_reads_next (h : PlaneGiven s first width height t wc) (hc : LegalCodebook s.cfg) {n v : Nat}
    (hv : ∀ x ∈ vs ++ [v], 1 ≤ x ∧ x ≤ longestRun s.cfg t) (hn : (expandCodewords s.cfg t first vs).length < n)
    (hroom : s.argl2 + (expandCodewords s.cfg t first vs).length ≤ s.cfg.obufBytes)
    (hpre : codewordString s.cfg t (vs ++ [v])
      <+: storedBits .word (bytesAt s.inp.ibuf (s.argl0 + 10) (4 * wc))) :
    ∃ fuel r, decRuns t n s.argl2 n 0 first (s.overWords wc) = (do
          require ((expandCodewords s.cfg t first (vs ++ [v])).length ≤ n) .corruptStream
            (8 * (s.argl0 + 10) + (codewordString s.cfg t vs).length)
          putPixels (vs.foldl (nextSymbol s.cfg t) first) (codewordPixels s.cfg t v)
            (s.argl2 + (expandCodewords s.cfg t first vs).length)
          decRuns t n s.argl2 fuel (expandCodewords s.cfg t first (vs ++ [v])).length
            (nextSymbol s.cfg t (vs.foldl (nextSymbol s.cfg t) first) v) : Act State Unit)
        (s.afterPixels r ((expandCodewords s.cfg t first vs).map pixelByte))
      ∧ Consumes s.cfg.ibufBytes s.inp.ibuf (Reader.started (s.argl0 + 10) (4 * wc) .word) r
          (codewordString s.cfg t (vs ++ [v])).length := by
  obtain ⟨hv1, hvM⟩ := hv v (List.mem_append_right _ (List.mem_singleton_self v))
  have hvs : ∀ x ∈ vs, 1 ≤ x ∧ x ≤ longestRun s.cfg t := fun x hx => hv x (List.mem_append_left _ hx)
  obtain ⟨rest, hrest⟩ := hpre
  rw [codewordString_snoc, List.append_assoc] at hrest
  obtain ⟨r, hskip, hr, hahead, hfed⟩ := h.decRuns_skips hc hvs (Nat.le_of_lt hn) hroom hrest.symm
  obtain ⟨r', hturn, hr', -⟩ := decRuns_codeword
    (s := s.afterPixels r ((expandCodewords s.cfg t first vs).map pixelByte)) (dst := s.argl2) hc h.t_le hv1
    hvM (vs.foldl (nextSymbol s.cfg t) first) hn hr.wf hfed hahead
  obtain ⟨fuel, hfuel⟩ := exists_fuel (fun x hx => (hvs x hx).1) hn
  refine ⟨fuel, r', ?_, ?_⟩
  · have hrun := (hskip (fuel + 1)).trans (hturn fuel)
    rw [hfuel] at hrun
    rw [hrun, expandCodewords_snoc, List.length_append, List.length_replicate, ← hr.bitAddress_started]
    rfl
  · rw [codewordString_snoc, List.length_append]
    exact hr.trans hr'

/-! ## The end of OBUF -/

/-- The pixels of the first codewords are the first pixels (R143). -/
theorem expandCodewords_prefix (c : Config) (t : Nat) (cur : Bool) {ws vs : List Nat} (h : ws <+: vs) :
    expandCodewords c t cur ws <+: expandCodewords c t cur vs := by
  obtain ⟨rest, rfl⟩ := h
  rw [expandCodewords_append]
  exact List.prefix_append ..

/-- Pixels below a bound that the first codewords pass are theirs (R143). -/
theorem take_pixels_eq (c : Config) (t : Nat) (cur : Bool) {ws vs : List Nat} (h : ws <+: vs) {room : Nat}
    (hroom : room ≤ (expandCodewords c t cur ws).length) :
    ((expandCodewords c t cur vs).map pixelByte).take room
      = ((expandCodewords c t cur ws).map pixelByte).take room := by
  obtain ⟨more, hmore⟩ := expandCodewords_prefix c t cur h
  rw [← hmore, List.map_append, List.take_append_of_le_length (by rwa [List.length_map])]

theorem codewordString_prefix (c : Config) (t : Nat) {ws vs : List Nat} (h : ws <+: vs) :
    codewordString c t ws <+: codewordString c t vs := by
  obtain ⟨rest, rfl⟩ := h
  rw [codewordString, codewordString, List.map_append, List.flatten_append]
  exact List.prefix_append ..

/-- Of codewords whose pixels pass a bound, the first `j` stay below it and the next passes it. -/
theorem exists_crossing (c : Config) (t : Nat) (cur : Bool) {vs : List Nat} {room : Nat}
    (h : room < (expandCodewords c t cur vs).length) :
    ∃ j v, vs.take (j + 1) = vs.take j ++ [v] ∧ (expandCodewords c t cur (vs.take j)).length ≤ room
      ∧ room < (expandCodewords c t cur (vs.take (j + 1))).length := by
  induction vs using List.reverseRecOn with
  | nil => exact absurd h (Nat.not_lt_zero room)
  | append_singleton vs v ih =>
    by_cases hshort : (expandCodewords c t cur vs).length ≤ room
    · refine ⟨vs.length, v, ?_⟩
      rw [List.take_left, List.take_of_length_le (by simp)]
      exact ⟨rfl, hshort, h⟩
    · obtain ⟨j, x, htake, hle, hlt⟩ := ih (Nat.not_le.mp hshort)
      have hj : j + 1 ≤ vs.length := by
        have hlen := congrArg List.length htake
        simp only [List.length_append, List.length_take, List.length_singleton] at hlen
        omega
      refine ⟨j, x, ?_⟩
      rw [List.take_append_of_le_length hj, List.take_append_of_le_length (by omega)]
      exact ⟨htake, hle, hlt⟩

/-- Pixels of one symbol that pass the end of OBUF are written up to it (R65, R154). -/
theorem putPixels_overflows {p : Bool} {n a : Nat} (ha : a ≤ s.cfg.obufBytes) (hover : s.cfg.obufBytes < a + n) :
    putPixels p n a s = .error (.raised .bufferOverflow s.cfg.obufBytes) { s with
      out := { s.out with obuf := s.out.obuf.writeList a (List.replicate (s.cfg.obufBytes - a) (pixelByte p)) } } := by
  obtain ⟨hfit, -⟩ | ⟨k, hk, hlt, hle, herr⟩ := putPixels_cases p n a s
  · omega
  · have hend : a + k = s.cfg.obufBytes := by omega
    rw [herr, hend, show k = s.cfg.obufBytes - a by omega]

/-- Where the pixels of the next codeword pass the end of OBUF, the loop raises `BUFFER_OVERFLOW` there with the pixels
before it written (R65, R154). -/
theorem PlaneGiven.decRuns_overflows (h : PlaneGiven s first width height t wc) (hc : LegalCodebook s.cfg) {n v : Nat}
    (hv : ∀ x ∈ vs ++ [v], 1 ≤ x ∧ x ≤ longestRun s.cfg t)
    (hn : (expandCodewords s.cfg t first (vs ++ [v])).length ≤ n) (hout : s.argl2 ≤ s.cfg.obufBytes)
    (hfit : (expandCodewords s.cfg t first vs).length ≤ s.cfg.obufBytes - s.argl2)
    (hover : s.cfg.obufBytes - s.argl2 < (expandCodewords s.cfg t first (vs ++ [v])).length)
    (hpre : codewordString s.cfg t (vs ++ [v])
      <+: storedBits .word (bytesAt s.inp.ibuf (s.argl0 + 10) (4 * wc))) :
    ∃ r, decRuns t n s.argl2 n 0 first (s.overWords wc) = .error (.raised .bufferOverflow s.cfg.obufBytes)
        (s.afterPixels r (((expandCodewords s.cfg t first (vs ++ [v])).map pixelByte).take
          (s.cfg.obufBytes - s.argl2)))
      ∧ Consumes s.cfg.ibufBytes s.inp.ibuf (Reader.started (s.argl0 + 10) (4 * wc) .word) r
          (codewordString s.cfg t (vs ++ [v])).length := by
  have hcount := congrArg List.length (expandCodewords_snoc s.cfg t first vs v)
  rw [List.length_append, List.length_replicate] at hcount
  have hlt := Nat.lt_of_le_of_lt hfit (Nat.lt_of_lt_of_le hover hn)
  obtain ⟨fuel, r, hturn, hr⟩ := h.decRuns_reads_next hc hv hlt (by omega) hpre
  refine ⟨r, ?_, hr⟩
  have hput := putPixels_overflows (s := s.afterPixels r ((expandCodewords s.cfg t first vs).map pixelByte))
    (p := vs.foldl (nextSymbol s.cfg t) first) (n := codewordPixels s.cfg t v)
    (a := s.argl2 + (expandCodewords s.cfg t first vs).length) (by rw [State.afterPixels_cfg]; omega)
    (by rw [State.afterPixels_cfg]; omega)
  have hroom : s.cfg.obufBytes - (s.argl2 + (expandCodewords s.cfg t first vs).length)
      = s.cfg.obufBytes - s.argl2 - (expandCodewords s.cfg t first vs).length := by omega
  have htake : ((expandCodewords s.cfg t first (vs ++ [v])).map pixelByte).take (s.cfg.obufBytes - s.argl2)
      = (expandCodewords s.cfg t first vs).map pixelByte
        ++ List.replicate (s.cfg.obufBytes - (s.argl2 + (expandCodewords s.cfg t first vs).length))
            (pixelByte (vs.foldl (nextSymbol s.cfg t) first)) := by
    rw [expandCodewords_snoc, List.map_append, List.map_replicate, List.take_append, List.length_map, ← hroom,
      List.take_of_length_le (by rwa [List.length_map]), List.take_replicate, Nat.min_eq_left (by omega)]
  rw [hturn, Act.bind_ok (require_true hn ..), Act.bind_error hput, htake, ← State.afterPixels_append, List.length_map]
  rfl

/-! ## The errors of the stream -/

/-- A run past the plane is `CORRUPT_STREAM` at its codeword, with the pixels before it written (R154). -/
theorem PlaneGiven.decRuns_run_too_long (h : PlaneGiven s first width height t wc) (hc : LegalCodebook s.cfg)
    {n v : Nat} (hv : ∀ x ∈ vs ++ [v], 1 ≤ x ∧ x ≤ longestRun s.cfg t)
    (hn : (expandCodewords s.cfg t first vs).length < n)
    (hroom : s.argl2 + (expandCodewords s.cfg t first vs).length ≤ s.cfg.obufBytes)
    (hpre : codewordString s.cfg t (vs ++ [v]) <+: storedBits .word (bytesAt s.inp.ibuf (s.argl0 + 10) (4 * wc)))
    (hlong : n < (expandCodewords s.cfg t first (vs ++ [v])).length) :
    ∃ r, decRuns t n s.argl2 n 0 first (s.overWords wc)
        = .error (.raised .corruptStream (8 * (s.argl0 + 10) + (codewordString s.cfg t vs).length))
          (s.afterPixels r ((expandCodewords s.cfg t first vs).map pixelByte))
      ∧ Consumes s.cfg.ibufBytes s.inp.ibuf (Reader.started (s.argl0 + 10) (4 * wc) .word) r
          (codewordString s.cfg t (vs ++ [v])).length := by
  obtain ⟨fuel, r, hturn, hr⟩ := h.decRuns_reads_next hc hv hn hroom hpre
  refine ⟨r, ?_, hr⟩
  rw [hturn, Act.bind_error (require_false (Nat.not_le.mpr hlong) ..)]

/-- With pixels still to come and no whole codeword ahead, the loop ends at the next bit with `UNEXPECTED_EOF` or
`CORRUPT_STREAM` (R145, R154). -/
theorem PlaneGiven.decRuns_finds_no_codeword (h : PlaneGiven s first width height t wc)
    (hc : LegalCodebook s.cfg) {n : Nat} (hv : ∀ v ∈ vs, 1 ≤ v ∧ v ≤ longestRun s.cfg t)
    (hn : (expandCodewords s.cfg t first vs).length < n)
    (hroom : s.argl2 + (expandCodewords s.cfg t first vs).length ≤ s.cfg.obufBytes) {tail : List Bool}
    (ha : storedBits .word (bytesAt s.inp.ibuf (s.argl0 + 10) (4 * wc)) = codewordString s.cfg t vs ++ tail)
    (hno : ∀ v, 1 ≤ v → v ≤ longestRun s.cfg t → ¬ codeword s.cfg t v <+: tail) :
    ∃ e r, decRuns t n s.argl2 n 0 first (s.overWords wc)
        = .error (.raised e (8 * (s.argl0 + 10) + (codewordString s.cfg t vs).length))
          (s.afterPixels r ((expandCodewords s.cfg t first vs).map pixelByte))
      ∧ Consumes s.cfg.ibufBytes s.inp.ibuf (Reader.started (s.argl0 + 10) (4 * wc) .word) r
          (codewordString s.cfg t vs).length
      ∧ (((∃ i ≤ 6, natBits (prefixBits s.cfg i) (prefixPat s.cfg i) <+: tail)
            ∨ ∃ i ≤ 6, tail.length < prefixBits s.cfg i) → e = .unexpectedEof)
      ∧ ((∀ i ≤ 6, ¬ natBits (prefixBits s.cfg i) (prefixPat s.cfg i) <+: tail
            ∧ prefixBits s.cfg i ≤ tail.length) → e = .corruptStream) := by
  obtain ⟨r, hskip, hr, rfl, hfed⟩ := h.decRuns_skips hc hv (Nat.le_of_lt hn) hroom ha
  obtain ⟨fuel, hfuel⟩ := exists_fuel (fun v hmem => (hv v hmem).1) hn
  obtain ⟨e, r', herr, hr', hcut, hunused⟩ := decRuns_no_codeword
    (s := s.afterPixels r ((expandCodewords s.cfg t first vs).map pixelByte)) (dst := s.argl2) (fuel := fuel) hc h.t_le
    (vs.foldl (nextSymbol s.cfg t) first) hn hr.wf hfed hno
  have hrun := (hskip (fuel + 1)).trans herr
  rw [hfuel] at hrun
  refine ⟨e, r', ?_, hr.trans hr', hcut, hunused⟩
  rw [hrun, ← hr.bitAddress_started]
  rfl

/-- What `RLE_DECPLANE` leaves where its loop ends with an error: the pixels before it, the reader where it stopped
(R278). -/
theorem PlaneGiven.exec_fails (h : PlaneGiven s first width height t wc) (hout : s.argl2 ≤ s.cfg.obufBytes)
    {e : ErrorCode} {r : Reader} {bs : List Byte} {pos used k : Nat} (he : e.classX = true)
    (herr : decRuns t (width * height) s.argl2 (width * height) 0 first (s.overWords wc)
      = .error (.raised e pos) (s.afterPixels r bs))
    (hr : Consumes s.cfg.ibufBytes s.inp.ibuf (Reader.started (s.argl0 + 10) (4 * wc) .word) r used)
    (hk : bs.length = k) :
    ∃ obuf r, exec .rleDecplane s = .next (failedExecution e pos { s with
          out := { s.out with obuf := obuf }
          inp := { s.inp with rd := r } })
      ∧ Written obuf s.argl2 k ∧ bytesAt obuf s.argl2 k = bs ∧ SameOutside s.out.obuf obuf s.argl2 k
      ∧ r.gran = .word ∧ r.base = s.argl0 + 10 ∧ r.len = 4 * wc ∧ r.pos = used ∧ r.wf s.cfg.ibufBytes := by
  obtain ⟨hwrit, hbytes, hsame⟩ := s.out.obuf.writeList_range s.argl2 hk
  refine ⟨s.out.obuf.writeList s.argl2 bs, r, ?_, hwrit, hbytes, hsame, hr.gran_eq, hr.base_eq, hr.len_eq,
    hr.pos_started, hr.wf⟩
  rw [h.exec_eq hout, complete_planePixels_error he herr]
  rfl

/-! ## The statements -/

/-- Settles O40: the codewords fill the plane, or those up to the one that passes the end of OBUF. -/
theorem rleDecplaneWritesThePixels : Obligations.RleDecplaneWritesThePixels := by
  unfold Obligations.RleDecplaneWritesThePixels
  intro s first width height t wc vs hlegal hwidth hheight ht hwc hlen hin hw hheader hv hpre pixels
  have hc := legalCodebook hlegal
  have h : PlaneGiven s first width height t wc := ⟨hwidth, hheight, ht, hwc, hlen, hin, hw, hheader⟩
  have hpixels : pixels.length = (expandCodewords s.cfg t first vs).length := List.length_map ..
  refine ⟨fun hn hroom => ?_, fun hn hout hover => ?_⟩
  · obtain ⟨r, hok, hr⟩ := h.decRuns_fills hc hv (hpixels.symm.trans hn) hroom hpre
    obtain ⟨hwrit, hbytes, hsame⟩ := s.out.obuf.writeList_range s.argl2 hn
    have hpos : r.pos = (codewordString s.cfg t vs).length := hr.pos_started
    refine ⟨_, r, ?_, hwrit, hbytes, hsame, hr.st_eq, hr.gran_eq, hr.base_eq, hr.len_eq, hpos, hr.wf⟩
    rw [h.exec_eq (by omega), complete_planePixels_ok hok, ← hpos]
    rfl
  · intro room
    rw [hpixels] at hn hover
    have hcapacity : room = s.cfg.obufBytes - s.argl2 := rfl
    obtain ⟨j, v, htake, hfit, hcross⟩ := exists_crossing s.cfg t first (vs := vs) (room := room) (by omega)
    have hpart := (codewordString_prefix s.cfg t (vs.take_prefix (j + 1))).trans hpre
    have hmem : ∀ x ∈ vs.take (j + 1), 1 ≤ x ∧ x ≤ longestRun s.cfg t := fun x hx => hv x (List.mem_of_mem_take hx)
    have hle := (expandCodewords_prefix s.cfg t first (vs.take_prefix (j + 1))).length_le.trans hn
    have hroom : pixels.take room = _ := take_pixels_eq s.cfg t first (vs.take_prefix (j + 1)) (Nat.le_of_lt hcross)
    have hlength : (pixels.take room).length = room := by rw [List.length_take, hpixels]; omega
    rw [htake] at hmem hle hcross hpart hroom
    obtain ⟨r, herr, hr⟩ := h.decRuns_overflows hc hmem hle hout hfit hcross hpart
    rw [← hcapacity, ← hroom] at herr
    obtain ⟨obuf, r, hnext, hwrit, hbytes, hsame, hreader⟩ := h.exec_fails hout rfl herr hr hlength
    rw [← htake] at hcross hreader
    exact ⟨obuf, r, j, hnext, hwrit, hbytes, hsame, hfit, hcross, hreader⟩

/-- Settles O41: the header's checks in order, then the codeword that follows `vs`. -/
theorem rleDecplaneRejectsABadStream : Obligations.RleDecplaneRejectsABadStream := by
  unfold Obligations.RleDecplaneRejectsABadStream
  constructor
  · intro s hin hout byte wc
    refine ⟨exec_rleDecplane_short hin hout, fun hlen hw => ?_⟩
    rw [exec_rleDecplane_eq hin hout hlen hw]
    exact planeInput_rejects s ..
  · intro s first width height t wc vs tail hlegal hwidth hheight ht hwc hlen hin hw hheader hv ha pixels hn hroom used
      fails
    have hc := legalCodebook hlegal
    have h : PlaneGiven s first width height t wc := ⟨hwidth, hheight, ht, hwc, hlen, hin, hw, hheader⟩
    have hpixels : pixels.length = (expandCodewords s.cfg t first vs).length := List.length_map ..
    have hout : s.argl2 ≤ s.cfg.obufBytes := by omega
    have hn' := hpixels ▸ hn
    have hroom' := hpixels ▸ hroom
    refine ⟨fun v hv1 hvM hpre hlong => ?_, fun hno => ?_⟩
    · have hmem : ∀ x ∈ vs ++ [v], 1 ≤ x ∧ x ≤ longestRun s.cfg t := fun x hx =>
        (List.mem_append.mp hx).elim (hv x) fun hx => List.mem_singleton.mp hx ▸ ⟨hv1, hvM⟩
      have hpre' : codewordString s.cfg t (vs ++ [v])
          <+: storedBits .word (bytesAt s.inp.ibuf (s.argl0 + 10) (4 * wc)) := by
        rw [ha, codewordString_snoc]
        exact (List.prefix_append_right_inj _).mpr hpre
      obtain ⟨r, herr, hr⟩ := h.decRuns_run_too_long hc hmem hn' hroom' hpre' hlong
      rw [codewordString_snoc, List.length_append] at hr
      exact h.exec_fails hout rfl herr hr rfl
    · obtain ⟨e, r, herr, hr, hcut, hunused⟩ := h.decRuns_finds_no_codeword hc hv hn' hroom' ha hno
      have he := h.exec_fails hout (classX_of_no_codeword hcut hunused) herr hr rfl
      exact ⟨fun hends => hcut hends ▸ he, fun hnone => hunused hnone ▸ he⟩

end Sys2Proof.Machine
end

section
/-! PROOFS. The round trip of a plane (spec/42_rle.md R156.2): what `RLE_ENCPLANE` stores is what `RLE_DECPLANE` is
given. -/

namespace Sys2Proof.Machine

variable {s u : State} {t : Nat}

/-! ## An encoding without error -/

/-- Where `RLE_ENCPLANE` over a written plane completes without error, its argument and ranges are legal and all its
words fit (R153, R274). -/
theorem fits_of_exec_rleEncplane (hc : LegalCodebook s.cfg)
    (hw : Written s.inp.ibuf s.argl0 (s.planeWidth * s.planeHeight)) (h : exec (.rleEncplane t) s = .next u)
    (hok : u.status.err = false) :
    t ≤ 5 ∧ s.argl0 + s.planeWidth * s.planeHeight ≤ s.cfg.ibufBytes
    ∧ s.argl2 + 10 + 4 * (((planeString s.cfg t s.plane).length + 31) / 32) ≤ s.cfg.obufBytes := by
  have hnext {v : State} (hv : exec (.rleEncplane t) s = .next v) : v.status.err = false :=
    Host.Outcome.next.inj (h.symm.trans hv) ▸ hok
  have ht : t ≤ 5 := by
    by_contra hbad
    have hfail : exec (.rleEncplane t) s = .next (failedCheck .illegalArgument s) :=
      complete_bind_failedCheck (require_false hbad ..) rfl
    exact nomatch hnext hfail
  rw [exec_rleEncplane_of_check ht] at hnext
  have hin : s.argl0 + s.planeWidth * s.planeHeight ≤ s.cfg.ibufBytes := by
    by_contra hbad
    have hfail : complete (encPlane t) s = .next (failedCheck .bufferBounds s) :=
      (complete_bind_ok (Act.get_apply s)).trans
        (complete_bind_failedCheck (requireIbuf_fails (Nat.not_le.mp hbad)) rfl)
    exact nomatch hnext hfail
  have hout : s.argl2 ≤ s.cfg.obufBytes := by
    by_contra hbad
    have hfail : complete (encPlane t) s = .next (failedCheck .bufferBounds s) :=
      (complete_bind_ok (Act.get_apply s)).trans <| (complete_bind_ok (requireIbuf_ok hin)).trans
        (complete_bind_failedCheck (requireObuf_fails (Nat.not_le.mp hbad)) rfl)
    exact nomatch hnext hfail
  obtain ⟨hheader, hwords⟩ := planeOverflows hc ht hin hw hout
  have hroom : s.argl2 + 10 ≤ s.cfg.obufBytes := by
    by_contra hbad
    exact nomatch hnext (hheader (Nat.not_le.mp hbad))
  refine ⟨ht, hin, ?_⟩
  by_contra hbad
  obtain ⟨p, hfail, -⟩ := hwords hroom (Nat.not_le.mp hbad)
  exact nomatch hnext hfail

/-! ## The copy -/

theorem bytesAt_copy {m m' : Memory} {a a' n : Nat} (h : ∀ k < n, m'.read (a' + k) = m.read (a + k)) :
    bytesAt m' a' n = bytesAt m a n := by
  unfold bytesAt
  exact List.map_congr_left fun k hk => by rw [h k (List.mem_range.mp hk)]

theorem obufBytes_le {c : Config} (h : configLegal c = true) : c.obufBytes ≤ 2 ^ 28 := by
  simp only [configLegal, buffersLegal, Bool.and_eq_true, decide_eq_true_eq] at h
  obtain ⟨⟨⟨⟨⟨-, hle⟩, -⟩, -⟩, -⟩, -⟩ := h
  exact hle

/-- The bytes of a stored plane, wherever they stand in IBUF, are a given plane (R149). -/
theorem PlaneStored.given {wc : Nat} {obuf : Memory} (h : PlaneStored s t wc obuf) {v : State} (ht : t ≤ 5)
    (hwc : wc < 2 ^ 32) (hlen : v.argl1 = 10 + 4 * wc) (hin : v.argl0 + v.argl1 ≤ v.cfg.ibufBytes)
    (hcopy : ∀ k < v.argl1, v.inp.ibuf.read (v.argl0 + k) = obuf.read (s.argl2 + k)) :
    PlaneGiven v (firstSymbol s.plane) s.planeWidth s.planeHeight t wc where
  width_lt := BitVec.isLt _
  height_lt := BitVec.isLt _
  t_le := ht
  wc_lt := hwc
  len := Nat.le_of_eq hlen.symm
  inside := hin
  written := h.written.copy fun k hk => hcopy k (by omega)
  header := (bytesAt_copy fun k hk => hcopy k (by omega)).trans h.header

/-- The decoded byte of a pixel is the pixel's own, for bytes 0 and 1 (R147). -/
theorem pixelByte_pixelOf {b : Byte} (h : b = 0 ∨ b = 1) : pixelByte (pixelOf b) = b := by
  obtain rfl | rfl := h <;> rfl

/-- The decoded bytes of a plane of bytes 0 and 1 are the plane's (R147). -/
theorem map_pixelByte_pixelsAt {m : Memory} {a n : Nat}
    (h : ∀ k < n, m.read (a + k) = some 0 ∨ m.read (a + k) = some 1) :
    (pixelsAt m a n).map pixelByte = bytesAt m a n := by
  rw [pixelsAt, List.map_map]
  refine (List.map_congr_left fun b hb => ?_).trans (List.map_id _)
  obtain ⟨k, hk, rfl⟩ := List.mem_map.mp hb
  refine pixelByte_pixelOf ((h k (List.mem_range.mp hk)).imp ?_ ?_) <;> exact fun hread => by rw [hread]; rfl

/-- Settles O43: the encoding stores header and words of the plane, the decoding is given them, and their codewords
stand for the plane's pixels. -/
theorem planeRoundTrip : Obligations.PlaneRoundTrip := by
  unfold Obligations.PlaneRoundTrip
  intro t s u v hlegal _ n hbytes henc hok hcfg hargl1 hin hcopy hroom
  have hc := legalCodebook hlegal
  have hw : Written s.inp.ibuf s.argl0 n := fun k hk => by
    obtain hread | hread := hbytes k hk <;> rw [hread] <;> rfl
  obtain ⟨ht, hinS, hfit⟩ := fits_of_exec_rleEncplane hc hw henc hok
  obtain ⟨wc, hwc⟩ : ∃ wc, wc = ((planeString s.cfg t s.plane).length + 31) / 32 := ⟨_, rfl⟩
  rw [← hwc] at hfit
  obtain ⟨obuf, hnext, hstored⟩ := encPlane_completes hc ht hinS hw hwc hfit
  rw [exec_rleEncplane_of_check ht, hnext] at henc
  obtain rfl := Host.Outcome.next.inj henc
  have hcap := obufBytes_le hlegal
  have hlen : v.argl1 = 10 + 4 * wc := by
    rw [hargl1, BitVec.toNat_ofNat]
    exact Nat.mod_eq_of_lt (by omega)
  have hgiven := hstored.given ht (by omega) hlen hin hcopy
  have hstream : codewordString v.cfg t (planeCodewords v.cfg t s.plane)
      <+: storedBits .word (bytesAt v.inp.ibuf (v.argl0 + 10) (4 * wc)) := by
    rw [bytesAt_copy (m := obuf) (a := s.argl2 + 10) (fun k hk => by
      rw [Nat.add_assoc, Nat.add_assoc]
      exact hcopy (10 + k) (by omega)), hstored.words, hcfg, ← planeString_eq_codewordString]
    exact List.prefix_append ..
  have hpixels : (expandCodewords v.cfg t (firstSymbol s.plane) (planeCodewords v.cfg t s.plane)).map pixelByte
      = bytesAt s.inp.ibuf s.argl0 n := by
    rw [expandCodewords_planeCodewords]
    exact map_pixelByte_pixelsAt hbytes
  have hcount : (expandCodewords v.cfg t (firstSymbol s.plane) (planeCodewords v.cfg t s.plane)).length = n := by
    rw [← List.length_map pixelByte, hpixels, bytesAt_length]
  obtain ⟨r, hdec, -⟩ := hgiven.decRuns_fills (hcfg ▸ hc) planeCodewords_range hcount hroom hstream
  obtain ⟨hwrit, hread, hsame⟩ := v.out.obuf.writeList_range v.argl2 (bytesAt_length s.inp.ibuf s.argl0 n)
  rw [hpixels] at hdec
  refine ⟨_, (hgiven.exec_eq (by omega)).trans (complete_planePixels_ok hdec), rfl, rfl, fun k hk => ?_, hsame⟩
  exact (hwrit.read hk).trans (by rw [hread, hw.read hk])

end Sys2Proof.Machine
end

section
/-! PROOFS. The histogram's commands (spec/43_huffman_build.md R190 to R192): `HUF_HIST`, `HUF_HISTRD`. -/

namespace Sys2Proof.Machine

variable {s : State}

/-! ## Checks -/

theorem requireHist_ok (h : s.huf.histV = true) : requireHist s = .ok () s := by rw [requireHist_apply, if_pos h]

theorem requireHist_fails (h : s.huf.histV = false) : requireHist s = .error (.raised .sequenceError 0) s := by
  rw [requireHist_apply, if_neg (Bool.eq_false_iff.mp h)]

/-! ## The symbols of an input (R190) -/

/-- Two bytes, first byte high, for each wide symbol. -/
theorem wideSymbols_eq (bs : List Byte) :
    wideSymbols bs = (List.range (bs.length / 2)).map fun k =>
      (bs[2 * k]?.getD 0).toNat * 256 + (bs[2 * k + 1]?.getD 0).toNat := by
  induction bs using wideSymbols.induct with
  | case1 a b bs ih =>
    have hlen : (a :: b :: bs).length / 2 = bs.length / 2 + 1 := by
      simp only [List.length_cons]
      omega
    rw [wideSymbols, ih, hlen, List.range_succ_eq_map, List.map_cons, List.map_map]
    rfl
  | case2 bs hno =>
    match bs, hno with
    | [], _ => rfl
    | [_], _ => simp [wideSymbols]
    | a :: b :: bs, hno => exact absurd rfl (hno a b bs)

/-- The symbols of a range of a buffer, normal or wide. -/
theorem inputSymbols_bytesAt (w : Bool) (m : Memory) (a n : Nat) :
    inputSymbols w (bytesAt m a n) =
      if w then (List.range (n / 2)).map fun k =>
        ((m.read (a + 2 * k)).getD 0).toNat * 256 + ((m.read (a + (2 * k + 1))).getD 0).toNat
      else (List.range n).map fun k => ((m.read (a + k)).getD 0).toNat := by
  cases w with
  | false => exact List.map_map
  | true =>
    rw [inputSymbols, if_pos rfl, if_pos rfl, wideSymbols_eq, bytesAt_length]
    refine List.map_congr_left fun k hk => ?_
    have hk := List.mem_range.mp hk
    rw [bytesAt_getElem?, bytesAt_getElem?, if_pos (by omega), if_pos (by omega)]
    rfl

/-- The trailing byte of a range is its last byte (R191). -/
theorem trailingByte_bytesAt (w : Bool) (m : Memory) (a n : Nat) :
    trailingByte w (bytesAt m a n) =
      if w && decide (n % 2 = 1) then (m.read (a + (n - 1))).getD 0 else 0 := by
  rw [trailingByte, hasTrailing, bytesAt_length]
  split
  · rename_i ht
    have hodd : n % 2 = 1 := of_decide_eq_true (Bool.and_eq_true_iff.mp ht).2
    rw [List.getLastD_eq_getLast?, List.getLast?_eq_getElem?, bytesAt_length, bytesAt_getElem?, if_pos (by omega)]
    rfl
  · rfl

/-! ## The commands -/

/-- `HUF_HIST` past its checks, over written input (R191). -/
theorem exec_hufHist_of_checks {w : Bool} (hin : s.argl0 + s.argl1 ≤ s.cfg.ibufBytes)
    (hwr : Written s.inp.ibuf s.argl0 s.argl1) :
    let h := histHuffman w (bytesAt s.inp.ibuf s.argl0 s.argl1)
    exec (.hufHist w) s = .next (completeOk { res0 := some h.nsym, res1 := some (distinctSymbols h.hist) }
      { s with huf := h }) := by
  rw [exec, execHufHist, complete_bind_ok (requireIbuf_ok hin), histBody, complete_bind_ok (Act.get_apply s),
    complete_bind_ok (ibufBytes_written hwr s), complete_bind_ok (onHuf_apply _ s), complete_bind_ok (Act.get_apply _),
    complete_pure]

/-- Settles O44: one check, the bytes of the range, and their histogram. -/
theorem hufHistCountsTheSymbols : Obligations.HufHistCountsTheSymbols := by
  unfold Obligations.HufHistCountsTheSymbols
  intro w s
  refine ⟨fun hin hwr => ?_, fun hout => complete_bind_failedCheck (requireIbuf_fails hout) rfl⟩
  intro byte xs trailing
  have hxs : inputSymbols w (bytesAt s.inp.ibuf s.argl0 s.argl1) = xs := inputSymbols_bytesAt ..
  have htrail : hasTrailing w (bytesAt s.inp.ibuf s.argl0 s.argl1) = trailing := by rw [hasTrailing, bytesAt_length]
  have hbyte : trailingByte w (bytesAt s.inp.ibuf s.argl0 s.argl1)
      = if trailing then BitVec.ofNat 8 (byte (s.argl1 - 1)) else 0 := by
    rw [trailingByte_bytesAt, BitVec.ofNat_toNat, BitVec.setWidth_eq]
  refine ⟨histogram xs, histCount_histogram xs, histogram_wf xs, ?_⟩
  rw [exec_hufHist_of_checks hin hwr, histHuffman, hxs, htrail, hbyte, ← distinctSymbols_histogram]
  rfl

/-- Settles O45: two checks in order, and no action on any unit. -/
theorem hufHistrdReportsACount : Obligations.HufHistrdReportsACount := by
  unfold Obligations.HufHistrdReportsACount
  intro s
  rw [exec, execHufHistrd]
  refine ⟨fun hv => complete_bind_failedCheck (requireHist_fails hv) rfl, fun hv hbig => ?_, fun hv hle => ?_⟩
  · rw [complete_bind_ok (requireHist_ok hv)]
    exact complete_bind_failedCheck (require_false (Nat.not_le.mpr hbig) ..) rfl
  · rw [complete_bind_ok (requireHist_ok hv), complete_bind_ok (require_true hle ..), complete_pure]
    rfl

end Sys2Proof.Machine
end

section
/-! PROOFS. `HUF_TREE` (spec/43_huffman_build.md R193 to R196): the initial list is the sorted leaves, every merge step
follows the merge rule, and what the rule keeps of a list of nodes gives the tree's properties. -/

namespace Sys2Proof.Machine

/-! ## The initial list (R193) -/

/-- A leaf with a given weight and symbol. -/
def leafOf (p : Nat × Sym) : HuffTree := .leaf p.1 p.2

@[simp] theorem leafOf_weight (p : Nat × Sym) : (leafOf p).weight = p.1 := rfl

/-- The leaves before sorting: the sentinel, then the observed symbols (R193). -/
def leafPairs (h : List (Nat × Nat)) : List (Nat × Sym) := (0, .sent) :: h.map fun p => (p.2, .ord p.1)

theorem leaves_eq {h : List (Nat × Nat)} (hw : histWf h = true) : leaves h = (leafPairs h).map leafOf := by
  rw [leaves, filter_pos_of_histWf hw, leafPairs, List.map_cons, List.map_map]
  rfl

/-- The unsorted leaves stand by rising key, the sentinel's -1 first. -/
theorem leafPairs_rising {h : List (Nat × Nat)} (hw : histWf h = true) :
    (leafPairs h).Pairwise fun a b => a.2.key < b.2.key := by
  have hrise := List.pairwise_map.mp ((histWf_iff h).mp hw).1
  refine List.pairwise_cons.mpr ⟨fun b hb => ?_, List.pairwise_map.mpr (hrise.imp fun hlt => Int.ofNat_lt.mpr hlt)⟩
  obtain ⟨p, -, rfl⟩ := List.mem_map.mp hb
  show (-1 : Int) < p.1
  omega

theorem LeavesSorted.weightSorted {l : List (Nat × Sym)} (h : LeavesSorted l) : WeightSorted (l.map leafOf) :=
  List.pairwise_map.mpr (List.Pairwise.imp (fun hab => by simp only [leafOf_weight]; omega) h)

/-- A leaf with a key above all others goes where the order by weight, then key, asks. -/
theorem insertNode_leaf {l : List (Nat × Sym)} (h : LeavesSorted l) {p : Nat × Sym} (hp : ∀ q ∈ l, q.2.key < p.2.key) :
    ∃ l', insertNode (l.map leafOf) (leafOf p) = l'.map leafOf ∧ LeavesSorted l' ∧ l'.Perm (p :: l) := by
  obtain ⟨hi, lo, hsplit, habove, hbelow, hins⟩ := insertNode_cases h.weightSorted (leafOf p)
  obtain ⟨l₁, l₂, rfl, rfl, rfl⟩ := List.map_eq_append_iff.mp hsplit
  obtain ⟨h₁, h₂, h₁₂⟩ := List.pairwise_append.mp h
  rw [List.forall_mem_map] at habove hbelow
  simp only [leafOf_weight] at habove hbelow
  refine ⟨l₁ ++ p :: l₂, ?_, ?_, List.perm_middle⟩
  · rw [hins, List.map_append, List.map_cons]
  · have hlower : LeavesSorted (p :: l₂) := List.pairwise_cons.mpr ⟨fun b hb => .inl (hbelow b hb), h₂⟩
    refine List.pairwise_append.mpr ⟨h₁, hlower, fun a ha b hb => ?_⟩
    rcases List.mem_cons.mp hb with rfl | hb
    · have hkey := hp a (List.mem_append_left _ ha)
      have hle := habove a ha
      omega
    · exact h₁₂ a ha b hb

/-- Inserting leaves by rising key sorts them by weight, then key. -/
theorem foldl_insertNode_leaves {ps acc : List (Nat × Sym)} (hacc : LeavesSorted acc)
    (hps : ps.Pairwise fun a b => a.2.key < b.2.key) (hkey : ∀ q ∈ acc, ∀ p ∈ ps, q.2.key < p.2.key) :
    ∃ l, (ps.map leafOf).foldl insertNode (acc.map leafOf) = l.map leafOf ∧ LeavesSorted l ∧ l.Perm (ps ++ acc) := by
  induction ps generalizing acc with
  | nil => exact ⟨acc, rfl, hacc, List.Perm.refl _⟩
  | cons p ps ih =>
    obtain ⟨hp, hps⟩ := List.pairwise_cons.mp hps
    obtain ⟨acc', hins, hacc', hperm⟩ := insertNode_leaf hacc fun q hq => hkey q hq p (List.mem_cons_self ..)
    have hkey' : ∀ q ∈ acc', ∀ r ∈ ps, q.2.key < r.2.key := fun q hq r hr => by
      rcases List.mem_cons.mp (hperm.mem_iff.mp hq) with rfl | hq
      · exact hp r hr
      · exact hkey q hq r (List.mem_cons_of_mem _ hr)
    obtain ⟨l, hl, hsorted, hperm'⟩ := ih hacc' hps hkey'
    refine ⟨l, ?_, hsorted, (hperm'.trans (hperm.append_left ps)).trans List.perm_middle⟩
    rw [List.map_cons, List.foldl_cons, hins, hl]

/-- The initial list is the leaves, sorted (R193). -/
theorem initialNodes_leaves {h : List (Nat × Nat)} (hw : histWf h = true) :
    ∃ l, initialNodes h = l.map leafOf ∧ LeavesSorted l ∧ l.Perm (leafPairs h) := by
  obtain ⟨l, hl, hsorted, hperm⟩ := foldl_insertNode_leaves (acc := []) List.Pairwise.nil (leafPairs_rising hw) nofun
  rw [List.append_nil] at hperm
  exact ⟨l, by rw [initialNodes, leaves_eq hw]; exact hl, hsorted, hperm⟩

/-! ## Merging (R194) -/

/-- Enough merge steps leave the root that the merge rule gives (R194, R195). -/
theorem mergeSteps_merges {n : Nat} {l : List HuffTree} (hs : WeightSorted l) (hne : l ≠ []) (hn : l.length ≤ n + 1) :
    ∃ root, mergeSteps n l = [root] ∧ Merges l root := by
  induction n generalizing l with
  | zero =>
    obtain ⟨x, rfl⟩ := List.length_eq_one_iff.mp (Nat.le_antisymm hn (List.length_pos_iff.mpr hne))
    exact ⟨x, rfl, .root x⟩
  | succ n ih =>
    rcases List.eq_nil_or_concat' l with rfl | ⟨init, x, rfl⟩
    · exact absurd rfl hne
    rcases List.eq_nil_or_concat' init with rfl | ⟨rest, y, rfl⟩
    · exact ih (l := [x]) hs hne (by simp)
    · rw [List.append_assoc] at hs hn ⊢
      obtain ⟨hrest, -, -⟩ := List.pairwise_append.mp hs
      obtain ⟨hi, lo, rfl, habove, hbelow, hins⟩ :=
        insertNode_cases hrest (.interior (x.weight + y.weight) x y)
      have hstep : mergeStep (hi ++ lo ++ [y, x]) = hi ++ .interior (x.weight + y.weight) x y :: lo :=
        (mergeStep_two ..).trans hins
      have hlen : (hi ++ .interior (x.weight + y.weight) x y :: lo).length ≤ n + 1 := by
        simp only [List.length_append, List.length_cons, List.length_nil] at hn ⊢
        omega
      obtain ⟨root, hroot, hm⟩ := ih (hins ▸ insertNode_sorted hrest _) (by simp) hlen
      exact ⟨root, (congrArg (mergeSteps n) hstep).trans hroot, .step hi lo x y root habove hbelow hm⟩

/-! ## What merging keeps (R195) -/

/-- Merging keeps symbols, total weight and the sums inside, and each step adds one interior node for the node it
removes (R195). -/
structure Merged (l : List HuffTree) (root : HuffTree) : Prop where
  symbols : root.symbols.Perm (l.flatMap HuffTree.symbols)
  weight : root.weight = (l.map HuffTree.weight).sum
  interiors : root.interiors + 1 = (l.map fun n => n.interiors + 1).sum
  weighted : (∀ n ∈ l, n.weighted) → root.weighted

theorem Merges.merged {l : List HuffTree} {root : HuffTree} (h : Merges l root) : Merged l root := by
  induction h with
  | root n => exact ⟨by simp, by simp, by simp, fun hl => hl n (List.mem_singleton_self n)⟩
  | step hi lo x y root _ _ _ ih =>
    obtain ⟨hsym, hweight, hint, hsums⟩ := ih
    refine ⟨hsym.trans ?_, hweight.trans ?_, hint.trans ?_, fun hl => hsums fun n hn => ?_⟩
    · simp only [List.flatMap_append, List.flatMap_cons, List.flatMap_nil, HuffTree.symbols, List.append_nil,
        List.append_assoc]
      have hswap : (y.symbols ++ lo.flatMap HuffTree.symbols).Perm (lo.flatMap HuffTree.symbols ++ y.symbols) :=
        List.perm_append_comm
      refine List.Perm.append_left _ (List.perm_append_comm.trans ((hswap.append_right _).trans ?_))
      rw [List.append_assoc]
    · simp only [List.map_append, List.map_cons, List.map_nil, List.sum_append, List.sum_cons, List.sum_nil,
        HuffTree.weight]
      omega
    · simp only [List.map_append, List.map_cons, List.map_nil, List.sum_append, List.sum_cons, List.sum_nil,
        HuffTree.interiors]
      omega
    · have hold : ∀ m ∈ hi ++ lo ++ [y, x], m.weighted := hl
      simp only [List.mem_append, List.mem_cons, List.not_mem_nil, or_false] at hl hn
      rcases hn with hn | rfl | hn
      · exact hl n (.inl (.inl hn))
      · exact ⟨rfl, hl x (.inr (.inr rfl)), hl y (.inr (.inl rfl))⟩
      · exact hl n (.inl (.inr hn))

/-! ## The tree of a histogram (R195) -/

/-- The tree of a histogram is the one the merge rule gives from its sorted leaves. -/
theorem buildTree_merges {h : List (Nat × Nat)} (hw : histWf h = true) :
    ∃ l root, l.Perm (leafPairs h) ∧ LeavesSorted l ∧ Merges (l.map leafOf) root ∧ buildTree h = some root := by
  obtain ⟨l, hl, hsorted, hperm⟩ := initialNodes_leaves hw
  have hne : l.map leafOf ≠ [] := fun hnil => by
    have hlen := hperm.length_eq
    rw [List.map_eq_nil_iff.mp hnil] at hlen
    simp [leafPairs] at hlen
  obtain ⟨root, hroot, hm⟩ := mergeSteps_merges hsorted.weightSorted hne (Nat.le_succ _)
  exact ⟨l, root, hperm, hsorted, hm, by rw [buildTree, hl, hroot]; rfl⟩

/-- The weights of the leaves add up to the counts: the sentinel's is 0. -/
theorem leafPairs_weight (h : List (Nat × Nat)) : ((leafPairs h).map Prod.fst).sum = (h.map Prod.snd).sum := by
  rw [leafPairs, List.map_cons, List.sum_cons, List.map_map, Nat.zero_add]
  rfl

/-- Merging leaves gives a tree of those leaves (R195). -/
theorem Merges.leaves {l : List (Nat × Sym)} {root : HuffTree} (h : Merges (l.map leafOf) root) :
    root.symbols.Perm (l.map Prod.snd) ∧ root.weighted ∧ root.weight = (l.map Prod.fst).sum
      ∧ root.interiors + 1 = l.length := by
  obtain ⟨hsym, hweight, hint, hsums⟩ := h.merged
  refine ⟨hsym.trans (.of_eq ?_), hsums (List.forall_mem_map.mpr fun _ _ => trivial), hweight.trans ?_, hint.trans ?_⟩
  · rw [List.flatMap_map, List.map_eq_flatMap]
    rfl
  · rw [List.map_map]
    rfl
  · rw [List.map_map]
    show (l.map fun _ => 1).sum = l.length
    simp

/-! ## The command -/

/-- `HUF_TREE` past its check (R196). -/
theorem exec_hufTree_of_check {s : State} {root : HuffTree} (hv : s.huf.histV = true)
    (hroot : buildTree s.huf.hist = some root) :
    exec .hufTree s = .next (completeOk { res0 := some (leaves s.huf.hist).length, res1 := some root.weight }
      { s with huf := treeHuffman s.huf }) := by
  have htree : (treeHuffman s.huf).tree = some root := hroot
  rw [exec, execHufTree, treeBody, complete_bind_ok (requireHist_ok hv), complete_bind_ok (onHuf_apply _ s),
    complete_bind_ok (Act.get_apply _), complete_pure, htree]
  rfl

/-- Settles O46: one check, then the tree of the histogram, whose properties the merge rule gives. -/
theorem hufTreeMergesTheSortedLeaves : Obligations.HufTreeMergesTheSortedLeaves := by
  unfold Obligations.HufTreeMergesTheSortedLeaves
  intro s
  refine ⟨fun hv => complete_bind_failedCheck (requireHist_fails hv) rfl, fun hv hwf => ?_⟩
  obtain ⟨-, -, -, -, -, -, -, -, hh, -, hsum⟩ := hwf
  obtain ⟨l, root, hperm, hsorted, hm, hroot⟩ := buildTree_merges hh
  obtain ⟨hsym, hweighted, hweight, hint⟩ := hm.leaves
  have hlen : (leaves s.huf.hist).length = s.huf.hist.length + 1 := by
    rw [leaves_eq hh, List.length_map, leafPairs, List.length_cons, List.length_map]
  have hnsym : root.weight = s.huf.nsym := by
    rw [hweight, (hperm.map Prod.fst).sum_eq, leafPairs_weight, hsum hv]
  refine ⟨l, root, hperm, hsorted, hm, hsym, hweighted, hnsym, hint, ?_, ?_⟩
  · rw [hsym.length_eq, List.length_map]
  · rw [exec_hufTree_of_check hv hroot, treeHuffman, hroot, hlen, hnsym]
    rfl

end Sys2Proof.Machine
end

section
/-! PROOFS. The code table's commands (spec/43_huffman_build.md R200 to R204): `HUF_CODES` tabulates the tree's paths,
`HUF_CANON` sorts the table and assigns the running codes, `HUF_TABRD` reports an entry. -/

namespace Sys2Proof.Machine

variable {s : State}

/-! ## Checks -/

theorem requireCodes_ok (h : s.huf.codesV = true) : requireCodes s = .ok () s := by rw [requireCodes_apply, if_pos h]

theorem requireCodes_fails (h : s.huf.codesV = false) : requireCodes s = .error (.raised .sequenceError 0) s := by
  rw [requireCodes_apply, if_neg (Bool.eq_false_iff.mp h)]

/-! ## The codes of a tree (R200) -/

/-- The largest length of a table is that of its list of lengths. -/
theorem longestCode_eq (es : List Entry) : longestCode es = (es.map Entry.len).foldl max 0 := List.foldl_map.symm

theorem treeCodes_sym (root : HuffTree) : (treeCodes root 0 0).map Entry.sym = root.symbols := by
  rw [treeCodes_eq, List.map_map, ← paths_symbols]
  rfl

theorem treeCodes_len (root : HuffTree) : (treeCodes root 0 0).map Entry.len = root.paths.map fun p => p.2.length := by
  rw [treeCodes_eq, List.map_map]
  exact List.map_congr_left fun p _ => Nat.zero_add _

theorem treeCodes_length (root : HuffTree) : (treeCodes root 0 0).length = root.symbols.length := by
  rw [← treeCodes_sym, List.length_map]

theorem treeCodes_len_le {root : HuffTree} {n : Nat} :
    (∀ e ∈ treeCodes root 0 0, e.len ≤ n) ↔ ∀ p ∈ root.paths, p.2.length ≤ n := by
  rw [← List.forall_mem_map (f := Entry.len) (P := (· ≤ n)), treeCodes_len, List.forall_mem_map]

/-- An entry of at most 64 bits that stands for a path: its code is the path read as a number (R200). -/
theorem pathEntry_bits {sym : Sym} {path : List Bool} (h : path.length ≤ maxCodeLen) :
    (Entry.mk sym path.length (BitVec.ofNat 64 (bitsNat path))).bits = path
      ∧ (BitVec.ofNat 64 (bitsNat path)).toNat < 2 ^ path.length := by
  have hlt := bitsNat_lt path
  have hwide : bitsNat path < 2 ^ 64 := hlt.trans_le (Nat.pow_le_pow_right Nat.two_pos h)
  have hcode : (BitVec.ofNat 64 (bitsNat path)).toNat = bitsNat path := by
    rw [BitVec.toNat_ofNat, Nat.mod_eq_of_lt hwide]
  rw [hcode, Entry.bits, codeBits_eq_natBits, hcode, natBits_bitsNat]
  exact ⟨rfl, hlt⟩

/-- Where no leaf is too deep, the walk's entries are the paths. -/
theorem treeCodes_bits {root : HuffTree} (h : ∀ p ∈ root.paths, p.2.length ≤ maxCodeLen) :
    (treeCodes root 0 0).map (fun e => (e.sym, e.bits)) = root.paths
      ∧ ∀ e ∈ treeCodes root 0 0, e.code.toNat < 2 ^ e.len := by
  simp only [treeCodes_eq, Nat.zero_mul, Nat.zero_add, List.map_map, List.forall_mem_map]
  refine ⟨?_, fun p hp => (pathEntry_bits (sym := p.1) (h p hp)).2⟩
  conv_rhs => rw [← List.map_id root.paths]
  exact List.map_congr_left fun p hp => Prod.ext rfl (pathEntry_bits (h p hp)).1

/-! ## `HUF_CODES` -/

/-- `HUF_CODES` on a tree (R201). -/
theorem exec_hufCodes_of_tree {root : HuffTree} (hv : s.huf.treeV = true) (hroot : s.huf.tree = some root) :
    exec .hufCodes s = complete (do
      require (longestCode (treeCodes root 0 0) ≤ maxCodeLen) .codeTooLong 0
      onHuf (codesHuffman (treeCodes root 0 0))
      return { res0 := some (treeCodes root 0 0).length, res1 := some (longestCode (treeCodes root 0 0)) }) s := by
  rw [exec, execHufCodes, codesBody, complete_bind_ok (Act.get_apply s), complete_bind_ok (require_true hv ..), hroot]

/-- Settles O47: two checks, the second against the deepest leaf, then the tree's paths. -/
theorem hufCodesTabulatesTheTreePaths : Obligations.HufCodesTabulatesTheTreePaths := by
  unfold Obligations.HufCodesTabulatesTheTreePaths
  intro s
  refine ⟨fun hv => ?_, fun root hv hroot => ?_⟩
  · rw [exec, execHufCodes, codesBody, complete_bind_ok (Act.get_apply s)]
    exact complete_bind_failedCheck (require_false (Bool.eq_false_iff.mp hv) ..) rfl
  intro longest
  have hlongest : longestCode (treeCodes root 0 0) = longest := by rw [longestCode_eq, treeCodes_len]
  rw [exec_hufCodes_of_tree hv hroot, hlongest, treeCodes_length]
  refine ⟨fun (hle : longest ≤ maxCodeLen) => ?_, fun hgt =>
    complete_bind_failedExecution (require_false (Nat.not_le.mpr hgt) ..) rfl⟩
  have hdepth : ∀ p ∈ root.paths, p.2.length ≤ maxCodeLen :=
    treeCodes_len_le.mp ((longestCode_le _ _).mp (hlongest.trans_le hle))
  obtain ⟨hbits, hcode⟩ := treeCodes_bits hdepth
  refine ⟨treeCodes root 0 0, hbits, hcode, ?_⟩
  rw [complete_bind_ok (require_true hle ..), complete_bind_ok (onHuf_apply _ s), complete_pure, codesHuffman,
    treeCodes_length]
  rfl

/-! ## The running code (R202) -/

/-- The running code over lengths in table order, as a natural (notes/assumptions/14.md). -/
def runningCodes (prev code : Nat) : List Nat → List Nat
  | [] => []
  | l :: ls => code <<< (l - prev) :: runningCodes l (code <<< (l - prev) + 1) ls

/-- The codes assigned are the running codes. -/
theorem assignFrom_code (prev code : Nat) (es : List Entry) :
    (assignFrom prev code es).map Entry.code = (runningCodes prev code (es.map Entry.len)).map (BitVec.ofNat 64) := by
  induction es generalizing prev code with
  | nil => rfl
  | cons e es ih => rw [assignFrom, List.map_cons, List.map_cons, runningCodes, List.map_cons, ih]

/-- The running codes start at 0. -/
theorem head?_runningCodes {prev : Nat} {ls : List Nat} : ∀ c ∈ (runningCodes prev 0 ls).head?, c = 0 := by
  cases ls with
  | nil => nofun
  | cons l ls =>
    rintro c ⟨⟩
    exact Nat.zero_shiftLeft _

/-- The next running code: one more, shifted by what the length gains. -/
theorem runningCodes_next {prev code j a b x y : Nat} {ls : List Nat} (ha : ls[j]? = some a) (hb : ls[j + 1]? = some b)
    (hx : (runningCodes prev code ls)[j]? = some x) (hy : (runningCodes prev code ls)[j + 1]? = some y) :
    y = (x + 1) * 2 ^ (b - a) := by
  induction ls generalizing prev code j with
  | nil => cases ha
  | cons l ls ih =>
    cases j with
    | zero =>
      cases ls with
      | nil => cases hb
      | cons m ls =>
        cases ha
        cases hb
        cases hx
        cases hy
        exact Nat.shiftLeft_eq ..
    | succ j => exact ih ha hb hx hy

/-! ## `HUF_CANON` (R202, R203) -/

/-- A sorted table stays sorted when its codes are assigned. -/
theorem canonicalise_sorted (es : List Entry) :
    (canonicalise es).Pairwise fun a b => a.len < b.len ∨ (a.len = b.len ∧ a.sym.key ≤ b.sym.key) := by
  have hsorted := sortEntries_sorted es
  have hpairs : ((sortEntries es).map fun e => (e.sym, e.len)).Pairwise fun a b =>
      a.2 < b.2 ∨ (a.2 = b.2 ∧ a.1.key ≤ b.1.key) := List.pairwise_map.mpr hsorted
  rw [← assignCodes_symLen] at hpairs
  exact List.pairwise_map.mp hpairs

/-- `HUF_CANON` past its check (R203). -/
theorem exec_hufCanon_of_check (hv : s.huf.codesV = true) :
    let tb := canonicalise s.huf.ctab
    exec .hufCanon s = .next (completeOk { res0 := some (sentIndex tb), res1 := some (longestCode tb) }
      { s with huf := canonHuffman s.huf }) := by
  rw [exec, execHufCanon, canonBody, complete_bind_ok (requireCodes_ok hv), complete_bind_ok (onHuf_apply _ s),
    complete_bind_ok (Act.get_apply _), complete_pure]
  rfl

/-- Settles O48: one check, then the sorted table with its running codes. -/
theorem hufCanonSortsAndAssignsCodes : Obligations.HufCanonSortsAndAssignsCodes := by
  unfold Obligations.HufCanonSortsAndAssignsCodes
  intro s
  refine ⟨fun hv => complete_bind_failedCheck (requireCodes_fails hv) rfl, fun hv => ?_⟩
  have hlen : (canonicalise s.huf.ctab).map Entry.len = (sortEntries s.huf.ctab).map Entry.len := assignCodes_len _
  refine ⟨canonicalise s.huf.ctab, runningCodes _ 0 ((sortEntries s.huf.ctab).map Entry.len), canonicalise_perm _,
    canonicalise_sorted _, assignFrom_code _ 0 _, head?_runningCodes, fun j _ a b x y ha hb hx hy => ?_, ?_⟩
  · rw [← hlen] at hx hy
    exact runningCodes_next (by rw [List.getElem?_map, ha, Option.map_some])
      (by rw [List.getElem?_map, hb, Option.map_some]) hx hy
  · rw [exec_hufCanon_of_check hv, longestCode_eq]
    rfl

/-! ## `HUF_TABRD` -/

/-- The two halves of a code as the result registers show them (R204). -/
theorem ofNat_code_low (c : DWord) : BitVec.ofNat 32 (c.setWidth 32).toNat = c.extractLsb' 0 32 := by
  rw [BitVec.ofNat_toNat, BitVec.setWidth_eq]
  rfl

theorem ofNat_code_high (c : DWord) : BitVec.ofNat 32 (c >>> 32).toNat = c.extractLsb' 32 32 := by
  rw [BitVec.toNat_ushiftRight]
  rfl

/-- Settles O49: two checks in order, and no action on any unit. -/
theorem hufTabrdReportsAnEntry : Obligations.HufTabrdReportsAnEntry := by
  unfold Obligations.HufTabrdReportsAnEntry
  intro s
  rw [exec, execHufTabrd]
  refine ⟨fun hv => complete_bind_failedCheck (requireCodes_fails hv) rfl, fun hv hbig => ?_, fun e hv hlt he => ?_⟩
  · rw [complete_bind_ok (requireCodes_ok hv)]
    exact complete_bind_failedCheck (require_false (Nat.not_lt.mpr hbig) ..) rfl
  · rw [complete_bind_ok (requireCodes_ok hv), complete_bind_ok (require_true hlt ..), he]
    simp only [complete_pure, completeOk, Results.store, resultWord, ofNat_code_low, ofNat_code_high]
    cases e.sym with
    | sent => rfl
    | ord v => rfl

end Sys2Proof.Machine
end

section
/-! PROOFS. Canonical codes (spec/43_huffman_build.md R202): the code space below a full binary tree is used up, the
running code gives every entry its own interval of the code space, and no code with a disjoint interval begins another.
-/

namespace Sys2Proof.Machine

/-! ## The code space -/

/-- Where an entry's share of the code space begins: its code, padded with zeros to `MAX_CODE_LEN` bits. -/
def Entry.start (e : Entry) : Nat := e.code.toNat * 2 ^ (maxCodeLen - e.len)

/-- The size of an entry's share of the code space. -/
def Entry.span (e : Entry) : Nat := 2 ^ (maxCodeLen - e.len)

theorem kraftSum_eq (es : List Entry) :
    kraftSum es = ((es.map Entry.len).map fun l => 2 ^ (maxCodeLen - l)).sum := by
  rw [kraftSum, List.map_map]
  rfl

/-- An entry whose code begins another's has the other's share inside its own. -/
theorem share_subset_of_bits_prefix {a b : Entry} (ha : a.code.toNat < 2 ^ a.len) (hb : b.code.toNat < 2 ^ b.len)
    (hb64 : b.len ≤ maxCodeLen) (h : a.bits <+: b.bits) : a.start ≤ b.start ∧ b.start < a.start + a.span := by
  obtain ⟨t, ht⟩ := h
  rw [Entry.bits, Entry.bits, codeBits_eq_natBits, codeBits_eq_natBits] at ht
  have hlen := congrArg List.length ht
  have hval := congrArg bitsNat ht
  rw [List.length_append, natBits_length, natBits_length] at hlen
  rw [bitsNat_append, bitsNat_natBits, bitsNat_natBits, Nat.mod_eq_of_lt ha, Nat.mod_eq_of_lt hb] at hval
  have ht := bitsNat_lt t
  have hpow : 2 ^ (maxCodeLen - a.len) = 2 ^ t.length * 2 ^ (maxCodeLen - b.len) := by
    rw [← Nat.pow_add]
    congr 1
    omega
  rw [Entry.start, Entry.start, Entry.span, hpow, ← hval, ← Nat.mul_assoc, ← Nat.add_mul]
  exact ⟨Nat.mul_le_mul_right _ (Nat.le_add_right ..),
    Nat.mul_lt_mul_of_pos_right (Nat.add_lt_add_left ht _) (Nat.two_pow_pos _)⟩

/-- No code begins another where the shares follow one another. -/
theorem prefixFree_of_shares {es : List Entry} (hfit : ∀ e ∈ es, e.code.toNat < 2 ^ e.len ∧ e.len ≤ maxCodeLen)
    (h : es.Pairwise fun a b => a.start + a.span ≤ b.start) : PrefixFree es := by
  refine h.imp_of_mem fun {a b} ha hb hab => ?_
  obtain ⟨ha, ha64⟩ := hfit a ha
  obtain ⟨hb, hb64⟩ := hfit b hb
  have hspan : 0 < a.span := Nat.two_pow_pos _
  constructor
  · intro hpre
    have := (share_subset_of_bits_prefix ha hb hb64 hpre).2
    omega
  · intro hpre
    have := (share_subset_of_bits_prefix hb ha ha64 hpre).1
    omega

/-! ## The running code takes the shares in order -/

/-- Shifting the running code to a longer length keeps its place in the code space. -/
theorem shiftLeft_mul_span {code prev len : Nat} (h : prev ≤ len) (h64 : len ≤ maxCodeLen) :
    code <<< (len - prev) * 2 ^ (maxCodeLen - len) = code * 2 ^ (maxCodeLen - prev) := by
  rw [Nat.shiftLeft_eq, Nat.mul_assoc, ← Nat.pow_add]
  congr 2
  omega

/-- While the code space from the running code on has room for the entries to come, each gets a code of its length and
the share where the one before it ends. -/
theorem assignFrom_shares {prev code : Nat} {es : List Entry} (hmax : ∀ e ∈ es, e.len ≤ maxCodeLen)
    (hprev : ∀ e ∈ es, prev ≤ e.len) (hrise : (es.map Entry.len).Pairwise (· ≤ ·))
    (hroom : code * 2 ^ (maxCodeLen - prev) + kraftSum es ≤ 2 ^ maxCodeLen) :
    (∀ e ∈ assignFrom prev code es, e.code.toNat < 2 ^ e.len ∧ code * 2 ^ (maxCodeLen - prev) ≤ e.start)
      ∧ (assignFrom prev code es).Pairwise fun a b => a.start + a.span ≤ b.start := by
  induction es generalizing prev code with
  | nil => exact ⟨nofun, List.Pairwise.nil⟩
  | cons e es ih =>
    obtain ⟨he, hmax⟩ := List.forall_mem_cons.mp hmax
    have hpe := hprev e (List.mem_cons_self ..)
    obtain ⟨hle, hrise⟩ := List.pairwise_cons.mp hrise
    have hplace := shiftLeft_mul_span (code := code) hpe he
    set c := code <<< (e.len - prev) with hc
    have hkraft : kraftSum (e :: es) = 2 ^ (maxCodeLen - e.len) + kraftSum es := by
      rw [kraftSum, List.map_cons, List.sum_cons, kraftSum]
    have hnext : (c + 1) * 2 ^ (maxCodeLen - e.len) = code * 2 ^ (maxCodeLen - prev) + 2 ^ (maxCodeLen - e.len) := by
      rw [Nat.succ_mul, hplace]
    have hfit : c < 2 ^ e.len := by
      have hwhole : 2 ^ maxCodeLen = 2 ^ e.len * 2 ^ (maxCodeLen - e.len) := by
        rw [← Nat.pow_add, Nat.add_sub_cancel' he]
      refine Nat.le_of_mul_le_mul_right (c := 2 ^ (maxCodeLen - e.len)) ?_ (Nat.two_pow_pos _)
      rw [hnext, ← hwhole]
      omega
    have hcode : (BitVec.ofNat 64 c).toNat = c := by
      have hwide : c < 2 ^ 64 := hfit.trans_le (Nat.pow_le_pow_right Nat.two_pos he)
      rw [BitVec.toNat_ofNat, Nat.mod_eq_of_lt hwide]
    obtain ⟨hcodes, hshares⟩ := ih (prev := e.len) (code := c + 1) hmax
      (fun f hf => hle f.len (List.mem_map_of_mem hf)) hrise (by omega)
    rw [assignFrom, ← hc]
    have hstart : Entry.start { e with code := BitVec.ofNat 64 c } = code * 2 ^ (maxCodeLen - prev) := by
      rw [Entry.start, hcode, hplace]
    refine ⟨List.forall_mem_cons.mpr ⟨⟨hcode.trans_lt hfit, hstart.ge⟩, fun f hf => ?_⟩,
      List.pairwise_cons.mpr ⟨fun f hf => ?_, hshares⟩⟩
    · obtain ⟨h1, h2⟩ := hcodes f hf
      exact ⟨h1, (hnext ▸ Nat.le_add_right ..).trans h2⟩
    · rw [hstart, Entry.span, ← hnext]
      exact (hcodes f hf).2

/-- The codes assigned to rising lengths that fit the code space fit their lengths, and none begins another. -/
theorem assignCodes_prefixFree {es : List Entry} (hmax : ∀ e ∈ es, e.len ≤ maxCodeLen)
    (hrise : (es.map Entry.len).Pairwise (· ≤ ·)) (hroom : kraftSum es ≤ 2 ^ maxCodeLen) :
    PrefixFree (assignCodes es) ∧ ∀ e ∈ assignCodes es, e.code.toNat < 2 ^ e.len := by
  have hfirst : ∀ e ∈ es, (es.head?.map Entry.len).getD 0 ≤ e.len := by
    cases es with
    | nil => nofun
    | cons f es =>
      refine List.forall_mem_cons.mpr ⟨Nat.le_refl _, fun e he => ?_⟩
      exact (List.pairwise_cons.mp hrise).1 e.len (List.mem_map_of_mem he)
  obtain ⟨hcodes, hshares⟩ := assignFrom_shares (code := 0) hmax hfirst hrise (by omega)
  have hmax' : ∀ e ∈ assignCodes es, e.len ≤ maxCodeLen := by
    rw [← List.forall_mem_map (f := Entry.len) (P := (· ≤ maxCodeLen))] at hmax ⊢
    rwa [assignCodes_len]
  exact ⟨prefixFree_of_shares (fun e he => ⟨(hcodes e he).1, hmax' e he⟩) hshares, fun e he => (hcodes e he).1⟩

/-! ## The code space of a tree -/

theorem paths_ne_nil (root : HuffTree) : root.paths ≠ [] := by
  induction root with
  | leaf w s => exact List.cons_ne_nil _ _
  | interior w l r ihl _ => simp [HuffTree.paths, ihl]

/-- The Kraft equality: every interior node splits its share of the code space between its two children. -/
theorem paths_kraft {root : HuffTree} {depth : Nat} (h : ∀ p ∈ root.paths, p.2.length ≤ depth) :
    (root.paths.map fun p => 2 ^ (depth - p.2.length)).sum = 2 ^ depth := by
  induction root generalizing depth with
  | leaf w s => simp [HuffTree.paths]
  | interior w l r ihl ihr =>
    simp only [HuffTree.paths, List.forall_mem_append, List.forall_mem_map, List.length_cons] at h
    obtain ⟨hl, hr⟩ := h
    obtain ⟨d, rfl⟩ : ∃ d, depth = d + 1 := by
      obtain ⟨p, hp⟩ := List.exists_mem_of_ne_nil _ (paths_ne_nil l)
      exact Nat.exists_eq_add_one.mpr (Nat.zero_lt_of_lt (hl p hp))
    have el := ihl fun p hp => Nat.le_of_succ_le_succ (hl p hp)
    have er := ihr fun p hp => Nat.le_of_succ_le_succ (hr p hp)
    simp only [HuffTree.paths, List.map_append, List.sum_append, List.map_map, Function.comp_def, List.length_cons,
      Nat.add_sub_add_right]
    rw [el, er, Nat.pow_succ, Nat.mul_two]

theorem kraftSum_perm {es fs : List Entry} (h : es.Perm fs) : kraftSum es = kraftSum fs := (h.map _).sum_eq

theorem kraftSum_assignCodes (es : List Entry) : kraftSum (assignCodes es) = kraftSum es := by
  rw [kraftSum_eq, kraftSum_eq, assignCodes_len]

theorem kraftSum_treeCodes {root : HuffTree} (h : ∀ p ∈ root.paths, p.2.length ≤ maxCodeLen) :
    kraftSum (treeCodes root 0 0) = 2 ^ maxCodeLen := by
  rw [kraftSum_eq, treeCodes_len, List.map_map]
  exact paths_kraft h

/-- Settles O50: sorting and assigning codes keep the lengths, and a tree's lengths fill the code space. -/
theorem canonicalCodesArePrefixFree : Obligations.CanonicalCodesArePrefixFree := by
  unfold Obligations.CanonicalCodesArePrefixFree
  intro root hdepth es
  have hsort := sortEntries_perm (treeCodes root 0 0)
  have hkraft : kraftSum (sortEntries (treeCodes root 0 0)) = 2 ^ maxCodeLen :=
    (kraftSum_perm hsort).trans (kraftSum_treeCodes hdepth)
  have hmax : ∀ e ∈ sortEntries (treeCodes root 0 0), e.len ≤ maxCodeLen := fun e he =>
    treeCodes_len_le.mpr hdepth e (hsort.mem_iff.mp he)
  have hrise : ((sortEntries (treeCodes root 0 0)).map Entry.len).Pairwise (· ≤ ·) :=
    List.pairwise_map.mpr ((sortEntries_sorted _).imp fun h => by omega)
  obtain ⟨hfree, hfit⟩ := assignCodes_prefixFree hmax hrise hkraft.le
  refine ⟨(kraftSum_assignCodes _).trans hkraft, hfit, hfree, ?_⟩
  have hsym : es.map Entry.sym = (sortEntries (treeCodes root 0 0)).map Entry.sym := assignCodes_sym _
  rw [hsym, ← treeCodes_sym]
  exact hsort.map _

end Sys2Proof.Machine
end

section
/-! PROOFS. The table checks of `HUF_DEC` (spec/44_huffman_codec.md R234): lengths that pass them fit the code space, so
the codes assigned to them are prefix-free. -/

namespace Sys2Proof.Machine

/-- A table that passes the checks gets prefix-free codes (R234). -/
theorem checkedTable_prefixFree {es : List Entry} (h : tableOk es = true) :
    PrefixFree (assignCodes es) ∧ ∀ e ∈ assignCodes es, e.code.toNat < 2 ^ e.len ∧ e.len ≤ 64 := by
  obtain ⟨hmax, hrise, -, hspace⟩ := (tableOk_iff es).mp h
  obtain ⟨hfree, hfit⟩ := assignCodes_prefixFree (List.forall_mem_map.mp hmax) hrise
    ((kraftSum_eq es).trans_le hspace)
  rw [← assignCodes_len] at hmax
  exact ⟨hfree, fun e he => ⟨hfit e he, hmax e.len (List.mem_map_of_mem he)⟩⟩

/-- In a checked table that assigns an empty code there is one entry (R234). -/
theorem checkedTable_bits_ne_nil {es : List Entry} (h : tableOk es = true) (hmany : 1 < es.length) :
    ∀ e ∈ assignCodes es, e.bits ≠ [] := by
  obtain ⟨-, -, hzero, -⟩ := (tableOk_iff es).mp h
  intro e he hnil
  have hlen : e.len ∈ es.map Entry.len := by
    rw [← assignCodes_len]
    exact List.mem_map_of_mem he
  refine hzero (by rwa [List.length_map]) e.len hlen ?_
  rw [← natBits_length e.len e.code.toNat]
  exact List.length_eq_zero_iff.mpr hnil

/-- Settles O51: the checks of R234 are what the code assignment needs. -/
theorem checkedTableIsPrefixFree : Obligations.CheckedTableIsPrefixFree := by
  unfold Obligations.CheckedTableIsPrefixFree
  intro es h
  obtain ⟨hfree, hfit⟩ := checkedTable_prefixFree h
  exact ⟨hfree, hfit, assignCodes_symLen es⟩

end Sys2Proof.Machine
end

section
/-! PROOFS. `HUF_ENC` (spec/44_huffman_codec.md R231 to R233, R237): the bodies of the table builder's steps, and a byte
stream from its start to its end. -/

namespace Sys2Proof.Machine

/-! ## A byte stream from `wr_init` to `wr_finish` -/

@[simp] theorem granBits_byte : granBits .byte = 8 := rfl

section
variable {cap base total : Nat} {obuf : Memory} {bits : List Bool} {x : Act OutPort Unit}

/-- The writer after bits were appended to a fresh byte stream and `e` bytes emitted, but for the accumulator. -/
theorem Emits.startedByte_wr {p : OutPort} {e : Nat} (h : Emits cap (OutPort.started base .byte obuf) p bits e) :
    p.wr = { st := .active, gran := .byte, base := base, acc := p.wr.acc, cnt := bits.length - 8 * e, out := e,
             bits := bits.length } := by
  rw [h.wr_eq]
  simp

theorem Emits.startedByte_stream {p : OutPort} {e : Nat} (h : Emits cap (OutPort.started base .byte obuf) p bits e) :
    p.stream = bits := by
  rw [h.stream, OutPort.started_stream, List.nil_append]

/-- The bytes written so far are the first bits of the stream. -/
theorem Emits.bytes_eq_take {p : OutPort} {e : Nat} (h : Emits cap (OutPort.started base .byte obuf) p bits e) :
    storedBits .byte (bytesAt p.obuf base e) = bits.take (8 * e) := by
  have hlen := storedBits_length .byte (bs := bytesAt p.obuf base e) (Nat.mod_one _)
  rw [bytesAt_length] at hlen
  have hstream := h.startedByte_stream
  rw [OutPort.stream, h.startedByte_wr] at hstream
  rw [← hstream]
  exact (List.take_left' hlen).symm

/-- Where bits end a fresh byte stream, `wr_finish` pads them to a byte, or has no room for it (R108). -/
theorem Emits.finishByte_cases {o : OutPort}
    (h : Emits cap (OutPort.started base .byte obuf) o bits (bits.length / 8))
    (htotal : total = (bits.length + 7) / 8) :
    (∃ obuf', base + total ≤ cap ∧ wrFinish cap o = .ok total {
          wr := { st := .finished, gran := .byte, base := base, acc := 0, cnt := 0, out := total, bits := bits.length }
          obuf := obuf' }
      ∧ storedBits .byte (bytesAt obuf' base total) = bits ++ List.replicate (8 * total - bits.length) false
      ∧ Written obuf' base total ∧ SameOutside obuf obuf' base total)
    ∨ cap < base + (bits.length / 8 + 1) ∧ bits.length / 8 < total
      ∧ wrFinish cap o = .error (.raised .bufferOverflow (base + bits.length / 8)) o := by
  have hready := h.ready rfl (by simp)
  have hsame := h.same
  have hwrit := h.written
  simp only [OutPort.started_wr, OutPort.started_obuf, granBits_byte, Nat.reduceDiv, Nat.add_zero, Nat.one_mul]
    at hsame hwrit
  have hpad : bits.length / 8 + (if bits.length - 8 * (bits.length / 8) = 0 then 0 else 1) = total := by
    split <;> omega
  have hfin := wrFinish_cases hready
  rw [h.startedByte_stream, h.startedByte_wr] at hfin
  simp only [granBits_byte, Nat.reduceDiv] at hfin
  obtain ⟨obuf', hin, hok, hstored, hsame', hwrit', -⟩ | ⟨hpos, hover, herr⟩ := hfin
  · rw [hpad] at hok hstored
    refine .inl ⟨obuf', by omega, hok, ?_, ?_, ?_⟩
    · rw [hstored]
      congr 2
      split <;> omega
    · rw [← hpad]
      exact (hwrit.copy fun k hk => hsame' _ (by omega)).append hwrit'
    · rw [← hpad]
      exact hsame.trans hsame'
  · exact .inr ⟨by omega, by omega, herr⟩

/-- Bits whose bytes all fit are written whole, padded to a byte (R106, R108). -/
theorem Writes.byteStream_fits (hx : Writes cap x bits ()) (htotal : total = (bits.length + 7) / 8)
    (hfit : base + total ≤ cap) :
    ∃ obuf', (x >>= fun _ => wrFinish cap) (OutPort.started base .byte obuf) = .ok total {
          wr := { st := .finished, gran := .byte, base := base, acc := 0, cnt := 0, out := total, bits := bits.length }
          obuf := obuf' }
      ∧ storedBits .byte (bytesAt obuf' base total) = bits ++ List.replicate (8 * total - bits.length) false
      ∧ Written obuf' base total ∧ SameOutside obuf obuf' base total := by
  obtain ⟨o, hok, he⟩ := hx.fits (OutPort.started_ready (base := base) (obuf := obuf) .byte (by omega)) (by
    simp only [OutPort.started_wr, granBits_byte, Nat.zero_add]
    omega)
  simp only [OutPort.started_wr, granBits_byte, Nat.zero_add] at he
  obtain ⟨obuf', -, hfin, hstored⟩ | ⟨hover, hlt, -⟩ := he.finishByte_cases htotal
  · exact ⟨obuf', (Act.bind_ok hok).trans hfin, hstored⟩
  · omega

/-- Bits of which a byte does not fit: the stream overflows at the end of OBUF, and the port holds the bytes before it
(R107, R108). -/
theorem Writes.byteStream_overflows (hx : Writes cap x bits ()) (htotal : total = (bits.length + 7) / 8)
    (hbase : base ≤ cap) (hover : cap < base + total) :
    ∃ p pre, (x >>= fun _ => wrFinish cap) (OutPort.started base .byte obuf)
        = .error (.raised .bufferOverflow cap) p
      ∧ pre <+: bits ∧ Emits cap (OutPort.started base .byte obuf) p pre (cap - base) ∧ p.wr.cnt ≤ 63 := by
  have hruns := hx _ (OutPort.started_ready (obuf := obuf) .byte hbase)
  simp only [OutPort.started_wr, granBits_byte, Nat.zero_add, Nat.add_zero, Nat.reduceDiv, Nat.one_mul] at hruns
  obtain ⟨o, hok, he⟩ | ⟨e, p, pre, herr, -, hcap, hpre, he, hcnt⟩ := hruns
  · have hin := he.inside
    simp only [OutPort.started_wr, granBits_byte, Nat.add_zero, Nat.reduceDiv, Nat.one_mul] at hin
    obtain ⟨obuf', hfit, -⟩ | ⟨hcap, hlt, herr⟩ := he.finishByte_cases htotal
    · exact absurd hfit (Nat.not_le.mpr hover)
    · rw [show base + bits.length / 8 = cap by omega] at herr
      refine ⟨o, bits, (Act.bind_ok hok).trans herr, List.prefix_rfl, ?_, ?_⟩
      · rwa [show cap - base = bits.length / 8 by omega]
      · rw [he.startedByte_wr]
        show bits.length - 8 * (bits.length / 8) ≤ 63
        omega
  · have hin := he.inside
    simp only [OutPort.started_wr, granBits_byte, Nat.add_zero, Nat.reduceDiv, Nat.one_mul] at hin
    rw [show base + e = cap by omega] at herr
    exact ⟨p, pre, Act.bind_error herr, hpre, by rwa [show cap - base = e by omega], hcnt⟩

end

/-! ## The steps of the table builder -/

section
variable {w : Bool} {s : State}

theorem histBody_written {a n : Nat} (hw : Written s.inp.ibuf a n) :
    ∃ r, histBody w a n s = .ok r { s with huf := histHuffman w (bytesAt s.inp.ibuf a n) } :=
  ⟨_, (Act.bind_ok (Act.get_apply s)).trans (Act.bind_ok (ibufBytes_written hw s))⟩

theorem treeBody_ok (hv : s.huf.histV = true) : ∃ r, treeBody s = .ok r { s with huf := treeHuffman s.huf } :=
  ⟨_, Act.bind_ok (requireHist_ok hv)⟩

/-- On a tree with no leaf too deep, `HUF_CODES` tabulates the paths (R201). -/
theorem codesBody_ok {root : HuffTree} (hv : s.huf.treeV = true) (hroot : s.huf.tree = some root)
    (hle : longestCode (treeCodes root 0 0) ≤ maxCodeLen) :
    ∃ r, codesBody s = .ok r { s with huf := codesHuffman (treeCodes root 0 0) s.huf } := by
  rw [codesBody, Act.bind_ok (Act.get_apply s), Act.bind_ok (require_true hv ..), hroot]
  exact ⟨_, Act.bind_ok (require_true hle ..)⟩

theorem codesBody_too_deep {root : HuffTree} (hv : s.huf.treeV = true) (hroot : s.huf.tree = some root)
    (hgt : maxCodeLen < longestCode (treeCodes root 0 0)) :
    codesBody s = .error (.raised .codeTooLong 0) s := by
  rw [codesBody, Act.bind_ok (Act.get_apply s), Act.bind_ok (require_true hv ..), hroot]
  exact Act.bind_error (require_false (Nat.not_le.mpr hgt) ..)

theorem canonBody_ok (hv : s.huf.codesV = true) : ∃ r, canonBody s = .ok r { s with huf := canonHuffman s.huf } :=
  ⟨_, Act.bind_ok (requireCodes_ok hv)⟩

/-- The Huffman unit of an input, from the tree of its histogram (R237). -/
theorem builtHuffman_eq {bs : List Byte} {root : HuffTree}
    (hroot : buildTree (histogram (inputSymbols w bs)) = some root) :
    builtHuffman w bs
      = canonHuffman (codesHuffman (treeCodes root 0 0) (treeHuffman (histHuffman w bs))) := by
  have htree : (treeHuffman (histHuffman w bs)).tree = some root := hroot
  simp only [builtHuffman, htree, Option.map_some, Option.getD_some]

theorem exists_tree (w : Bool) (bs : List Byte) : ∃ root, buildTree (histogram (inputSymbols w bs)) = some root :=
  Option.isSome_iff_exists.mp (buildTree_isSome _)

/-- Canonical form keeps the largest length (R202). -/
theorem longestCode_canonicalise_le (es : List Entry) (n : Nat) :
    longestCode (canonicalise es) ≤ n ↔ longestCode es ≤ n := by
  have hlens : ((canonicalise es).map Entry.len).Perm (es.map Entry.len) := by
    have := (canonicalise_perm es).map Prod.snd
    rwa [List.map_map, List.map_map] at this
  rw [longestCode_le, longestCode_le, ← List.forall_mem_map (f := Entry.len) (P := (· ≤ n)),
    ← List.forall_mem_map (f := Entry.len) (P := (· ≤ n))]
  exact ⟨fun h l hl => h l (hlens.mem_iff.mpr hl), fun h l hl => h l (hlens.mem_iff.mp hl)⟩

theorem builtHuffman_k (w : Bool) (bs : List Byte) : (builtHuffman w bs).k = (builtHuffman w bs).ctab.length := by
  obtain ⟨root, hroot⟩ := exists_tree w bs
  rw [builtHuffman_eq hroot]
  exact ((assignCodes_length _).trans (sortEntries_perm _).length_eq).symm

/-! ## The command -/

/-- `HUF_ENC` once the table is built: the stream and the results (R237). -/
def encodeStream (w : Bool) (s : State) (h : Huffman) : Act State Results := do
  let total ← onOut (wrStream s.cfg.obufBytes s.argl2 h w (inputSymbols w (bytesAt s.inp.ibuf s.argl0 s.argl1)))
  return { res0 := some total, res1 := some h.nsym, res2 := some h.k, res3 := some (longestCode h.ctab) }

/-- `HUF_ENC` over a written range, up to the check of its code lengths (R237). -/
theorem exec_hufEnc_codes (hin : s.argl0 + s.argl1 ≤ s.cfg.ibufBytes) (hout : s.argl2 ≤ s.cfg.obufBytes)
    (hw : Written s.inp.ibuf s.argl0 s.argl1) :
    let h := builtHuffman w (bytesAt s.inp.ibuf s.argl0 s.argl1)
    (longestCode h.ctab ≤ maxCodeLen → exec (.hufEnc w) s = complete (encodeStream w s h) { s with huf := h })
    ∧ (maxCodeLen < longestCode h.ctab → ∃ t, exec (.hufEnc w) s = .next (failedExecution .codeTooLong 0 t)) := by
  intro h
  obtain ⟨root, hroot⟩ := exists_tree w (bytesAt s.inp.ibuf s.argl0 s.argl1)
  have hbuilt : h = _ := builtHuffman_eq hroot
  have hlong (n : Nat) : longestCode h.ctab ≤ n ↔ longestCode (treeCodes root 0 0) ≤ n := by
    rw [hbuilt]
    exact longestCode_canonicalise_le _ n
  obtain ⟨_, hhist⟩ := histBody_written (w := w) hw
  rw [exec, execHufEnc, complete_bind_ok (requireIbuf_ok hin), complete_bind_ok (requireObuf_ok hout),
    complete_bind_ok hhist]
  generalize ht : ({ s with huf := histHuffman w (bytesAt s.inp.ibuf s.argl0 s.argl1) } : State) = t
  have hhuf : t.huf = histHuffman w (bytesAt s.inp.ibuf s.argl0 s.argl1) := by rw [← ht]
  have hroot' : (treeHuffman t.huf).tree = some root := by
    rw [hhuf]
    exact hroot
  obtain ⟨_, htree⟩ := treeBody_ok (s := t) (by rw [hhuf]; rfl)
  rw [complete_bind_ok htree]
  refine ⟨fun hle => ?_, fun hgt => ?_⟩
  · obtain ⟨_, hcodes⟩ := codesBody_ok (s := { t with huf := treeHuffman t.huf }) rfl hroot' ((hlong _).mp hle)
    obtain ⟨_, hcanon⟩ := canonBody_ok
      (s := { t with huf := codesHuffman (treeCodes root 0 0) (treeHuffman t.huf) }) rfl
    rw [complete_bind_ok hcodes, complete_bind_ok hcanon, complete_bind_ok (Act.get_apply _),
      complete_bind_ok (ibufBytes_written hw _), hbuilt, ← ht]
    rfl
  · have hdeep := Nat.not_le.mp fun hle => absurd ((hlong maxCodeLen).mpr hle) (Nat.not_le.mpr hgt)
    exact ⟨_, complete_bind_failedExecution
      (codesBody_too_deep (s := { t with huf := treeHuffman t.huf }) rfl hroot' hdeep) rfl⟩

/-- The writes of a stream between its start and its end are its bits (R231, R233). -/
theorem wrStream_writes (cap dst : Nat) {bs : List Byte} (o : OutPort)
    (hle : longestCode (builtHuffman w bs).ctab ≤ maxCodeLen) :
    ∃ x, Writes cap x (encodedString w bs) ()
      ∧ wrStream cap dst (builtHuffman w bs) w (inputSymbols w bs) o
        = (x >>= fun _ => wrFinish cap) (OutPort.started dst .byte o.obuf) := by
  have hlens := (longestCode_le _ _).mp hle
  refine ⟨_, (wrHeader_writes cap w (builtHuffman_k w bs)).bind (f := fun _ => _)
    ((wrSymbols_writes cap hlens (inputSymbols w bs)).bind (f := fun _ => _) (wrSymbol_writes cap hlens .sent)), ?_⟩
  rw [wrStream_eq, Act.bind_ok (wrInit_apply ..)]
  simp only [bind_assoc, OutPort.started]

theorem inputSymbols_length (w : Bool) (m : Memory) (a n : Nat) :
    (inputSymbols w (bytesAt m a n)).length = if w then n / 2 else n := by
  rw [inputSymbols_bytesAt]
  cases w <;> simp

/-- Settles O52: the builder's steps leave the input's table, and its stream is written whole or up to the end of
OBUF. -/
theorem hufEncWritesTheStream : Obligations.HufEncWritesTheStream := by
  unfold Obligations.HufEncWritesTheStream
  intro w s hin hw bs h bits total hle
  obtain ⟨x, hx, hstream⟩ := wrStream_writes (w := w) s.cfg.obufBytes s.argl2 s.out hle
  refine ⟨fun hfit => ?_, fun hout hover => ?_⟩
  · obtain ⟨obuf, hok, hstored, hwrit, hsame⟩ := hx.byteStream_fits (obuf := s.out.obuf) rfl hfit
    refine ⟨obuf, ?_, hstored, hwrit, hsame⟩
    have hnsym : h.nsym = if w then s.argl1 / 2 else s.argl1 := inputSymbols_length ..
    refine ((exec_hufEnc_codes hin (by omega) hw).1 hle).trans
      ((complete_bind_ok (onOut_ok (s := { s with huf := h }) (hstream.trans hok))).trans ?_)
    rw [complete_pure, ← hnsym, ← builtHuffman_k]
    rfl
  · intro room
    obtain ⟨p, pre, herr, hpre, he, hcnt⟩ := hx.byteStream_overflows (obuf := s.out.obuf) rfl hout hover
    have hbits : p.wr.bits = pre.length := by rw [he.startedByte_wr]
    have htake : pre = bits.take p.wr.bits := by
      rw [hbits]
      exact List.prefix_iff_eq_take.mp hpre
    have hsame := he.same
    have hwrit := he.written
    have hcount := he.le_cnt
    simp only [OutPort.started_wr, OutPort.started_obuf, granBits_byte, Nat.reduceDiv, Nat.add_zero, Nat.zero_add,
      Nat.one_mul] at hsame hwrit hcount
    refine ⟨p, ?_, he.gran_eq, he.base_eq, by rw [he.startedByte_wr], hcnt, hbits ▸ hpre.length_le,
      he.startedByte_stream.trans htake, ?_, hwrit, hsame⟩
    · exact ((exec_hufEnc_codes hin hout hw).1 hle).trans
        (complete_bind_failedExecution (onOut_error (s := { s with huf := h }) (hstream.trans herr)) rfl)
    · rw [he.bytes_eq_take, htake, List.take_take, hbits, Nat.min_eq_left hcount]

end

end Sys2Proof.Machine
end

section
/-! PROOFS. `HUF_DEC` over a valid stream (spec/44_huffman_codec.md R234 to R236, R238): the header, the codes of
ordinary entries, and what may follow them. -/

namespace Sys2Proof.Machine

variable {s : State}

/-! ## What a failed decoding leaves -/

/-- `HUF_DEC` ends with an error: the bytes `bs` stay written, the reader has consumed `used` bits (R278). -/
def DecodeFails (s : State) (e : ErrorCode) (pos used : Nat) (bs : List Byte) : Prop :=
  ∃ obuf r, exec .hufDec s = .next (failedExecution e pos { s with
        out := { s.out with obuf := obuf }
        inp := { s.inp with rd := r } })
    ∧ bytesAt obuf s.argl2 bs.length = bs ∧ Written obuf s.argl2 bs.length
    ∧ SameOutside s.out.obuf obuf s.argl2 bs.length
    ∧ r.gran = .byte ∧ r.base = s.argl0 ∧ r.len = s.argl1 ∧ r.pos = used ∧ r.wf s.cfg.ibufBytes

theorem DecodeFails.of_exec {e : ErrorCode} {pos used : Nat} {bs : List Byte} {r : Reader}
    (h : exec .hufDec s = .next (failedExecution e pos (s.afterPixels r bs)))
    (hr : Consumes s.cfg.ibufBytes s.inp.ibuf (Reader.started s.argl0 s.argl1 .byte) r used) :
    DecodeFails s e pos used bs := by
  obtain ⟨hwrit, hbytes, hsame⟩ := s.out.obuf.writeList_range s.argl2 (bs := bs) rfl
  exact ⟨_, r, h, hbytes, hwrit, hsame, hr.gran_eq, hr.base_eq, hr.len_eq, hr.pos_started, hr.wf⟩

/-! ## The command past its checks -/

/-- Actions with one outcome go on alike. -/
theorem complete_bind_congr {α : Type} {x y : Act State α} {f : α → Act State Results} {s t : State} (h : x s = y t) :
    complete (x >>= f) s = complete (y >>= f) t := by
  rw [complete, complete, Act.bind_apply, Act.bind_apply, h]

/-- The end of `HUF_DEC` once the sentinel is reached with `o` the next output address: the trailing byte, the table
kept, the results (R236, R238). -/
def decodeEnd (dst : Nat) (hd : Header) (o : Nat) : Act State Results := do
  let m ← (match hd.trailing with
    | none => pure (o - dst)
    | some b => do
      putBytes o [b]
      return o + 1 - dst : Act State Nat)
  onHuf (decodedHuffman hd)
  let t ← get
  return { res0 := some m, res1 := some t.inp.rd.pos, res2 := some hd.table.length, res3 := some hd.flags }

/-- The reader `HUF_DEC` starts with meets its invariant (R113). -/
theorem startedReader_wf (hin : s.argl0 + s.argl1 ≤ s.cfg.ibufBytes) :
    (Reader.started s.argl0 s.argl1 .byte).wf s.cfg.ibufBytes := Reader.wf_init hin nofun

/-- `HUF_DEC` past its checks is the header, the symbols up to the sentinel, and the end (R238). -/
theorem exec_hufDec_eq (hin : s.argl0 + s.argl1 ≤ s.cfg.ibufBytes) (hout : s.argl2 ≤ s.cfg.obufBytes) :
    exec .hufDec s = complete (do
      let hd ← onReader (rdHeader s.argl0)
      let t ← get
      let o ← walkSymbols (trieOf hd.table) (StreamFlags.ofNat hd.flags).wide (t.inp.rd.avail + 1) s.argl2
      decodeEnd s.argl2 hd o) (s.afterPixels (Reader.started s.argl0 s.argl1 .byte) []) := by
  rw [exec, execHufDec, complete_bind_ok (requireIbuf_ok hin), complete_bind_ok (requireObuf_ok hout),
    complete_bind_ok (onReader_rdInit ..)]
  simp only [walk, decodeEnd, bind_assoc] <;> rfl

/-! ## A valid stream -/

/-- The header a valid stream starts with, as parsed (R234). -/
def StreamFlags.header (f : StreamFlags) (trail : Byte) (tb : List Entry) : Header where
  flags := f.value
  trailing := if f.trailing then some trail else none
  table := tb

/-- IBUF holds, in the range of the command, the header of a checked table with one sentinel, the codes `ys` of ordinary
entries of it, and `tail` (R231, R234, R319). -/
structure StreamGiven (s : State) (f : StreamFlags) (trail : Byte) (before after : List Entry) (sent : Entry)
    (ys : List Entry) (tail : List Bool) : Prop where
  inside : s.argl0 + s.argl1 ≤ s.cfg.ibufBytes
  written : Written s.inp.ibuf s.argl0 s.argl1
  flags : f.trailing = true → f.wide = true
  sentinel : sent.sym = .sent
  ordinary : ∀ e ∈ before ++ after, ∃ x, e.sym = .ord x ∧ x < 2 ^ fieldWidth f.wide
  lengths : ∀ e ∈ before ++ sent :: after, e.len < 2 ^ fieldWidth f.longLen
  count : (before ++ after).length ≤ 2 ^ fieldWidth f.longCount
  checked : tableOk (before ++ sent :: after) = true
  codes : ∀ e ∈ ys, e ∈ assignCodes (before ++ sent :: after) ∧ e.sym ≠ .sent
  input : storedBits .byte (bytesAt s.inp.ibuf s.argl0 s.argl1)
    = headerString f trail (assignCodes (before ++ sent :: after)) ++ codeString ys ++ tail
  empty : before ++ after = [] → codeString ys ++ tail = []

section
variable {f : StreamFlags} {trail : Byte} {before after : List Entry} {sent : Entry} {ys : List Entry}
  {tail : List Bool}

theorem codeString_append (ys zs : List Entry) : codeString (ys ++ zs) = codeString ys ++ codeString zs := by
  rw [codeString, codeString, codeString, List.map_append, List.flatten_append]

theorem codeString_snoc (ys : List Entry) (y : Entry) : codeString (ys ++ [y]) = codeString ys ++ y.bits := by
  simp [codeString]

theorem length_le_codeString {ys : List Entry} (h : ∀ e ∈ ys, e.bits ≠ []) : ys.length ≤ (codeString ys).length := by
  induction ys with
  | nil => exact Nat.zero_le _
  | cons y ys ih =>
    have hy := List.length_pos_iff.mpr (h y (List.mem_cons_self ..))
    have hys := ih fun e he => h e (List.mem_cons_of_mem _ he)
    rw [codeString_cons, List.length_append, List.length_cons]
    omega

/-- The first codes of a stream, what follows them taken as its tail. -/
theorem StreamGiven.first {zs : List Entry} (h : StreamGiven s f trail before after sent (ys ++ zs) tail) :
    StreamGiven s f trail before after sent ys (codeString zs ++ tail) where
  inside := h.inside
  written := h.written
  flags := h.flags
  sentinel := h.sentinel
  ordinary := h.ordinary
  lengths := h.lengths
  count := h.count
  checked := h.checked
  codes := fun e he => h.codes e (List.mem_append_left _ he)
  input := by rw [h.input, codeString_append, List.append_assoc, List.append_assoc, List.append_assoc]
  empty := fun he => by
    rw [← h.empty he, codeString_append, List.append_assoc]

/-- An ordinary entry of a checked table has a code of at least one bit: only the table of the sentinel alone may assign
an empty one (R234). -/
theorem StreamGiven.bits_ne_nil (h : StreamGiven s f trail before after sent ys tail) : ∀ e ∈ ys, e.bits ≠ [] := by
  intro e he
  obtain ⟨hmem, hord⟩ := h.codes e he
  by_cases hnone : before ++ after = []
  · obtain ⟨rfl, rfl⟩ := List.append_eq_nil_iff.mp hnone
    obtain rfl := List.mem_singleton.mp hmem
    exact absurd h.sentinel hord
  · have hpos := List.length_pos_iff.mpr hnone
    refine checkedTable_bits_ne_nil h.checked ?_ e hmem
    simp only [List.length_append, List.length_cons] at hpos ⊢
    omega

/-- Over a valid stream whose symbols fit OBUF, `HUF_DEC` reads the header, writes the symbols of the codes `ys` and
goes on with what follows them (R234, R236). -/
theorem StreamGiven.exec_symbols (h : StreamGiven s f trail before after sent ys tail)
    (hroom : s.argl2 + (entryBytes f.wide ys).length ≤ s.cfg.obufBytes) :
    let tb := assignCodes (before ++ sent :: after)
    ∃ fuel r, exec .hufDec s = complete (do
          let o ← walkSymbols (trieOf tb) f.wide (fuel + 1) (s.argl2 + (entryBytes f.wide ys).length)
          decodeEnd s.argl2 (f.header trail tb) o) (s.afterPixels r (entryBytes f.wide ys))
      ∧ Consumes s.cfg.ibufBytes s.inp.ibuf (Reader.started s.argl0 s.argl1 .byte) r
          (headerString f trail tb ++ codeString ys).length
      ∧ r.ahead s.inp.ibuf = tail ∧ r.Fed s.inp.ibuf := by
  intro tb
  have hin := h.inside
  have hwf := startedReader_wf hin
  have hfed : (Reader.started s.argl0 s.argl1 .byte).Fed s.inp.ibuf := h.written
  have hheader : headerString f trail tb = headerString f trail (before ++ sent :: after) :=
    headerString_congr f trail (assignCodes_symLen _)
  have hahead : (Reader.started s.argl0 s.argl1 .byte).ahead s.inp.ibuf
      = headerString f trail (before ++ sent :: after) ++ (codeString ys ++ tail) := by
    rw [← hheader, ← List.append_assoc]
    exact h.input
  obtain ⟨r0, hread, hr0, hahead0⟩ := rdHeader_reads (src := s.argl0) hwf hfed h.flags h.sentinel h.ordinary h.lengths
    h.count h.checked h.empty hahead
  obtain ⟨r, hskip, hr, hahead1⟩ := walkSymbols_skip (s := s.afterPixels r0 []) (checkedTable_prefixFree h.checked).1
    f.wide h.codes hr0.wf (hr0.fed hfed) hahead0 (.inr hroom)
  have hle : ys.length ≤ r0.avail := by
    rw [← Reader.ahead_length_avail hr0.wf s.inp.ibuf, hahead0, List.length_append]
    exact Nat.le_add_right_of_le (length_le_codeString h.bits_ne_nil)
  refine ⟨r0.avail - ys.length, r, ?_, ?_, hahead1, hr.fed (hr0.fed hfed)⟩
  · rw [exec_hufDec_eq hin (by omega), complete_bind_ok (onReader_ok hread), complete_bind_ok (Act.get_apply _),
      flags_ofNat_value]
    have hfuel : r0.avail + 1 = ys.length + (r0.avail - ys.length + 1) := by omega
    exact complete_bind_congr ((congrArg (fun n => walkSymbols (trieOf tb) f.wide n s.argl2 (s.afterPixels r0 []))
      hfuel).trans (hskip _))
  · rw [List.length_append, hheader]
    exact hr0.trans hr

/-! ## What follows the codes -/

/-- The code of the sentinel ends the symbols (R236). -/
theorem StreamGiven.exec_ends {rest : List Bool} (h : StreamGiven s f trail before after sent ys
      (symbolString (assignCodes (before ++ sent :: after)) .sent ++ rest))
    (hroom : s.argl2 + (entryBytes f.wide ys).length ≤ s.cfg.obufBytes) :
    let tb := assignCodes (before ++ sent :: after)
    ∃ r, exec .hufDec s = complete (decodeEnd s.argl2 (f.header trail tb) (s.argl2 + (entryBytes f.wide ys).length))
          (s.afterPixels r (entryBytes f.wide ys))
      ∧ Consumes s.cfg.ibufBytes s.inp.ibuf (Reader.started s.argl0 s.argl1 .byte) r
          (headerString f trail tb ++ codeString ys ++ symbolString tb .sent).length
      ∧ r.ahead s.inp.ibuf = rest := by
  intro tb
  have hsent : Sym.sent ∈ tb.map Entry.sym := by
    rw [assignCodes_sym, ← h.sentinel]
    exact List.mem_map_of_mem (List.mem_append_right _ (List.mem_cons_self ..))
  obtain ⟨z, hz⟩ := exists_entryOf hsent
  obtain ⟨hzmem, hzsym⟩ := entryOf_eq_some hz
  have hcode : symbolString tb .sent = z.bits := by
    rw [symbolString, hz]
    rfl
  obtain ⟨fuel, r0, hexec, hr0, hahead0, hfed0⟩ := h.exec_symbols hroom
  obtain ⟨r, hturn, hr, hahead⟩ := walkSymbols_sentinel (s := s.afterPixels r0 (entryBytes f.wide ys))
    (checkedTable_prefixFree h.checked).1 f.wide hzmem hzsym hr0.wf hfed0 (hcode ▸ hahead0)
  refine ⟨r, hexec.trans (complete_bind_ok (hturn ..)), ?_, hahead⟩
  rw [List.length_append, hcode]
  exact hr0.trans hr

/-- The code of one more ordinary entry whose symbol passes the end of OBUF is the last thing read (R65, R236). -/
theorem StreamGiven.symbol_overflows {y : Entry} (h : StreamGiven s f trail before after sent (ys ++ [y]) tail)
    (hfit : s.argl2 + (entryBytes f.wide ys).length ≤ s.cfg.obufBytes)
    (hover : s.cfg.obufBytes < s.argl2 + (entryBytes f.wide ys).length + symbolWidth f.wide) :
    DecodeFails s .bufferOverflow (s.argl2 + (entryBytes f.wide ys).length)
      (headerString f trail (assignCodes (before ++ sent :: after)) ++ codeString (ys ++ [y])).length
      (entryBytes f.wide ys) := by
  obtain ⟨hy, hord⟩ := h.codes y (List.mem_append_right _ (List.mem_singleton_self y))
  obtain ⟨fuel, r0, hexec, hr0, hahead0, hfed0⟩ := h.first.exec_symbols hfit
  rw [codeString_cons, List.append_assoc] at hahead0
  obtain ⟨r, hturn, hr, -⟩ := walkSymbols_entry (s := s.afterPixels r0 (entryBytes f.wide ys))
    (checkedTable_prefixFree h.checked).1 f.wide hy hord hr0.wf hfed0 hahead0
  have hput : putBytes (s.argl2 + (entryBytes f.wide ys).length) (symbolBytes f.wide y.sym.value)
      (s.afterPixels r (entryBytes f.wide ys))
        = .error (.raised .bufferOverflow (s.argl2 + (entryBytes f.wide ys).length))
          (s.afterPixels r (entryBytes f.wide ys)) := by
    rw [putBytes_apply, symbolBytes_length, State.afterPixels_cfg, if_neg (Nat.not_le.mpr hover)]
  refine .of_exec (r := r) (hexec.trans (complete_bind_failedExecution
    ((hturn ..).trans (Act.bind_error hput)) rfl)) ?_
  rw [codeString_snoc, ← List.append_assoc, List.length_append]
  exact hr0.trans hr

/-- With no code of the table ahead, `HUF_DEC` ends with `CORRUPT_STREAM` at the first bit with no child, or at the end
of the input (R236). -/
theorem StreamGiven.finds_no_code (h : StreamGiven s f trail before after sent ys tail)
    (hroom : s.argl2 + (entryBytes f.wide ys).length ≤ s.cfg.obufBytes) {k : Nat}
    (hno : ∀ e ∈ assignCodes (before ++ sent :: after), ¬ e.bits <+: tail) (hk : k ≤ tail.length)
    (hinside : ∃ e ∈ assignCodes (before ++ sent :: after), tail.take k <+: e.bits)
    (hleaves : k < tail.length → ∀ e ∈ assignCodes (before ++ sent :: after), ¬ tail.take (k + 1) <+: e.bits) :
    let bits := headerString f trail (assignCodes (before ++ sent :: after)) ++ codeString ys
    DecodeFails s .corruptStream (8 * s.argl0 + (bits.length + k)) (bits.length + min (k + 1) tail.length)
      (entryBytes f.wide ys) := by
  intro bits
  obtain ⟨fuel, r0, hexec, hr0, rfl, hfed0⟩ := h.exec_symbols hroom
  obtain ⟨r, hturn, hr⟩ := walkSymbols_fails (s := s.afterPixels r0 (entryBytes f.wide ys))
    (checkedTable_prefixFree h.checked).1 f.wide hr0.wf hfed0 hno hk hinside hleaves
  refine .of_exec (r := r) ?_ (hr0.trans hr)
  rw [← Nat.add_assoc, ← hr0.bitAddress_started]
  exact hexec.trans (complete_bind_failedExecution (hturn ..) rfl)

/-! ## The end -/

/-- The bytes `HUF_DEC` writes: those of the symbols, then the trailing byte (R236). -/
def StreamFlags.output (f : StreamFlags) (trail : Byte) (ys : List Entry) : List Byte :=
  entryBytes f.wide ys ++ (if f.trailing then [trail] else [])

/-- The Huffman unit after a valid stream (R238). -/
theorem decodedHuffman_header (tb : List Entry) (h : Huffman) :
    decodedHuffman (f.header trail tb) h = { h with
      tree := none, ctab := tb, histV := false, treeV := false, codesV := true, canonV := true, wide := f.wide
      trailp := f.trailing, trailb := if f.trailing then trail else 0, k := tb.length } := by
  rw [decodedHuffman, StreamFlags.header, flags_ofNat_value]
  cases f.trailing <;> rfl

/-- The trailing byte is written last, where it fits (R236). -/
theorem decodeEnd_fits {r : Reader} {tb : List Entry}
    (hroom : s.argl2 + (f.output trail ys).length ≤ s.cfg.obufBytes) :
    decodeEnd s.argl2 (f.header trail tb) (s.argl2 + (entryBytes f.wide ys).length)
        (s.afterPixels r (entryBytes f.wide ys))
      = .ok {
          res0 := some (f.output trail ys).length, res1 := some r.pos, res2 := some tb.length, res3 := some f.value }
          { s.afterPixels r (f.output trail ys) with huf := decodedHuffman (f.header trail tb) s.huf } := by
  cases ht : f.trailing with
  | false =>
    have hout : f.output trail ys = entryBytes f.wide ys := by simp [StreamFlags.output, ht]
    simp only [decodeEnd, StreamFlags.header, ht, Bool.false_eq_true, if_false, Act.bind_apply, Act.pure_apply,
      onHuf_apply, Act.get_apply, hout, Nat.add_sub_cancel_left]
    rfl
  | true =>
    have hout : f.output trail ys = entryBytes f.wide ys ++ [trail] := by simp [StreamFlags.output, ht]
    have hlen : (f.output trail ys).length = (entryBytes f.wide ys).length + 1 := by simp [hout]
    have hfit : s.argl2 + (entryBytes f.wide ys).length + [trail].length ≤ s.cfg.obufBytes := by
      rw [List.length_singleton]
      omega
    have hput : putBytes (s.argl2 + (entryBytes f.wide ys).length) [trail] (s.afterPixels r (entryBytes f.wide ys))
        = .ok () (s.afterPixels r (f.output trail ys)) := by
      rw [hout, ← State.afterPixels_append]
      exact (putBytes_apply ..).trans (if_pos hfit)
    have hcount : s.argl2 + (entryBytes f.wide ys).length + 1 - s.argl2 = (f.output trail ys).length := by omega
    simp only [decodeEnd, StreamFlags.header, ht, if_true, Act.bind_apply, hput, Act.pure_apply, onHuf_apply,
      Act.get_apply, hcount]
    rfl

/-- A trailing byte with no room is an overflow at its address (R65, R236). -/
theorem decodeEnd_overflows {r : Reader} {tb : List Entry} (ht : f.trailing = true)
    (hend : s.cfg.obufBytes = s.argl2 + (entryBytes f.wide ys).length) :
    complete (decodeEnd s.argl2 (f.header trail tb) (s.argl2 + (entryBytes f.wide ys).length))
        (s.afterPixels r (entryBytes f.wide ys))
      = .next (failedExecution .bufferOverflow (s.argl2 + (entryBytes f.wide ys).length)
          (s.afterPixels r (entryBytes f.wide ys))) := by
  have hover : ¬ s.argl2 + (entryBytes f.wide ys).length + [trail].length ≤ s.cfg.obufBytes := by
    rw [List.length_singleton]
    omega
  have htrail : (f.header trail tb).trailing = some trail := by simp [StreamFlags.header, ht]
  have hput : putBytes (s.argl2 + (entryBytes f.wide ys).length) [trail] (s.afterPixels r (entryBytes f.wide ys))
      = .error (.raised .bufferOverflow (s.argl2 + (entryBytes f.wide ys).length))
        (s.afterPixels r (entryBytes f.wide ys)) := by
    rw [putBytes_apply, State.afterPixels_cfg, if_neg hover]
  rw [decodeEnd, htrail]
  exact complete_bind_failedExecution (Act.bind_error hput) rfl

/-! ## The statement -/

theorem symbolWidth_pos (wide : Bool) : 0 < symbolWidth wide := by cases wide <;> decide

theorem entryBytes_take (wide : Bool) (ys : List Entry) (k : Nat) :
    (entryBytes wide ys).take (symbolWidth wide * k) = entryBytes wide (ys.take k) := by
  have happend (as bs : List Entry) : entryBytes wide (as ++ bs) = entryBytes wide as ++ entryBytes wide bs := by
    rw [entryBytes, entryBytes, entryBytes, List.map_append, List.flatten_append]
  obtain hle | hlt := Nat.le_total ys.length k
  · rw [List.take_of_length_le hle, List.take_of_length_le]
    rw [entryBytes_length]
    exact Nat.mul_le_mul_left _ hle
  · conv_lhs => rw [← List.take_append_drop k ys, happend]
    refine List.take_left' ?_
    rw [entryBytes_length, List.length_take, Nat.min_eq_left hlt]

/-- Settles O53: the header, the codes of the symbols that fit, and what follows them. -/
theorem hufDecDecodesAValidStream : Obligations.HufDecDecodesAValidStream := by
  unfold Obligations.HufDecDecodesAValidStream
  intro s f trail before after sent ys tail hin hw hflags hsent hord hlen hcount hok tb bits stop out m hys hinput
    hempty
  have h : StreamGiven s f trail before after sent ys tail :=
    ⟨hin, hw, hflags, hsent, hord, hlen, hcount, hok, hys, hinput, hempty⟩
  refine ⟨fun rest htail hroom => ?_, fun hout => ?_⟩
  · subst htail
    have hroom' : s.argl2 + (entryBytes f.wide ys).length ≤ s.cfg.obufBytes := by
      rw [List.length_append] at hroom
      omega
    obtain ⟨r, hexec, hr, hahead⟩ := h.exec_ends hroom'
    obtain ⟨hwrit, hbytes, hsame⟩ := s.out.obuf.writeList_range s.argl2 (bs := out) rfl
    refine ⟨_, r, ?_, hbytes, hwrit, hsame, hr.st_eq, hr.gran_eq, hr.base_eq, hr.len_eq, hr.pos_started, hahead, hr.wf⟩
    rw [hexec, complete_ok (decodeEnd_fits hroom), hr.pos_started, decodedHuffman_header]
    rfl
  · intro fit overflows
    have hoverflows {k pos : Nat} (hk : k ≤ ys.length)
        (hfails : DecodeFails s .bufferOverflow (s.argl2 + m * k) pos (entryBytes f.wide (ys.take k))) :
        overflows k pos := by
      have hbytes : (entryBytes f.wide (ys.take k)).length = m * k := by
        rw [entryBytes_length, List.length_take, Nat.min_eq_left hk]
      obtain ⟨obuf, r, hexec, hread, hwrit, hsame, hreader⟩ := hfails
      rw [hbytes] at hread hwrit hsame
      exact ⟨obuf, r, hexec, hread.trans (entryBytes_take ..).symm, hwrit, hsame, hreader⟩
    have hm : 0 < m := symbolWidth_pos f.wide
    refine ⟨fun hlt => hoverflows (Nat.le_of_lt hlt) ?_, fun hstop htrail hend => ?_⟩
    · have hsnoc : ys.take (fit + 1) = ys.take fit ++ [ys[fit]] := (List.take_concat_get' ys fit hlt).symm
      have h' : StreamGiven s f trail before after sent (ys.take fit ++ [ys[fit]])
          (codeString (ys.drop (fit + 1)) ++ tail) := by
        refine StreamGiven.first ?_
        rwa [← hsnoc, List.take_append_drop]
      have hbytes : (entryBytes f.wide (ys.take fit)).length = m * fit := by
        rw [entryBytes_length, List.length_take, Nat.min_eq_left (Nat.le_of_lt hlt)]
      have hle : m * fit ≤ s.cfg.obufBytes - s.argl2 := Nat.mul_div_le ..
      have hgt : s.cfg.obufBytes - s.argl2 < m * fit + m := Nat.lt_mul_div_succ _ hm
      have hfails := h'.symbol_overflows (by omega) (by rw [hbytes]; show _ < _ + m; omega)
      rwa [hbytes, ← hsnoc, List.length_append] at hfails
    · obtain ⟨rest, rfl⟩ := hstop
      refine hoverflows (Nat.le_refl _) ?_
      have hend' : s.cfg.obufBytes = s.argl2 + (entryBytes f.wide ys).length := by rw [hend, entryBytes_length]
      obtain ⟨r, hexec, hr, -⟩ := h.exec_ends hend'.ge
      rw [List.take_length, ← entryBytes_length]
      exact .of_exec (hexec.trans (decodeEnd_overflows htrail hend')) hr

end

end Sys2Proof.Machine
end

section
/-! PROOFS. The errors `HUF_DEC` finds in its input (spec/44_huffman_codec.md R234, R236): `Rejects` says of a reader's
action that over given input it raises an error some bits on, and composes with what is read before. -/

namespace Sys2Proof.Machine

/-! ## Actions that reject their input -/

section
variable {α β : Type} {cap : Nat} {ibuf : Memory}

/-- With exactly `input` ahead, `x` raises `e` at the `k`-th bit of it, having consumed `n`. -/
def Rejects (cap : Nat) (ibuf : Memory) (x : Act Reader α) (input : List Bool) (e : ErrorCode) (k n : Nat) : Prop :=
  ∀ r : Reader, r.wf cap → r.Fed ibuf → r.ahead ibuf = input →
    ∃ r', x r = .error (.raised e (r.bitAddress + k)) r' ∧ Consumes cap ibuf r r' n

variable {x : Act Reader α} {f : α → Act Reader β} {bs rest : List Bool} {a : α} {e : ErrorCode} {k n : Nat}

theorem Rejects.bind (hx : Rejects cap ibuf x rest e k n) (f : α → Act Reader β) :
    Rejects cap ibuf (x >>= f) rest e k n := by
  intro r hw hf ha
  obtain ⟨r', h, hc⟩ := hx r hw hf ha
  exact ⟨r', Act.bind_error h, hc⟩

theorem Consumes.bitAddress {r r' : Reader} (h : Consumes cap ibuf r r' n) : r'.bitAddress = r.bitAddress + n := by
  rw [Reader.bitAddress, Reader.bitAddress, h.base_eq, h.pos_eq, Nat.add_assoc]

/-- An error after some bits were read. -/
theorem Reads.then_rejects (hx : Reads cap ibuf x bs a) (hf : Rejects cap ibuf (f a) rest e k n) :
    Rejects cap ibuf (x >>= f) (bs ++ rest) e (bs.length + k) (bs.length + n) := by
  intro r hw hfed ha
  obtain ⟨r1, h1, hc1, ha1, hw1, hf1⟩ := hx.step hw hfed ha
  obtain ⟨r', h, hc⟩ := hf r1 hw1 hf1 ha1
  refine ⟨r', ?_, hc1.trans hc⟩
  rw [Act.bind_ok h1, h, hc1.bitAddress, Nat.add_assoc]

/-- A field cut by the end of the input (R111). -/
theorem rdBits_rejects {n : Nat} (hn : n ≤ 32) (h : rest.length < n) :
    Rejects cap ibuf (rdBits ibuf n) rest .unexpectedEof 0 0 := by
  intro r hw hf ha
  exact rdBits_short hw hf hn (ha ▸ h)

/-- A field of `n` bits holding `v`. -/
theorem rdBits_field {n v : Nat} (hn : n ≤ 32) (hv : v < 2 ^ n) : Reads cap ibuf (rdBits ibuf n) (natBits n v) v := by
  have h := rdBits_reads cap ibuf hn v
  rwa [Nat.mod_eq_of_lt hv] at h

end

/-! ## The header in its parts -/

section
variable {cap src : Nat} {ibuf : Memory}

/-- The entries of a header and the checks of its table (R234). -/
def rdTable (ibuf : Memory) (v : Nat) (trailing : Option Byte) (cnt si sl : Nat) : Act Reader Header := do
  let f := StreamFlags.ofNat v
  let es ← rdEntries ibuf (fieldWidth f.wide) (fieldWidth f.longLen) cnt
  let table := es.insertIdx si { sym := .sent, len := sl, code := 0 }
  let r ← get
  require (tableOk table = true) .corruptStream r.bitAddress
  return { flags := v, trailing := trailing, table := assignCodes table }

/-- A header from its sentinel index on (R234). -/
def rdSentinel (ibuf : Memory) (v : Nat) (trailing : Option Byte) (cnt : Nat) : Act Reader Header := do
  let r ← get
  let si ← rdBits ibuf 32
  let sl ← rdBits ibuf (fieldWidth (StreamFlags.ofNat v).longLen)
  require (si ≤ cnt) .corruptStream r.bitAddress
  rdTable ibuf v trailing cnt si sl

/-- A header is its flags, its trailing byte, its count, and the rest (R234). -/
theorem rdHeader_eq : rdHeader src ibuf = (do
    let v ← rdBits ibuf 8
    let f := StreamFlags.ofNat v
    require (v < 16 ∧ (f.trailing = true → f.wide = true)) .corruptStream (8 * src)
    let trailing ← rdTrailing ibuf f
    let cnt ← rdCount ibuf f
    rdSentinel ibuf v trailing cnt) := rfl

/-! ## Flags and trailing byte -/

/-- Reserved flags, or a trailing byte without the wide flag (R234). -/
theorem rdHeader_rejects_flags {v : Nat} {rest : List Bool} (hv : v < 256)
    (hbad : 16 ≤ v ∨ (v.testBit 2 = true ∧ v.testBit 3 = false)) {r : Reader} (hw : r.wf cap) (hf : r.Fed ibuf)
    (ha : r.ahead ibuf = natBits 8 v ++ rest) :
    ∃ r', rdHeader src ibuf r = .error (.raised .corruptStream (8 * src)) r' ∧ Consumes cap ibuf r r' 8 := by
  obtain ⟨r1, h1, hc1, -⟩ := (rdBits_field (n := 8) (by decide) hv).step hw hf ha
  have hno : ¬ (v < 16 ∧ ((StreamFlags.ofNat v).trailing = true → (StreamFlags.ofNat v).wide = true)) := by
    rintro ⟨hlt, himp⟩
    obtain hge | ⟨h2, h3⟩ := hbad
    · omega
    · exact absurd ((himp h2).symm.trans h3) (by decide)
  refine ⟨r1, ?_, by rwa [natBits_length] at hc1⟩
  rw [rdHeader_eq, Act.bind_ok h1, Act.bind_error (require_false hno ..)]

variable {f : StreamFlags} {trail : Byte} {rest : List Bool} {e : ErrorCode} {k n : Nat}

/-- Legal flags pass their check (R234). -/
theorem rdFlags_then_rejects (hflags : f.trailing = true → f.wide = true)
    (hx : Rejects cap ibuf (do
      let trailing ← rdTrailing ibuf f
      let cnt ← rdCount ibuf f
      rdSentinel ibuf f.value trailing cnt) rest e k n) :
    Rejects cap ibuf (rdHeader src ibuf) (natBits 8 f.value ++ rest) e ((natBits 8 f.value).length + k)
      ((natBits 8 f.value).length + n) := by
  have hlt := flags_value_lt f
  have hread := rdBits_field (cap := cap) (ibuf := ibuf) (n := 8) (v := f.value) (by decide) (by omega)
  rw [rdHeader_eq]
  refine hread.then_rejects fun r hw hf ha => ?_
  obtain ⟨r', h, hc⟩ := hx r hw hf ha
  refine ⟨r', ?_, hc⟩
  rw [flags_ofNat_value, Act.bind_ok (require_true ⟨hlt, hflags⟩ ..), h]

/-- After flags and trailing byte the header goes on with its count (R234). -/
theorem rdHeader_rejects (hflags : f.trailing = true → f.wide = true)
    (hx : Rejects cap ibuf (do
      let cnt ← rdCount ibuf f
      rdSentinel ibuf f.value (if f.trailing then some trail else none) cnt) rest e k n) :
    Rejects cap ibuf (rdHeader src ibuf) (flagBits f trail ++ rest) e ((flagBits f trail).length + k)
      ((flagBits f trail).length + n) := by
  have h := rdFlags_then_rejects (src := src) hflags ((rdTrailing_reads cap ibuf f trail).then_rejects hx)
  rwa [← Nat.add_assoc, ← Nat.add_assoc, ← List.append_assoc, ← List.length_append] at h

/-! ## Count -/

/-- The count field is read as it stands, or absent where only the sentinel's fields are left (R234, R319). -/
theorem rdCount_then_rejects {α : Type} {g : Nat → Act Reader α} {cnt : Nat}
    (hcnt : cnt ≤ 2 ^ fieldWidth f.longCount)
    (hlen : if cnt = 0 then rest.length = 32 + fieldWidth f.longLen
      else fieldWidth f.longCount + rest.length ≠ 32 + fieldWidth f.longLen)
    (hx : Rejects cap ibuf (g cnt) rest e k n) :
    Rejects cap ibuf (rdCount ibuf f >>= g) (countBits f cnt ++ rest) e ((countBits f cnt).length + k)
      ((countBits f cnt).length + n) := by
  intro r hw hf ha
  have hav := Reader.ahead_length_avail hw ibuf
  rw [ha, List.length_append] at hav
  by_cases h0 : cnt = 0
  · subst h0
    rw [if_pos rfl] at hlen
    obtain ⟨r', h, hc⟩ := hx r hw hf ha
    have hnone : rdCount ibuf f r = .ok 0 r := rdCount_none (by rw [← hav, hlen]; exact Nat.zero_add _)
    have hnil : (countBits f 0).length = 0 := rfl
    rw [hnil, Nat.zero_add, Nat.zero_add]
    exact ⟨r', (Act.bind_ok hnone).trans h, hc⟩
  · rw [if_neg h0] at hlen
    have hbits : countBits f cnt = natBits (fieldWidth f.longCount) (cnt - 1) := if_neg h0
    rw [hbits] at ha hav ⊢
    have hread := (rdBits_field (cap := cap) (ibuf := ibuf) (v := cnt - 1) (fieldWidth_le f.longCount)
      (by omega)).bind (f := fun c => (pure (c + 1) : Act Reader Nat)) (Reads.pure cap ibuf _)
    rw [List.append_nil, Nat.sub_add_cancel (Nat.pos_of_ne_zero h0)] at hread
    obtain ⟨r1, h1, hc1, ha1, hw1, hf1⟩ := hread.step hw hf ha
    obtain ⟨r', h, hc⟩ := hx r1 hw1 hf1 ha1
    have hsome : rdCount ibuf f r = .ok cnt r1 :=
      (rdCount_some (by rw [← hav, natBits_length]; exact hlen)).trans h1
    refine ⟨r', ?_, hc1.trans hc⟩
    rw [Act.bind_ok hsome, h, hc1.bitAddress, Nat.add_assoc]

/-- A cut count field (R234). -/
theorem rdCount_rejects (h : rest.length < fieldWidth f.longCount) :
    Rejects cap ibuf (rdCount ibuf f) rest .unexpectedEof 0 0 := by
  intro r hw hf ha
  have hav := Reader.ahead_length_avail hw ibuf
  have hcw : fieldWidth f.longCount ≤ 16 := by cases f.longCount <;> decide
  rw [rdCount_some (by rw [← hav, ha]; omega)]
  exact (rdBits_rejects (fieldWidth_le _) h).bind _ r hw hf ha

/-! ## Sentinel -/

theorem rdSentinel_apply (v : Nat) (trailing : Option Byte) (cnt : Nat) (r : Reader) :
    rdSentinel ibuf v trailing cnt r = (do
      let si ← rdBits ibuf 32
      let sl ← rdBits ibuf (fieldWidth (StreamFlags.ofNat v).longLen)
      require (si ≤ cnt) .corruptStream r.bitAddress
      rdTable ibuf v trailing cnt si sl : Act Reader Header) r := rfl

variable {trailing : Option Byte} {cnt si sl : Nat}

/-- A cut sentinel index (R234). -/
theorem rdSentinel_rejects_index (h : rest.length < 32) :
    Rejects cap ibuf (rdSentinel ibuf f.value trailing cnt) rest .unexpectedEof 0 0 :=
  fun r => (rdBits_rejects (by decide) h).bind _ r

/-- A cut sentinel length (R234). -/
theorem rdSentinel_rejects_length (hsi : si < 2 ^ 32) (h : rest.length < fieldWidth f.longLen) :
    Rejects cap ibuf (rdSentinel ibuf f.value trailing cnt) (natBits 32 si ++ rest) .unexpectedEof 32 32 := by
  intro r
  rw [rdSentinel_apply, flags_ofNat_value]
  have hcut := (rdBits_field (cap := cap) (ibuf := ibuf) (by decide) hsi).then_rejects
    (f := fun si => do
      let sl ← rdBits ibuf (fieldWidth f.longLen)
      require (si ≤ cnt) .corruptStream r.bitAddress
      rdTable ibuf f.value trailing cnt si sl)
    ((rdBits_rejects (fieldWidth_le f.longLen) h).bind _)
  rw [natBits_length] at hcut
  exact hcut r

/-- A sentinel index above the count is an error at that field, once both fields are read (R234). -/
theorem rdSentinel_rejects_value (hsi : si < 2 ^ 32) (hsl : sl < 2 ^ fieldWidth f.longLen) (h : cnt < si) :
    Rejects cap ibuf (rdSentinel ibuf f.value trailing cnt)
      (natBits 32 si ++ (natBits (fieldWidth f.longLen) sl ++ rest)) .corruptStream 0 (32 + fieldWidth f.longLen) := by
  intro r hw hf ha
  obtain ⟨r1, h1, hc1, ha1, hw1, hf1⟩ := (rdBits_field (by decide) hsi).step hw hf ha
  obtain ⟨r2, h2, hc2, -⟩ := (rdBits_field (fieldWidth_le f.longLen) hsl).step hw1 hf1 ha1
  rw [natBits_length] at hc1 hc2
  refine ⟨r2, ?_, hc1.trans hc2⟩
  rw [rdSentinel_apply, flags_ofNat_value, Act.bind_ok h1, Act.bind_ok h2,
    Act.bind_error (require_false (Nat.not_le.mpr h) ..)]
  rfl

/-- A legal sentinel index passes its check (R234). -/
theorem rdSentinel_then_rejects (hsi : si < 2 ^ 32) (hsl : sl < 2 ^ fieldWidth f.longLen) (h : si ≤ cnt)
    (hx : Rejects cap ibuf (rdTable ibuf f.value trailing cnt si sl) rest e k n) :
    Rejects cap ibuf (rdSentinel ibuf f.value trailing cnt)
      (natBits 32 si ++ (natBits (fieldWidth f.longLen) sl ++ rest)) e (32 + (fieldWidth f.longLen + k))
      (32 + (fieldWidth f.longLen + n)) := by
  intro r
  have hcheck : Rejects cap ibuf (do
      require (si ≤ cnt) .corruptStream r.bitAddress
      rdTable ibuf f.value trailing cnt si sl) rest e k n := by
    intro r' hw hf ha
    rw [Act.bind_ok (require_true h ..)]
    exact hx r' hw hf ha
  have hfields := (rdBits_field (cap := cap) (ibuf := ibuf) (by decide) hsi).then_rejects
    (f := fun si => do
      let sl ← rdBits ibuf (fieldWidth f.longLen)
      require (si ≤ cnt) .corruptStream r.bitAddress
      rdTable ibuf f.value trailing cnt si sl)
    ((rdBits_field (fieldWidth_le f.longLen) hsl).then_rejects hcheck)
  rw [natBits_length, natBits_length] at hfields
  rw [rdSentinel_apply, flags_ofNat_value]
  exact hfields r

/-! ## Entries -/

variable {es : List (Nat × Nat)} {sw lw m : Nat}

/-- Entries read before an error in those that follow (R234). -/
theorem rdEntries_then_rejects (hes : ∀ p ∈ es, p.1 < 2 ^ fieldWidth f.wide ∧ p.2 < 2 ^ fieldWidth f.longLen)
    (hx : Rejects cap ibuf (rdEntries ibuf (fieldWidth f.wide) (fieldWidth f.longLen) m) rest e k n) :
    Rejects cap ibuf (rdEntries ibuf (fieldWidth f.wide) (fieldWidth f.longLen) (es.length + m))
      (entryBits f es ++ rest) e ((entryBits f es).length + k) ((entryBits f es).length + n) := by
  induction es with
  | nil =>
    have hnil : entryBits f [] = [] := rfl
    simpa only [hnil, List.length_nil, Nat.zero_add, List.nil_append] using hx
  | cons p es ih =>
    obtain ⟨⟨hsy, hl⟩, hes⟩ := List.forall_mem_cons.mp hes
    have hcons : entryBits f (p :: es)
        = natBits (fieldWidth f.wide) p.1 ++ (natBits (fieldWidth f.longLen) p.2 ++ entryBits f es) := by
      simp [entryBits]
    have hread := (rdBits_field (cap := cap) (ibuf := ibuf) (fieldWidth_le f.wide) hsy).then_rejects
      (f := fun sy => do
        let l ← rdBits ibuf (fieldWidth f.longLen)
        let es ← rdEntries ibuf (fieldWidth f.wide) (fieldWidth f.longLen) (es.length + m)
        return { sym := .ord sy, len := l, code := 0 } :: es)
      ((rdBits_field (fieldWidth_le f.longLen) hl).then_rejects
        (f := fun l => do
          let es ← rdEntries ibuf (fieldWidth f.wide) (fieldWidth f.longLen) (es.length + m)
          return { sym := .ord p.1, len := l, code := 0 } :: es)
        ((ih hes).bind _))
    rw [hcons, List.length_cons, Nat.add_right_comm, rdEntries]
    simpa only [List.append_assoc, List.length_append, Nat.add_assoc] using hread

/-- A cut symbol (R234). -/
theorem rdEntries_rejects_symbol (hs : sw ≤ 32) (h : rest.length < sw) :
    Rejects cap ibuf (rdEntries ibuf sw lw (m + 1)) rest .unexpectedEof 0 0 :=
  (rdBits_rejects hs h).bind _

/-- A cut length (R234). -/
theorem rdEntries_rejects_length (hs : sw ≤ 32) (hl : lw ≤ 32) (hle : sw ≤ rest.length) (hlt : rest.length < sw + lw) :
    Rejects cap ibuf (rdEntries ibuf sw lw (m + 1)) rest .unexpectedEof sw sw := by
  have hsymbol : natBits sw (bitsNat (rest.take sw)) = rest.take sw := by
    have htake := natBits_bitsNat (rest.take sw)
    rwa [List.length_take, Nat.min_eq_left hle] at htake
  have hcut := (rdBits_reads cap ibuf hs (bitsNat (rest.take sw))).then_rejects
    (f := fun sy => do
      let l ← rdBits ibuf lw
      let es ← rdEntries ibuf sw lw m
      return { sym := .ord sy, len := l, code := 0 } :: es)
    ((rdBits_rejects hl (rest := rest.drop sw) (by rw [List.length_drop]; omega)).bind _)
  rw [natBits_length, hsymbol, List.take_append_drop] at hcut
  exact hcut

/-- An error among the entries (R234). -/
theorem rdTable_rejects
    (hx : Rejects cap ibuf (rdEntries ibuf (fieldWidth f.wide) (fieldWidth f.longLen) cnt) rest e k n) :
    Rejects cap ibuf (rdTable ibuf f.value trailing cnt si sl) rest e k n := by
  rw [rdTable, flags_ofNat_value]
  exact hx.bind _

theorem map_len_insertIdx (es : List (Nat × Nat)) (si sl : Nat) :
    (((es.map fun e => ({ sym := .ord e.1, len := e.2, code := 0 } : Entry)).insertIdx si
      { sym := .sent, len := sl, code := 0 }).map Entry.len) = (es.map Prod.snd).insertIdx si sl := by
  rw [List.map_insertIdx, List.map_map]
  rfl

/-- Lengths that are not accepted are an error at the first bit after the table (R234). -/
theorem rdTable_rejects_lengths (hes : ∀ p ∈ es, p.1 < 2 ^ fieldWidth f.wide ∧ p.2 < 2 ^ fieldWidth f.longLen)
    (h : ¬ LengthsAccepted ((es.map Prod.snd).insertIdx si sl)) :
    Rejects cap ibuf (rdTable ibuf f.value trailing es.length si sl) (entryBits f es ++ rest) .corruptStream
      (entryBits f es).length (entryBits f es).length := by
  rw [rdTable, flags_ofNat_value]
  refine (rdEntries_reads cap ibuf (fieldWidth_le f.wide) (fieldWidth_le f.longLen) es hes).then_rejects
    (k := 0) (n := 0) fun r hw hf ha => ?_
  obtain ⟨_, h1, hc⟩ := Reads.pure cap ibuf () r hw hf List.nil_prefix
  cases h1
  refine ⟨r, ?_, hc⟩
  rw [← map_len_insertIdx, ← tableOk_iff] at h
  exact (Act.bind_ok (Act.get_apply r)).trans (Act.bind_error (require_false h ..))

/-! ## A header up to its sentinel -/

theorem fieldWidth_pos (b : Bool) : 0 < fieldWidth b := by cases b <;> decide

/-- After flags and count the header goes on with its sentinel (R234). -/
theorem rdHeader_rejects_after_count (hflags : f.trailing = true → f.wide = true)
    (hcnt : cnt ≤ 2 ^ fieldWidth f.longCount)
    (hlen : if cnt = 0 then rest.length = 32 + fieldWidth f.longLen
      else fieldWidth f.longCount + rest.length ≠ 32 + fieldWidth f.longLen)
    (hx : Rejects cap ibuf (rdSentinel ibuf f.value (if f.trailing then some trail else none) cnt) rest e k n) :
    Rejects cap ibuf (rdHeader src ibuf) (flagBits f trail ++ countBits f cnt ++ rest) e
      ((flagBits f trail ++ countBits f cnt).length + k) ((flagBits f trail ++ countBits f cnt).length + n) := by
  have h := rdHeader_rejects (src := src) (trail := trail) hflags (rdCount_then_rejects hcnt hlen hx)
  rwa [← Nat.add_assoc, ← Nat.add_assoc, ← List.append_assoc, ← List.length_append] at h

/-- The bits left before a sentinel tell whether a count field stands there (R234, R319). -/
theorem sentinel_length (hempty : cnt = 0 → rest = []) :
    if cnt = 0 then (natBits 32 si ++ (natBits (fieldWidth f.longLen) sl ++ rest)).length = 32 + fieldWidth f.longLen
      else fieldWidth f.longCount + (natBits 32 si ++ (natBits (fieldWidth f.longLen) sl ++ rest)).length
        ≠ 32 + fieldWidth f.longLen := by
  simp only [List.length_append, natBits_length]
  split
  · rename_i h0
    rw [hempty h0]
    rfl
  · have := fieldWidth_pos f.longCount
    omega

/-- The fields of a header before its entries (R231). -/
def sentinelBits (f : StreamFlags) (trail : Byte) (cnt si sl : Nat) : List Bool :=
  flagBits f trail ++ countBits f cnt ++ natBits 32 si ++ natBits (fieldWidth f.longLen) sl

theorem sentinelBits_append (f : StreamFlags) (trail : Byte) (cnt si sl : Nat) (rest : List Bool) :
    sentinelBits f trail cnt si sl ++ rest
      = flagBits f trail ++ countBits f cnt ++ (natBits 32 si ++ (natBits (fieldWidth f.longLen) sl ++ rest)) := by
  simp only [sentinelBits, List.append_assoc]

theorem sentinelBits_length (f : StreamFlags) (trail : Byte) (cnt si sl : Nat) :
    (sentinelBits f trail cnt si sl).length
      = (flagBits f trail ++ countBits f cnt).length + (32 + fieldWidth f.longLen) := by
  simp only [sentinelBits, List.length_append, natBits_length, Nat.add_assoc]

/-- After a legal sentinel the header goes on with its table (R234). -/
theorem rdHeader_rejects_after_sentinel (hflags : f.trailing = true → f.wide = true)
    (hcnt : cnt ≤ 2 ^ fieldWidth f.longCount) (hempty : cnt = 0 → rest = []) (hsi : si < 2 ^ 32)
    (hsl : sl < 2 ^ fieldWidth f.longLen) (hle : si ≤ cnt)
    (hx : Rejects cap ibuf (rdTable ibuf f.value (if f.trailing then some trail else none) cnt si sl) rest e k n) :
    Rejects cap ibuf (rdHeader src ibuf) (sentinelBits f trail cnt si sl ++ rest) e
      ((sentinelBits f trail cnt si sl).length + k) ((sentinelBits f trail cnt si sl).length + n) := by
  have h := rdHeader_rejects_after_count (src := src) (trail := trail) hflags hcnt (sentinel_length hempty)
    (rdSentinel_then_rejects hsi hsl hle hx)
  rw [sentinelBits_append, sentinelBits_length]
  simpa only [Nat.add_assoc] using h

end

/-! ## Errors in the header -/

/-- The range of a command that decodes: inside IBUF, every byte written, its output address inside OBUF. -/
structure RangeGiven (s : State) : Prop where
  inside : s.argl0 + s.argl1 ≤ s.cfg.ibufBytes
  room : s.argl2 ≤ s.cfg.obufBytes
  written : Written s.inp.ibuf s.argl0 s.argl1

/-- The bits of the range of a command that decodes. -/
abbrev State.inputBits (s : State) : List Bool := storedBits .byte (bytesAt s.inp.ibuf s.argl0 s.argl1)

section
variable {s : State} {e : ErrorCode} {k n : Nat}

/-- An error in the header ends `HUF_DEC` with nothing written (R234, R278). -/
theorem RangeGiven.header_fails (h : RangeGiven s) (he : e.classX = true) {pos : Nat} {r : Reader}
    (hread : rdHeader s.argl0 s.inp.ibuf (Reader.started s.argl0 s.argl1 .byte) = .error (.raised e pos) r)
    (hr : Consumes s.cfg.ibufBytes s.inp.ibuf (Reader.started s.argl0 s.argl1 .byte) r n) :
    DecodeFails s e pos n [] :=
  .of_exec ((exec_hufDec_eq h.inside h.room).trans (complete_bind_failedExecution (onReader_error hread) he)) hr

theorem RangeGiven.header_rejected (h : RangeGiven s) (he : e.classX = true) {input : List Bool}
    (hinput : s.inputBits = input)
    (hx : Rejects s.cfg.ibufBytes s.inp.ibuf (rdHeader s.argl0 s.inp.ibuf) input e k n) :
    DecodeFails s e (8 * s.argl0 + k) n [] := by
  obtain ⟨r, hread, hr⟩ := hx _ (startedReader_wf h.inside) h.written hinput
  exact h.header_fails he hread hr

/-- No flags (R234). -/
theorem RangeGiven.no_flags (h : RangeGiven s) (h0 : s.argl1 = 0) :
    DecodeFails s .unexpectedEof (8 * s.argl0 + 0) 0 [] := by
  have hnil : s.inputBits = [] := by
    rw [State.inputBits, h0]
    rfl
  exact h.header_rejected rfl hnil ((rdBits_rejects (by decide) (by decide)).bind _)

/-- Reserved flags, or a trailing byte without the wide flag (R234). -/
theorem RangeGiven.bad_flags (h : RangeGiven s) {v : Nat} (hv : v < 256) (hpre : natBits 8 v <+: s.inputBits)
    (hbad : 16 ≤ v ∨ (v.testBit 2 = true ∧ v.testBit 3 = false)) :
    DecodeFails s .corruptStream (8 * s.argl0 + 0) 8 [] := by
  obtain ⟨rest, hrest⟩ := hpre
  obtain ⟨r, hread, hr⟩ :=
    rdHeader_rejects_flags (src := s.argl0) hv hbad (startedReader_wf h.inside) h.written hrest.symm
  exact h.header_fails rfl hread hr

variable {f : StreamFlags} {trail : Byte} {cnt si sl : Nat} {es : List (Nat × Nat)} {tail : List Bool}

/-- No trailing byte where the flags announce one (R234). -/
theorem RangeGiven.trailing_cut (h : RangeGiven s) (htrail : f.trailing = true) (hwide : f.wide = true)
    (hinput : s.inputBits = natBits 8 f.value) : DecodeFails s .unexpectedEof (8 * s.argl0 + 8) 8 [] := by
  have hcut : Rejects s.cfg.ibufBytes s.inp.ibuf (rdTrailing s.inp.ibuf f) [] .unexpectedEof 0 0 := by
    rw [rdTrailing, if_pos htrail]
    exact (rdBits_rejects (by decide) (by decide)).bind _
  exact h.header_rejected rfl (hinput.trans (List.append_nil _).symm)
    (rdFlags_then_rejects (fun _ => hwide) (hcut.bind _))

/-- A cut count (R234). -/
theorem RangeGiven.count_cut (h : RangeGiven s) (hflags : f.trailing = true → f.wide = true)
    (hinput : s.inputBits = flagBits f trail ++ tail) (hlt : tail.length < fieldWidth f.longCount) :
    DecodeFails s .unexpectedEof (8 * s.argl0 + (flagBits f trail).length) (flagBits f trail).length [] :=
  h.header_rejected rfl hinput (rdHeader_rejects hflags ((rdCount_rejects hlt).bind _))

/-- A cut sentinel index (R234). -/
theorem RangeGiven.index_cut (h : RangeGiven s) (hflags : f.trailing = true → f.wide = true)
    (hcnt : cnt ≤ 2 ^ fieldWidth f.longCount) (hpos : 0 < cnt)
    (hinput : s.inputBits = flagBits f trail ++ countBits f cnt ++ tail) (hlt : tail.length < 32)
    (hlen : fieldWidth f.longCount + tail.length ≠ 32 + fieldWidth f.longLen) :
    DecodeFails s .unexpectedEof (8 * s.argl0 + (flagBits f trail ++ countBits f cnt).length)
      (flagBits f trail ++ countBits f cnt).length [] :=
  h.header_rejected rfl hinput (rdHeader_rejects_after_count hflags hcnt (by rwa [if_neg (Nat.ne_of_gt hpos)])
    (rdSentinel_rejects_index hlt))

/-- A cut sentinel length (R234). -/
theorem RangeGiven.length_cut (h : RangeGiven s) (hflags : f.trailing = true → f.wide = true)
    (hcnt : cnt ≤ 2 ^ fieldWidth f.longCount) (hpos : 0 < cnt) (hsi : si < 2 ^ 32)
    (hinput : s.inputBits = flagBits f trail ++ countBits f cnt ++ natBits 32 si ++ tail)
    (hlt : tail.length < fieldWidth f.longLen) (hlen : fieldWidth f.longCount + tail.length ≠ fieldWidth f.longLen) :
    DecodeFails s .unexpectedEof (8 * s.argl0 + ((flagBits f trail ++ countBits f cnt).length + 32))
      ((flagBits f trail ++ countBits f cnt).length + 32) [] := by
  rw [List.append_assoc] at hinput
  refine h.header_rejected rfl hinput
    (rdHeader_rejects_after_count hflags hcnt ?_ (rdSentinel_rejects_length hsi hlt))
  rw [if_neg (Nat.ne_of_gt hpos), List.length_append, natBits_length]
  omega

/-- A sentinel index above the count (R234). -/
theorem RangeGiven.bad_index (h : RangeGiven s) (hflags : f.trailing = true → f.wide = true)
    (hcnt : cnt ≤ 2 ^ fieldWidth f.longCount) (hsi : si < 2 ^ 32) (hsl : sl < 2 ^ fieldWidth f.longLen)
    (hinput : s.inputBits = sentinelBits f trail cnt si sl ++ tail) (hempty : cnt = 0 → tail = []) (hlt : cnt < si) :
    DecodeFails s .corruptStream (8 * s.argl0 + (flagBits f trail ++ countBits f cnt).length)
      (sentinelBits f trail cnt si sl).length [] := by
  rw [sentinelBits_append] at hinput
  rw [sentinelBits_length]
  exact h.header_rejected rfl hinput
    (rdHeader_rejects_after_count hflags hcnt (sentinel_length hempty) (rdSentinel_rejects_value hsi hsl hlt))

/-- A header legal up to its sentinel (R234). -/
structure SentinelLegal (f : StreamFlags) (cnt si sl : Nat) : Prop where
  flags : f.trailing = true → f.wide = true
  count : cnt ≤ 2 ^ fieldWidth f.longCount
  index_lt : si < 2 ^ 32
  length_lt : sl < 2 ^ fieldWidth f.longLen
  index_le : si ≤ cnt

/-- An error in the table, its position counted from the entries (R234). -/
theorem RangeGiven.table_fails (h : RangeGiven s) (he : e.classX = true) (hsent : SentinelLegal f cnt si sl)
    (hinput : s.inputBits = sentinelBits f trail cnt si sl ++ entryBits f es ++ tail)
    (hempty : cnt = 0 → entryBits f es ++ tail = [])
    (hx : Rejects s.cfg.ibufBytes s.inp.ibuf
      (rdTable s.inp.ibuf f.value (if f.trailing then some trail else none) cnt si sl) (entryBits f es ++ tail) e
      ((entryBits f es).length + k) ((entryBits f es).length + n)) :
    DecodeFails s e (8 * s.argl0 + ((sentinelBits f trail cnt si sl ++ entryBits f es).length + k))
      ((sentinelBits f trail cnt si sl ++ entryBits f es).length + n) [] := by
  rw [List.append_assoc] at hinput
  rw [List.length_append, Nat.add_assoc, Nat.add_assoc]
  exact h.header_rejected he hinput (rdHeader_rejects_after_sentinel hsent.flags hsent.count hempty hsent.index_lt
    hsent.length_lt hsent.index_le hx)

/-- A cut symbol (R234). -/
theorem RangeGiven.symbol_cut (h : RangeGiven s) (hsent : SentinelLegal f cnt si sl)
    (hes : ∀ p ∈ es, p.1 < 2 ^ fieldWidth f.wide ∧ p.2 < 2 ^ fieldWidth f.longLen) (hmore : es.length < cnt)
    (hinput : s.inputBits = sentinelBits f trail cnt si sl ++ entryBits f es ++ tail)
    (hlt : tail.length < fieldWidth f.wide) :
    let used := (sentinelBits f trail cnt si sl ++ entryBits f es).length
    DecodeFails s .unexpectedEof (8 * s.argl0 + used) used [] := by
  obtain ⟨m, rfl⟩ : ∃ m, cnt = es.length + (m + 1) := ⟨cnt - es.length - 1, by omega⟩
  exact h.table_fails (k := 0) (n := 0) rfl hsent hinput (fun h0 => absurd h0 (Nat.ne_of_gt (Nat.zero_lt_of_lt hmore)))
    (rdTable_rejects (rdEntries_then_rejects hes (rdEntries_rejects_symbol (fieldWidth_le _) hlt)))

/-- A cut length (R234). -/
theorem RangeGiven.entry_length_cut (h : RangeGiven s) (hsent : SentinelLegal f cnt si sl)
    (hes : ∀ p ∈ es, p.1 < 2 ^ fieldWidth f.wide ∧ p.2 < 2 ^ fieldWidth f.longLen) (hmore : es.length < cnt)
    (hinput : s.inputBits = sentinelBits f trail cnt si sl ++ entryBits f es ++ tail)
    (hle : fieldWidth f.wide ≤ tail.length) (hlt : tail.length < fieldWidth f.wide + fieldWidth f.longLen) :
    let used := (sentinelBits f trail cnt si sl ++ entryBits f es).length
    DecodeFails s .unexpectedEof (8 * s.argl0 + (used + fieldWidth f.wide)) (used + fieldWidth f.wide) [] := by
  obtain ⟨m, rfl⟩ : ∃ m, cnt = es.length + (m + 1) := ⟨cnt - es.length - 1, by omega⟩
  exact h.table_fails rfl hsent hinput (fun h0 => absurd h0 (Nat.ne_of_gt (Nat.zero_lt_of_lt hmore)))
    (rdTable_rejects (rdEntries_then_rejects hes
      (rdEntries_rejects_length (fieldWidth_le _) (fieldWidth_le _) hle hlt)))

/-- Lengths that are not accepted (R234). -/
theorem RangeGiven.bad_lengths (h : RangeGiven s) (hsent : SentinelLegal f cnt si sl)
    (hes : ∀ p ∈ es, p.1 < 2 ^ fieldWidth f.wide ∧ p.2 < 2 ^ fieldWidth f.longLen) (hall : es.length = cnt)
    (hinput : s.inputBits = sentinelBits f trail cnt si sl ++ entryBits f es ++ tail) (hempty : cnt = 0 → tail = [])
    (hbad : ¬ LengthsAccepted ((es.map Prod.snd).insertIdx si sl)) :
    let used := (sentinelBits f trail cnt si sl ++ entryBits f es).length
    DecodeFails s .corruptStream (8 * s.argl0 + used) used [] := by
  subst hall
  refine h.table_fails (k := 0) (n := 0) rfl hsent hinput (fun h0 => ?_) (rdTable_rejects_lengths hes hbad)
  rw [hempty h0, List.length_eq_zero_iff.mp h0]
  rfl

end

/-! ## The statement -/

/-- Settles O14: the header's fields in their order, then the code that follows `ys`. -/
theorem hufDecRejectsABadStream : Obligations.HufDecRejectsABadStream := by
  unfold Obligations.HufDecRejectsABadStream
  intro s hin hout hw input fails
  have h : RangeGiven s := ⟨hin, hout, hw⟩
  refine ⟨h.no_flags, fun v hv => h.bad_flags hv, fun f => h.trailing_cut, fun f trail hflags => ?_, ?_⟩
  · refine ⟨fun tail => h.count_cut hflags, fun cnt hcnt => ⟨fun tail => h.index_cut hflags hcnt, fun si hsi => ?_⟩⟩
    refine ⟨fun tail hpos => h.length_cut hflags hcnt hpos hsi, fun sl hsl => ?_⟩
    refine ⟨fun tail => h.bad_index hflags hcnt hsi hsl, fun es hes hle => ?_⟩
    have hsent : SentinelLegal f cnt si sl := ⟨hflags, hcnt, hsi, hsl, hle⟩
    exact ⟨fun tail => h.symbol_cut hsent hes, fun tail => h.entry_length_cut hsent hes,
      fun tail => h.bad_lengths hsent hes⟩
  · intro f trail before after sent ys tail k hflags hsent hord hlen hcount hok tb bits out hys hinput hempty hroom hno
      hk hinside hleaves
    have hgiven : StreamGiven s f trail before after sent ys tail :=
      ⟨hin, hw, hflags, hsent, hord, hlen, hcount, hok, hys, hinput, hempty⟩
    exact hgiven.finds_no_code hroom hno hk hinside hleaves

end Sys2Proof.Machine
end

section
/-! PROOFS. The round trip of a Huffman stream (spec/44_huffman_codec.md R239): what `HUF_ENC` stores is a stream that
`HUF_DEC` is given, and its codes stand for the encoder's input. -/

namespace Sys2Proof.Machine

variable {w : Bool} {bs : List Byte}

/-! ## The symbols of an input -/

theorem symbolBytes_byte (b : Byte) : symbolBytes false b.toNat = [b] := by simp [symbolBytes]

theorem symbolBytes_pair (a b : Byte) : symbolBytes true (a.toNat * 256 + b.toNat) = [a, b] := by
  have ha := a.isLt
  have hb := b.isLt
  have hhigh : (a.toNat * 256 + b.toNat) / 256 = a.toNat := by omega
  have hlow : BitVec.ofNat 8 (a.toNat * 256 + b.toNat) = b := by
    refine BitVec.eq_of_toNat_eq ?_
    rw [BitVec.toNat_ofNat]
    omega
  rw [symbolBytes, if_pos rfl, hhigh, hlow, BitVec.ofNat_toNat, BitVec.setWidth_eq]

/-- A pair of bytes in front leaves the trailing byte as it is (R190). -/
theorem trailing_pair (a b : Byte) (bs : List Byte) :
    (if hasTrailing true (a :: b :: bs) then [trailingByte true (a :: b :: bs)] else [])
      = if hasTrailing true bs then [trailingByte true bs] else [] := by
  have htrail : hasTrailing true (a :: b :: bs) = hasTrailing true bs := by
    simp only [hasTrailing, List.length_cons, Bool.true_and]
    congr 1
    exact propext (by omega)
  rw [htrail]
  split
  · rename_i ht
    rw [trailingByte, trailingByte, htrail, ht]
    cases bs with
    | nil => exact absurd ht (by decide)
    | cons c bs => rfl
  · rfl

/-- The bytes of an input's symbols and its trailing byte are the input (R190, R236). -/
theorem symbolBytes_inputSymbols (w : Bool) (bs : List Byte) :
    ((inputSymbols w bs).map fun x => symbolBytes w x).flatten
      ++ (if hasTrailing w bs then [trailingByte w bs] else []) = bs := by
  cases w with
  | false =>
    simp only [inputSymbols, hasTrailing, Bool.false_eq_true, if_false, Bool.false_and, List.append_nil, List.map_map,
      Function.comp_def, symbolBytes_byte]
    rw [← List.flatMap_def, List.flatMap_singleton']
  | true =>
    induction bs using wideSymbols.induct with
    | case1 a b bs ih =>
      have hsymbols : inputSymbols true (a :: b :: bs) = (a.toNat * 256 + b.toNat) :: inputSymbols true bs := rfl
      rw [hsymbols, List.map_cons, List.flatten_cons, symbolBytes_pair, trailing_pair, List.append_assoc, ih]
      rfl
    | case2 bs hno =>
      match bs, hno with
      | [], _ => rfl
      | [b], _ => rfl
      | a :: b :: bs, hno => exact absurd rfl (hno a b bs)

/-! ## The table of an input -/

/-- The table that `HUF_ENC` builds: the canonical form of a tree whose leaves are the sentinel and the input's symbols
(R237). -/
theorem exists_builtTree (w : Bool) (bs : List Byte) :
    ∃ root : HuffTree, (builtHuffman w bs).ctab = canonicalise (treeCodes root 0 0)
      ∧ root.symbols.Perm (.sent :: (histogram (inputSymbols w bs)).map fun p => .ord p.1) := by
  obtain ⟨l, root, hperm, -, hm, hroot⟩ := buildTree_merges (histogram_wf (inputSymbols w bs))
  refine ⟨root, by rw [builtHuffman_eq hroot]; rfl, ?_⟩
  have hsyms := hm.leaves.1.trans (hperm.map Prod.snd)
  rwa [leafPairs, List.map_cons, List.map_map] at hsyms

theorem builtTable_symbols (w : Bool) (bs : List Byte) : ((builtHuffman w bs).ctab.map Entry.sym).Perm
    (.sent :: (histogram (inputSymbols w bs)).map fun p => .ord p.1) := by
  obtain ⟨root, htab, hsyms⟩ := exists_builtTree w bs
  have hcanon := (canonicalise_perm (treeCodes root 0 0)).map Prod.fst
  rw [List.map_map, List.map_map] at hcanon
  rw [htab]
  exact hcanon.trans ((treeCodes_sym root).symm ▸ hsyms)

/-- Every symbol of the input is in the table. -/
theorem mem_builtTable {x : Nat} (hx : x ∈ inputSymbols w bs) :
    Sym.ord x ∈ (builtHuffman w bs).ctab.map Entry.sym := by
  obtain ⟨p, hp, rfl⟩ := List.mem_map.mp ((mem_histogram _ x).mpr hx)
  exact (builtTable_symbols w bs).mem_iff.mpr (List.mem_cons_of_mem _ (List.mem_map_of_mem hp))

/-- Assigning codes to a table that has its codes changes nothing (R202, R234). -/
theorem assignCodes_builtTable (w : Bool) (bs : List Byte) :
    assignCodes (builtHuffman w bs).ctab = (builtHuffman w bs).ctab := by
  obtain ⟨root, htab, -⟩ := exists_builtTree w bs
  rw [htab, canonicalise]
  exact assignCodes_congr (assignCodes_symLen _)

/-- A tree of more than a leaf has no leaf at its root. -/
theorem paths_length_pos {root : HuffTree} (h : 1 < root.symbols.length) : ∀ p ∈ root.paths, p.2.length ≠ 0 := by
  cases root with
  | leaf w s => exact absurd h (Nat.lt_irrefl 1)
  | interior w l r =>
    simp only [HuffTree.paths, List.forall_mem_append, List.forall_mem_map, List.length_cons]
    exact ⟨fun _ _ => Nat.succ_ne_zero _, fun _ _ => Nat.succ_ne_zero _⟩

/-- The code space of the table of an input is used up (R202). -/
theorem builtTable_kraft (hle : longestCode (builtHuffman w bs).ctab ≤ maxCodeLen) :
    kraftSum (builtHuffman w bs).ctab = 2 ^ maxCodeLen := by
  obtain ⟨root, htab, -⟩ := exists_builtTree w bs
  rw [htab] at hle ⊢
  have hdepth := (longestCode_le _ _).mp ((longestCode_canonicalise_le _ _).mp hle)
  exact (canonicalCodesArePrefixFree root (treeCodes_len_le.mp hdepth)).1

/-- The table of an input passes the decoder's checks (R202, R234). -/
theorem builtTable_checked (hle : longestCode (builtHuffman w bs).ctab ≤ maxCodeLen) :
    tableOk (builtHuffman w bs).ctab = true := by
  have hkraft := builtTable_kraft hle
  have hmax := (longestCode_le _ _).mp hle
  obtain ⟨root, htab, -⟩ := exists_builtTree w bs
  refine (tableOk_iff _).mpr ⟨List.forall_mem_map.mpr hmax, ?_, fun hmany => ?_, ((kraftSum_eq _).symm.trans hkraft).le⟩
  · rw [htab]
    exact List.pairwise_map.mpr ((canonicalise_sorted _).imp fun h => by omega)
  · have hlens : ((builtHuffman w bs).ctab.map Entry.len).Perm (root.paths.map fun p => p.2.length) := by
      have hcanon := (canonicalise_perm (treeCodes root 0 0)).map Prod.snd
      rw [List.map_map, List.map_map] at hcanon
      rw [htab, ← treeCodes_len]
      exact hcanon
    have hleaves : 1 < root.symbols.length := by
      rwa [hlens.length_eq, List.length_map, ← List.length_map (f := Prod.fst), paths_symbols] at hmany
    intro l hl
    obtain ⟨p, hp, rfl⟩ := List.mem_map.mp (hlens.mem_iff.mp hl)
    exact paths_length_pos hleaves p hp

/-- The table of an input is the sentinel among the entries of the input's symbols. -/
theorem exists_builtTable_split (w : Bool) (bs : List Byte) :
    ∃ before sent after, (builtHuffman w bs).ctab = before ++ sent :: after ∧ sent.sym = .sent
      ∧ ((before ++ after).map Entry.sym).Perm ((histogram (inputSymbols w bs)).map fun p => .ord p.1) := by
  have hsyms := builtTable_symbols w bs
  obtain ⟨sent, hmem, hsent⟩ := List.mem_map.mp (hsyms.mem_iff.mpr (List.mem_cons_self ..))
  obtain ⟨before, after, hsplit⟩ := List.append_of_mem hmem
  refine ⟨before, sent, after, hsplit, hsent, ?_⟩
  rw [hsplit] at hsyms
  have hmove := (List.perm_middle (a := sent) (l₁ := before) (l₂ := after)).map Entry.sym
  rw [List.map_cons, hsent] at hmove
  exact (hmove.symm.trans hsyms).cons_inv

/-- The symbols of an input fit their field (R190, R230). -/
theorem inputSymbols_lt_field {x : Nat} (hx : x ∈ inputSymbols w bs) : x < 2 ^ fieldWidth w := by
  cases w with
  | true => exact inputSymbols_lt true bs x hx
  | false =>
    obtain ⟨b, -, rfl⟩ := List.mem_map.mp hx
    exact b.isLt

/-- A histogram lists no more symbols than there are. -/
theorem histogram_length_le (w : Bool) (bs : List Byte) :
    (histogram (inputSymbols w bs)).length ≤ 2 ^ fieldWidth w := by
  have hrise := ((histWf_iff _).mp (histogram_wf (inputSymbols w bs))).1
  have hsub : (histogram (inputSymbols w bs)).map Prod.fst ⊆ List.range (2 ^ fieldWidth w) := fun x hx =>
    List.mem_range.mpr (inputSymbols_lt_field ((mem_histogram _ x).mp hx))
  have hle := (List.subperm_of_subset (hrise.imp Nat.ne_of_lt) hsub).length_le
  rwa [List.length_map, List.length_range] at hle

/-! ## The stream of an input -/

/-- The zeros that fill a string to a whole byte (R108). -/
def byteFill (bits : List Bool) : List Bool := List.replicate (8 * ((bits.length + 7) / 8) - bits.length) false

theorem byteFill_of_whole_bytes {bits : List Bool} (h : bits.length % 8 = 0) : byteFill bits = [] := by
  rw [byteFill, List.replicate_eq_nil_iff]
  omega

/-- The header of a table with no ordinary entry is whole bytes (R231). -/
theorem headerString_whole_bytes (f : StreamFlags) (trail : Byte) {sent : Entry} (hsent : sent.sym = .sent) :
    (headerString f trail [sent]).length % 8 = 0 := by
  have hheader := headerString_eq f trail (before := []) (after := []) hsent (by simp)
  have hflag : (if f.trailing = true then natBits 8 trail.toNat else []).length % 8 = 0 := by
    split
    · rw [natBits_length]
    · rfl
  have hwidth : fieldWidth f.longLen % 8 = 0 := by cases f.longLen <;> decide
  rw [List.nil_append] at hheader
  simp only [hheader, List.length_append, natBits_length, List.append_nil, if_true, List.length_nil, List.map_nil,
    List.flatten_nil]
  omega

/-- The entry of a table that has it alone takes no bit where it fills the code space (R202). -/
theorem bits_eq_nil_of_kraft {e : Entry} (h : kraftSum [e] = 2 ^ maxCodeLen) : e.bits = [] := by
  rw [kraftSum, List.map_singleton, List.sum_singleton] at h
  have hlen := Nat.pow_right_injective (Nat.le_refl 2) h
  have hzero : e.len = 0 := by
    simp only [maxCodeLen] at hlen
    omega
  rw [Entry.bits, hzero]
  rfl

/-- The stream of an input with no symbol is whole bytes, and the sentinel takes none of its bits (R237). -/
theorem encodedString_of_no_symbol (hle : longestCode (builtHuffman w bs).ctab ≤ maxCodeLen) {sent : Entry}
    (htab : (builtHuffman w bs).ctab = [sent]) (hsent : sent.sym = .sent) (hxs : inputSymbols w bs = []) :
    (encodedString w bs).length % 8 = 0 ∧ symbolString [sent] .sent = [] := by
  have hcode : symbolString [sent] .sent = sent.bits := by simp [symbolString, entryOf, hsent]
  rw [bits_eq_nil_of_kraft (htab ▸ builtTable_kraft hle)] at hcode
  refine ⟨?_, hcode⟩
  rw [encodedString, htab, hxs, payloadString, hcode, List.map_nil, List.flatten_nil, List.append_nil, List.append_nil]
  exact headerString_whole_bytes _ _ hsent

/-- The count field of the encoder's flags holds the number of ordinary entries (R232). -/
theorem count_le_of_encoderFlags {h : Huffman} (hk : h.k ≤ 65537) :
    h.k - 1 ≤ 2 ^ fieldWidth (encoderFlags h w).longCount := by
  by_cases hlong : 255 < h.k - 1 - 1
  · have hset : (encoderFlags h w).longCount = true := by
      simp only [encoderFlags, Bool.and_eq_true, decide_eq_true_eq]
      omega
    rw [hset]
    show h.k - 1 ≤ 65536
    omega
  · have hbyte : 256 ≤ 2 ^ fieldWidth (encoderFlags h w).longCount := by
      cases (encoderFlags h w).longCount <;> decide
    omega

/-- Where IBUF holds the stream of an input, padded to a byte, it holds a valid stream whose codes stand for the input's
symbols (R231 to R233). -/
theorem StreamGiven.of_encoded {v : State} (hle : longestCode (builtHuffman w bs).ctab ≤ maxCodeLen)
    (hin : v.argl0 + v.argl1 ≤ v.cfg.ibufBytes) (hw : Written v.inp.ibuf v.argl0 v.argl1)
    (hinput : v.inputBits = encodedString w bs ++ byteFill (encodedString w bs)) :
    let h := builtHuffman w bs
    ∃ before after sent ys, StreamGiven v (encoderFlags h w) h.trailb before after sent ys
        (symbolString (assignCodes (before ++ sent :: after)) .sent ++ byteFill (encodedString w bs))
      ∧ entryBytes w ys = ((inputSymbols w bs).map fun x => symbolBytes w x).flatten := by
  intro h
  obtain ⟨before, sent, after, hsplit, hsent, hsyms⟩ := exists_builtTable_split w bs
  obtain ⟨ys, hys, hlen, hcodes, hbytes⟩ := exists_entries (xs := inputSymbols w bs) fun x => mem_builtTable
  have hassign : assignCodes (before ++ sent :: after) = h.ctab := by rw [← hsplit, assignCodes_builtTable]
  have hcount : (before ++ after).length = (histogram (inputSymbols w bs)).length := by
    rw [← List.length_map Entry.sym, hsyms.length_eq, List.length_map]
  have hk : h.k = (before ++ after).length + 1 := by
    rw [builtHuffman_k, hsplit]
    simp only [List.length_append, List.length_cons]
    omega
  refine ⟨before, after, sent, ys, ⟨hin, hw, ?_, hsent, ?_, ?_, ?_, ?_, ?_, ?_, ?_⟩, hbytes w⟩
  · exact fun ht => (Bool.and_eq_true_iff.mp (show (w && decide (bs.length % 2 = 1)) = true from ht)).1
  · intro e he
    obtain ⟨p, hp, hpe⟩ := List.mem_map.mp (hsyms.mem_iff.mp (List.mem_map_of_mem he))
    exact ⟨p.1, hpe.symm, inputSymbols_lt_field ((mem_histogram _ _).mp (List.mem_map_of_mem hp))⟩
  · intro e he
    have hmax := (longestCode_le _ _).mp hle e (hsplit ▸ he)
    have hfield : maxCodeLen < 2 ^ fieldWidth (encoderFlags h w).longLen := by
      cases (encoderFlags h w).longLen <;> decide
    exact Nat.lt_of_le_of_lt hmax hfield
  · have hfield : 2 ^ fieldWidth w ≤ 65536 := by cases w <;> decide
    have hlist := histogram_length_le w bs
    have hle := count_le_of_encoderFlags (h := h) (w := w) (by omega)
    rwa [hk, Nat.add_sub_cancel] at hle
  · rw [← hsplit]
    exact builtTable_checked hle
  · rw [hassign]
    exact hys
  · rw [hassign, hcodes]
    refine Eq.trans hinput ?_
    generalize byteFill (encodedString w bs) = fill
    simp only [encodedString, payloadString, List.append_assoc]
    rfl
  · intro hnone
    obtain ⟨rfl, rfl⟩ := List.append_eq_nil_iff.mp hnone
    have hhist := List.length_eq_zero_iff.mp hcount.symm
    have hxs : inputSymbols w bs = [] := List.eq_nil_iff_forall_not_mem.mpr fun x hx => by
      have hmem := (mem_histogram _ x).mpr hx
      rw [hhist] at hmem
      exact nomatch hmem
    obtain ⟨hwhole, hcode⟩ := encodedString_of_no_symbol hle hsplit hsent hxs
    rw [List.length_eq_zero_iff.mp (hlen.trans (congrArg List.length hxs)), byteFill_of_whole_bytes hwhole, hassign]
    show [] ++ (symbolString (builtHuffman w bs).ctab .sent ++ []) = []
    rw [hsplit]
    exact congrArg (· ++ []) hcode

/-! ## An encoding without error -/

/-- Where `HUF_ENC` completes without error, its ranges are legal, its input is written, no code is too long and its
stream fits (R237, R274). -/
theorem fits_of_exec_hufEnc {s u : State} (h : exec (.hufEnc w) s = .next u) (hok : u.status.err = false) :
    let bs := bytesAt s.inp.ibuf s.argl0 s.argl1
    s.argl0 + s.argl1 ≤ s.cfg.ibufBytes ∧ Written s.inp.ibuf s.argl0 s.argl1
      ∧ longestCode (builtHuffman w bs).ctab ≤ maxCodeLen
      ∧ s.argl2 + ((encodedString w bs).length + 7) / 8 ≤ s.cfg.obufBytes := by
  have hnext {v : State} (hv : exec (.hufEnc w) s = .next v) : v.status.err = false :=
    Host.Outcome.next.inj (h.symm.trans hv) ▸ hok
  have hin : s.argl0 + s.argl1 ≤ s.cfg.ibufBytes := by
    by_contra hbad
    have hfail : exec (.hufEnc w) s = .next (failedCheck .bufferBounds s) :=
      complete_bind_failedCheck (requireIbuf_fails (Nat.not_le.mp hbad)) rfl
    exact nomatch hnext hfail
  have hout : s.argl2 ≤ s.cfg.obufBytes := by
    by_contra hbad
    have hfail : exec (.hufEnc w) s = .next (failedCheck .bufferBounds s) :=
      (complete_bind_ok (requireIbuf_ok hin)).trans
        (complete_bind_failedCheck (requireObuf_fails (Nat.not_le.mp hbad)) rfl)
    exact nomatch hnext hfail
  obtain ⟨hw, -⟩ | ⟨k, hk, hbelow, hnone, -⟩ := ibufBytes_cases s.inp.ibuf s.argl0 s.argl1 s
  · have hle : longestCode (builtHuffman w (bytesAt s.inp.ibuf s.argl0 s.argl1)).ctab ≤ maxCodeLen := by
      by_contra hbad
      obtain ⟨t, hfail⟩ := (exec_hufEnc_codes hin hout hw).2 (Nat.not_le.mp hbad)
      exact nomatch hnext hfail
    refine ⟨hin, hw, hle, ?_⟩
    by_contra hbad
    obtain ⟨p, hfail, -⟩ := (hufEncWritesTheStream w s hin hw hle).2 hout (Nat.not_le.mp hbad)
    exact nomatch hnext hfail
  · have hfirst : s.inp.ibuf.FirstUnwritten s.argl0 (s.argl0 + k) :=
      ⟨Nat.le_add_right .., hnone, by rwa [Nat.add_sub_cancel_left]⟩
    exact nomatch h.symm.trans (execHufEnc_unwritten hfirst (by omega) hin hout w)

/-! ## The statement -/

/-- Settles O54: the encoding stores a valid stream whose codes stand for the input's symbols, and the decoding is given
it. -/
theorem huffmanRoundTrip : Obligations.HuffmanRoundTrip := by
  unfold Obligations.HuffmanRoundTrip
  intro w s u v _ henc hok _ hcap hcfg hargl1 hin hcopy hroom
  obtain ⟨hinS, hw, hle, hfit⟩ := fits_of_exec_hufEnc henc hok
  obtain ⟨obuf, hnext, hstored, hwrit, -⟩ := (hufEncWritesTheStream w s hinS hw hle).1 hfit
  obtain rfl := Host.Outcome.next.inj (henc.symm.trans hnext)
  obtain ⟨bs, hbs⟩ : ∃ bs, bs = bytesAt s.inp.ibuf s.argl0 s.argl1 := ⟨_, rfl⟩
  rw [← hbs] at hle hfit hstored hwrit
  have hlen : v.argl1 = ((encodedString w bs).length + 7) / 8 := by
    rw [hargl1, hbs, BitVec.toNat_ofNat]
    rw [hbs] at hfit
    exact Nat.mod_eq_of_lt (by omega)
  have hbits : v.inputBits = encodedString w bs ++ byteFill (encodedString w bs) := by
    rw [State.inputBits, hlen]
    exact (congrArg _ (bytesAt_copy fun k hk => hcopy k (hlen ▸ hk))).trans hstored
  obtain ⟨before, after, sent, ys, hgiven, hbytes⟩ := StreamGiven.of_encoded hle hin
    (hlen ▸ hwrit.copy fun k hk => hcopy k (hlen ▸ hk)) hbits
  have hout : (encoderFlags (builtHuffman w bs) w).output (builtHuffman w bs).trailb ys = bs :=
    (congrArg (· ++ _) hbytes).trans (symbolBytes_inputSymbols w bs)
  have hcount : bs.length = s.argl1 := by rw [hbs, bytesAt_length]
  rw [← hcount, ← hout] at hroom
  have hroom' : v.argl2 + (entryBytes (encoderFlags (builtHuffman w bs) w).wide ys).length ≤ v.cfg.obufBytes := by
    rw [StreamFlags.output, List.length_append] at hroom
    omega
  obtain ⟨r, hexec, -⟩ := hgiven.exec_ends hroom'
  obtain ⟨hwritten, hread, hsame⟩ := v.out.obuf.writeList_range v.argl2 hcount
  refine ⟨_, hexec.trans (complete_ok (decodeEnd_fits hroom)), rfl, ?_, fun k hk => ?_, ?_⟩
  · rw [hout]
    show BitVec.ofNat 32 bs.length = _
    rw [hcount]
    exact BitVec.ofNat_toNat _ _
  · rw [hout]
    exact (hwritten.read hk).trans (by rw [hread, hbs, hw.read hk])
  · rw [hout]
    exact hsame

end Sys2Proof.Machine
end

section
/-! PROOFS. Acceptance, refusal and the way to a command's end (spec/60_exceptions.md R271 to R274, R282). -/

namespace Sys2Proof.Machine

/-! ## The sequencer's step -/

/-- The sequencer's step of a word that is a command is the command's meaning (R274). -/
theorem runCommand_of_decode {s : State} {i : Instr} (h : decode s.latch.cmd = .ok i) : runCommand s = exec i s := by
  rw [runCommand, h]

/-- Settles O6: in each of its cases the turn is the sequencer's. -/
theorem stepRunsTheDecodedCommand : Obligations.StepRunsTheDecodedCommand := by
  unfold Obligations.StepRunsTheDecodedCommand
  intro s i hcfg hbusy hturn hi
  rw [step_of_sequencerTurn hcfg (sequencerTurn_of_busy hbusy hturn), runCommand_of_decode hi]

/-- The word `withFetchWord` latches is the command's encoding, none of whose bits is cut. -/
theorem withFetchWord_cmd (s : State) (c : Word) : (s.withFetchWord 32 c.toNat).latch.cmd = c := by
  rw [State.withFetchWord_latch, Nat.mod_eq_of_lt c.isLt, BitVec.ofNat_toNat, BitVec.setWidth_eq]

/-- Settles O9: no delay is left, and the latched word decodes to the command it encodes. -/
theorem fetchedWordRunsItsCommand : Obligations.FetchedWordRunsItsCommand := by
  unfold Obligations.FetchedWordRunsItsCommand
  intro s i hcfg hi
  refine stepRunsTheDecodedCommand _ i hcfg rfl (.inr (.inr rfl)) ?_
  rw [withFetchWord_cmd]
  exact decodeReadsBackEveryEncodedCommand i hi

/-! ## A command comes to its end -/

/-- The sequencer's step leaves no command in flight (R274). -/
theorem runCommand_idle {s t : State} (h : runCommand s = .next t) : t.status.busy = false := by
  obtain ⟨K, ⟨r, u, -, ho⟩ | ⟨e, pos, u, -, ho⟩ | ⟨f, -, ho⟩⟩ := runCommand_completes s <;> rw [h] at ho <;> cases ho
  · rfl
  · rw [takeError_status]

theorem writeReg_pending (o : BitVec 8) (v : Word) (s : State) : (writeReg o v s).env.pending = s.env.pending := by
  unfold writeReg
  split
  · unfold writeCtrl softReset abortCommand
    split
    · split <;> rfl
    · rfl
  · unfold writeStatus
    split <;> rfl
  · unfold writeCmd
    split <;> rfl
  · rfl
  · rfl
  · rfl
  · rfl

/-- No access changes what the host has still to do (notes/assumptions/7.md). -/
theorem hostAccess_pending (a : HostAction) (s : State) : (hostAccess a s).env.pending = s.env.pending := by
  cases a with
  | regWrite o v => exact writeReg_pending o v s
  | regRead o => rfl
  | bufWrite b x v =>
    show (writeBuffer b x v s).env.pending = s.env.pending
    unfold writeBuffer
    split
    · rfl
    · split
      · cases b <;> rfl
      · rfl
  | bufRead b x =>
    show (reply _ (if s.status.busy then lockViolation s else s)).env.pending = s.env.pending
    split <;> rfl
  | wait => rfl
  | powerOn => rfl

/-- A step of a busy machine is the sequencer's, or the host's, which then has one access less to make. -/
theorem step_of_busy {s : State} (hcfg : configLegal s.cfg = true) (hbusy : s.status.busy = true) :
    step s = runCommand s
    ∨ ∃ t, step s = .next t ∧ t.cfg = s.cfg ∧ t.env.pending.length + 1 = s.env.pending.length := by
  cases hturn : sequencerTurn s with
  | true => exact .inl (step_of_sequencerTurn hcfg hturn)
  | false =>
    refine .inr ⟨_, step_of_hostTurn hcfg hturn, ?_⟩
    obtain ⟨hp, -⟩ | ⟨a, rest, hp, h⟩ := hostTurn_cases s
    · rw [sequencerTurn_of_busy hbusy (.inl hp)] at hturn
      cases hturn
    · rw [h, hostAccess_cfg, hostAccess_pending, hp]
      exact ⟨rfl, rfl⟩

theorem stepMany_succ {s t : State} (h : step s = .next t) (n : Nat) : stepMany (n + 1) s = stepMany n t := by
  rw [stepMany, h]

/-- Within `n` steps from `s` the sequencer is idle, or its command has stopped at an unwritten byte. -/
def EndsWithin (n : Nat) (s : State) : Prop :=
  ∃ k ≤ n, (∃ t, stepMany k s = .next t ∧ t.status.busy = false) ∨ ∃ a, stepMany k s = .fault (.unwrittenIbuf a)

theorem EndsWithin.of_idle {s : State} (h : s.status.busy = false) (n : Nat) : EndsWithin n s :=
  ⟨0, Nat.zero_le n, .inl ⟨s, rfl, h⟩⟩

theorem EndsWithin.of_step {s t : State} {n : Nat} (hstep : step s = .next t) (h : EndsWithin n t) :
    EndsWithin (n + 1) s := by
  obtain ⟨k, hk, hend⟩ := h
  exact ⟨k + 1, Nat.succ_le_succ hk, by rwa [stepMany_succ hstep]⟩

/-- The sequencer's step is the end of its command. -/
theorem EndsWithin.of_runCommand {s : State} (h : step s = runCommand s) (n : Nat) : EndsWithin (n + 1) s := by
  cases hrun : runCommand s with
  | next t => exact .of_step (h.trans hrun) (.of_idle (runCommand_idle hrun) n)
  | fault f =>
    cases f with
    | unwrittenIbuf a => exact ⟨1, Nat.le_add_left 1 n, .inr ⟨a, by rw [stepMany, h, hrun]⟩⟩
  | refused r => exact absurd hrun (runCommand_ne_refused s r)

/-- A busy machine ends its command once each pending access has been made, if not before. -/
theorem endsWithin_of_pending {n : Nat} {s : State} (hcfg : configLegal s.cfg = true) (hbusy : s.status.busy = true)
    (hn : s.env.pending.length = n) : EndsWithin (n + 1) s := by
  induction n generalizing s with
  | zero =>
    obtain hrun | ⟨t, -, -, hlen⟩ := step_of_busy hcfg hbusy
    · exact .of_runCommand hrun 0
    · omega
  | succ n ih =>
    obtain hrun | ⟨t, hstep, hc, hlen⟩ := step_of_busy hcfg hbusy
    · exact .of_runCommand hrun _
    · refine .of_step hstep ?_
      cases hb : t.status.busy with
      | false => exact .of_idle hb _
      | true => exact ih (hc ▸ hcfg) hb (by omega)

/-- Settles O12: by induction on the accesses the host has pending. -/
theorem acceptedCommandComesToAnEnd : Obligations.AcceptedCommandComesToAnEnd := by
  unfold Obligations.AcceptedCommandComesToAnEnd
  exact fun s hcfg hbusy => endsWithin_of_pending hcfg hbusy rfl

/-! ## Acceptance and refusal -/

theorem writeCmd_accepted {s : State} (hbusy : s.status.busy = false) (herr : s.status.err = false) (c : Word) :
    writeCmd c s = acceptCmd c s := by
  rw [writeCmd, hbusy, herr]
  exact if_neg Bool.false_ne_true

theorem writeCmd_refused {s : State} (h : s.status.busy = true ∨ s.status.err = true) (c : Word) :
    writeCmd c s = refuseCmd s := if_pos (Bool.or_eq_true_iff.mpr h)

/-- Settles O13: the register map leads the write to `CMD`, which looks at `BUSY` and `ERR`. -/
theorem commandWriteIsLatchedOrRefused : Obligations.CommandWriteIsLatchedOrRefused := by
  unfold Obligations.CommandWriteIsLatchedOrRefused
  exact fun s c => ⟨fun hbusy herr => writeCmd_accepted hbusy herr c, fun h => writeCmd_refused h c⟩

/-! ## The interrupt -/

/-- The low bits of `STATUS` are its flags (spec/10_state.md R23). -/
theorem Status.word_getLsbD (st : Status) {i : Nat} (hi : i < 8) : st.word.getLsbD i =
    ((decide (i = 0) && st.busy) || (decide (i = 1) && st.done) || (decide (i = 2) && st.err)
      || (decide (i = 3) && st.rej) || (decide (i = 4) && st.lockv)) := by
  rw [Status.word_eq, packed_getLsbD hi]
  simp only [Status.flags, BitVec.getLsbD_or, bitAt_getLsbD _ (show i < 32 by omega)]

/-- Settles O21: the bits the host reads are the flags the level is made of. -/
theorem interruptIsALevelOfEnabledStatus : Obligations.InterruptIsALevelOfEnabledStatus := by
  unfold Obligations.InterruptIsALevelOfEnabledStatus
  intro s
  have hie : (readReg 0x04 s).getLsbD 1 = s.regs.ie := bitAt_getLsbD _ (by decide)
  have hdone : (readReg 0x08 s).getLsbD 1 = s.status.done := (s.status.word_getLsbD (by decide)).trans (by simp)
  have herr : (readReg 0x08 s).getLsbD 2 = s.status.err := (s.status.word_getLsbD (by decide)).trans (by simp)
  have hrej : (readReg 0x08 s).getLsbD 3 = s.status.rej := (s.status.word_getLsbD (by decide)).trans (by simp)
  rw [hie, hdone, herr, hrej, State.irq, Bool.and_eq_true, Bool.or_eq_true, Bool.or_eq_true, or_assoc]

end Sys2Proof.Machine
end

section
/-! PROOFS. The order of a command's checks (spec/60_exceptions.md R275, R277): `Reports` says what a command comes to
when a given check, or none, is the first to fail; past its checks a command raises class X errors only. -/

namespace Sys2Proof.Machine

variable {σ α β : Type}

/-! ## Past the checks -/

/-- An outcome whose answer meets `Q` and whose error, if it has one, is of class X. -/
abbrev RaisesX (Q : α → σ → Prop) : EStateM.Result Stop σ α → Prop :=
  Yields Q (fun e _ _ => e.classX = true) fun _ => True

/-- A rule's action past the checks: it keeps `STATUS`, and its errors are of class X. -/
abbrev Proceeds (st : Status) (x : Act State α) : Prop :=
  Keeps (fun t => t.status = st) (fun e _ _ => e.classX = true) (fun _ => True) x

/-- A rule's action on an ACTIVE writer, which it leaves ACTIVE. -/
abbrev ProceedsWriting (st : Status) (x : Act State α) : Prop :=
  Keeps (fun t => t.status = st ∧ t.out.wr.st = .active) (fun e _ _ => e.classX = true) (fun _ => True) x

section
variable {st : Status}

theorem ibufByte_proceeds (ibuf : Memory) (a : Nat) : Proceeds st (ibufByte ibuf a) :=
  fun _ h => Yields.ibufByte (fun _ => h) fun _ => trivial

theorem ibufBytes_proceeds (ibuf : Memory) (a n : Nat) : Proceeds st (ibufBytes ibuf a n) :=
  fun _ h => Yields.ibufBytes h fun _ _ _ => trivial

theorem require_proceeds {e : ErrorCode} (he : e.classX = true) (p : Prop) [Decidable p] (pos : Nat) :
    Proceeds st (require p e pos) := Keeps.require fun _ _ => he

theorem onHuf_proceeds (f : Huffman → Huffman) : Proceeds st (onHuf f) := fun _ h => h

theorem storeBytes_proceeds (a : Nat) (bs : List Byte) : Proceeds st (storeBytes a bs) := fun _ h => h

theorem putBytes_proceeds (a : Nat) (bs : List Byte) : Proceeds st (putBytes a bs) := by
  intro t h
  rw [putBytes_apply]
  split
  · exact h
  · rfl

theorem putPixels_proceeds (p : Bool) (n a : Nat) : Proceeds st (putPixels p n a) := by
  induction n generalizing a with
  | zero => exact Keeps.pure ()
  | succ n ih => exact (putBytes_proceeds a _).bind fun _ => ih _

/-! ## The reader past the checks -/

/-- The reader's errors are of class X, whether it meets its invariant or not. -/
theorem onReader_proceeds {x : Memory → Act Reader α} (hx : ∀ ibuf r, RaisesX (fun _ _ => True) (x ibuf r)) :
    Proceeds st (onReader x) :=
  fun _ h => Yields.onReader ((hx _ _).imp (fun _ _ _ => h) (fun _ _ _ => id) fun _ => id)

theorem KeepsReader.raisesX {ibuf : Memory} {x : Act Reader α} (hx : KeepsReader False 0 ibuf x) (r : Reader) :
    RaisesX (fun _ _ => True) (x r) :=
  (hx r False.elim).imp (fun _ _ _ => trivial) (fun _ _ _ h => h.1) fun _ _ => trivial

theorem rdInit_proceeds (base len : Nat) (g : Gran) : Proceeds st (onReader fun _ => rdInit base len g) := fun _ h => h

theorem rdBits_proceeds (n : Nat) : Proceeds st (onReader fun ibuf => rdBits ibuf n) :=
  onReader_proceeds fun ibuf => (rdBits_keeps False 0 ibuf n).raisesX

theorem decCw_proceeds (c : Config) (t : Nat) : Proceeds st (onReader (decCw c t)) :=
  onReader_proceeds fun ibuf => (decCw_keeps False 0 ibuf c t).raisesX

theorem descend_proceeds (trie : Trie) (p : Nat) : Proceeds st (onReader fun ibuf => descend ibuf trie p) :=
  onReader_proceeds fun ibuf => (descend_keeps False 0 ibuf trie p).raisesX

theorem rdHeader_proceeds (src : Nat) : Proceeds st (onReader (rdHeader src)) :=
  onReader_proceeds fun ibuf _ =>
    (rdHeader_yields False 0 ibuf src False.elim).imp (fun _ _ _ => trivial) (fun _ _ _ h => h.1) fun _ _ => trivial

theorem decRuns_proceeds (t n dst fuel out : Nat) (cur : Bool) : Proceeds st (decRuns t n dst fuel out cur) := by
  induction fuel generalizing out cur with
  | zero => exact Keeps.pure ()
  | succ fuel ih =>
    refine Keeps.ite (Keeps.get.bind fun u => (decCw_proceeds _ _).bind fun v => ?_) (Keeps.pure ())
    exact (require_proceeds rfl _ _).bind fun _ => (putPixels_proceeds _ _ _).bind fun _ => ih _ _

theorem walkSymbols_proceeds (trie : Trie) (wide : Bool) (fuel o : Nat) :
    Proceeds st (walkSymbols trie wide fuel o) := by
  induction fuel generalizing o with
  | zero => exact Keeps.pure o
  | succ fuel ih =>
    refine Keeps.get.bind fun _ => (descend_proceeds _ _).bind fun x => ?_
    cases x with
    | sent => exact Keeps.pure o
    | ord v => exact (putBytes_proceeds _ _).bind fun _ => ih _

theorem walk_proceeds (dst : Nat) (trie : Trie) (wide : Bool) (trailing : Option Byte) :
    Proceeds st (walk dst trie wide trailing) := by
  refine Keeps.get.bind fun _ => (walkSymbols_proceeds _ _ _ _).bind fun o => ?_
  cases trailing with
  | none => exact Keeps.pure _
  | some b => exact (putBytes_proceeds _ _).bind fun _ => Keeps.pure _

/-! ## The writer past the checks -/

theorem wrInit_proceeds (base : Nat) (g : Gran) {t : State} (h : t.status = st) :
    RaisesX (fun _ u => u.status = st ∧ u.out.wr.st = .active) (onOut (wrInit base g) t) := ⟨h, rfl⟩

/-- Appending to an ACTIVE writer's stream, whether the writer meets its invariant or not. -/
theorem onOut_proceedsWriting {cap : Nat} {x : Act OutPort α}
    (hx : KeepsAppending False cap 0 [] (fun _ => True) x) : ProceedsWriting st (onOut x) :=
  fun _ h => Yields.onOut ((hx _ ⟨h.2, Nat.zero_le _, nofun, False.elim⟩).imp (fun _ _ ho => ⟨h.1, ho.active⟩)
    (fun _ _ _ ho => ho.classX) fun _ => id)

theorem wrFinish_proceeds (cap : Nat) : Proceeds st (onOut (wrFinish cap)) :=
  fun t h => Yields.onOut ((wrFinish_same cap t.out).imp (fun _ _ _ => h) (fun _ _ _ ho => ho.1) fun _ => False.elim)

theorem wrStream_proceeds (cap dst : Nat) (h : Huffman) (w : Bool) (xs : List Nat) :
    Proceeds st (onOut (wrStream cap dst h w xs)) := by
  intro t ht
  rw [wrStream_eq]
  simp only [onOut_bind]
  refine (wrInit_proceeds dst .byte ht).bind fun _ _ h1 => ?_
  refine (onOut_proceedsWriting (wrHeader_keeps h w) _ h1).bind fun _ _ h2 => ?_
  refine (onOut_proceedsWriting (wrSymbols_keeps (fun hw => hw.elim) xs) _ h2).bind fun _ _ h3 => ?_
  refine (onOut_proceedsWriting (wrSymbol_keeps (fun hw => hw.elim) .sent) _ h3).bind fun _ u h4 => ?_
  exact wrFinish_proceeds cap u h4.1

theorem planeOutput_proceeds (s : State) (t : Nat) (first : Byte) : Proceeds st (planeOutput s t first) := by
  intro u hu
  refine (storeBytes_proceeds _ _ u hu).bind fun _ _ h0 => (wrInit_proceeds _ .word h0).bind fun _ _ h1 => ?_
  refine (onOut_proceedsWriting (encScan_keeps (fun hw => hw.elim) (fun _ _ _ => trivial) _ _) _ h1).bind
    fun _ _ h2 => ?_
  exact (wrFinish_proceeds _ _ h2.1).bind fun _ _ h3 => (storeBytes_proceeds _ _ _ h3).bind fun _ _ h4 => h4

end

/-! ## What the first failing check makes of a command -/

/-- The error of the first check of `i`, accepted in `s`, that fails (R277). -/
def firstFailedCheck (s : State) (i : Instr) : Option ErrorCode :=
  if lacksState s i then some .sequenceError
  else if badArgument s i then some .illegalArgument
  else if outOfBounds s i then some .bufferBounds
  else if runTooLong s i then some .runTooLong
  else none

/-- The outcome of a command accepted in `s` whose first failing check is `first`: that error with nothing else changed
(R278), or, where no check fails, no new class C error. -/
def Reports (s : State) (first : Option ErrorCode) (o : Result) : Prop :=
  match first with
  | some e => o = .next (failedCheck e s)
  | none => s.huf.wf → s.status.errcode = .noError → ∀ t, o = .next t → ¬ t.status.errcode.classC

section
variable {s : State} {first : Option ErrorCode} {b : Bool} {e : ErrorCode}

/-- A kind of check the command does not have. -/
theorem Reports.skip {o : Result} (hb : b = false) (h : Reports s first o) :
    Reports s (if b = true then some e else first) o := by
  rwa [hb, if_neg Bool.false_ne_true]

/-- A check, then the rest of the command. -/
theorem Reports.check {p : Prop} [Decidable p] {c : Act State Unit} {rest : Unit → Act State Results}
    (hc : c s = if p then .ok () s else .error (.raised e 0) s) (he : e.classX = false) (hb : b = true ↔ ¬ p)
    (h : p → Reports s first (complete (rest ()) s)) :
    Reports s (if b = true then some e else first) (complete (c >>= rest) s) := by
  by_cases hp : p
  · rw [if_pos hp] at hc
    rw [if_neg fun hfail => hb.mp hfail hp, complete_bind_ok hc]
    exact h hp
  · rw [if_neg hp] at hc
    rw [if_pos (hb.mpr hp)]
    exact complete_bind_failedCheck hc he

/-- The check of a named IBUF range. -/
theorem Reports.checkIbuf {a n : Nat} {rest : Unit → Act State Results}
    (h : a + n ≤ s.cfg.ibufBytes → Reports s first (complete (rest ()) s)) :
    Reports s (if decide (s.cfg.ibufBytes < a + n) = true then some .bufferBounds else first)
      (complete (requireIbuf a n >>= rest) s) :=
  .check (requireIbuf_apply a n s) rfl (decide_eq_true_iff.trans Nat.not_le.symm) h

/-- The check of an OBUF base. -/
theorem Reports.checkObuf {a : Nat} {rest : Unit → Act State Results}
    (h : a ≤ s.cfg.obufBytes → Reports s first (complete (rest ()) s)) :
    Reports s (if decide (s.cfg.obufBytes < a) = true then some .bufferBounds else first)
      (complete (requireObuf a >>= rest) s) :=
  .check (requireObuf_apply a s) rfl (decide_eq_true_iff.trans Nat.not_le.symm) h

/-- The checks of a named IBUF range and an OBUF base, in this order. -/
theorem Reports.checkBuffers {a n d : Nat} {rest : Unit → Act State Results}
    (h : a + n ≤ s.cfg.ibufBytes → d ≤ s.cfg.obufBytes → Reports s first (complete (rest ()) s)) :
    Reports s (if (decide (s.cfg.ibufBytes < a + n) || decide (s.cfg.obufBytes < d)) = true then some .bufferBounds
      else first) (complete (requireIbuf a n >>= fun _ => requireObuf d >>= rest) s) := by
  simp only [Bool.or_eq_true, ite_or]
  exact .checkIbuf fun hin => .checkObuf (h hin)

theorem not_classC_of_classX (h : e.classX = true) : ¬ e.classC :=
  fun hC => Bool.false_ne_true (hC.classX_eq_false.symm.trans h)

/-- Past its checks the command goes on, in `u`, with a body that keeps `STATUS` and raises class X errors only. -/
theorem Reports.passed {body : Act State Results} {u : State}
    (h : s.huf.wf → RaisesX (fun _ t => t.status = s.status) (body u)) : Reports s none (complete body u) := by
  intro hwf hno t ht
  have hbody := h hwf
  obtain ⟨r, v, hb, ho⟩ | ⟨e, pos, v, hb, ho⟩ | ⟨f, v, hb, ho⟩ := complete_cases body u <;> rw [hb] at hbody <;>
    rw [ho] at ht <;> cases ht
  · have hv : v.status = s.status := hbody
    rw [completeOk_status, hv, hno]
    exact fun hC => hC.ne_noError rfl
  · rw [takeError_status]
    exact not_classC_of_classX hbody

/-- Past the checks an error of class X ends the command. -/
theorem Reports.failedExecution (he : e.classX = true) (pos : Nat) (u : State) :
    Reports s none (.next (failedExecution e pos u)) := by
  rintro - - t ⟨⟩
  exact not_classC_of_classX he

theorem Reports.fault (f : Fault) : Reports s none (.fault f) := fun _ _ _ => nofun

end

/-! ## The commands -/

section
variable (s : State)

theorem execNop_reports : Reports s (firstFailedCheck s .nop) (execNop s) :=
  .skip rfl <| .skip rfl <| .skip rfl <| .skip rfl <| .passed fun _ => rfl

theorem execBwInit_reports (g : Gran) : Reports s (firstFailedCheck s (.bwInit g)) (execBwInit g s) :=
  .skip rfl <| .skip rfl <| .checkObuf fun _ => .skip rfl <| .passed fun _ => rfl

theorem execBwWrite_reports (n : Nat) : Reports s (firstFailedCheck s (.bwWrite n)) (execBwWrite n s) := by
  refine .check (requireWriter_apply s) rfl decide_eq_true_iff fun hst => ?_
  refine .check (require_apply ..) rfl (decide_eq_true_iff.trans Nat.not_le.symm) fun _ => .skip rfl <| .skip rfl ?_
  exact .passed fun _ => (onOut_proceedsWriting (wrBits_keeps _ False.elim) s ⟨rfl, hst⟩).bind fun _ _ h => h.1

theorem execBwFinish_reports : Reports s (firstFailedCheck s .bwFinish) (execBwFinish s) := by
  refine .check (requireWriter_apply s) rfl decide_eq_true_iff fun _ => .skip rfl <| .skip rfl <| .skip rfl ?_
  exact .passed fun _ => (wrFinish_proceeds _ s rfl).bind fun _ _ h => h

theorem execBrInit_reports (g : Gran) : Reports s (firstFailedCheck s (.brInit g)) (execBrInit g s) := by
  refine .skip rfl <| .check (require_apply ..) rfl (by simp [badArgument]) fun _ => ?_
  exact .checkIbuf fun _ => .skip rfl <| .passed fun _ => (rdInit_proceeds _ _ g s rfl).bind fun _ _ h => h

theorem execBrRead_reports (n : Nat) : Reports s (firstFailedCheck s (.brRead n)) (execBrRead n s) := by
  refine .check (requireReader_apply s) rfl decide_eq_true_iff fun _ => ?_
  refine .check (require_apply ..) rfl (decide_eq_true_iff.trans Nat.not_le.symm) fun _ => .skip rfl <| .skip rfl ?_
  exact .passed fun _ => (rdBits_proceeds n s rfl).bind fun _ _ h => h

theorem execBrRemain_reports : Reports s (firstFailedCheck s .brRemain) (execBrRemain s) :=
  .check (requireReader_apply s) rfl decide_eq_true_iff fun _ => .skip rfl <| .skip rfl <| .skip rfl <|
    .passed fun _ => rfl

theorem execCbQuery_reports (t b : Nat) : Reports s (firstFailedCheck s (.cbQuery t b)) (execCbQuery t b s) :=
  .skip rfl <| .check (require_apply ..) rfl (by simp [badArgument]; omega) fun _ => .skip rfl <| .skip rfl <|
    .passed fun _ => rfl

theorem execRleEncrun_reports (t : Nat) : Reports s (firstFailedCheck s (.rleEncrun t)) (execRleEncrun t s) := by
  refine .check (requireWriter_apply s) rfl decide_eq_true_iff fun hst => ?_
  refine .check (require_apply ..) rfl (by simp [badArgument]; omega) fun _ => .skip rfl ?_
  refine .check (require_apply ..) rfl (decide_eq_true_iff.trans Nat.not_le.symm) fun hlen => ?_
  exact .passed fun _ => (onOut_proceedsWriting (encCw_keeps False.elim hlen) s ⟨rfl, hst⟩).bind fun _ _ h => h.1

theorem execRleDecrun_reports (t : Nat) : Reports s (firstFailedCheck s (.rleDecrun t)) (execRleDecrun t s) := by
  refine .check (requireReader_apply s) rfl decide_eq_true_iff fun _ => ?_
  refine .check (require_apply ..) rfl (decide_eq_true_iff.trans Nat.not_le.symm) fun _ => .skip rfl <| .skip rfl ?_
  exact .passed fun _ => (decCw_proceeds _ t s rfl).bind fun _ _ h => h

/-- The body of `RLE_ENCPLANE` checks its two buffers; a plane whose header has no room is a class X error (R153). -/
theorem encPlane_reports (t : Nat) :
    Reports s (if (decide (s.cfg.ibufBytes < s.argl0 + s.planeWidth * s.planeHeight)
      || decide (s.cfg.obufBytes < s.argl2)) = true then some .bufferBounds else none) (complete (encPlane t) s) := by
  rw [encPlane, complete_bind_ok (Act.get_apply s)]
  refine .checkBuffers fun _ _ => .passed fun _ => Yields.require_bind (fun _ => rfl) fun _ => ?_
  split
  · exact (ibufByte_proceeds _ _ s rfl).bind fun first u hu => planeOutput_proceeds s t first u hu
  · exact planeOutput_proceeds s t 0 s rfl

theorem execRleEncplane_reports (t : Nat) :
    Reports s (firstFailedCheck s (.rleEncplane t)) (execRleEncplane t s) :=
  .skip rfl <| .check (require_apply ..) rfl (decide_eq_true_iff.trans Nat.not_le.symm) fun _ => encPlane_reports s t

theorem execRleDecplane_reports : Reports s (firstFailedCheck s .rleDecplane) (execRleDecplane s) := by
  refine .skip rfl <| .skip rfl <| .checkBuffers fun _ _ => .skip rfl <| .passed fun _ => ?_
  exact ((require_proceeds rfl _ _).bind fun _ => (ibufByte_proceeds _ _).bind fun _ =>
    (ibufBytes_proceeds _ _ _).bind fun _ => (ibufBytes_proceeds _ _ _).bind fun _ =>
    (ibufByte_proceeds _ _).bind fun _ => (ibufBytes_proceeds _ _ _).bind fun _ =>
    (require_proceeds rfl _ _).bind fun _ => (require_proceeds rfl _ _).bind fun _ =>
    (require_proceeds rfl _ _).bind fun _ => (rdInit_proceeds _ _ _).bind fun _ =>
    (decRuns_proceeds _ _ _ _ _ _).bind fun _ => Keeps.get.bind fun _ => Keeps.pure _) s rfl

theorem execRleBest_reports : Reports s (firstFailedCheck s .rleBest) (execRleBest s) := by
  refine .skip rfl <| .skip rfl <| .checkBuffers fun hin hout => .skip rfl ?_
  obtain ⟨-, hread⟩ | ⟨k, -, -, -, hread⟩ := ibufBytes_cases s.inp.ibuf s.argl0 (s.planeWidth * s.planeHeight) s
  · rw [complete_bind_ok hread]
    have h := encPlane_reports s (bestType s.cfg (pixelsAt s.inp.ibuf s.argl0 (s.planeWidth * s.planeHeight)))
    rwa [decide_eq_false (Nat.not_lt.mpr hin), decide_eq_false (Nat.not_lt.mpr hout)] at h
  · rw [complete_stuck (by rw [Act.bind_apply, hread])]
    exact .fault _

theorem execHufHist_reports (w : Bool) : Reports s (firstFailedCheck s (.hufHist w)) (execHufHist w s) := by
  refine .skip rfl <| .skip rfl <| .checkIbuf fun _ => .skip rfl <| .passed fun _ => ?_
  exact (Keeps.get.bind fun _ => (ibufBytes_proceeds _ _ _).bind fun _ => (onHuf_proceeds _).bind fun _ =>
    Keeps.get.bind fun _ => Keeps.pure _) s rfl

theorem execHufHistrd_reports : Reports s (firstFailedCheck s .hufHistrd) (execHufHistrd s) := by
  refine .check (requireHist_apply s) rfl (by simp [lacksState]) fun _ => ?_
  exact .check (require_apply ..) rfl (decide_eq_true_iff.trans Nat.not_le.symm) fun _ => .skip rfl <| .skip rfl <|
    .passed fun _ => rfl

theorem execHufTree_reports : Reports s (firstFailedCheck s .hufTree) (execHufTree s) :=
  .check (requireHist_apply s) rfl (by simp [lacksState]) fun _ => .skip rfl <| .skip rfl <| .skip rfl <|
    .passed fun _ => rfl

/-- A valid tree is a tree (R41). -/
theorem execHufCodes_reports : Reports s (firstFailedCheck s .hufCodes) (execHufCodes s) := by
  rw [execHufCodes, codesBody, complete_bind_ok (Act.get_apply s)]
  refine .check (require_apply ..) rfl (by simp [lacksState]) fun hv => .skip rfl <| .skip rfl <| .skip rfl <|
    .passed fun hwf => ?_
  obtain ⟨-, -, -, -, htree, -⟩ := hwf
  obtain ⟨root, hroot⟩ := Option.isSome_iff_exists.mp (htree hv)
  rw [hroot]
  exact ((require_proceeds rfl _ _).bind fun _ => (onHuf_proceeds _).bind fun _ => Keeps.pure _) s rfl

theorem execHufCanon_reports : Reports s (firstFailedCheck s .hufCanon) (execHufCanon s) :=
  .check (requireCodes_apply s) rfl (by simp [lacksState]) fun _ => .skip rfl <| .skip rfl <| .skip rfl <|
    .passed fun _ => rfl

/-- An index below `H_K` names an entry of a valid table (R35). -/
theorem execHufTabrd_reports : Reports s (firstFailedCheck s .hufTabrd) (execHufTabrd s) := by
  refine .check (requireCodes_apply s) rfl (by simp [lacksState]) fun hv => ?_
  refine .check (require_apply ..) rfl (decide_eq_true_iff.trans Nat.not_lt.symm) fun hk => .skip rfl <| .skip rfl <|
    .passed fun hwf => ?_
  obtain ⟨-, -, -, -, -, hlen, -⟩ := hwf
  rw [List.getElem?_eq_getElem (by rwa [hlen hv])]
  rfl

/-- The steps of the table builder find what the steps before them leave, so past its own checks `HUF_ENC` stops with
`CODE_TOO_LONG` or while it writes the stream (R237). -/
theorem exec_hufEnc_reports_none (w : Bool) (hin : s.argl0 + s.argl1 ≤ s.cfg.ibufBytes)
    (hout : s.argl2 ≤ s.cfg.obufBytes) : Reports s none (exec (.hufEnc w) s) := by
  obtain ⟨hw, -⟩ | ⟨k, hk, hbelow, hnone, -⟩ := ibufBytes_cases s.inp.ibuf s.argl0 s.argl1 s
  · obtain ⟨hshort, hdeep⟩ := exec_hufEnc_codes (w := w) hin hout hw
    obtain hgt | hle := Nat.lt_or_ge maxCodeLen (longestCode (builtHuffman w (bytesAt s.inp.ibuf s.argl0 s.argl1)).ctab)
    · obtain ⟨t, hfail⟩ := hdeep hgt
      rw [hfail]
      exact .failedExecution rfl 0 t
    · rw [hshort hle]
      exact .passed fun _ => ((wrStream_proceeds _ _ _ _ _).bind fun _ => Keeps.pure _) _ rfl
  · have hfirst : s.inp.ibuf.FirstUnwritten s.argl0 (s.argl0 + k) :=
      ⟨Nat.le_add_right .., hnone, by rwa [Nat.add_sub_cancel_left]⟩
    rw [exec, execHufEnc_unwritten hfirst (by omega) hin hout w]
    exact .fault _

theorem execHufEnc_reports (w : Bool) : Reports s (firstFailedCheck s (.hufEnc w)) (execHufEnc w s) := by
  refine .skip rfl <| .skip rfl <| .checkBuffers fun hin hout => .skip rfl ?_
  have h := exec_hufEnc_reports_none s w hin hout
  rwa [exec, execHufEnc, complete_bind_ok (requireIbuf_ok hin), complete_bind_ok (requireObuf_ok hout)] at h

theorem execHufDec_reports : Reports s (firstFailedCheck s .hufDec) (execHufDec s) := by
  refine .skip rfl <| .skip rfl <| .checkBuffers fun _ _ => .skip rfl <| .passed fun _ => ?_
  exact ((rdInit_proceeds _ _ _).bind fun _ => (rdHeader_proceeds _).bind fun _ =>
    (walk_proceeds _ _ _ _).bind fun _ => (onHuf_proceeds _).bind fun _ => Keeps.get.bind fun _ => Keeps.pure _) s rfl

end

/-! ## The statement -/

theorem exec_reports (i : Instr) (s : State) : Reports s (firstFailedCheck s i) (exec i s) := by
  cases i with
  | nop => exact execNop_reports s
  | bwInit g => exact execBwInit_reports s g
  | bwWrite n => exact execBwWrite_reports s n
  | bwFinish => exact execBwFinish_reports s
  | brInit g => exact execBrInit_reports s g
  | brRead n => exact execBrRead_reports s n
  | brRemain => exact execBrRemain_reports s
  | cbQuery t b => exact execCbQuery_reports s t b
  | rleEncrun t => exact execRleEncrun_reports s t
  | rleDecrun t => exact execRleDecrun_reports s t
  | rleEncplane t => exact execRleEncplane_reports s t
  | rleDecplane => exact execRleDecplane_reports s
  | rleBest => exact execRleBest_reports s
  | hufHist w => exact execHufHist_reports s w
  | hufHistrd => exact execHufHistrd_reports s
  | hufTree => exact execHufTree_reports s
  | hufCodes => exact execHufCodes_reports s
  | hufCanon => exact execHufCanon_reports s
  | hufTabrd => exact execHufTabrd_reports s
  | hufEnc w => exact execHufEnc_reports s w
  | hufDec => exact execHufDec_reports s

/-- Settles O55: in each clause the first failing check is the one it names, or there is none. -/
theorem checksAreReportedInOrder : Obligations.ChecksAreReportedInOrder := by
  unfold Obligations.ChecksAreReportedInOrder
  intro i s
  have h := exec_reports i s
  unfold firstFailedCheck at h
  refine ⟨fun h1 => ?_, fun h1 h2 => ?_, fun h1 h2 h3 => ?_, fun h1 h2 h3 h4 => ?_, fun h1 h2 h3 h4 => ?_⟩
  · rwa [h1] at h
  · rwa [h1, h2] at h
  · rwa [h1, h2, h3] at h
  · rwa [h1, h2, h3, h4] at h
  · rwa [h1, h2, h3, h4] at h

end Sys2Proof.Machine
end
